-- ==== Sys2Proof/Word.lean ====
section
/-! DEFINITION. The byte, the only word the LWC240 exchanges with its hosts (R172, R189). -/

namespace Sys2Proof

/-- A byte: what eight clock pulses of a port carry in each direction (R172). -/
abbrev Byte := BitVec 8

end Sys2Proof
end

