-- ==== Sys2Proof/Config.lean ====
section
/-! DEFINITION. The free values: what the manual leaves open while the part goes on. Each is an opaque constant with no
body, so no proof can see what it is. Each is applied to a counter of the state (`State.draws`, or the count of hardware
resets that the frame store keeps), so that two uses need not agree. The log entry that declares each is named beside it. -/

namespace Sys2Proof

/-- What a byte of the frame store holds after the `n`-th hardware reset and before its block is scrubbed: R38 calls the
content undefined (log entry 4). -/
opaque Config.undefinedByte (n address : Nat) : Byte

/-- How many leading pixels an abandoned PUT or FILL had written (R55, R57). The machine reduces it below the number of
the operation's pixels (log entry 5). -/
opaque Config.leadingRun (n : Nat) : Nat

/-- Which pixel of an abandoned COPY is certainly not written, since the last pixel was still due (R47, R59). The machine
reduces it below the number of the operation's pixels (log entry 5). -/
opaque Config.copyPending (n : Nat) : Nat

/-- Whether an abandoned COPY had written the pixel with this index (R59: "some of the destination's pixels and not
others") (log entry 5). -/
opaque Config.copyWritten (n index : Nat) : Bool

/-- Whether a panel pixel composed while an operation is in flight on its surface pixel shows the new value (R48: "either
its old value or its new value") (log entry 6). -/
opaque Config.shownNew (n px py : Nat) : Bool

/-- A byte of a QUERY record whose content no rule states: the reference slot of a staged TOP, BOTTOM or OUT and the
colour slot of a staged REMOVE (R192, R195) (log entry 7). -/
opaque Config.unstatedByte (n : Nat) : Byte

/-- The order in which a DETACH clears the offers made to the detaching port, handles first to last (R154 names no order)
(log entry 8). -/
opaque Config.offerOrder (n : Nat) : List Nat

end Sys2Proof
end

