-- ==== Sys2Proof/Syntax.lean ====
section
/-! DEFINITION. The commands of the LWC240: one constructor of `Instr` for each row of spec/opcode_table.json.

The rows are of three kinds. A pin event (HARDWARE_RESET, SELECT_ASSERT, SELECT_RELEASE) comes from a host. The completion
of a request is the event at which a port's request in processing is taken (R182): the request's code, tag and parameters
stand in the port's link state (R175), put there by the SELECT_RELEASE that admitted it, so the command carries the port
alone. An internal event (an engine completion, a scrub completion, the frame boundary and the four countdown outcomes)
carries what tells one occurrence from another (log entries 1 to 3). -/

namespace Sys2Proof

/-- The two serial ports (R142). -/
inductive Port where
  | A
  | B
deriving DecidableEq, Repr

/-- The port that a port is not: the target of an offer (R145). -/
def Port.other : Port → Port
  | .A => .B
  | .B => .A

/-- One piece of a frame boundary's work whose place among the other pieces no rule fixes (R111, R162). -/
inductive BoundaryTask where
  /-- PROFILE_SWITCHED is raised, where a switch was applied (R115). -/
  | profileNotice
  /-- The commit walk meets its next unit (R94). -/
  | walkUnit
  /-- The Lease Monitor visits the window of this handle (R129). -/
  | leaseVisit (handle : Nat)
  /-- The Window Table counts the offer on the window of this handle (R147). -/
  | offerCount (handle : Nat)
  /-- FRAME_BOUNDARY is raised to this port, where it is subscribed (R167). -/
  | frameNotice (p : Port)
deriving DecidableEq, Repr

/-- The choices a frame boundary makes that no rule fixes. -/
structure BoundaryOrder where
  /-- The pieces of work in the order in which they are done. Each piece is done once: a piece named twice is done at
  its first place, and pieces not named are done last, in the order of the table of R111. -/
  tasks : List BoundaryTask
  /-- The handles of the windows whose PLACEMENT_ADJUSTED is raised before the COMMITTED of the same application;
  for the others COMMITTED is raised first (R97, R79). -/
  adjustedFirst : List Nat
deriving DecidableEq, Repr

/-- The commands, one constructor per row of spec/opcode_table.json, in the table's order. -/
inductive Instr where
  /-- HARDWARE_RESET (R22): the RESET input. -/
  | hardwareReset
  /-- SELECT_ASSERT (R176): the port's select is asserted. -/
  | selectAssert (p : Port)
  /-- SELECT_RELEASE (R178): the port's select is released, after the host has clocked in these bits, first to last. -/
  | selectRelease (p : Port) (bits : List Bool)
  /-- NOP (R186): the completion of the port's NOP. -/
  | nop (p : Port)
  /-- STATUS (R185). -/
  | status (p : Port)
  /-- COLLECT (R164). -/
  | collect (p : Port)
  /-- SUBSCRIBE (R166). -/
  | subscribe (p : Port)
  /-- DETACH (R154). -/
  | detach (p : Port)
  /-- CREATE (R14). -/
  | create (p : Port)
  /-- RETIRE (R15). -/
  | retire (p : Port)
  /-- QUERY (R20). -/
  | query (p : Port)
  /-- LIST_OWNED (R21). -/
  | listOwned (p : Port)
  /-- LIST_STACK (R80). -/
  | listStack (p : Port)
  /-- STAGE (R83). -/
  | stage (p : Port)
  /-- DISCARD (R86). -/
  | discard (p : Port)
  /-- ARM (R90). -/
  | arm (p : Port)
  /-- DISARM (R91). -/
  | disarm (p : Port)
  /-- RENEW (R131). -/
  | renew (p : Port)
  /-- OPEN_STREAM (R50). -/
  | openStream (p : Port)
  /-- PUT (R51). -/
  | put (p : Port)
  /-- CLOSE_STREAM (R54). -/
  | closeStream (p : Port)
  /-- FILL (R56). -/
  | fill (p : Port)
  /-- COPY (R58). -/
  | copy (p : Port)
  /-- CANCEL_OP (R60). -/
  | cancelOp (p : Port)
  /-- OFFER (R146). -/
  | offer (p : Port)
  /-- ACCEPT (R149). -/
  | accept (p : Port)
  /-- DECLINE (R150). -/
  | decline (p : Port)
  /-- WITHDRAW (R151). -/
  | withdraw (p : Port)
  /-- SET_PROFILE (R113). -/
  | setProfile (p : Port)
  /-- SWITCH_PROFILE (R114). -/
  | switchProfile (p : Port)
  /-- DISPLAY (R116). -/
  | display (p : Port)
  /-- SET_BACKGROUND (R118). -/
  | setBackground (p : Port)
  /-- SET_QUOTA (R36). -/
  | setQuota (p : Port)
  /-- SET_GRACE (R136). -/
  | setGrace (p : Port)
  /-- RESTART (R156). -/
  | restart (p : Port)
  /-- UNDEFINED_REQUEST (R183): the completion of a request whose code the LWC240 does not define. -/
  | undefinedRequest (p : Port)
  /-- OPERATION_COMPLETION (R47). -/
  | operationCompletion
  /-- SCRUB_COMPLETION (R28). -/
  | scrubCompletion
  /-- FRAME_BOUNDARY (R111), with the order in which the blocks do their work. -/
  | frameBoundary (order : BoundaryOrder)
  /-- COMMIT_EXPIRY (R99) of the unit that holds the entry of the window of this handle. -/
  | commitExpiry (handle : Nat)
  /-- LAPSE (R133) of the window of this handle. -/
  | lapse (handle : Nat)
  /-- EVICTION (R137) of the window of this handle. -/
  | eviction (handle : Nat)
  /-- OFFER_EXPIRY (R147) of the offer on the window of this handle. -/
  | offerExpiry (handle : Nat)
deriving DecidableEq, Repr

end Sys2Proof
end

