-- ==== Sys2Proof/WellFormed.lean ====
section
/-! DEFINITION. Which commands are well formed: every handle a command carries is a slot number (R1). -/

namespace Sys2Proof

/-- A handle names a slot exactly when it lies in 1..24 (R1). -/
def handleOk (h : Nat) : Bool := decide (1 ≤ h) && decide (h ≤ 24)

/-- A piece of boundary work is well formed when the handle it names, if any, is a slot number. -/
def BoundaryTask.wf : BoundaryTask → Bool
  | .leaseVisit h => handleOk h
  | .offerCount h => handleOk h
  | .profileNotice => true
  | .walkUnit => true
  | .frameNotice _ => true

/-- A boundary order is well formed when all the handles in it are slot numbers. -/
def BoundaryOrder.wf (o : BoundaryOrder) : Bool := o.tasks.all BoundaryTask.wf && o.adjustedFirst.all handleOk

/-- A command is well formed when every handle it carries is a slot number. A command that carries none always is. -/
def Instr.wf : Instr → Bool
  | .frameBoundary o => o.wf
  | .commitExpiry h => handleOk h
  | .lapse h => handleOk h
  | .eviction h => handleOk h
  | .offerExpiry h => handleOk h
  | .hardwareReset => true
  | .selectAssert _ => true
  | .selectRelease _ _ => true
  | .nop _ => true
  | .status _ => true
  | .collect _ => true
  | .subscribe _ => true
  | .detach _ => true
  | .create _ => true
  | .retire _ => true
  | .query _ => true
  | .listOwned _ => true
  | .listStack _ => true
  | .stage _ => true
  | .discard _ => true
  | .arm _ => true
  | .disarm _ => true
  | .renew _ => true
  | .openStream _ => true
  | .put _ => true
  | .closeStream _ => true
  | .fill _ => true
  | .copy _ => true
  | .cancelOp _ => true
  | .offer _ => true
  | .accept _ => true
  | .decline _ => true
  | .withdraw _ => true
  | .setProfile _ => true
  | .switchProfile _ => true
  | .display _ => true
  | .setBackground _ => true
  | .setQuota _ => true
  | .setGrace _ => true
  | .restart _ => true
  | .undefinedRequest _ => true
  | .operationCompletion => true
  | .scrubCompletion => true

end Sys2Proof
end

