-- ==== Sys2Proof/Machine/State.lean ====
section
/-! DEFINITION. The state of the LWC240 as plain data, every block's part of it, and the state right after a hardware
reset. INVENTORY.md lists each field with its rule and reset value. -/

namespace Sys2Proof.Machine

/-! ## Small data -/

/-- A slot of the Window Table. Slot `i` is the slot numbered `i + 1` (R1). -/
abbrev Slot := Fin 24

/-- The handle of a slot, 1..24 (R1). -/
def Slot.handle (i : Slot) : Nat := i.val + 1

/-- A generation, 0..15; adding one wraps from 15 to 0 (R2). -/
abbrev Gen := Fin 16

/-- A frame-store block number, 0..191 (R23). -/
abbrev Block := Fin 192

/-- A surface identity (R4). -/
abbrev SurfaceId := Fin 2

/-- A window reference whose parts are in range: a slot and a generation (R11). -/
structure WinRef where
  slot : Slot
  gen : Gen
deriving DecidableEq, Repr

/-- One value for each port. -/
structure PerPort (α : Type) where
  a : α
  b : α
deriving DecidableEq, Repr

/-- The value for a port. -/
def PerPort.get {α : Type} (v : PerPort α) : Port → α
  | .A => v.a
  | .B => v.b

/-- The values with the one for a port replaced. -/
def PerPort.set {α : Type} (v : PerPort α) (p : Port) (x : α) : PerPort α :=
  match p with
  | .A => { v with a := x }
  | .B => { v with b := x }

/-- A colour, 8 bits each of red, green and blue. -/
structure Colour where
  red : Byte
  green : Byte
  blue : Byte
deriving DecidableEq, Repr

/-- The colour (0, 0, 0). -/
def Colour.black : Colour := ⟨0, 0, 0⟩

/-- The colour (255, 255, 255). -/
def Colour.white : Colour := ⟨255, 255, 255⟩

/-- A rectangle (x, y, width, height) in surface coordinates. -/
structure Rect where
  x : Nat
  y : Nat
  width : Nat
  height : Nat
deriving DecidableEq, Repr

/-! ## Window records (chapter 1) -/

/-- The states of a record (R8). -/
inductive WinState where
  | free
  | hidden
  | shown
  | lapsed
  | retiring
deriving DecidableEq, Repr

/-- The tiers (R3). -/
inductive Tier where
  | normal
  | overlay
deriving DecidableEq, Repr

/-- The pixel formats (R3). -/
inductive Format where
  | c16
  | c24
  | m1
deriving DecidableEq, Repr

/-- The fallback policies (R5). -/
inductive Policy where
  | keep
  | fill
  | vanish
deriving DecidableEq, Repr

/-- The active fields of a window: what the Scan-Out Unit draws it by (R5). -/
structure ActiveFields where
  x : Int
  y : Int
  sx : Nat
  sy : Nat
  key : Option Colour
  ink : Colour
  leaseLength : Nat
  policy : Policy
  fallbackColour : Colour
deriving DecidableEq, Repr

/-- The active fields as CREATE sets them (R14). -/
def ActiveFields.created : ActiveFields :=
  { x := 0, y := 0, sx := 0, sy := 0, key := none, ink := Colour.white, leaseLength := 0, policy := .keep,
    fallbackColour := Colour.black }

/-- A staged placement (R72). -/
inductive Placement where
  | top
  | bottom
  | above (named : WinRef)
  | below (named : WinRef)
  | out
deriving DecidableEq, Repr

/-- A staged key: SET with a colour, or REMOVE (R82). -/
inductive StagedKey where
  | set (c : Colour)
  | remove
deriving DecidableEq, Repr

/-- The staging of a window: for each staged field a value or nothing (R82). -/
structure Staging where
  position : Option (Int × Int)
  scroll : Option (Nat × Nat)
  placement : Option Placement
  key : Option StagedKey
  ink : Option Colour
  leaseLength : Option Nat
  fallback : Option (Policy × Colour)
  swap : Bool
deriving DecidableEq, Repr

/-- The staging that holds nothing in any field (R82). -/
def Staging.empty : Staging :=
  { position := none, scroll := none, placement := none, key := none, ink := none, leaseLength := none,
    fallback := none, swap := false }

/-- An offer: the target port and the frames remaining, 1..120 (R145). -/
structure Offer where
  target : Port
  frames : Nat
deriving DecidableEq, Repr

/-- A window record (R2 to R6). The handle is the slot's. The stride is computed (`Window.stride`) and the commit entry is
read from the commit queue (log entry 18). -/
structure Window where
  state : WinState
  gen : Gen
  owner : Option Port
  tier : Tier
  format : Format
  width : Nat
  height : Nat
  surface0 : List Block
  surface1 : Option (List Block)
  front : SurfaceId
  active : ActiveFields
  staging : Staging
  offer : Option Offer
  leaseCounter : Nat
  renewPending : Bool
  graceCounter : Nat
deriving DecidableEq, Repr

/-- A FREE record of this generation: no owner, surfaces, staging or offer (R7). Its other fields have no meaning; the model
gives them these values (log entry 11). -/
def Window.free (g : Gen) : Window :=
  { state := .free, gen := g, owner := none, tier := .normal, format := .c16, width := 0, height := 0,
    surface0 := [], surface1 := none, front := 0, active := ActiveFields.created, staging := Staging.empty,
    offer := none, leaseCounter := 0, renewPending := false, graceCounter := 0 }

/-! ## The frame store (chapter 2) -/

/-- The frame store: byte `o` of block `b` has address `b * 2048 + o` (R23). `cells` lists addresses in rising order.
`undefinedBlocks` are the blocks no scrub has zeroed since the last hardware reset, and `epoch` counts the hardware resets;
both are the model's own (log entry 4). -/
structure FrameStore where
  cells : List Host.Cell
  undefinedBlocks : List Block
  epoch : Nat
deriving DecidableEq, Repr

/-! ## The Surface Engine (chapter 3) -/

/-- A pixel value as stored in one of the formats (R24). -/
inductive Pixel where
  | c16 (v : BitVec 16)
  | c24 (c : Colour)
  | m1 (ink : Bool)
deriving DecidableEq, Repr

/-- What an operation does, by kind (R42). -/
inductive OpBody where
  | put (rect : Rect) (startCol startRow : Nat) (pixels : List Pixel)
  | fill (rect : Rect) (value : Pixel)
  | copy (src : WinRef) (srcId : SurfaceId) (srcRect : Rect) (destX destY : Nat)
deriving DecidableEq, Repr

/-- The record of an operation in the engine queue (R42). -/
structure EngineOp where
  issuer : Port
  opNumber : Byte
  dest : WinRef
  destId : SurfaceId
  body : OpBody
deriving DecidableEq, Repr

/-- The activities of the Surface Engine (R46). OPERATING is on the head of the engine queue and SCRUBBING on the head of
the scrub list. -/
inductive Activity where
  | idle
  | operating
  | scrubbing
deriving DecidableEq, Repr

/-- An open write stream (R49). -/
structure Stream where
  ref : WinRef
  id : SurfaceId
  rect : Rect
  col : Nat
  row : Nat
  remaining : Nat
deriving DecidableEq, Repr

/-! ## Commit Unit and Scan-Out Unit (chapters 4 to 6) -/

/-- An entry of the commit queue (R87). -/
structure CommitEntry where
  ref : WinRef
  tag : Nat
  deferral : Nat
deriving DecidableEq, Repr

/-- One window of the frame-stable view (R119). Its state and pixels are read live. -/
structure ViewEntry where
  ref : WinRef
  format : Format
  width : Nat
  height : Nat
  front : SurfaceId
  blocks : List Block
  x : Int
  y : Int
  sx : Nat
  sy : Nat
  key : Option Colour
  ink : Colour
  policy : Policy
  fallbackColour : Colour
deriving DecidableEq, Repr

/-! ## Timing Generator (chapter 6) -/

/-- A signal polarity (R108). -/
inductive Polarity where
  | activeLow
  | activeHigh
deriving DecidableEq, Repr

/-- A profile slot's name (R108). -/
inductive ProfileSlot where
  | P0
  | P1
deriving DecidableEq, Repr

/-- A panel profile (R108). -/
structure Profile where
  activeWidth : Nat
  activeHeight : Nat
  hFront : Nat
  hSync : Nat
  hBack : Nat
  vFront : Nat
  vSync : Nat
  vBack : Nat
  divisor : Nat
  hsync : Polarity
  vsync : Polarity
  de : Polarity
deriving DecidableEq, Repr

/-- The state of the Timing Generator (R108). ON is true. -/
structure Timing where
  p0 : Profile
  p1 : Profile
  current : ProfileSlot
  pendingSwitch : Option ProfileSlot
  display : Bool
  pendingDisplay : Option Bool
  background : Colour
  pendingBackground : Option Colour
  frameCounter : BitVec 32
deriving DecidableEq, Repr

/-! ## Notices (chapter 9) -/

/-- The nineteen notice kinds (section 9.2). -/
inductive NoticeKind where
  | committed
  | commitExpired
  | commitAbandoned
  | placementAdjusted
  | leaseLapsed
  | leaseRestored
  | windowEvicted
  | windowRetired
  | opDone
  | opCancelled
  | offerReceived
  | offerAccepted
  | offerDeclined
  | offerWithdrawn
  | offerExpired
  | streamClosed
  | profileSwitched
  | frameBoundary
  | restarted
deriving DecidableEq, Repr

/-- A notice (R160). The handle is 0 for the device-wide kinds. -/
structure Notice where
  kind : NoticeKind
  handle : Nat
  gen : Gen
  occurrences : Nat
  detail : BitVec 16
deriving DecidableEq, Repr

/-- A port's notice list, oldest first, and its overflow flag (R159, R163). -/
structure NoticeBox where
  list : List Notice
  overflow : Bool
deriving DecidableEq, Repr

/-! ## The link (chapter 10) -/

/-- The statuses of a response (R193). -/
inductive Status where
  | done
  | accepted
  | notReady
  | overrun
  | busy
  | badRequest
  | badLength
  | badParam
  | notPermitted
  | staleRef
  | notOwner
  | badState
  | noHandle
  | noSpace
  | quota
  | armed
  | notArmed
  | nothingStaged
  | badRect
  | badTarget
  | badFormat
  | noStream
  | streamOpen
  | inUse
  | notFound
  | noOffer
deriving DecidableEq, Repr

/-- A held response: status, tag and payload (R175). -/
structure Response where
  status : Status
  tag : Byte
  payload : List Byte
deriving DecidableEq, Repr

/-- A request in processing: code, tag and parameters (R175, R180). -/
structure Request where
  code : Byte
  tag : Byte
  params : List Byte
deriving DecidableEq, Repr

/-- The link state of a port with what it holds (R175). -/
inductive LinkPhase where
  | idle
  | held (r : Response)
  | processing (r : Request)
deriving DecidableEq, Repr

/-- The last rejection kind (R175). -/
inductive RejectKind where
  | none
  | syncError
  | lengthError
  | shortFrame
  | crcError
  | busyLink
  | responsePending
deriving DecidableEq, Repr

/-- A transaction in progress: the frame fixed at the assertion of select, which is clocked out first and then FFh throughout
(R176), whether that frame is the held response (R178), and whether the release judges the transaction (R187). -/
structure Transaction where
  out : List Byte
  carriesHeld : Bool
  judged : Bool
deriving DecidableEq, Repr

/-- The state a Port Controller holds of its link (R175), and the transaction while select is asserted. -/
structure Link where
  phase : LinkPhase
  rejection : Bool
  lastRejection : RejectKind
  transaction : Option Transaction
deriving DecidableEq, Repr

/-! ## The machine -/

/-- Why the machine stops with a fault. -/
inductive Fault where
  /-- Raised by OPERATION_COMPLETION when the operation would read or write a byte that its surface's block list does not
  hold. Safe: the hardware has no such step, and no run from reset reaches it (log entry 16). -/
  | outsideSurface
deriving DecidableEq, Repr

/-- Why a command has no meaning. -/
inductive Refusal where
  /-- Raised by exec's arm of a command that has no meaning yet. Safe: the model says nothing of it. No arm raises it now. -/
  | notModelled (mnemonic : String)
deriving DecidableEq, Repr

/-- The whole state of the LWC240, with the queue of the commands that wait. -/
structure State where
  windows : Vector Window 24
  freeSet : List Block
  scrubList : List Block
  charge : PerPort Nat
  quota : PerPort Nat
  store : FrameStore
  opQueue : List EngineOp
  activity : Activity
  streams : PerPort (Option Stream)
  opCounter : PerPort Byte
  commitQueue : List CommitEntry
  stack : List WinRef
  view : List ViewEntry
  grace : Nat
  timing : Timing
  notices : PerPort NoticeBox
  subscribed : PerPort Bool
  links : PerPort Link
  draws : Nat
  pending : List Instr
deriving DecidableEq, Repr

/-- All block numbers in ascending order (R38). -/
def allBlocks : List Block := List.finRange 192

/-- Profile P0 at hardware reset (R126). -/
def Profile.default0 : Profile :=
  { activeWidth := 320, activeHeight := 240, hFront := 8, hSync := 8, hBack := 24, vFront := 4, vSync := 2, vBack := 6,
    divisor := 12, hsync := .activeLow, vsync := .activeLow, de := .activeHigh }

/-- Profile P1 at hardware reset (R126). -/
def Profile.default1 : Profile :=
  { activeWidth := 480, activeHeight := 320, hFront := 12, hSync := 8, hBack := 28, vFront := 4, vSync := 2, vBack := 8,
    divisor := 8, hsync := .activeLow, vsync := .activeLow, de := .activeHigh }

/-- The Timing Generator at hardware reset (R126). -/
def Timing.reset : Timing :=
  { p0 := Profile.default0, p1 := Profile.default1, current := .P0, pendingSwitch := none, display := false,
    pendingDisplay := none, background := Colour.black, pendingBackground := none, frameCounter := 0 }

/-- The empty notice list with its overflow flag clear (R170). -/
def NoticeBox.empty : NoticeBox := { list := [], overflow := false }

/-- A link at hardware reset with select released (R187, log entry 12). -/
def Link.reset : Link := { phase := .idle, rejection := false, lastRejection := .none, transaction := none }

/-- The frame store after the `n`-th hardware reset: nothing of its content is known (R38, log entry 4). -/
def FrameStore.undefinedAll (n : Nat) : FrameStore := { cells := [], undefinedBlocks := allBlocks, epoch := n }

/-- The part right after a hardware reset (R22, R38, R64, R81, R106, R126, R141, R158, R170, R187). -/
def State.reset : State :=
  { windows := Vector.replicate 24 (Window.free 0)
    freeSet := []
    scrubList := allBlocks
    charge := ⟨0, 0⟩
    quota := ⟨128, 64⟩
    store := FrameStore.undefinedAll 0
    opQueue := []
    activity := .scrubbing
    streams := ⟨none, none⟩
    opCounter := ⟨0, 0⟩
    commitQueue := []
    stack := []
    view := []
    grace := 60
    timing := Timing.reset
    notices := ⟨NoticeBox.empty, NoticeBox.empty⟩
    subscribed := ⟨false, false⟩
    links := ⟨Link.reset, Link.reset⟩
    draws := 0
    pending := [] }

/-! ## Named updates -/

/-- The record in a slot. -/
def State.win (s : State) (i : Slot) : Window := s.windows[i]

/-- The state with the record in a slot replaced. -/
def State.setWin (s : State) (i : Slot) (w : Window) : State := { s with windows := s.windows.set i w }

/-- The state with a port's notice list and overflow flag replaced. -/
def State.setNotices (s : State) (p : Port) (b : NoticeBox) : State := { s with notices := s.notices.set p b }

/-- The state with a port's link replaced. -/
def State.setLink (s : State) (p : Port) (l : Link) : State := { s with links := s.links.set p l }

/-- The state with a port's write stream replaced; `none` is closed. -/
def State.setStream (s : State) (p : Port) (v : Option Stream) : State := { s with streams := s.streams.set p v }

/-- The state with a port's charge replaced. -/
def State.setCharge (s : State) (p : Port) (n : Nat) : State := { s with charge := s.charge.set p n }

/-- What every meaning answers. -/
abbrev Result := Host.Outcome State Fault Refusal

end Sys2Proof.Machine
end

