-- ==== Sys2Proof/Machine/Bytes.lean ====
section
/-! DEFINITION. Byte order, signed fields, the bytes of a transaction and the CRC (R172, R174, R189). -/

namespace Sys2Proof.Machine

/-- An unsigned number as one byte (R189). -/
def byteOf (n : Nat) : Byte := BitVec.ofNat 8 n

/-- An unsigned number as two bytes, most significant first (R189). -/
def be16 (n : Nat) : List Byte := [byteOf (n / 256), byteOf n]

/-- An unsigned number as four bytes, most significant first (R189). -/
def be32 (n : Nat) : List Byte := [byteOf (n / 16777216), byteOf (n / 65536), byteOf (n / 256), byteOf n]

/-- A signed number as two bytes in two's complement, most significant first (R189). -/
def beSigned (v : Int) : List Byte := be16 (BitVec.ofInt 16 v).toNat

/-- A colour as three bytes (R189). -/
def colourBytes (c : Colour) : List Byte := [c.red, c.green, c.blue]

/-- A byte 01h for set or present and 00h for clear or absent (R189). -/
def flagByte (b : Bool) : Byte := if b then 1 else 0

/-- Byte `k` of a parameter list; 0 past its end, where no checked request reads. -/
def byteAt (ps : List Byte) (k : Nat) : Byte := ps.getD k 0

/-- The unsigned one-byte field at offset `k`. -/
def natAt (ps : List Byte) (k : Nat) : Nat := (byteAt ps k).toNat

/-- The unsigned two-byte field at offset `k`, most significant byte first (R189). -/
def be16At (ps : List Byte) (k : Nat) : Nat := natAt ps k * 256 + natAt ps (k + 1)

/-- The signed two-byte field at offset `k` (R189). -/
def signedAt (ps : List Byte) (k : Nat) : Int := (BitVec.ofNat 16 (be16At ps k)).toInt

/-- The colour at offset `k` (R189). -/
def colourAt (ps : List Byte) (k : Nat) : Colour := ⟨byteAt ps k, byteAt ps (k + 1), byteAt ps (k + 2)⟩

/-- The rectangle at offset `k` (R189). -/
def rectAt (ps : List Byte) (k : Nat) : Rect :=
  ⟨be16At ps k, be16At ps (k + 2), be16At ps (k + 4), be16At ps (k + 6)⟩

/-- The low 16 bits of the frame counter, the detail of several notices (R112). -/
def low16 (c : BitVec 32) : BitVec 16 := c.setWidth 16

/-- Eight bits as a byte, the first the most significant (R172). -/
def byteOfBits (b7 b6 b5 b4 b3 b2 b1 b0 : Bool) : Byte :=
  BitVec.ofNat 8 (b7.toNat * 128 + b6.toNat * 64 + b5.toNat * 32 + b4.toNat * 16 + b3.toNat * 8 + b2.toNat * 4
    + b1.toNat * 2 + b0.toNat)

/-- The bits of a byte, most significant first (R172). -/
def bitsOfByte (b : Byte) : List Bool :=
  [b.getLsbD 7, b.getLsbD 6, b.getLsbD 5, b.getLsbD 4, b.getLsbD 3, b.getLsbD 2, b.getLsbD 1, b.getLsbD 0]

/-- The complete bytes of the bits clocked in one transaction; an incomplete last byte is ignored (R172). -/
def completeBytes : List Bool → List Byte
  | b7 :: b6 :: b5 :: b4 :: b3 :: b2 :: b1 :: b0 :: rest =>
    byteOfBits b7 b6 b5 b4 b3 b2 b1 b0 :: completeBytes rest
  | _ => []

/-- The bits of a list of bytes as the host clocks them in (R172). -/
def bitsOfBytes (bs : List Byte) : List Bool := bs.flatMap bitsOfByte

/-- One shift of the CRC register: where the bit shifted out is 1, combined with 07h (R174, step 3). -/
def crcShift (r : Byte) : Byte := if r.getLsbD 7 then (r <<< 1) ^^^ 0x07 else r <<< 1

/-- One byte into the CRC register (R174, steps 2 and 3). -/
def crcByte (r b : Byte) : Byte :=
  crcShift (crcShift (crcShift (crcShift (crcShift (crcShift (crcShift (crcShift (r ^^^ b))))))))

/-- The CRC register run over bytes from a value. -/
def crcFrom (r : Byte) (bs : List Byte) : Byte := bs.foldl crcByte r

/-- The CRC-8 of a list of bytes: the register starts at FFh (R174). -/
def crc8 (bs : List Byte) : Byte := crcFrom 0xFF bs

end Sys2Proof.Machine
end

