-- ==== Sys2Proof/Machine/Flags.lean ====
section
/-! DEFINITION. The codes of chapter 11, the response flags and the frames (R173, R176, R177, R190, R193, R194, R196). -/

namespace Sys2Proof.Machine

/-- The code of a status (R193). -/
def Status.code : Status → Byte
  | .done => 0x00
  | .accepted => 0x01
  | .notReady => 0x02
  | .overrun => 0x03
  | .busy => 0x10
  | .badRequest => 0x11
  | .badLength => 0x12
  | .badParam => 0x13
  | .notPermitted => 0x14
  | .staleRef => 0x15
  | .notOwner => 0x16
  | .badState => 0x17
  | .noHandle => 0x18
  | .noSpace => 0x19
  | .quota => 0x1A
  | .armed => 0x1B
  | .notArmed => 0x1C
  | .nothingStaged => 0x1D
  | .badRect => 0x1E
  | .badTarget => 0x1F
  | .badFormat => 0x20
  | .noStream => 0x21
  | .streamOpen => 0x22
  | .inUse => 0x23
  | .notFound => 0x24
  | .noOffer => 0x25

/-- The code of a notice kind (R196). -/
def NoticeKind.code : NoticeKind → Byte
  | .committed => 0x01
  | .commitExpired => 0x02
  | .commitAbandoned => 0x03
  | .placementAdjusted => 0x04
  | .leaseLapsed => 0x05
  | .leaseRestored => 0x06
  | .windowEvicted => 0x07
  | .windowRetired => 0x08
  | .opDone => 0x09
  | .opCancelled => 0x0A
  | .offerReceived => 0x0B
  | .offerAccepted => 0x0C
  | .offerDeclined => 0x0D
  | .offerWithdrawn => 0x0E
  | .offerExpired => 0x0F
  | .streamClosed => 0x10
  | .profileSwitched => 0x11
  | .frameBoundary => 0x12
  | .restarted => 0x13

/-- The code of a rejection kind (R194). -/
def RejectKind.code : RejectKind → Byte
  | .none => 0x00
  | .syncError => 0x01
  | .lengthError => 0x02
  | .shortFrame => 0x03
  | .crcError => 0x04
  | .busyLink => 0x05
  | .responsePending => 0x06

/-- The code of a window state (R194). -/
def WinState.code : WinState → Byte
  | .free => 0x00
  | .hidden => 0x01
  | .shown => 0x02
  | .lapsed => 0x03
  | .retiring => 0x04

/-- The owner code of a port (R194). -/
def portCode : Port → Byte
  | .A => 0x00
  | .B => 0x01

/-- The owner code of a record; a record with no owner, which no response shows, gives 00h (log entry 19). -/
def ownerCode : Option Port → Byte
  | some p => portCode p
  | none => 0x00

/-- The tier code (R194). -/
def Tier.code : Tier → Byte
  | .normal => 0x00
  | .overlay => 0x01

/-- The format code (R195). -/
def Format.code : Format → Byte
  | .c16 => 0x00
  | .c24 => 0x01
  | .m1 => 0x02

/-- The fallback policy code (R192). -/
def Policy.code : Policy → Byte
  | .keep => 0x00
  | .fill => 0x01
  | .vanish => 0x02

/-- The code of a profile slot (R194). -/
def ProfileSlot.code : ProfileSlot → Byte
  | .P0 => 0x00
  | .P1 => 0x01

/-- The code of a placement (R192). -/
def Placement.code : Placement → Byte
  | .top => 0x00
  | .bottom => 0x01
  | .above _ => 0x02
  | .below _ => 0x03
  | .out => 0x04

/-! ## Frames -/

/-- The flags byte: bit 0 notices pending, bit 1 rejection, bit 2 overflow (R176, R193). -/
def flagsByte (noticesPending rejection overflow : Bool) : Byte :=
  byteOf (noticesPending.toNat + 2 * rejection.toNat + 4 * overflow.toNat)

/-- A response frame: 5Ah, status, tag, flags, payload length, payload and CRC (R177). -/
def responseFrame (st : Status) (tag flags : Byte) (payload : List Byte) : List Byte :=
  let body := [0x5A, st.code, tag, flags] ++ be16 payload.length ++ payload
  body ++ [crc8 body]

/-- The NOT_READY header (R177). -/
def notReadyFrame (tag flags : Byte) : List Byte := responseFrame .notReady tag flags []

/-- A request frame: A5h, code, tag, parameter length, parameters and CRC (R173). -/
def requestFrame (r : Request) : List Byte :=
  let body := [0xA5, r.code, r.tag] ++ be16 r.params.length ++ r.params
  body ++ [crc8 body]

/-- What the bytes a host sent in one transaction carry (R173, R179). -/
inductive Carried where
  | nothing
  | malformed (k : RejectKind)
  | request (r : Request)
deriving DecidableEq, Repr

/-- The judgement of the bytes after the sync byte A5h (R179, conditions 2 to 4): too short for the length field, the length
field above 512, too short for the CRC byte, a CRC that does not leave the register at 00h, or a valid frame. Bytes after the
CRC byte are filler (R173). -/
def judgeFrame : List Byte → Carried
  | code :: tag :: lenHigh :: lenLow :: rest =>
    let n := lenHigh.toNat * 256 + lenLow.toNat
    if n > 512 then .malformed .lengthError
    else if rest.length < n + 1 then .malformed .shortFrame
    else if crcFrom 0xFF ([0xA5, code, tag, lenHigh, lenLow] ++ rest.take (n + 1)) ≠ 0 then .malformed .crcError
    else .request ⟨code, tag, rest.take n⟩
  | _ => .malformed .shortFrame

/-- What a transaction carries, told by its first complete byte (R173, R179). One with no complete byte carries no request and is not
rejected, by R173, although R179 calls a frame cut short inside its sync byte SHORT_FRAME. DESIGN CHOICE (log entry 22). -/
def judgeBytes : List Byte → Carried
  | [] => .nothing
  | first :: rest =>
    if first = 0xFF then .nothing
    else if first = 0xA5 then judgeFrame rest
    else .malformed .syncError

end Sys2Proof.Machine
end

