-- ==== Sys2Proof/Machine/Operands.lean ====
section
/-! DEFINITION. The operands of the requests: request codes, parameter lengths, authority, and every parameter layout of
chapter 11 (R184, R189 to R192). -/

namespace Sys2Proof.Machine

/-! ## Request codes (R190) -/

def codeNop : Byte := 0x01
def codeStatus : Byte := 0x02
def codeCollect : Byte := 0x03
def codeSubscribe : Byte := 0x04
def codeDetach : Byte := 0x05
def codeCreate : Byte := 0x10
def codeRetire : Byte := 0x11
def codeQuery : Byte := 0x12
def codeListOwned : Byte := 0x13
def codeListStack : Byte := 0x14
def codeStage : Byte := 0x20
def codeDiscard : Byte := 0x21
def codeArm : Byte := 0x22
def codeDisarm : Byte := 0x23
def codeRenew : Byte := 0x24
def codeOpenStream : Byte := 0x30
def codePut : Byte := 0x31
def codeCloseStream : Byte := 0x32
def codeFill : Byte := 0x33
def codeCopy : Byte := 0x34
def codeCancelOp : Byte := 0x35
def codeOffer : Byte := 0x40
def codeAccept : Byte := 0x41
def codeDecline : Byte := 0x42
def codeWithdraw : Byte := 0x43
def codeSetProfile : Byte := 0x50
def codeSwitchProfile : Byte := 0x51
def codeDisplay : Byte := 0x52
def codeSetBackground : Byte := 0x53
def codeSetQuota : Byte := 0x54
def codeSetGrace : Byte := 0x55
def codeRestart : Byte := 0x5F

/-- The request codes the LWC240 defines (R190). -/
def definedCodes : List Byte :=
  [codeNop, codeStatus, codeCollect, codeSubscribe, codeDetach, codeCreate, codeRetire, codeQuery, codeListOwned,
   codeListStack, codeStage, codeDiscard, codeArm, codeDisarm, codeRenew, codeOpenStream, codePut, codeCloseStream,
   codeFill, codeCopy, codeCancelOp, codeOffer, codeAccept, codeDecline, codeWithdraw, codeSetProfile,
   codeSwitchProfile, codeDisplay, codeSetBackground, codeSetQuota, codeSetGrace, codeRestart]

/-! ## References and roles (R189) -/

/-- A reference as a request carries it: two bytes of any value (R189). -/
structure RawRef where
  handle : Byte
  gen : Byte
deriving DecidableEq, Repr

/-- The reference at offset `k` (R189). -/
def refAt (ps : List Byte) (k : Nat) : RawRef := ⟨byteAt ps k, byteAt ps (k + 1)⟩

/-- The slot a handle names, if it lies in 1..24 (R1, R11). -/
def slotOfHandle (h : Nat) : Option Slot :=
  if hh : 1 ≤ h ∧ h ≤ 24 then some ⟨h - 1, by omega⟩ else none

/-- The bytes of a reference (R189). -/
def refBytes (r : WinRef) : List Byte := [byteOf r.slot.handle, byteOf r.gen.val]

/-- The roles (R189). -/
inductive Role where
  | front
  | back
deriving DecidableEq, Repr

/-- The role a byte names (R189). -/
def roleOf (b : Byte) : Option Role :=
  if b = 0x00 then some .front else if b = 0x01 then some .back else none

/-- The value ON or OFF a byte names (R191). -/
def onOffOf (b : Byte) : Option Bool :=
  if b = 0x00 then some false else if b = 0x01 then some true else none

/-- The format a byte names (R191). -/
def formatOf (b : Byte) : Option Format :=
  if b = 0x00 then some .c16 else if b = 0x01 then some .c24 else if b = 0x02 then some .m1 else none

/-- The tier a byte names (R191). -/
def tierOf (b : Byte) : Option Tier :=
  if b = 0x00 then some .normal else if b = 0x01 then some .overlay else none

/-- The profile slot a byte names (R191). -/
def profileSlotOf (b : Byte) : Option ProfileSlot :=
  if b = 0x00 then some .P0 else if b = 0x01 then some .P1 else none

/-- The fallback policy a byte names (R192). -/
def policyOf (b : Byte) : Option Policy :=
  if b = 0x00 then some .keep else if b = 0x01 then some .fill else if b = 0x02 then some .vanish else none

/-! ## Parameter lengths and authority (R184, R190, R142) -/

/-- The presence mask of a STAGE (R192). -/
def stageMask (ps : List Byte) : BitVec 16 := BitVec.ofNat 16 (be16At ps 2)

/-- The size of the values a presence mask names, bits 0 to 7 (R192). -/
def stageValuesSize (m : BitVec 16) : Nat :=
  (if m.getLsbD 0 then 4 else 0) + (if m.getLsbD 1 then 4 else 0) + (if m.getLsbD 2 then 3 else 0)
    + (if m.getLsbD 3 then 4 else 0) + (if m.getLsbD 4 then 3 else 0) + (if m.getLsbD 5 then 1 else 0)
    + (if m.getLsbD 6 then 4 else 0)

/-- The parameter length is the one the code requires (R184, R190). -/
def lengthOk (code : Byte) (ps : List Byte) : Bool :=
  let n := ps.length
  if code = codeSubscribe then n == 1
  else if code = codeCreate then n == 7
  else if code = codeRetire || code = codeQuery || code = codeDiscard || code = codeDisarm || code = codeRenew
      || code = codeOffer || code = codeAccept || code = codeDecline || code = codeWithdraw then n == 2
  else if code = codeStage then 4 ≤ n && n == 4 + stageValuesSize (stageMask ps)
  else if code = codeArm then 1 ≤ n && 1 ≤ natAt ps 0 && natAt ps 0 ≤ 8 && n == 1 + 2 * natAt ps 0
  else if code = codeOpenStream then n == 11
  else if code = codePut then 1 ≤ n && n ≤ 512
  else if code = codeFill then n == 14
  else if code = codeCopy then n == 18
  else if code = codeCancelOp then n == 1
  else if code = codeSetProfile then n == 13
  else if code = codeSwitchProfile || code = codeDisplay || code = codeSetGrace then n == 1
  else if code = codeSetBackground then n == 3
  else if code = codeSetQuota then n == 2
  else n == 0

/-- The request belongs to Port A alone (R142): the device requests, and a CREATE whose tier parameter is OVERLAY. -/
def portAOnly (code : Byte) (ps : List Byte) : Bool :=
  code = codeSetProfile || code = codeSwitchProfile || code = codeDisplay || code = codeSetBackground
    || code = codeSetQuota || code = codeSetGrace || code = codeRestart
    || (code = codeCreate && byteAt ps 6 = 0x01)

/-! ## STAGE values (R192) -/

/-- The bytes of the values a STAGE supplies, each present only when its mask bit is 1 (R192). -/
structure StageValues where
  position : Option (List Byte)
  scroll : Option (List Byte)
  placement : Option (List Byte)
  key : Option (List Byte)
  ink : Option (List Byte)
  leaseLength : Option (List Byte)
  fallback : Option (List Byte)
  swap : Bool
deriving DecidableEq, Repr

/-- Takes a value of `size` bytes off the front where it is present (R192). -/
def cutValue (present : Bool) (size : Nat) (bs : List Byte) : Option (List Byte) × List Byte :=
  if present then (some (bs.take size), bs.drop size) else (none, bs)

/-- The values that follow the mask, in ascending bit order (R192). -/
def stageValues (ps : List Byte) : StageValues :=
  let m := stageMask ps
  let c0 := cutValue (m.getLsbD 0) 4 (ps.drop 4)
  let c1 := cutValue (m.getLsbD 1) 4 c0.2
  let c2 := cutValue (m.getLsbD 2) 3 c1.2
  let c3 := cutValue (m.getLsbD 3) 4 c2.2
  let c4 := cutValue (m.getLsbD 4) 3 c3.2
  let c5 := cutValue (m.getLsbD 5) 1 c4.2
  let c6 := cutValue (m.getLsbD 6) 4 c5.2
  { position := c0.1, scroll := c1.1, placement := c2.1, key := c3.1, ink := c4.1, leaseLength := c5.1,
    fallback := c6.1, swap := m.getLsbD 7 }

/-- A value that is absent, present and in range, or present and out of range (R84). -/
inductive Supplied (α : Type) where
  | absent
  | ok (v : α)
  | bad
deriving DecidableEq, Repr

/-- The check of a supplied value: `read` answers none where the value is out of range (R84). -/
def supplied {α : Type} (read : List Byte → Option α) : Option (List Byte) → Supplied α
  | none => .absent
  | some bs =>
    match read bs with
    | some v => .ok v
    | none => .bad

/-- The supplied value is out of range (R84). -/
def Supplied.isBad {α : Type} : Supplied α → Bool
  | .bad => true
  | _ => false

/-- The value an accepted STAGE leaves in a field: the supplied one, or what the field held (R85). -/
def Supplied.merge {α : Type} : Supplied α → Option α → Option α
  | .ok v, _ => some v
  | _, old => old

/-- A position component is valid in -1023..1023 (R84, R189). -/
def positionOk (v : Int) : Bool := decide (-1023 ≤ v) && decide (v ≤ 1023)

/-- A staged position (R84). -/
def readPosition (bs : List Byte) : Option (Int × Int) :=
  let x := signedAt bs 0
  let y := signedAt bs 2
  if positionOk x && positionOk y then some (x, y) else none

/-- A staged scroll of a window of this width and height (R84). -/
def readScroll (width height : Nat) (bs : List Byte) : Option (Nat × Nat) :=
  let sx := be16At bs 0
  let sy := be16At bs 2
  if sx < width && sy < height then some (sx, sy) else none

/-- The reference of a staged ABOVE or BELOW on the window in slot `i`: its handle lies in 1..24 and is not that of the window
staged, and its generation lies in 0..15 (R84). -/
def readPlacementRef (i : Slot) (r : RawRef) : Option WinRef :=
  match slotOfHandle r.handle.toNat with
  | none => none
  | some j =>
    if j = i then none
    else if h : r.gen.toNat < 16 then some ⟨j, ⟨r.gen.toNat, h⟩⟩
    else none

/-- A staged placement on the window in slot `i` (R84, R192). The reference of TOP, BOTTOM and OUT is ignored. -/
def readPlacement (i : Slot) (bs : List Byte) : Option Placement :=
  let code := byteAt bs 0
  if code = 0x00 then some .top
  else if code = 0x01 then some .bottom
  else if code = 0x02 then (readPlacementRef i (refAt bs 1)).map Placement.above
  else if code = 0x03 then (readPlacementRef i (refAt bs 1)).map Placement.below
  else if code = 0x04 then some .out
  else none

/-- A staged key (R84, R192). The colour of REMOVE is ignored. -/
def readKey (bs : List Byte) : Option StagedKey :=
  if byteAt bs 0 = 0x00 then some .remove
  else if byteAt bs 0 = 0x01 then some (.set (colourAt bs 1))
  else none

/-- A staged ink (R84: a colour is always within range). -/
def readInk (bs : List Byte) : Option Colour := some (colourAt bs 0)

/-- A staged lease length (R84). -/
def readLeaseLength (bs : List Byte) : Option Nat := if natAt bs 0 ≤ 250 then some (natAt bs 0) else none

/-- A staged fallback (R84). -/
def readFallback (bs : List Byte) : Option (Policy × Colour) := (policyOf (byteAt bs 0)).map (fun p => (p, colourAt bs 1))

/-- The checked values of a STAGE on a window (R84). -/
structure StagedValues where
  position : Supplied (Int × Int)
  scroll : Supplied (Nat × Nat)
  placement : Supplied Placement
  key : Supplied StagedKey
  ink : Supplied Colour
  leaseLength : Supplied Nat
  fallback : Supplied (Policy × Colour)
  swap : Bool
deriving DecidableEq, Repr

/-- Every value a STAGE supplies, checked against the window in slot `i` (R84). -/
def checkStage (i : Slot) (w : Window) (ps : List Byte) : StagedValues :=
  let v := stageValues ps
  { position := supplied readPosition v.position
    scroll := supplied (readScroll w.width w.height) v.scroll
    placement := supplied (readPlacement i) v.placement
    key := supplied readKey v.key
    ink := supplied readInk v.ink
    leaseLength := supplied readLeaseLength v.leaseLength
    fallback := supplied readFallback v.fallback
    swap := v.swap }

/-- Some supplied value is out of range (R83, step 2). -/
def StagedValues.anyBad (v : StagedValues) : Bool :=
  v.position.isBad || v.scroll.isBad || v.placement.isBad || v.key.isBad || v.ink.isBad || v.leaseLength.isBad
    || v.fallback.isBad

/-- The mask names a field not in the table of R82: one of its bits 8 to 15 is set (R83, R192). -/
def undefinedMask (m : BitVec 16) : Bool := decide (256 ≤ m.toNat)

/-- The merge of a STAGE's values into a staging (R85). -/
def StagedValues.mergeInto (v : StagedValues) (st : Staging) : Staging :=
  { position := v.position.merge st.position
    scroll := v.scroll.merge st.scroll
    placement := v.placement.merge st.placement
    key := v.key.merge st.key
    ink := v.ink.merge st.ink
    leaseLength := v.leaseLength.merge st.leaseLength
    fallback := v.fallback.merge st.fallback
    swap := st.swap || v.swap }

/-! ## ARM and SET_PROFILE (R191) -/

/-- The references of an ARM, in list order (R191). -/
def armRefs (ps : List Byte) : List RawRef := (List.range (natAt ps 0)).map (fun k => refAt ps (1 + 2 * k))

/-- A polarity bit (R191). -/
def polarityOf (b : Bool) : Polarity := if b then .activeHigh else .activeLow

/-- A value lies in a range, both ends included. -/
def inRange (lo hi n : Nat) : Bool := decide (lo ≤ n) && decide (n ≤ hi)

/-- The profile of a SET_PROFILE, where every field is in its range (R108, R113, R191). -/
def readProfile (ps : List Byte) : Option Profile :=
  let pol := byteAt ps 12
  let f : Profile :=
    { activeWidth := be16At ps 1, activeHeight := be16At ps 3, hFront := natAt ps 5, hSync := natAt ps 6,
      hBack := natAt ps 7, vFront := natAt ps 8, vSync := natAt ps 9, vBack := natAt ps 10, divisor := natAt ps 11,
      hsync := polarityOf (pol.getLsbD 0), vsync := polarityOf (pol.getLsbD 1), de := polarityOf (pol.getLsbD 2) }
  if inRange 16 480 f.activeWidth && inRange 16 320 f.activeHeight && inRange 1 64 f.hFront && inRange 1 64 f.hSync
      && inRange 1 64 f.hBack && inRange 1 32 f.vFront && inRange 1 32 f.vSync && inRange 1 32 f.vBack
      && inRange 4 32 f.divisor && decide (pol.toNat < 8) then some f
  else none

end Sys2Proof.Machine
end

