-- ==== Sys2Proof/Machine/Surface.lean ====
section
/-! DEFINITION. The frame store byte by byte, the layout of a surface, pixels, and what an engine operation writes
(chapter 2, R48, R52, R55, R57, R59). -/

namespace Sys2Proof.Machine

/-! ## The frame store (R23) -/

/-- A byte address of the frame store, 0..393,215 (R23). -/
abbrev Address := Fin 393216

/-- The address of byte `o mod 2048` of a block (R24). -/
def byteAddress (b : Block) (o : Nat) : Address := ⟨b.val * 2048 + o % 2048, by omega⟩

/-- The block that holds an address has not been scrubbed since the last hardware reset. -/
def FrameStore.isUndefined (f : FrameStore) (a : Nat) : Bool := f.undefinedBlocks.any (fun b => b.val == a / 2048)

/-- What an unlisted address reads as: 0 in a block scrubbed since the last hardware reset (R28), a free value in any other
(R38, log entry 4). -/
def FrameStore.unlisted (f : FrameStore) (a : Nat) : Byte :=
  if f.isUndefined a then Config.undefinedByte f.epoch a else 0

/-- The byte listed at an address, if one is. -/
def lookupCell (a : Nat) : List Host.Cell → Option Byte
  | [] => none
  | c :: rest => if c.1 = a then some c.2 else lookupCell a rest

/-- The cells with one byte listed, in rising order of address. -/
def insertCell (a : Nat) (v : Byte) : List Host.Cell → List Host.Cell
  | [] => [(a, v)]
  | c :: rest =>
    if a < c.1 then (a, v) :: c :: rest
    else if a = c.1 then (a, v) :: rest
    else c :: insertCell a v rest

/-- The byte at an address. -/
def FrameStore.read (f : FrameStore) (a : Address) : Byte := (lookupCell a.val f.cells).getD (f.unlisted a.val)

/-- Writes the byte at an address. A zero in a scrubbed block is what an unlisted address reads as, so it is not listed. -/
def FrameStore.write (f : FrameStore) (a : Address) (v : Byte) : FrameStore :=
  if v = 0 ∧ f.isUndefined a.val = false then { f with cells := f.cells.filter (fun c => c.1 ≠ a.val) }
  else { f with cells := insertCell a.val v f.cells }

/-- Zeroes all 2,048 bytes of a block (R28). -/
def FrameStore.scrub (f : FrameStore) (b : Block) : FrameStore :=
  { f with cells := f.cells.filter (fun c => c.1 / 2048 ≠ b.val)
           undefinedBlocks := f.undefinedBlocks.filter (fun x => x ≠ b) }

/-- A cell is listed rightly: its address exists and its byte is not what an unlisted address reads as. -/
def FrameStore.cellOk (f : FrameStore) (c : Host.Cell) : Bool :=
  decide (c.1 < 393216) && (f.isUndefined c.1 || decide (c.2 ≠ 0))

/-- The addresses of a list of cells rise strictly. -/
def risingCells : List Host.Cell → Bool
  | [] => true
  | [_] => true
  | c :: d :: rest => decide (c.1 < d.1) && risingCells (d :: rest)

/-- The canonical form of the frame store. -/
def FrameStore.wf (f : FrameStore) : Bool := risingCells f.cells && f.cells.all f.cellOk

/-! ## Surfaces (R24) -/

/-- The bytes one row of a surface occupies (R3). -/
def Format.stride : Format → Nat → Nat
  | .c16, w => w * 2
  | .c24, w => w * 3
  | .m1, w => (w + 7) / 8

/-- The blocks one surface needs: ceil(stride × height / 2048) (R4, R24). -/
def surfaceBlocks (fmt : Format) (w h : Nat) : Nat := (fmt.stride w * h + 2047) / 2048

/-- The stride of a window (R3). -/
def Window.stride (w : Window) : Nat := w.format.stride w.width

/-- The block list of a surface identity; empty where the window has no such surface (R4). -/
def Window.surface (w : Window) (id : SurfaceId) : List Block :=
  if id = 0 then w.surface0 else w.surface1.getD []

/-- The window has two surfaces (R4). -/
def Window.double (w : Window) : Bool := w.surface1.isSome

/-- The identity that the front field does not name (R4). -/
def otherId (id : SurfaceId) : SurfaceId := if id = 0 then 1 else 0

/-- All blocks of a window in order of release: those of identity 0, then those of identity 1 (R32). -/
def Window.blocks (w : Window) : List Block := w.surface0 ++ w.surface1.getD []

/-- The address of byte `o` of a surface: byte `o mod 2048` of the block at position `o / 2048` of its list (R24). -/
def surfaceAddress (blocks : List Block) (o : Nat) : Option Address :=
  (blocks[o / 2048]?).map (fun b => byteAddress b o)

/-- Byte `o` of a surface; 0 past its block list, where no run reads (log entry 19). -/
def readSurface (f : FrameStore) (blocks : List Block) (o : Nat) : Byte :=
  match surfaceAddress blocks o with
  | some a => f.read a
  | none => 0

/-- Writes byte `o` of a surface; nothing past its block list (log entry 16). -/
def writeSurface (f : FrameStore) (blocks : List Block) (o : Nat) (v : Byte) : FrameStore :=
  match surfaceAddress blocks o with
  | some a => f.write a v
  | none => f

/-- The first byte of the pixel in column `c` of row `r` (R24). -/
def pixelOffset (fmt : Format) (stride c r : Nat) : Nat :=
  match fmt with
  | .c16 => r * stride + 2 * c
  | .c24 => r * stride + 3 * c
  | .m1 => r * stride + c / 8

/-- The last byte of the pixel in column `c` of row `r` (R24). -/
def pixelLastOffset (fmt : Format) (stride c r : Nat) : Nat :=
  match fmt with
  | .c16 => r * stride + 2 * c + 1
  | .c24 => r * stride + 3 * c + 2
  | .m1 => r * stride + c / 8

/-- The pixel in column `c` of row `r` of a surface (R24, R189). -/
def readPixel (f : FrameStore) (fmt : Format) (stride : Nat) (blocks : List Block) (c r : Nat) : Pixel :=
  let o := pixelOffset fmt stride c r
  match fmt with
  | .c16 => .c16 (readSurface f blocks o ++ readSurface f blocks (o + 1))
  | .c24 => .c24 ⟨readSurface f blocks o, readSurface f blocks (o + 1), readSurface f blocks (o + 2)⟩
  | .m1 => .m1 ((readSurface f blocks o).getLsbD (7 - c % 8))

/-- A byte with the bit of the pixel in column `c` replaced and its other bits kept (R48). -/
def setPixelBit (b : Byte) (c : Nat) (ink : Bool) : Byte :=
  let m : Byte := BitVec.ofNat 8 (2 ^ (7 - c % 8))
  if ink then b ||| m else b &&& ~~~m

/-- Writes the pixel in column `c` of row `r` of a surface whole (R24, R48). -/
def writePixel (f : FrameStore) (stride : Nat) (blocks : List Block) (c r : Nat) : Pixel → FrameStore
  | .c16 v =>
    let o := pixelOffset .c16 stride c r
    writeSurface (writeSurface f blocks o (v.extractLsb' 8 8)) blocks (o + 1) (v.extractLsb' 0 8)
  | .c24 v =>
    let o := pixelOffset .c24 stride c r
    writeSurface (writeSurface (writeSurface f blocks o v.red) blocks (o + 1) v.green) blocks (o + 2) v.blue
  | .m1 b =>
    let o := pixelOffset .m1 stride c r
    writeSurface f blocks o (setPixelBit (readSurface f blocks o) c b)

/-! ## Pixels from requests (R52, R57, R123) -/

/-- A colour converted to 5-6-5: the top 5, 6 and 5 bits of its components (R57, R123). -/
def to565 (c : Colour) : BitVec 16 :=
  c.red.extractLsb' 3 5 ++ c.green.extractLsb' 2 6 ++ c.blue.extractLsb' 3 5

/-- The pixels carried by the bytes of a PUT, by the format of the stream's window, in order (R52). -/
def pixelsOf : Format → List Byte → List Pixel
  | .c16, hi :: lo :: rest => .c16 (hi ++ lo) :: pixelsOf .c16 rest
  | .c16, _ => []
  | .c24, r :: g :: b :: rest => .c24 ⟨r, g, b⟩ :: pixelsOf .c24 rest
  | .c24, _ => []
  | .m1, b :: rest => (bitsOfByte b).map Pixel.m1 ++ pixelsOf .m1 rest
  | .m1, [] => []

/-! ## What an operation writes (R55, R57, R59) -/

/-- One pixel to be written: column, row and value. -/
structure PixelWrite where
  col : Nat
  row : Nat
  value : Pixel
deriving DecidableEq, Repr

/-- The cursor after one pixel: the next column, or the rectangle's first column of the next row (R51). -/
def nextCursor (rect : Rect) (c r : Nat) : Nat × Nat :=
  if c + 1 = rect.x + rect.width then (rect.x, r + 1) else (c + 1, r)

/-- The cursor after `n` pixels (R51). -/
def advanceCursor (rect : Rect) : Nat → Nat × Nat → Nat × Nat
  | 0, cur => cur
  | n + 1, cur => advanceCursor rect n (nextCursor rect cur.1 cur.2)

/-- The writes of a PUT: its pixels in stream order from its start (R55). -/
def putWrites (rect : Rect) : Nat × Nat → List Pixel → List PixelWrite
  | _, [] => []
  | cur, p :: rest => ⟨cur.1, cur.2, p⟩ :: putWrites rect (nextCursor rect cur.1 cur.2) rest

/-- The offsets of the pixels of a rectangle of this size, row by row from the top, each row from left to right (R57). -/
def rectOffsets (width height : Nat) : List (Nat × Nat) :=
  (List.range height).flatMap (fun j => (List.range width).map (fun i => (i, j)))

/-- The writes of a FILL (R57). -/
def fillWrites (rect : Rect) (value : Pixel) : List PixelWrite :=
  (rectOffsets rect.width rect.height).map (fun o => ⟨rect.x + o.1, rect.y + o.2, value⟩)

/-- The writes of a COPY, every source pixel read before any is written (R59). -/
def copyWrites (f : FrameStore) (src : Window) (srcId : SurfaceId) (rect : Rect) (destX destY : Nat) : List PixelWrite :=
  (rectOffsets rect.width rect.height).map (fun o =>
    ⟨destX + o.1, destY + o.2, readPixel f src.format src.stride (src.surface srcId) (rect.x + o.1) (rect.y + o.2)⟩)

/-- All writes of an operation, in the order in which it makes them (R55, R57, R59). -/
def opWrites (s : State) (op : EngineOp) : List PixelWrite :=
  match op.body with
  | .put rect c r pixels => putWrites rect (c, r) pixels
  | .fill rect value => fillWrites rect value
  | .copy src srcId rect dx dy => copyWrites s.store (s.win src.slot) srcId rect dx dy

/-- Makes writes into a surface of a window, first to last. -/
def writeAll (w : Window) (id : SurfaceId) (ws : List PixelWrite) (f : FrameStore) : FrameStore :=
  ws.foldl (fun g p => writePixel g w.stride (w.surface id) p.col p.row p.value) f

/-- The frame store after an operation has made these of its writes. -/
def storeAfter (s : State) (op : EngineOp) (ws : List PixelWrite) : FrameStore :=
  writeAll (s.win op.dest.slot) op.destId ws s.store

/-- The pixel in column `c` of row `r` lies within a surface's block list. -/
def pixelFits (w : Window) (id : SurfaceId) (c r : Nat) : Bool :=
  decide (pixelLastOffset w.format w.stride c r / 2048 < (w.surface id).length)

/-- Every pixel an operation writes or reads lies within its surface's block list. -/
def opFits (s : State) (op : EngineOp) : Bool :=
  (opWrites s op).all (fun p => pixelFits (s.win op.dest.slot) op.destId p.col p.row) &&
  match op.body with
  | .copy src srcId rect _ _ =>
    (rectOffsets rect.width rect.height).all (fun o =>
      pixelFits (s.win src.slot) srcId (rect.x + o.1) (rect.y + o.2))
  | _ => true

/-- The writes an operation abandoned in flight had made: for a PUT or a FILL a leading run that leaves out the last pixel
(R55, R57), for a COPY some of its pixels, at least one left out (R59). Which ones is free (log entry 5). -/
def abandonedWrites (n : Nat) (op : EngineOp) (ws : List PixelWrite) : List PixelWrite :=
  match op.body with
  | .copy _ _ _ _ _ =>
    (ws.zipIdx.filter (fun q => q.2 ≠ Config.copyPending n % ws.length && Config.copyWritten n q.2)).map Prod.fst
  | _ => ws.take (Config.leadingRun n % ws.length)

end Sys2Proof.Machine
end

