-- ==== Sys2Proof/Machine/Ops.lean ====
section
/-! DEFINITION. The named operations the commands share: notices, the block pool, the engine queue, the commit queue,
references, the common evaluation of a request, and retirement. -/

namespace Sys2Proof.Machine

/-- The slots in ascending order of handle (R1). -/
def allSlots : List Slot :=
  [0, 1, 2, 3, 4, 5, 6, 7, 8, 9, 10, 11, 12, 13, 14, 15, 16, 17, 18, 19, 20, 21, 22, 23]

/-! ## Notices (R159 to R168) -/

/-- A notice list holds at most this many notices (R159). -/
def maxNotices : Nat := 32

/-- The notice has this key: its kind together with its handle (R159). -/
def Notice.hasKey (n : Notice) (k : NoticeKind) (h : Nat) : Bool := n.kind == k && n.handle == h

/-- A raising gathered into the notice of its key (R161): occurrences up by one and no further than 255, detail and
generation replaced. -/
def Notice.gather (n : Notice) (g : Gen) (d : BitVec 16) : Notice :=
  { n with occurrences := min 255 (n.occurrences + 1), detail := d, gen := g }

/-- A raising into a notice list: gathered, appended, or dropped with the overflow flag set (R161, R163). -/
def NoticeBox.take (b : NoticeBox) (k : NoticeKind) (h : Nat) (g : Gen) (d : BitVec 16) : NoticeBox :=
  if b.list.any (fun n => n.hasKey k h) then
    { b with list := b.list.map (fun n => if n.hasKey k h then n.gather g d else n) }
  else if b.list.length < maxNotices then { b with list := b.list ++ [⟨k, h, g, 1, d⟩] }
  else { b with overflow := true }

/-- Raises a notice with a handle into a port's list (R161). -/
def raiseKey (s : State) (p : Port) (k : NoticeKind) (h : Nat) (g : Gen) (d : BitVec 16) : State :=
  s.setNotices p ((s.notices.get p).take k h g d)

/-- Raises a notice that concerns a window (R160). -/
def raise (s : State) (p : Port) (k : NoticeKind) (r : WinRef) (d : BitVec 16) : State :=
  raiseKey s p k r.slot.handle r.gen d

/-- Raises a notice of a device-wide kind: handle 0, generation 0 (R159). -/
def raiseDevice (s : State) (p : Port) (k : NoticeKind) (d : BitVec 16) : State := raiseKey s p k 0 0 d

/-- Raises a notice to a window's owner; a record without an owner has no one to tell. -/
def raiseOwner (s : State) (o : Option Port) (k : NoticeKind) (r : WinRef) (d : BitVec 16) : State :=
  match o with
  | some p => raise s p k r d
  | none => s

/-- Raises a notice to a window's owner and to Port A, once when the owner is Port A (R133, R137). -/
def raiseOwnerAndA (s : State) (o : Option Port) (k : NoticeKind) (r : WinRef) (d : BitVec 16) : State :=
  let s1 := raiseOwner s o k r d
  if o = some .A then s1 else raise s1 .A k r d

/-- The attention line of a port is asserted: exactly while its list holds a notice (R168). -/
def attention (s : State) (p : Port) : Bool := !(s.notices.get p).list.isEmpty

/-- A number as the 16 bits of a notice's detail. -/
def detail (n : Nat) : BitVec 16 := BitVec.ofNat 16 n

/-- The reasons of PLACEMENT_ADJUSTED (R196). -/
def adjustedAbsent : BitVec 16 := 1
def adjustedTier : BitVec 16 := 2

/-- The causes of LEASE_RESTORED (R196). -/
def restoredByCommit : BitVec 16 := 1
def restoredByRenewal : BitVec 16 := 2

/-- The reasons of OFFER_DECLINED (R196). -/
def declinedByDecline : BitVec 16 := 1
def declinedByDetach : BitVec 16 := 2

/-- The reasons of OFFER_WITHDRAWN (R196). -/
def withdrawnByWithdraw : BitVec 16 := 1
def withdrawnByRetirement : BitVec 16 := 2

/-- The causes of STREAM_CLOSED (R196). -/
def closedByRetire : BitVec 16 := 1
def closedByEviction : BitVec 16 := 2
def closedByTransfer : BitVec 16 := 3

/-! ## Records and references (R1, R11) -/

/-- The reference of the window now in a slot. -/
def State.refOf (s : State) (i : Slot) : WinRef := ⟨i, (s.win i).gen⟩

/-- The ownership a request requires at step 3 of the reference check (R10). -/
inductive Ownership where
  | any
  | owner
  | ownerOrA
deriving DecidableEq, Repr

/-- Step 3 of the reference check passes (R11). -/
def ownershipOk (o : Ownership) (p : Port) (w : Window) : Bool :=
  match o with
  | .any => true
  | .owner => w.owner == some p
  | .ownerOrA => w.owner == some p || p == .A

/-- The states HIDDEN, SHOWN and LAPSED, which most requests permit (R10). -/
def permitLive : WinState → Bool
  | .hidden => true
  | .shown => true
  | .lapsed => true
  | _ => false

/-- The states RENEW permits (R10). -/
def permitShown : WinState → Bool
  | .shown => true
  | .lapsed => true
  | _ => false

/-- The states QUERY permits (R10). -/
def permitAll : WinState → Bool
  | .free => false
  | _ => true

/-- The reference check: the slot the reference names, or the status of the first of its four steps that fails (R11). -/
def refCheck (s : State) (p : Port) (o : Ownership) (permit : WinState → Bool) (r : RawRef) : Except Status Slot :=
  match slotOfHandle r.handle.toNat with
  | none => .error .badParam
  | some i =>
    let w := s.win i
    if w.state = .free ∨ w.gen.val ≠ r.gen.toNat then .error .staleRef
    else if ownershipOk o p w = false then .error .notOwner
    else if permit w.state = false then .error .badState
    else .ok i

/-! ## The common evaluation of a request (R182, R183) -/

/-- What the evaluation of a request comes to: a refusal without effect, or a state with a status and a payload. -/
inductive Verdict where
  | refuse (st : Status)
  | answer (s : State) (st : Status) (payload : List Byte)

/-- The port becomes HELD with a response (R175, R182). -/
def State.hold (s : State) (p : Port) (r : Response) : State :=
  s.setLink p { s.links.get p with phase := .held r }

/-- The port's response is held: a refusal leaves the state as it was and carries no payload (R183). -/
def Verdict.settle (v : Verdict) (s : State) (p : Port) (tag : Byte) : State :=
  match v with
  | .refuse st => s.hold p ⟨st, tag, []⟩
  | .answer s' st payload => s'.hold p ⟨st, tag, payload⟩

/-- Stages 1 to 3 of the common evaluation, then the request's reference and own checks and effects (R183). -/
def evaluate (p : Port) (r : Request) (taken : List Byte → Verdict) : Verdict :=
  if r.code ∉ definedCodes then .refuse .badRequest
  else if lengthOk r.code r.params = false then .refuse .badLength
  else if p = .B ∧ portAOnly r.code r.params = true then .refuse .notPermitted
  else taken r.params

/-- The completion of the port's request in processing, where it has this code (R182). Otherwise the event does not arise
and nothing changes (log entry 2). -/
def complete (s : State) (p : Port) (code : Byte) (taken : List Byte → Verdict) : State :=
  match (s.links.get p).phase with
  | .processing r => if r.code = code then (evaluate p r taken).settle s p r.tag else s
  | _ => s

/-- A request that names one window: the reference check of its first two parameter bytes, then the rest (R183). -/
def withWindow (s : State) (p : Port) (o : Ownership) (permit : WinState → Bool) (r : RawRef)
    (next : Slot → Verdict) : Verdict :=
  match refCheck s p o permit r with
  | .error st => .refuse st
  | .ok i => next i

/-! ## The block pool (R26 to R37) -/

/-- A block joins the free set, kept in ascending order (R26). -/
def insertBlock (b : Block) : List Block → List Block
  | [] => [b]
  | c :: rest => if b < c then b :: c :: rest else if b = c then c :: rest else c :: insertBlock b rest

/-- Enters FREE (R7, R17): the window's blocks leave the owner's charge and join the tail of the scrub list in surface order
(R32), and the record loses everything but its slot, its generation incremented (R2). -/
def releaseWindow (s : State) (i : Slot) : State :=
  let w := s.win i
  let s1 : State := { s with scrubList := s.scrubList ++ w.blocks }
  let s2 := match w.owner with
    | some p => s1.setCharge p (s1.charge.get p - w.blocks.length)
    | none => s1
  s2.setWin i (Window.free (w.gen + 1))

/-! ## The engine (R41 to R47, R60, R61) -/

/-- The engine queue holds at most this many operations (R41). -/
def maxOps : Nat := 8

/-- The choice of R46, made when nothing is in flight and nothing is being scrubbed: operate on the queue's head, else scrub
the scrub list's head, else go idle. A scrub in progress goes on. An operation in flight stays at the head, so that the
choice leaves it there. -/
def settleEngine (s : State) : State :=
  match s.activity with
  | .scrubbing => s
  | _ =>
    { s with activity := if s.opQueue.isEmpty then (if s.scrubList.isEmpty then .idle else .scrubbing) else .operating }

/-- The operation in flight, if there is one: the head of the queue while OPERATING (R41, R46). -/
def inFlight (s : State) : Option EngineOp :=
  match s.activity with
  | .operating => s.opQueue.head?
  | _ => none

/-- The pixels an abandoned operation had written stay, and it writes no more (R55, R57, R59, R60). -/
def abandon (s : State) (op : EngineOp) : State :=
  { s with store := storeAfter s op (abandonedWrites s.draws op (opWrites s op)), draws := s.draws + 1 }

/-- OP_CANCELLED to the issuer, with the destination's handle and generation and the op number (R61). -/
def raiseCancelled (s : State) (op : EngineOp) : State :=
  raise s op.issuer .opCancelled op.dest (detail op.opNumber.toNat)

/-- Cancels every operation that meets a condition: the one in flight is abandoned, queued ones are removed, and OP_CANCELLED
is raised for each in queue order (R60, R61). The engine makes its choice at the end of the event (log entry 17). -/
def cancelOps (s : State) (hit : EngineOp → Bool) : State :=
  let s1 : State := match inFlight s with
    | some op => if hit op then { abandon s op with activity := .idle } else s
    | none => s
  let s2 : State := { s1 with opQueue := s.opQueue.filter (fun o => !hit o) }
  (s.opQueue.filter hit).foldl raiseCancelled s2

/-- The operation names the window in a slot, as destination or as source (R42). -/
def opNames (r : WinRef) (op : EngineOp) : Bool :=
  op.dest == r ||
  match op.body with
  | .copy src _ _ _ _ => src == r
  | _ => false

/-- Accepts an operation: it joins the queue at its tail with the port's op counter as its number, and the counter advances
(R43, R45). -/
def acceptOp (s : State) (p : Port) (dest : WinRef) (destId : SurfaceId) (body : OpBody) : State :=
  let n := s.opCounter.get p
  settleEngine { s with
    opQueue := s.opQueue ++ [⟨p, n, dest, destId, body⟩]
    opCounter := s.opCounter.set p (n + 1) }

/-- The engine queue holds 8 operations (R45). -/
def queueFull (s : State) : Bool := decide (maxOps ≤ s.opQueue.length)

/-- The identity a role resolves to; none for BACK on a single-surfaced window (R44). -/
def resolveRole (w : Window) (role : Role) : Option SurfaceId :=
  match role with
  | .front => some w.front
  | .back => if w.double then some (otherId w.front) else none

/-- The rectangle has no pixel, or does not lie wholly inside the window's surface (R50, R56, R58). -/
def rectBad (r : Rect) (w : Window) : Bool :=
  decide (r.width = 0) || decide (r.height = 0) || decide (w.width < r.x + r.width) || decide (w.height < r.y + r.height)

/-- The port's stream is open into the window of this reference. -/
def streamInto (s : State) (p : Port) (r : WinRef) : Bool :=
  match s.streams.get p with
  | some v => v.ref == r
  | none => false

/-- Closes the port's stream where it is open into the window of this reference (R54). -/
def closeStreamInto (s : State) (p : Port) (r : WinRef) : State := if streamInto s p r then s.setStream p none else s

/-! ## The commit queue (R87, R88) -/

/-- The window in a slot is armed (R87). -/
def armed (s : State) (i : Slot) : Bool := s.commitQueue.any (fun e => e.ref.slot == i)

/-- The commit entry of the window in a slot, as its record shows it (R6, R87). -/
def commitEntry (s : State) (i : Slot) : Option CommitEntry := s.commitQueue.find? (fun e => e.ref.slot == i)

/-- The entry belongs to the unit of `e`: the entry alone under tag 0, its whole group under any other (R88). -/
def sameUnit (e x : CommitEntry) : Bool := if e.tag = 0 then x.ref == e.ref else x.tag == e.tag

/-- A group tag is in use (R88). -/
def tagInUse (s : State) (t : Nat) : Bool := s.commitQueue.any (fun e => e.tag == t)

/-- The lowest-numbered free group tag (R88). -/
def lowestFreeTag (s : State) : Option Nat :=
  [1, 2, 3, 4, 5, 6, 7, 8, 9, 10, 11, 12, 13, 14, 15].find? (fun t => !tagInUse s t)

/-- Removes the unit of the window in a slot, where it is armed (R91, R101, R102). -/
def removeUnit (s : State) (i : Slot) : State :=
  match commitEntry s i with
  | some e => { s with commitQueue := s.commitQueue.filter (fun x => !sameUnit e x) }
  | none => s

/-- The other members of the group of the window in a slot, in the group's order (R101). -/
def otherMembers (s : State) (i : Slot) : List WinRef :=
  match commitEntry s i with
  | some e => ((s.commitQueue.filter (sameUnit e)).map CommitEntry.ref).filter (fun r => r.slot ≠ i)
  | none => []

/-- Removes the unit of a window that is retired or transferred, and raises COMMIT_ABANDONED to its owner for each other
member, with the handle of the window as detail (R101, R102). -/
def abandonUnit (s : State) (i : Slot) (owner : Option Port) : State :=
  (otherMembers s i).foldl (fun t r => raiseOwner t owner .commitAbandoned r (detail i.handle)) (removeUnit s i)

/-- Empties the staging of the window in a slot (R82). -/
def emptyStaging (s : State) (i : Slot) : State := s.setWin i { s.win i with staging := Staging.empty }

/-! ## Retirement (R16, R17, R19) -/

/-- Who retires a window (section 1.6). -/
inductive RetireCause where
  | request (p : Port)
  | detach
  | eviction
deriving DecidableEq, Repr

/-- The retirement is the owner's own act (R16, R19). -/
def RetireCause.ownAct (c : RetireCause) (owner : Option Port) : Bool :=
  match c with
  | .request p => owner == some p
  | .detach => true
  | .eviction => false

/-- The cause a STREAM_CLOSED of the retirement carries (R169). -/
def RetireCause.streamCause : RetireCause → BitVec 16
  | .eviction => closedByEviction
  | _ => closedByRetire

/-- The state a retired window enters (R17). -/
def retiredState (st : WinState) : WinState := if st = .hidden then .free else .retiring

/-- The retirement's own notice: WINDOW_RETIRED to the owner where another port retires the window (R15, R169),
WINDOW_EVICTED to the owner and Port A (R137), none at a DETACH (R19). -/
def raiseRetired (s : State) (i : Slot) (c : RetireCause) : State :=
  let w := s.win i
  match c with
  | .request p =>
    if w.owner = some p then s
    else raiseOwner s w.owner .windowRetired (s.refOf i) (detail (retiredState w.state).code.toNat)
  | .detach => s
  | .eviction => raiseOwnerAndA s w.owner .windowEvicted (s.refOf i) (low16 s.timing.frameCounter)

/-- Closes the streams into a window that is retired. STREAM_CLOSED goes to the owner unless the retirement is the owner's
own act (R16, R54). -/
def retireStreams (s : State) (i : Slot) (c : RetireCause) : State :=
  let w := s.win i
  let r := s.refOf i
  let s1 := closeStreamInto (closeStreamInto s .A r) .B r
  if (streamInto s .A r || streamInto s .B r) && !c.ownAct w.owner then
    raiseOwner s1 w.owner .streamClosed r c.streamCause
  else s1

/-- Clears the offer of a window that is retired, with OFFER_WITHDRAWN, reason RETIRED, to the target (R16, R145). -/
def retireOffer (s : State) (i : Slot) : State :=
  let w := s.win i
  match w.offer with
  | some o => raise (s.setWin i { w with offer := none }) o.target .offerWithdrawn (s.refOf i) withdrawnByRetirement
  | none => s

/-- The state change of a retirement: a HIDDEN window enters FREE at once and its blocks are released; any other enters
RETIRING with renew-pending cleared and keeps its entry in the list, its surfaces and their charge (R9, R17). -/
def retireState (s : State) (i : Slot) : State :=
  let w := s.win i
  if w.state = .hidden then releaseWindow s i
  else s.setWin i { w with state := .retiring, renewPending := false }

/-- A retirement's first changes: its own notice, then its commit entry with COMMIT_ABANDONED, then its staging (R16). -/
def retireCommit (s : State) (i : Slot) (c : RetireCause) : State :=
  emptyStaging (abandonUnit (raiseRetired s i c) i (s.win i).owner) i

/-- Then the engine operations that name the window (R16, R61). -/
def retireEngine (s : State) (i : Slot) (c : RetireCause) : State := cancelOps (retireCommit s i c) (opNames (s.refOf i))

/-- Then its stream, then its offer (R16). -/
def retireHolds (s : State) (i : Slot) (c : RetireCause) : State := retireOffer (retireStreams (retireEngine s i c) i c) i

/-- Retires a window: its own notice, commit entry and staging, engine operations, stream, offer, and then its state, with
the notices in this order (R16, R17). -/
def retireWindow (s : State) (i : Slot) (c : RetireCause) : State := retireState (retireHolds s i c) i

end Sys2Proof.Machine
end

