-- ==== Sys2Proof/Machine/Device.lean ====
section
/-! DEFINITION. The device requests of Port A: SET_PROFILE, SWITCH_PROFILE, DISPLAY, SET_BACKGROUND, SET_QUOTA, SET_GRACE and
RESTART (R36, R113 to R118, R136, R156). From Port B each is refused with NOT_PERMITTED by the common evaluation (R142). -/

namespace Sys2Proof.Machine

/-! ## SET_PROFILE (R113) -/

/-- The slot is the current profile or the target of the pending switch (R113, step 2). -/
def profileInUse (t : Timing) (slot : ProfileSlot) : Bool := t.current == slot || t.pendingSwitch == some slot

/-- The timing state with a profile slot replaced (R113). -/
def Timing.setProfile (t : Timing) (slot : ProfileSlot) (f : Profile) : Timing :=
  match slot with
  | .P0 => { t with p0 := f }
  | .P1 => { t with p1 := f }

/-- SET_PROFILE: slot number, use and ranges, and then the slot's new contents (R113). -/
def takeSetProfile (s : State) (ps : List Byte) : Verdict :=
  match profileSlotOf (byteAt ps 0) with
  | none => .refuse .badParam
  | some slot =>
    if profileInUse s.timing slot then .refuse .inUse
    else
      match readProfile ps with
      | none => .refuse .badParam
      | some f => .answer { s with timing := s.timing.setProfile slot f } .done []

/-- SET_PROFILE (R113). -/
def execSetProfile (p : Port) (s : State) : Result := .next (complete s p codeSetProfile (takeSetProfile s))

/-! ## SWITCH_PROFILE (R114) -/

/-- SWITCH_PROFILE sets a pending switch to the other slot (R114). -/
def takeSwitchProfile (s : State) (ps : List Byte) : Verdict :=
  match profileSlotOf (byteAt ps 0) with
  | none => .refuse .badParam
  | some slot =>
    if s.timing.pendingSwitch.isSome then .refuse .busy
    else if s.timing.current = slot then .answer s .done []
    else .answer { s with timing := { s.timing with pendingSwitch := some slot } } .done []

/-- SWITCH_PROFILE (R114). -/
def execSwitchProfile (p : Port) (s : State) : Result := .next (complete s p codeSwitchProfile (takeSwitchProfile s))

/-! ## DISPLAY (R116) -/

/-- DISPLAY sets the pending display value (R116). -/
def takeDisplay (s : State) (ps : List Byte) : Verdict :=
  match onOffOf (byteAt ps 0) with
  | none => .refuse .badParam
  | some v => .answer { s with timing := { s.timing with pendingDisplay := some v } } .done []

/-- DISPLAY (R116). -/
def execDisplay (p : Port) (s : State) : Result := .next (complete s p codeDisplay (takeDisplay s))

/-! ## SET_BACKGROUND (R118) -/

/-- SET_BACKGROUND sets the pending background (R118). -/
def takeSetBackground (s : State) (ps : List Byte) : Verdict :=
  .answer { s with timing := { s.timing with pendingBackground := some (colourAt ps 0) } } .done []

/-- SET_BACKGROUND (R118). -/
def execSetBackground (p : Port) (s : State) : Result := .next (complete s p codeSetBackground (takeSetBackground s))

/-! ## SET_QUOTA (R36) -/

/-- SET_QUOTA sets both quotas at once (R36). -/
def takeSetQuota (s : State) (ps : List Byte) : Verdict :=
  let a := natAt ps 0
  let b := natAt ps 1
  if 192 < a ∨ 192 < b ∨ 192 < a + b then .refuse .badParam else .answer { s with quota := ⟨a, b⟩ } .done []

/-- SET_QUOTA (R36). -/
def execSetQuota (p : Port) (s : State) : Result := .next (complete s p codeSetQuota (takeSetQuota s))

/-! ## SET_GRACE (R136) -/

/-- SET_GRACE sets the device grace (R136). -/
def takeSetGrace (s : State) (ps : List Byte) : Verdict :=
  if 250 < natAt ps 0 then .refuse .badParam else .answer { s with grace := natAt ps 0 } .done []

/-- SET_GRACE (R136). -/
def execSetGrace (p : Port) (s : State) : Result := .next (complete s p codeSetGrace (takeSetGrace s))

/-! ## RESTART (R156) -/

/-- The blocks of all non-FREE windows together, in ascending block number (R33). -/
def heldBlocks (s : State) : List Block :=
  allBlocks.filter (fun b => allSlots.any (fun i => (s.win i).blocks.contains b))

/-- The record after a RESTART: FREE with its generation incremented, or as it was where it was FREE already (R22). -/
def restartedWindow (w : Window) : Window := if w.state = .free then w else Window.free (w.gen + 1)

/-- The engine after a RESTART: the operation in flight abandoned, the queue emptied, both streams closed, op counters kept
(R65). The choice is made at the end of the event. -/
def restartEngine (s : State) : State :=
  let s1 : State := match inFlight s with
    | some op => { abandon s op with activity := .idle }
    | none => s
  { s1 with opQueue := [], streams := ⟨none, none⟩ }

/-- A notice list as a RESTART leaves it: emptied, overflow clear, one RESTARTED (R156, R170). -/
def restartedBox (fc : BitVec 16) : NoticeBox := NoticeBox.empty.take .restarted 0 0 fc

/-- The device restart (R156): engine, blocks, charges, records, commit queue, list, view, notices; the rest is kept. -/
def restartDevice (s : State) : State :=
  let s1 := restartEngine s
  let box := restartedBox (low16 s.timing.frameCounter)
  let s2 := allSlots.foldl (fun t i => t.setWin i (restartedWindow (t.win i)))
    { s1 with scrubList := s1.scrubList ++ heldBlocks s1, charge := ⟨0, 0⟩ }
  settleEngine { s2 with commitQueue := [], stack := [], view := [], notices := ⟨box, box⟩ }

/-- RESTART answers DONE (R156). -/
def takeRestart (s : State) (_ : List Byte) : Verdict := .answer (restartDevice s) .done []

/-- RESTART (R156). -/
def execRestart (p : Port) (s : State) : Result := .next (complete s p codeRestart (takeRestart s))

end Sys2Proof.Machine
end

