-- ==== Sys2Proof/Machine/Drawing.lean ====
section
/-! DEFINITION. The drawing requests: OPEN_STREAM, PUT, CLOSE_STREAM, FILL, COPY and CANCEL_OP (chapter 3, R194). -/

namespace Sys2Proof.Machine

/-! ## OPEN_STREAM (R50) -/

/-- OPEN_STREAM: role, open stream, target and rectangle, and then the open stream with its cursor at the rectangle's top-left
(R50). -/
def takeOpenStream (s : State) (p : Port) (ps : List Byte) : Verdict :=
  withWindow s p .owner permitLive (refAt ps 0) (fun i =>
    let w := s.win i
    let rect := rectAt ps 3
    match roleOf (byteAt ps 2) with
    | none => .refuse .badParam
    | some role =>
      if (s.streams.get p).isSome then .refuse .streamOpen
      else
        match resolveRole w role with
        | none => .refuse .badTarget
        | some id =>
          if rectBad rect w then .refuse .badRect
          else .answer (s.setStream p (some ⟨s.refOf i, id, rect, rect.x, rect.y, rect.width * rect.height⟩)) .done [])

/-- OPEN_STREAM (R50). -/
def execOpenStream (p : Port) (s : State) : Result := .next (complete s p codeOpenStream (takeOpenStream s p))

/-! ## PUT (R51 to R53) -/

/-- The byte count of a PUT does not fill whole pixels of the format (R51, step 2). -/
def putLengthBad (fmt : Format) (n : Nat) : Bool :=
  match fmt with
  | .c16 => n % 2 != 0
  | .c24 => n % 3 != 0
  | .m1 => false

/-- The status of an accepted PUT with this many pixels discarded: for M1, fewer than 8 are padding bits (R53). -/
def putStatus (fmt : Format) (discarded : Nat) : Status :=
  match fmt with
  | .m1 => if discarded < 8 then .accepted else .overrun
  | _ => if discarded = 0 then .accepted else .overrun

/-- The stream after a PUT accepts `n` pixels: closed when none remains, else with its cursor advanced (R51, R53). -/
def streamAfter (v : Stream) (n : Nat) : Option Stream :=
  if v.remaining - n = 0 then none
  else
    let cur := advanceCursor v.rect n (v.col, v.row)
    some { v with col := cur.1, row := cur.2, remaining := v.remaining - n }

/-- The PUT payload: op number, pixels accepted, and the stream after the PUT; the cursor fields are 0 when it is closed
(R194). -/
def putPayload (opNumber : Byte) (n : Nat) : Option Stream → List Byte
  | some v => [opNumber] ++ be16 n ++ [0x01] ++ be16 v.col ++ be16 v.row
  | none => [opNumber] ++ be16 n ++ [0x00, 0x00, 0x00, 0x00, 0x00]

/-- PUT: the stream, the byte count and the queue, and then the accepted pixels as a queued operation (R51 to R53). -/
def takePut (s : State) (p : Port) (ps : List Byte) : Verdict :=
  match s.streams.get p with
  | none => .refuse .noStream
  | some v =>
    let fmt := (s.win v.ref.slot).format
    if putLengthBad fmt ps.length then .refuse .badLength
    else if queueFull s then .refuse .busy
    else
      let pixels := pixelsOf fmt ps
      let n := min pixels.length v.remaining
      let after := streamAfter v n
      .answer ((acceptOp s p v.ref v.id (.put v.rect v.col v.row (pixels.take n))).setStream p after)
        (putStatus fmt (pixels.length - n)) (putPayload (s.opCounter.get p) n after)

/-- PUT (R51). -/
def execPut (p : Port) (s : State) : Result := .next (complete s p codePut (takePut s p))

/-! ## CLOSE_STREAM (R54) -/

/-- CLOSE_STREAM closes the port's open stream (R54). -/
def takeCloseStream (s : State) (p : Port) (_ : List Byte) : Verdict :=
  match s.streams.get p with
  | none => .refuse .noStream
  | some _ => .answer (s.setStream p none) .done []

/-- CLOSE_STREAM (R54). -/
def execCloseStream (p : Port) (s : State) : Result := .next (complete s p codeCloseStream (takeCloseStream s p))

/-! ## FILL (R56, R57) -/

/-- The value of a FILL converted to the window's format; none for an M1 value other than 0 and 1 (R56 step 4, R57). -/
def fillValue (fmt : Format) (c : Colour) : Option Pixel :=
  match fmt with
  | .c16 => some (.c16 (to565 c))
  | .c24 => some (.c24 c)
  | .m1 =>
    if c = ⟨0, 0, 0⟩ then some (.m1 false)
    else if c = ⟨0, 0, 1⟩ then some (.m1 true)
    else none

/-- FILL: role, target, rectangle, value and queue, and then the queued operation (R56). -/
def takeFill (s : State) (p : Port) (ps : List Byte) : Verdict :=
  withWindow s p .owner permitLive (refAt ps 0) (fun i =>
    let w := s.win i
    let rect := rectAt ps 3
    match roleOf (byteAt ps 2) with
    | none => .refuse .badParam
    | some role =>
      match resolveRole w role with
      | none => .refuse .badTarget
      | some id =>
        if rectBad rect w then .refuse .badRect
        else
          match fillValue w.format (colourAt ps 11) with
          | none => .refuse .badParam
          | some value =>
            if queueFull s then .refuse .busy
            else .answer (acceptOp s p (s.refOf i) id (.fill rect value)) .accepted [s.opCounter.get p])

/-- FILL (R56). -/
def execFill (p : Port) (s : State) : Result := .next (complete s p codeFill (takeFill s p))

/-! ## COPY (R58) -/

/-- COPY: both references, roles, targets, formats, rectangles and queue, and then the queued operation (R58). -/
def takeCopy (s : State) (p : Port) (ps : List Byte) : Verdict :=
  withWindow s p .owner permitLive (refAt ps 0) (fun i =>
    withWindow s p .owner permitLive (refAt ps 11) (fun j =>
      let src := s.win i
      let dst := s.win j
      let rect := rectAt ps 3
      let x := be16At ps 14
      let y := be16At ps 16
      match roleOf (byteAt ps 2), roleOf (byteAt ps 13) with
      | some srcRole, some dstRole =>
        match resolveRole src srcRole, resolveRole dst dstRole with
        | some srcId, some dstId =>
          if src.format ≠ dst.format then .refuse .badFormat
          else if rectBad rect src || rectBad ⟨x, y, rect.width, rect.height⟩ dst then .refuse .badRect
          else if queueFull s then .refuse .busy
          else .answer (acceptOp s p (s.refOf j) dstId (.copy (s.refOf i) srcId rect x y)) .accepted
            [s.opCounter.get p]
        | _, _ => .refuse .badTarget
      | _, _ => .refuse .badParam))

/-- COPY (R58). -/
def execCopy (p : Port) (s : State) : Result := .next (complete s p codeCopy (takeCopy s p))

/-! ## CANCEL_OP (R60) -/

/-- The operation is the port's own and has this number (R43, R60). -/
def ownOp (p : Port) (n : Byte) (op : EngineOp) : Bool := op.issuer == p && op.opNumber == n

/-- CANCEL_OP removes or abandons the port's own operation of that number; the engine then makes its choice (R60). -/
def takeCancelOp (s : State) (p : Port) (ps : List Byte) : Verdict :=
  let hit := ownOp p (byteAt ps 0)
  if s.opQueue.any hit then .answer (settleEngine (cancelOps s hit)) .done [] else .refuse .notFound

/-- CANCEL_OP (R60). -/
def execCancelOp (p : Port) (s : State) : Result := .next (complete s p codeCancelOp (takeCancelOp s p))

end Sys2Proof.Machine
end

