-- ==== Sys2Proof/Machine/Stacking.lean ====
section
/-! DEFINITION. The active stacking list, bottom to top, and what a placement does to it (chapter 4). -/

namespace Sys2Proof.Machine

/-- The window of a list entry is of tier NORMAL. The tier is read from the record (R66). -/
def isNormal (s : State) (r : WinRef) : Bool := (s.win r.slot).tier == .normal

/-- Puts an entry at the tier boundary: above the run of NORMAL entries and below the OVERLAY entries. It is the top of NORMAL
for a NORMAL window and the bottom of OVERLAY for an OVERLAY window (R67, R73, R76). -/
def atTierBoundary (s : State) (l : List WinRef) (x : WinRef) : List WinRef :=
  l.takeWhile (isNormal s) ++ x :: l.dropWhile (isNormal s)

/-- Puts a window at the top of its tier (R73). -/
def atTop (s : State) (tier : Tier) (l : List WinRef) (x : WinRef) : List WinRef :=
  match tier with
  | .normal => atTierBoundary s l x
  | .overlay => l ++ [x]

/-- Puts a window at the bottom of its tier (R73). -/
def atBottom (s : State) (tier : Tier) (l : List WinRef) (x : WinRef) : List WinRef :=
  match tier with
  | .normal => x :: l
  | .overlay => atTierBoundary s l x

/-- Puts an entry immediately above a named one (R74). -/
def insertAbove (named x : WinRef) : List WinRef → List WinRef
  | [] => [x]
  | r :: rest => if r = named then r :: x :: rest else r :: insertAbove named x rest

/-- Puts an entry immediately below a named one (R74). -/
def insertBelow (named x : WinRef) : List WinRef → List WinRef
  | [] => [x]
  | r :: rest => if r = named then x :: r :: rest else r :: insertBelow named x rest

/-- The window of a state is in the list: SHOWN, LAPSED or RETIRING (R66). -/
def inListState : WinState → Bool
  | .shown => true
  | .lapsed => true
  | .retiring => true
  | _ => false

/-- The named window is present: its record is neither FREE nor of another generation nor HIDDEN (R75). -/
def present (s : State) (named : WinRef) : Bool :=
  (s.win named.slot).gen == named.gen && inListState (s.win named.slot).state

/-- The outcome of a placement: the list, and the reason where the placement was adjusted (R75, R76). -/
structure Placed where
  list : List WinRef
  adjusted : Option (BitVec 16)
deriving DecidableEq, Repr

/-- An ABOVE or BELOW on the list without the placed window: absent first (R75), then the other tier (R76), then as asked
(R74). -/
def placeBeside (s : State) (tier : Tier) (l : List WinRef) (x named : WinRef)
    (insert : WinRef → WinRef → List WinRef → List WinRef) : Placed :=
  if present s named = false then ⟨atTop s tier l x, some adjustedAbsent⟩
  else if (s.win named.slot).tier ≠ tier then ⟨atTierBoundary s l x, some adjustedTier⟩
  else ⟨insert named x l, none⟩

/-- The edit of the list by a placement on a window of this tier. The window's own entry is first taken out (R72 to R77). -/
def place (s : State) (tier : Tier) (x : WinRef) (pl : Placement) : Placed :=
  let l := s.stack.filter (fun r => r ≠ x)
  match pl with
  | .top => ⟨atTop s tier l x, none⟩
  | .bottom => ⟨atBottom s tier l x, none⟩
  | .above named => placeBeside s tier l x named insertAbove
  | .below named => placeBeside s tier l x named insertBelow
  | .out => ⟨l, none⟩

end Sys2Proof.Machine
end

