-- ==== Sys2Proof/Machine/Commit.lean ====
section
/-! DEFINITION. The Commit Unit: units, readiness, application, deferral and expiry (chapter 5). -/

namespace Sys2Proof.Machine

/-! ## Units and readiness (R92 to R94) -/

/-- The units of a commit queue in queue order: each tag-0 entry alone, each group at the position of its first member
(R94). `seen` holds the tags already met. -/
def unitsFrom (seen : List Nat) : List CommitEntry → List (List CommitEntry)
  | [] => []
  | e :: rest =>
    if e.tag = 0 then [e] :: unitsFrom seen rest
    else if e.tag ∈ seen then unitsFrom seen rest
    else (e :: rest.filter (fun x => x.tag == e.tag)) :: unitsFrom (e.tag :: seen) rest

/-- The units of the commit queue (R94). -/
def units (s : State) : List (List CommitEntry) := unitsFrom [] s.commitQueue

/-- A surface is being written: an operation, queued or in flight, has it as its destination, or a stream of either port is
open into it (R63, R92). -/
def beingWritten (s : State) (r : WinRef) (id : SurfaceId) : Bool :=
  s.opQueue.any (fun op => op.dest == r && op.destId == id)
    || (match s.streams.a with
        | some v => v.ref == r && v.id == id
        | none => false)
    || (match s.streams.b with
        | some v => v.ref == r && v.id == id
        | none => false)

/-- An entry is ready unless its window's staging holds a swap and its back surface is being written (R92). -/
def entryReady (s : State) (e : CommitEntry) : Bool :=
  let w := s.win e.ref.slot
  !(w.staging.swap && beingWritten s e.ref (otherId w.front))

/-- A unit is ready when every one of its members is (R93). -/
def unitReady (s : State) (u : List CommitEntry) : Bool := u.all (entryReady s)

/-- The slots of a unit's windows, in order (R95). -/
def unitSlots (u : List CommitEntry) : List Slot := u.map (fun e => e.ref.slot)

/-! ## Application (R95 to R98) -/

/-- The active fields after the staged ones have become active (R82, R95). -/
def applyFields (st : Staging) (a : ActiveFields) : ActiveFields :=
  { x := match st.position with
      | some p => p.1
      | none => a.x
    y := match st.position with
      | some p => p.2
      | none => a.y
    sx := match st.scroll with
      | some p => p.1
      | none => a.sx
    sy := match st.scroll with
      | some p => p.2
      | none => a.sy
    key := match st.key with
      | some (.set c) => some c
      | some .remove => none
      | none => a.key
    ink := st.ink.getD a.ink
    leaseLength := st.leaseLength.getD a.leaseLength
    policy := match st.fallback with
      | some f => f.1
      | none => a.policy
    fallbackColour := match st.fallback with
      | some f => f.2
      | none => a.fallbackColour }

/-- The state a window is in after its commit is applied (R8, R95, R96). -/
def appliedState (st : WinState) (pl : Option Placement) : WinState :=
  match pl with
  | some .out => .hidden
  | some _ => .shown
  | none => if st = .hidden then .hidden else .shown

/-- The record after its commit is applied: fields, front, state, and the lease state, whose counter is L as the application
leaves it in every case of R130. -/
def appliedWindow (w : Window) : Window :=
  let a := applyFields w.staging w.active
  { w with
    state := appliedState w.state w.staging.placement
    front := if w.staging.swap then otherId w.front else w.front
    active := a
    staging := Staging.empty
    leaseCounter := a.leaseLength
    renewPending := false
    graceCounter := 0 }

/-- What the window's placement, if one is staged, makes of the list (R72, R95). -/
def appliedPlacement (s : State) (i : Slot) : Placed :=
  match (s.win i).staging.placement with
  | some pl => place s (s.win i).tier (s.refOf i) pl
  | none => ⟨s.stack, none⟩

/-- The notices of one application: COMMITTED, and PLACEMENT_ADJUSTED where the placement was adjusted. Which of the two comes
first no rule says (R79, R97, log entry 9). -/
def raiseApplied (s : State) (owner : Option Port) (r : WinRef) (fc : BitVec 16) (adjusted : Option (BitVec 16))
    (adjustedFirst : Bool) : State :=
  match adjusted with
  | none => raiseOwner s owner .committed r fc
  | some reason =>
    if adjustedFirst then raiseOwner (raiseOwner s owner .placementAdjusted r reason) owner .committed r fc
    else raiseOwner (raiseOwner s owner .committed r fc) owner .placementAdjusted r reason

/-- Applies one window of a unit: the list is edited, the record takes its new fields and state, its entry leaves the queue,
and its notices are raised (R95 to R98). -/
def applyWindow (fc : BitVec 16) (adjustedFirst : List Nat) (s : State) (i : Slot) : State :=
  let w := s.win i
  let placed := appliedPlacement s i
  let s1 : State := { s.setWin i (appliedWindow w) with
    stack := placed.list
    commitQueue := s.commitQueue.filter (fun e => e.ref.slot ≠ i) }
  raiseApplied s1 w.owner (s.refOf i) fc placed.adjusted (adjustedFirst.contains i.handle)

/-! ## Deferral and expiry (R99) -/

/-- The deferral count at which a unit that is not ready expires (R94, R99). -/
def maxDeferral : Nat := 15

/-- The deferral count of each entry of a unit is incremented (R99). -/
def deferUnit (s : State) (slots : List Slot) : State :=
  { s with commitQueue := s.commitQueue.map (fun e =>
      if e.ref.slot ∈ slots then { e with deferral := e.deferral + 1 } else e) }

/-- A unit is removed unapplied and COMMIT_EXPIRED is raised to the owner for each member, in order (R99). -/
def expireUnit (fc : BitVec 16) (s : State) (slots : List Slot) : State :=
  slots.foldl (fun t i => raiseOwner t (t.win i).owner .commitExpired (t.refOf i) fc)
    { s with commitQueue := s.commitQueue.filter (fun e => e.ref.slot ∉ slots) }

/-- A unit that is not ready is deferred, or expires when its count is already 15 (R94, R99). -/
def holdBack (fc : BitVec 16) (s : State) (slots : List Slot) : State :=
  if (s.commitQueue.filter (fun e => e.ref.slot ∈ slots)).all (fun e => decide (e.deferral < maxDeferral)) then
    deferUnit s slots
  else expireUnit fc s slots

end Sys2Proof.Machine
end

