-- ==== Sys2Proof/Machine/Lease.lean ====
section
/-! DEFINITION. The Lease Monitor's visit to one window and the countdown of one offer (chapters 7 and 8). -/

namespace Sys2Proof.Machine

/-! ## Leases (R129 to R137) -/

/-- The Lease Monitor visits the window at a boundary: it is SHOWN or LAPSED with L above 0 (R129). -/
def leaseVisited (w : Window) : Bool := permitShown w.state && decide (0 < w.active.leaseLength)

/-- The outcomes of the visit of a window whose commit is not applied at the boundary (R129). -/
inductive LeaseOutcome where
  | renewed
  | countDown
  | lapses
  | graceDown
  | evicted
  | unchanged
deriving DecidableEq, Repr

/-- The outcome of the visit, by the record alone (R129). A SHOWN window with L above 0 has a counter above 0 (R128). -/
def leaseOutcome (w : Window) : LeaseOutcome :=
  if leaseVisited w = false then .unchanged
  else if w.renewPending then .renewed
  else if w.state = .shown then
    (if w.leaseCounter = 0 then .unchanged else if w.leaseCounter = 1 then .lapses else .countDown)
  else if w.graceCounter = 0 then .unchanged
  else if w.graceCounter = 1 then .evicted
  else .graceDown

/-- Renewal by renew-pending: the counter is set to L, the flag and the grace counter are cleared, and a LAPSED window returns
to SHOWN with LEASE_RESTORED, cause RENEWAL (R129, R134). -/
def renewWindow (s : State) (i : Slot) : State :=
  let w := s.win i
  let s1 := s.setWin i
    { w with state := .shown, leaseCounter := w.active.leaseLength, renewPending := false, graceCounter := 0 }
  if w.state = .lapsed then raiseOwner s1 w.owner .leaseRestored (s.refOf i) restoredByRenewal else s1

/-- A lapse: the window enters LAPSED with counter 0 and grace G, and LEASE_LAPSED is raised to the owner, and to Port A as
well when the owner is Port B, with the grace given as detail (R9, R133). -/
def lapseWindow (s : State) (i : Slot) : State :=
  let w := s.win i
  let s1 := s.setWin i { w with state := .lapsed, leaseCounter := 0, renewPending := false, graceCounter := s.grace }
  raiseOwnerAndA s1 w.owner .leaseLapsed (s.refOf i) (detail s.grace)

/-- An eviction: the grace counter reaches 0 and the window is retired with Port A's authority (R137). -/
def evictWindow (s : State) (i : Slot) : State :=
  retireWindow (s.setWin i { s.win i with graceCounter := 0 }) i .eviction

/-- The visit of a window whose commit is not applied at the boundary (R129). -/
def visitWindow (s : State) (i : Slot) : State :=
  let w := s.win i
  match leaseOutcome w with
  | .renewed => renewWindow s i
  | .countDown => s.setWin i { w with leaseCounter := w.leaseCounter - 1 }
  | .lapses => lapseWindow s i
  | .graceDown => s.setWin i { w with graceCounter := w.graceCounter - 1 }
  | .evicted => evictWindow s i
  | .unchanged => s

/-! ## Offers (R147) -/

/-- An offer is cleared with OFFER_EXPIRED to both ports (R147). -/
def expireOffer (s : State) (i : Slot) : State :=
  let r := s.refOf i
  let d := low16 s.timing.frameCounter
  raise (raise (s.setWin i { s.win i with offer := none }) .A .offerExpired r d) .B .offerExpired r d

/-- The countdown of the offer on a window, where it carries one (R147). -/
def countOffer (s : State) (i : Slot) : State :=
  let w := s.win i
  match w.offer with
  | some o =>
    if o.frames ≤ 1 then expireOffer s i
    else s.setWin i { w with offer := some { o with frames := o.frames - 1 } }
  | none => s

end Sys2Proof.Machine
end

