-- ==== Sys2Proof/Machine/ScanOut.lean ====
section
/-! DEFINITION. The frame-stable view, the composition of a panel pixel, and the panel signals (chapter 6). These are outputs:
no command changes the state by them, but for the taking of the view at a frame boundary. -/

namespace Sys2Proof.Machine

/-! ## The view (R71, R119) -/

/-- The view's entry for a window of the list (R119). -/
def viewEntry (s : State) (r : WinRef) : ViewEntry :=
  let w := s.win r.slot
  { ref := r, format := w.format, width := w.width, height := w.height, front := w.front, blocks := w.surface w.front,
    x := w.active.x, y := w.active.y, sx := w.active.sx, sy := w.active.sy, key := w.active.key, ink := w.active.ink,
    policy := w.active.policy, fallbackColour := w.active.fallbackColour }

/-- The Scan-Out Unit takes the view of the list as it stands (R71). -/
def takeView (s : State) : State := { s with view := s.stack.map (viewEntry s) }

/-! ## Composition (R120 to R125) -/

/-- A window covers a panel pixel (R120). -/
def ViewEntry.covers (v : ViewEntry) (px py : Nat) : Bool :=
  decide (v.x ≤ (px : Int)) && decide ((px : Int) < v.x + v.width) && decide (v.y ≤ (py : Int))
    && decide ((py : Int) < v.y + v.height)

/-- The surface column shown at a covered panel pixel (R121). -/
def ViewEntry.column (v : ViewEntry) (px : Nat) : Nat := (((px : Int) - v.x + v.sx) % (v.width : Int)).toNat

/-- The surface row shown at a covered panel pixel (R121). -/
def ViewEntry.line (v : ViewEntry) (py : Nat) : Nat := (((py : Int) - v.y + v.sy) % (v.height : Int)).toNat

/-- The pixel that the operation in flight will have left at a place of this surface, where it writes there. -/
def inFlightPixel (s : State) (r : WinRef) (id : SurfaceId) (c l : Nat) : Option Pixel :=
  match inFlight s with
  | some op =>
    if op.dest = r ∧ op.destId = id then
      ((opWrites s op).find? (fun w => w.col == c && w.row == l)).map PixelWrite.value
    else none
  | none => none

/-- The surface pixel shown at a covered panel pixel, read live. Where the operation in flight writes that pixel it shows its
old or its new value, and which is free (R48, R119, log entry 6). -/
def ViewEntry.pixel (s : State) (v : ViewEntry) (px py : Nat) : Pixel :=
  let c := v.column px
  let l := v.line py
  let old := readPixel s.store v.format (v.format.stride v.width) v.blocks c l
  match inFlightPixel s v.ref v.front c l with
  | some new => if Config.shownNew s.draws px py then new else old
  | none => old

/-- A surface pixel is transparent (R123). -/
def transparent (key : Option Colour) : Pixel → Bool
  | .m1 b => !b
  | .c16 p => match key with
    | some k => p == to565 k
    | none => false
  | .c24 c => match key with
    | some k => c == k
    | none => false

/-- A 5-bit component widened to 8 bits by repeating its top bits (R124). -/
def widen5 (v : BitVec 5) : Byte := v ++ v.extractLsb' 2 3

/-- A 6-bit component widened to 8 bits by repeating its top bits (R124). -/
def widen6 (v : BitVec 6) : Byte := v ++ v.extractLsb' 4 2

/-- The colour an opaque pixel is output as (R124). -/
def outputColour (ink : Colour) : Pixel → Colour
  | .c24 c => c
  | .c16 p => ⟨widen5 (p.extractLsb' 11 5), widen6 (p.extractLsb' 5 6), widen5 (p.extractLsb' 0 5)⟩
  | .m1 _ => ink

/-- What a window drawn from its surface gives at a covered pixel: its colour, or nothing where it is transparent. -/
def ViewEntry.drawSurface (s : State) (v : ViewEntry) (px py : Nat) : Option Colour :=
  let p := v.pixel s px py
  if transparent v.key p then none else some (outputColour v.ink p)

/-- What a window of the view gives at a panel pixel, by its state read live (R119, R122). A window in no state of the list
gives nothing. -/
def ViewEntry.draw (s : State) (v : ViewEntry) (px py : Nat) : Option Colour :=
  if v.covers px py then
    match (s.win v.ref.slot).state with
    | .shown => v.drawSurface s px py
    | .retiring => v.drawSurface s px py
    | .lapsed =>
      match v.policy with
      | .keep => v.drawSurface s px py
      | .fill => some v.fallbackColour
      | .vanish => none
    | .hidden => none
    | .free => none
  else none

/-- The walk of the view from its top entry: the first opaque result, else the background (R125). -/
def composeFrom (s : State) (px py : Nat) : List ViewEntry → Colour
  | [] => s.timing.background
  | v :: rest =>
    match v.draw s px py with
    | some c => c
    | none => composeFrom s px py rest

/-- The colour of pixel (px, py) of the active area while the display is ON (section 6.4). -/
def composePixel (s : State) (px py : Nat) : Colour := composeFrom s px py s.view.reverse

/-! ## The raster (R109, R110, R117) -/

/-- The profile in a slot (R108). -/
def Timing.profile (t : Timing) : ProfileSlot → Profile
  | .P0 => t.p0
  | .P1 => t.p1

/-- The current profile (R108). -/
def Timing.currentProfile (t : Timing) : Profile := t.profile t.current

/-- The horizontal blanking of a profile (R108). -/
def Profile.hBlank (f : Profile) : Nat := f.hFront + f.hSync + f.hBack

/-- The vertical blanking of a profile (R108). -/
def Profile.vBlank (f : Profile) : Nat := f.vFront + f.vSync + f.vBack

/-- The pixel clocks of one line (R109). -/
def Profile.lineClocks (f : Profile) : Nat := f.activeWidth + f.hBlank

/-- The lines of one frame period (R109). -/
def Profile.frameLines (f : Profile) : Nat := f.vBlank + f.activeHeight

/-- The frame period in periods of the 64 MHz REFCLK (R110). -/
def Profile.framePeriod (f : Profile) : Nat := f.lineClocks * f.frameLines * f.divisor

/-- The level of a signal: high when it is active and its polarity ACTIVE_HIGH, or inactive and ACTIVE_LOW (R109). -/
def Polarity.level : Polarity → Bool → Bool
  | .activeHigh, active => active
  | .activeLow, active => !active

/-- The panel outputs in one pixel clock; a level is true for high. PCLK runs on without end (R109). -/
structure PanelPins where
  hsync : Bool
  vsync : Bool
  de : Bool
  rgb : Colour
deriving DecidableEq, Repr

/-- HSYNC is active in this clock of a line: pixel time, front porch, then sync (R109). -/
def Profile.hsyncActive (f : Profile) (clock : Nat) : Bool :=
  decide (f.activeWidth + f.hFront ≤ clock) && decide (clock < f.activeWidth + f.hFront + f.hSync)

/-- VSYNC is active in this line of a frame period: front porch lines, then sync lines (R109). -/
def Profile.vsyncActive (f : Profile) (line : Nat) : Bool :=
  decide (f.vFront ≤ line) && decide (line < f.vFront + f.vSync)

/-- DE is active: the display is ON, the line is an active one and the clock lies in its pixel time (R109, R117). -/
def deActive (s : State) (line clock : Nat) : Bool :=
  let f := s.timing.currentProfile
  s.timing.display && decide (f.vBlank ≤ line) && decide (line < f.frameLines) && decide (clock < f.activeWidth)

/-- The panel outputs in clock `clock` of line `line` of the frame period, both counted from 0 at the frame boundary
(R109, R117). -/
def panelPins (s : State) (line clock : Nat) : PanelPins :=
  let f := s.timing.currentProfile
  { hsync := f.hsync.level (f.hsyncActive clock)
    vsync := f.vsync.level (f.vsyncActive line)
    de := f.de.level (deActive s line clock)
    rgb := if deActive s line clock then composePixel s clock (line - f.vBlank) else Colour.black }

end Sys2Proof.Machine
end

