-- ==== Sys2Proof/Machine/Boundary.lean ====
section
/-! DEFINITION. The frame boundary (R111): what it fixes when it occurs, its pieces of work, and the order in which they are
done. The boundary first does what no order touches (the Timing Generator's own work, then removal, R69), then the pieces of
work in the order the command gives (log entry 9), and last takes the view (R71) and lets the engine make its choice. -/

namespace Sys2Proof.Machine

/-! ## The Timing Generator's work (R111, R115, R117, R118) -/

/-- The counter is incremented, and a pending switch, display value and background take effect (R111). -/
def timingBoundary (t : Timing) : Timing :=
  { t with
    frameCounter := t.frameCounter + 1
    current := t.pendingSwitch.getD t.current
    pendingSwitch := none
    display := t.pendingDisplay.getD t.display
    pendingDisplay := none
    background := t.pendingBackground.getD t.background
    pendingBackground := none }

/-! ## Removal (R18, R70) -/

/-- Every window that was RETIRING when the boundary occurred leaves the list and enters FREE, windows in ascending order of
handle (R33, R70). -/
def removeRetiring (s : State) : State :=
  let gone := allSlots.filter (fun i => (s.win i).state == .retiring)
  let s1 : State := { s with stack := s.stack.filter (fun r => !gone.contains r.slot) }
  gone.foldl releaseWindow s1

/-! ## What the boundary fixes when it occurs -/

/-- What stands when the boundary occurs: which windows have a commit that is ready, and so is applied (R63, R92, R104), which
windows the Lease Monitor visits (R129), and which LAPSED windows an applied commit restores (R134). -/
structure BoundaryPlan where
  applied : List Slot
  visited : List Slot
  restored : List Slot
  switched : Option ProfileSlot
  adjustedFirst : List Nat
deriving DecidableEq, Repr

/-- The windows of the units that are ready as the engine and the streams stand (R92, R93). -/
def readySlots (s : State) : List Slot := ((units s).filter (unitReady s)).flatMap unitSlots

/-- The plan of a boundary, from the state in which it occurs (log entry 10). -/
def boundaryPlan (order : BoundaryOrder) (s : State) : BoundaryPlan :=
  let applied := readySlots s
  { applied := applied
    visited := allSlots.filter (fun i => leaseVisited (s.win i))
    restored := applied.filter (fun i =>
      (s.win i).state == .lapsed && (s.win i).staging.placement != some .out)
    switched := s.timing.pendingSwitch
    adjustedFirst := order.adjustedFirst }

/-! ## The pieces of work -/

/-- A boundary under way: the state, and the units the walk has not met. -/
structure BoundaryRun where
  state : State
  toWalk : List (List Slot)

/-- The walk meets a unit: applied when it is ready, else deferred or expired. A unit that an eviction has removed is not met
(R94, R104). -/
def walkUnit (plan : BoundaryPlan) (s : State) (slots : List Slot) : State :=
  if slots.all (armed s) = false then s
  else if slots.all (fun i => plan.applied.contains i) then
    slots.foldl (applyWindow (low16 s.timing.frameCounter) plan.adjustedFirst) s
  else holdBack (low16 s.timing.frameCounter) s slots

/-- The Lease Monitor's visit of a window. One whose commit is applied at this boundary is renewed by the application (R130):
the visit raises LEASE_RESTORED, cause COMMIT, where it restores the window (R134). -/
def leaseVisit (plan : BoundaryPlan) (s : State) (i : Slot) : State :=
  if plan.visited.contains i = false then s
  else if plan.applied.contains i then
    (if plan.restored.contains i then raiseOwner s (s.win i).owner .leaseRestored (s.refOf i) restoredByCommit else s)
  else visitWindow s i

/-- FRAME_BOUNDARY to a subscribed port (R167). -/
def frameNotice (s : State) (p : Port) : State :=
  if s.subscribed.get p then raiseDevice s p .frameBoundary (low16 s.timing.frameCounter) else s

/-- PROFILE_SWITCHED to both ports where a switch was applied (R115). -/
def profileNotice (plan : BoundaryPlan) (s : State) : State :=
  match plan.switched with
  | some slot =>
    let d := detail slot.code.toNat
    raiseDevice (raiseDevice s .A .profileSwitched d) .B .profileSwitched d
  | none => s

/-- One piece of boundary work. -/
def boundaryTask (plan : BoundaryPlan) (run : BoundaryRun) : BoundaryTask → BoundaryRun
  | .profileNotice => { run with state := profileNotice plan run.state }
  | .walkUnit =>
    match run.toWalk with
    | [] => run
    | u :: rest => { state := walkUnit plan run.state u, toWalk := rest }
  | .leaseVisit h =>
    match slotOfHandle h with
    | some i => { run with state := leaseVisit plan run.state i }
    | none => run
  | .offerCount h =>
    match slotOfHandle h with
    | some i => { run with state := countOffer run.state i }
    | none => run
  | .frameNotice p => { run with state := frameNotice run.state p }

/-- Every piece of work of a boundary whose walk has this many units, each once, in the order of the table of R111. -/
def allTasks (nUnits : Nat) : List BoundaryTask :=
  .profileNotice :: List.replicate nUnits .walkUnit ++ allSlots.map (fun i => .leaseVisit i.handle)
    ++ allSlots.map (fun i => .offerCount i.handle) ++ [.frameNotice .A, .frameNotice .B]

/-- The pieces of work in a chosen order: each that is due at its first place, and those not chosen last, in their own
order. -/
def arrange {α : Type} [DecidableEq α] : List α → List α → List α
  | [], due => due
  | t :: rest, due => if t ∈ due then t :: arrange rest (due.erase t) else arrange rest due

/-! ## The boundary -/

/-- The frame boundary, with its pieces of work done in this order (R69, R71, R111). -/
def frameBoundary (order : BoundaryOrder) (s : State) : State :=
  let plan := boundaryPlan order s
  let s1 := removeRetiring { s with timing := timingBoundary s.timing }
  let walk := (units s).map unitSlots
  let run := (arrange order.tasks (allTasks walk.length)).foldl (boundaryTask plan) ⟨s1, walk⟩
  settleEngine (takeView run.state)

end Sys2Proof.Machine
end

