-- ==== Sys2Proof/Machine/Events.lean ====
section
/-! DEFINITION. The internal events: engine completions, the frame boundary, and the four countdown outcomes as events of their
own (R28, R47, R99, R111, R133, R137, R147). -/

namespace Sys2Proof.Machine

/-! ## OPERATION_COMPLETION (R47) -/

/-- The operation in flight has written its last pixel: it leaves the queue, OP_DONE is raised to its issuer, and the engine
makes its choice (R47). -/
def completeOp (s : State) (op : EngineOp) : State :=
  let s1 : State := { s with store := storeAfter s op (opWrites s op), opQueue := s.opQueue.tail, activity := .idle }
  settleEngine (raise s1 op.issuer .opDone op.dest (detail op.opNumber.toNat))

/-- OPERATION_COMPLETION (R47). With no operation in flight the event does not arise (log entry 2). An operation that would
leave its surface faults (log entry 16). -/
def execOperationCompletion (s : State) : Result :=
  match inFlight s with
  | some op => if opFits s op then .next (completeOp s op) else .fault .outsideSurface
  | none => .next s

/-! ## SCRUB_COMPLETION (R28) -/

/-- The block under scrub is zero, leaves the head of the scrub list and joins the free set; the engine makes its choice
(R28, R46). -/
def completeScrub (s : State) (b : Block) : State :=
  settleEngine { s with
    store := s.store.scrub b
    scrubList := s.scrubList.tail
    freeSet := insertBlock b s.freeSet
    activity := .idle }

/-- SCRUB_COMPLETION (R28). With no block under scrub the event does not arise (log entry 2). -/
def execScrubCompletion (s : State) : Result :=
  match s.activity, s.scrubList with
  | .scrubbing, b :: _ => .next (completeScrub s b)
  | _, _ => .next s

/-! ## FRAME_BOUNDARY (R111) -/

/-- FRAME_BOUNDARY (R111). -/
def execFrameBoundary (order : BoundaryOrder) (s : State) : Result := .next (frameBoundary order s)

/-! ## The countdown outcomes

A frame boundary makes these outcomes itself. As commands of their own they make one of them, for the window named, where the
state holds what the event's rule asks, and change nothing where it does not (log entry 3). -/

/-- The unit of a commit queue that holds the window in a slot. -/
def unitOf (s : State) (i : Slot) : List Slot :=
  match commitEntry s i with
  | some e => unitSlots (s.commitQueue.filter (sameUnit e))
  | none => []

/-- The unit of the window in a slot is due to expire: it is not ready, and its deferral count is 15 (R94, R99). -/
def expiryDue (s : State) (i : Slot) : Bool :=
  match commitEntry s i with
  | some e => !unitReady s (s.commitQueue.filter (sameUnit e)) && decide (maxDeferral ≤ e.deferral)
  | none => false

/-- COMMIT_EXPIRY (R99): the unit is removed unapplied and COMMIT_EXPIRED is raised for each member. -/
def execCommitExpiry (h : Nat) (s : State) : Result :=
  .next (match slotOfHandle h with
    | some i => if expiryDue s i then expireUnit (low16 s.timing.frameCounter) s (unitOf s i) else s
    | none => s)

/-- The window's visit has this outcome, and its commit is not about to be applied (R129, R130). -/
def visitDue (s : State) (i : Slot) (o : LeaseOutcome) : Bool :=
  leaseOutcome (s.win i) == o && !(readySlots s).contains i

/-- LAPSE (R133): a lease counter reaches 0. -/
def execLapse (h : Nat) (s : State) : Result :=
  .next (match slotOfHandle h with
    | some i => if visitDue s i .lapses then lapseWindow s i else s
    | none => s)

/-- EVICTION (R137): a grace counter reaches 0. -/
def execEviction (h : Nat) (s : State) : Result :=
  .next (match slotOfHandle h with
    | some i => if visitDue s i .evicted then settleEngine (evictWindow s i) else s
    | none => s)

/-- The offer on a window is due to expire: its next count is 0 (R147). -/
def offerDue (s : State) (i : Slot) : Bool :=
  match (s.win i).offer with
  | some o => decide (o.frames ≤ 1)
  | none => false

/-- OFFER_EXPIRY (R147): an offer's count reaches 0. -/
def execOfferExpiry (h : Nat) (s : State) : Result :=
  .next (match slotOfHandle h with
    | some i => if offerDue s i then expireOffer s i else s
    | none => s)

end Sys2Proof.Machine
end

