-- ==== Sys2Proof/Machine/General.lean ====
section
/-! DEFINITION. The general requests: NOP, STATUS, COLLECT, SUBSCRIBE, DETACH, and a request of an undefined code
(R154, R164, R166, R183, R185, R186). -/

namespace Sys2Proof.Machine

/-! ## NOP (R186) -/

/-- NOP changes no state and answers DONE. -/
def takeNop (s : State) (_ : List Byte) : Verdict := .answer s .done []

/-- NOP (R186). -/
def execNop (p : Port) (s : State) : Result := .next (complete s p codeNop (takeNop s))

/-! ## STATUS (R185, R194) -/

/-- The STATUS payload (R194). -/
def statusPayload (s : State) (p : Port) : List Byte :=
  [byteOf s.freeSet.length, byteOf s.scrubList.length, byteOf (s.charge.get p), byteOf (s.quota.get p),
   s.timing.current.code,
   (match s.timing.pendingSwitch with
    | none => 0xFF
    | some slot => slot.code),
   flagByte s.timing.display]
  ++ be32 s.timing.frameCounter.toNat
  ++ [byteOf s.opQueue.length, byteOf s.commitQueue.length, byteOf (s.notices.get p).list.length,
      (s.links.get p).lastRejection.code]

/-- STATUS changes no state and returns its figures (R185). -/
def takeStatus (s : State) (p : Port) (_ : List Byte) : Verdict := .answer s .done (statusPayload s p)

/-- STATUS (R185). -/
def execStatus (p : Port) (s : State) : Result := .next (complete s p codeStatus (takeStatus s p))

/-! ## COLLECT (R164) -/

/-- The most notices one COLLECT removes (R164). -/
def collectMax : Nat := 8

/-- The notice record (R194). -/
def noticeBytes (n : Notice) : List Byte :=
  [n.kind.code, byteOf n.handle, byteOf n.gen.val, byteOf n.occurrences] ++ be16 n.detail.toNat

/-- A notice list after the removal of its oldest notices; the overflow flag is cleared when the list is then empty
(R163, R164). -/
def NoticeBox.dropOldest (b : NoticeBox) (n : Nat) : NoticeBox :=
  { list := b.list.drop n, overflow := b.overflow && !(b.list.drop n).isEmpty }

/-- COLLECT: up to 8 of the oldest notices are removed and returned (R164). -/
def takeCollect (s : State) (p : Port) (_ : List Byte) : Verdict :=
  let b := s.notices.get p
  let removed := b.list.take collectMax
  .answer (s.setNotices p (b.dropOldest collectMax)) .done (byteOf removed.length :: removed.flatMap noticeBytes)

/-- COLLECT (R164). -/
def execCollect (p : Port) (s : State) : Result := .next (complete s p codeCollect (takeCollect s p))

/-! ## SUBSCRIBE (R166) -/

/-- SUBSCRIBE: the port's subscription takes the value carried (R166). -/
def takeSubscribe (s : State) (p : Port) (ps : List Byte) : Verdict :=
  match onOffOf (byteAt ps 0) with
  | none => .refuse .badParam
  | some v => .answer { s with subscribed := s.subscribed.set p v } .done []

/-- SUBSCRIBE (R166). -/
def execSubscribe (p : Port) (s : State) : Result := .next (complete s p codeSubscribe (takeSubscribe s p))

/-! ## DETACH (R154) -/

/-- The windows a DETACH retires: those the port owns in HIDDEN, SHOWN or LAPSED, in ascending order of handle (R154). Those
already RETIRING stay so. -/
def detachedSlots (s : State) (p : Port) : List Slot :=
  allSlots.filter (fun i => (s.win i).owner == some p && permitLive (s.win i).state)

/-- The windows whose offers are made to the port. -/
def offeredTo (s : State) (p : Port) : List Slot :=
  allSlots.filter (fun i => match (s.win i).offer with
    | some o => o.target == p
    | none => false)

/-- The order in which several such offers are cleared, which no rule gives (log entry 8). -/
def declineOrder (n : Nat) : List Slot → List Slot
  | [] => []
  | [i] => [i]
  | l => arrange ((Config.offerOrder n).filterMap slotOfHandle) l

/-- An offer is cleared with OFFER_DECLINED to the offerer (R150, R154). -/
def declineOffer (reason : BitVec 16) (s : State) (i : Slot) : State :=
  let w := s.win i
  raiseOwner (s.setWin i { w with offer := none }) w.owner .offerDeclined (s.refOf i) reason

/-- A DETACH's first change: the port's windows are retired, in ascending order of handle (R154). -/
def detachWindows (s : State) (p : Port) : State := (detachedSlots s p).foldl (fun t i => retireWindow t i .detach) s

/-- Then the port's operations are cancelled, wherever their destination lies, and its stream is closed (R65, R154). -/
def detachEngine (s : State) (p : Port) : State :=
  (cancelOps (detachWindows s p) (fun op => op.issuer == p)).setStream p none

/-- Then the offers made to the port are cleared (R154). -/
def detachOffers (s : State) (p : Port) : State :=
  let s1 := detachEngine s p
  (declineOrder s1.draws (offeredTo s1 p)).foldl (declineOffer declinedByDetach) s1

/-- The port's state cleared by its DETACH, in the order of R154: windows, operations, stream, offers made to the port, then its
notice list and subscription. The engine makes its choice last. -/
def detachPort (s : State) (p : Port) : State :=
  let s1 := detachOffers s p
  settleEngine { s1 with
    notices := s1.notices.set p NoticeBox.empty
    subscribed := s1.subscribed.set p false
    draws := s1.draws + 1 }

/-- DETACH answers DONE (R154). -/
def takeDetach (s : State) (p : Port) (_ : List Byte) : Verdict := .answer (detachPort s p) .done []

/-- DETACH (R154). -/
def execDetach (p : Port) (s : State) : Result := .next (complete s p codeDetach (takeDetach s p))

/-! ## UNDEFINED_REQUEST (R183) -/

/-- The completion of a request whose code the LWC240 does not define (R183, R190). The common evaluation refuses it with
BAD_REQUEST before anything is taken. -/
def execUndefinedRequest (p : Port) (s : State) : Result :=
  .next (match (s.links.get p).phase with
    | .processing r =>
      if r.code ∈ definedCodes then s else (evaluate p r (fun _ => .refuse .badRequest)).settle s p r.tag
    | _ => s)

end Sys2Proof.Machine
end

