-- ==== Sys2Proof/Machine/Link.lean ====
section
/-! DEFINITION. The pin events: hardware reset, the assertion and the release of a port's select (R22, chapter 10). -/

namespace Sys2Proof.Machine

/-! ## HARDWARE_RESET (R22, R187) -/

/-- A port's link after a hardware reset. Select is the host's: where it is asserted, the transaction goes on, clocks out FFh
and is not judged (R187). -/
def resetLink (l : Link) : Link :=
  { Link.reset with transaction := l.transaction.map (fun _ => { out := [], carriesHeld := false, judged := false }) }

/-- The part after the RESET input: every block in its reset state, the frame store's content undefined anew (R22, R38). -/
def hardwareReset (s : State) : State :=
  { State.reset with
    store := FrameStore.undefinedAll (s.store.epoch + 1)
    links := ⟨resetLink s.links.a, resetLink s.links.b⟩
    draws := s.draws
    pending := s.pending }

/-- HARDWARE_RESET (R22). -/
def execHardwareReset (s : State) : Result := .next (hardwareReset s)

/-! ## SELECT_ASSERT (R176) -/

/-- The flags byte formed at an assertion of the port's select (R176). -/
def flagsAt (s : State) (p : Port) : Byte :=
  flagsByte (attention s p) (s.links.get p).rejection (s.notices.get p).overflow

/-- The transaction an assertion of the port's select begins: the bytes to be clocked out, by the link state (R176). -/
def beginTransaction (s : State) (p : Port) : Transaction :=
  match (s.links.get p).phase with
  | .idle => { out := [], carriesHeld := false, judged := true }
  | .held r => { out := responseFrame r.status r.tag (flagsAt s p) r.payload, carriesHeld := true, judged := true }
  | .processing r => { out := notReadyFrame r.tag (flagsAt s p), carriesHeld := false, judged := true }

/-- The assertion of a port's select. While select is asserted there is no further assertion (log entry 2). -/
def selectAssert (s : State) (p : Port) : State :=
  let l := s.links.get p
  match l.transaction with
  | some _ => s
  | none => s.setLink p { l with transaction := some (beginTransaction s p) }

/-- SELECT_ASSERT (R176). -/
def execSelectAssert (p : Port) (s : State) : Result := .next (selectAssert s p)

/-- Byte `n` that a transaction clocks out: the frame fixed at its assertion, then FFh throughout (R176). -/
def Transaction.outByte (t : Transaction) (n : Nat) : Byte := t.out.getD n 0xFF

/-- The data the port clocks out for the first `n` bytes of the transaction in progress; `none` while select is released and
the line is in high impedance (R172, R176). -/
def dataOut (s : State) (p : Port) (n : Nat) : Option (List Byte) :=
  (s.links.get p).transaction.map (fun t => (List.range n).map t.outByte)

/-- Bit `k` that a transaction sends, counted from its first: each byte goes most significant bit first (R172). -/
def Transaction.outBit (t : Transaction) (k : Nat) : Bool := (t.outByte (k / 8)).getLsbD (7 - k % 8)

/-- The level of the port's data-out line after `k` falling edges of the clock in the transaction in progress: the first bit stands on
the line from the assertion of select, and each falling edge brings the next. `none` while select is released and the line is in
high impedance (R172). -/
def dataLine (s : State) (p : Port) (k : Nat) : Option Bool := (s.links.get p).transaction.map (fun t => t.outBit k)

/-! ## SELECT_RELEASE (R178 to R181) -/

/-- The held response was clocked out whole: the transaction carries it, and as many complete bytes were clocked as it has
(R178). -/
def consumes (t : Transaction) (n : Nat) : Bool := t.carriesHeld && decide (t.out.length ≤ n)

/-- The first phase of a release: a held response clocked out whole is discarded, the port becomes IDLE and its rejection flag
is cleared (R178). -/
def consumePhase (t : Transaction) (n : Nat) (l : Link) : Link :=
  match l.phase with
  | .held _ => if consumes t n then { l with phase := .idle, rejection := false } else l
  | _ => l

/-- A rejection: the flag is set and the kind recorded (R179). -/
def rejectFrame (k : RejectKind) (l : Link) : Link := { l with rejection := true, lastRejection := k }

/-- The second phase of a release: what the transaction carried is judged (R179, R180). -/
def judgePhase (c : Carried) (l : Link) : Link :=
  match c with
  | .nothing => l
  | .malformed k => rejectFrame k l
  | .request r =>
    match l.phase with
    | .idle => { l with phase := .processing r }
    | .processing _ => rejectFrame .busyLink l
    | .held _ => rejectFrame .responsePending l

/-- The link of a port after a release of its select (R178 to R181, R187). -/
def releaseLink (l : Link) (bits : List Bool) : Link :=
  match l.transaction with
  | none => l
  | some t =>
    let bytes := completeBytes bits
    let l1 := { l with transaction := none }
    if t.judged then judgePhase (judgeBytes bytes) (consumePhase t bytes.length l1) else l1

/-- SELECT_RELEASE (R178). While select is released there is nothing to release (log entry 2). -/
def execSelectRelease (p : Port) (bits : List Bool) (s : State) : Result :=
  .next (s.setLink p (releaseLink (s.links.get p) bits))

end Sys2Proof.Machine
end

