-- ==== Sys2Proof/Machine/Staging.lean ====
section
/-! DEFINITION. The staging and commit requests: STAGE, DISCARD, ARM, DISARM and RENEW (R83 to R91, R131). -/

namespace Sys2Proof.Machine

/-! ## STAGE (R83 to R85) -/

/-- The mask supplies a key or a swap on an M1 window, or an ink on a C16 or C24 window (R83, step 3). -/
def stageFormatBad (m : BitVec 16) (fmt : Format) : Bool :=
  if fmt = .m1 then m.getLsbD 3 || m.getLsbD 7 else m.getLsbD 4

/-- STAGE: the checks of R83 in order, then the merge of R85. -/
def takeStage (s : State) (p : Port) (ps : List Byte) : Verdict :=
  withWindow s p .owner permitLive (refAt ps 0) (fun i =>
    let w := s.win i
    let m := stageMask ps
    let v := checkStage i w ps
    if armed s i then .refuse .armed
    else if undefinedMask m || v.anyBad then .refuse .badParam
    else if stageFormatBad m w.format then .refuse .badFormat
    else if v.swap && !w.double then .refuse .badTarget
    else .answer (s.setWin i { w with staging := v.mergeInto w.staging }) .done [])

/-- STAGE (R83). -/
def execStage (p : Port) (s : State) : Result := .next (complete s p codeStage (takeStage s p))

/-! ## DISCARD (R86) -/

/-- DISCARD empties the staging of an unarmed window (R86). -/
def takeDiscard (s : State) (p : Port) (ps : List Byte) : Verdict :=
  withWindow s p .owner permitLive (refAt ps 0) (fun i =>
    if armed s i then .refuse .armed else .answer (emptyStaging s i) .done [])

/-- DISCARD (R86). -/
def execDiscard (p : Port) (s : State) : Result := .next (complete s p codeDiscard (takeDiscard s p))

/-! ## ARM (R89, R90) -/

/-- The reference checks of an ARM, in list order; the first refusal ends them (R12, R89). -/
def armCheck (s : State) (p : Port) : List RawRef → Except Status (List Slot)
  | [] => .ok []
  | r :: rest =>
    match refCheck s p .owner permitLive r with
    | .error st => .error st
    | .ok i =>
      match armCheck s p rest with
      | .error st => .error st
      | .ok l => .ok (i :: l)

/-- The first window of the list that is armed or has nothing staged gives the status (R89, step 2). -/
def armRefusal (s : State) : List Slot → Option Status
  | [] => none
  | i :: rest =>
    if armed s i then some .armed
    else if (s.win i).staging = Staging.empty then some .nothingStaged
    else armRefusal s rest

/-- Appends an entry per window, in list order, all with one tag and deferral count 0 (R90). -/
def armWindows (s : State) (slots : List Slot) (tag : Nat) : State :=
  { s with commitQueue := s.commitQueue ++ slots.map (fun i => ⟨s.refOf i, tag, 0⟩) }

/-- The tag an ARM of these windows takes: 0 for one window, else the lowest free tag (R88, R90). -/
def armTag (s : State) (slots : List Slot) : Option Nat :=
  if slots.length ≤ 1 then some 0 else lowestFreeTag s

/-- ARM: reference checks, its own checks in order, then the entries (R89, R90). -/
def takeArm (s : State) (p : Port) (ps : List Byte) : Verdict :=
  match armCheck s p (armRefs ps) with
  | .error st => .refuse st
  | .ok slots =>
    if ¬ slots.Nodup then .refuse .badParam
    else
      match armRefusal s slots with
      | some st => .refuse st
      | none =>
        match armTag s slots with
        | none => .refuse .busy
        | some tag => .answer (armWindows s slots tag) .done [byteOf tag]

/-- ARM (R90). -/
def execArm (p : Port) (s : State) : Result := .next (complete s p codeArm (takeArm s p))

/-! ## DISARM (R91) -/

/-- DISARM removes the window's entry, or its whole group, and keeps the staging (R91). -/
def takeDisarm (s : State) (p : Port) (ps : List Byte) : Verdict :=
  withWindow s p .owner permitLive (refAt ps 0) (fun i =>
    match commitEntry s i with
    | none => .refuse .notArmed
    | some e => .answer (removeUnit s i) .done [byteOf (s.commitQueue.filter (sameUnit e)).length])

/-- DISARM (R91). -/
def execDisarm (p : Port) (s : State) : Result := .next (complete s p codeDisarm (takeDisarm s p))

/-! ## RENEW (R131) -/

/-- RENEW sets renew-pending on a leased window that is SHOWN or LAPSED (R131). -/
def takeRenew (s : State) (p : Port) (ps : List Byte) : Verdict :=
  withWindow s p .owner permitShown (refAt ps 0) (fun i =>
    let w := s.win i
    .answer (if w.active.leaseLength = 0 then s else s.setWin i { w with renewPending := true }) .done [])

/-- RENEW (R131). -/
def execRenew (p : Port) (s : State) : Result := .next (complete s p codeRenew (takeRenew s p))

end Sys2Proof.Machine
end

