-- ==== Sys2Proof/Machine/Transfer.lean ====
section
/-! DEFINITION. The transfer requests: OFFER, ACCEPT, DECLINE and WITHDRAW (chapter 8). -/

namespace Sys2Proof.Machine

/-- The frames a new offer has remaining (R146). -/
def offerFrames : Nat := 120

/-! ## OFFER (R146) -/

/-- OFFER sets an offer to the other port and raises OFFER_RECEIVED to it, with the window's blocks as detail (R145, R146). -/
def takeOffer (s : State) (p : Port) (ps : List Byte) : Verdict :=
  withWindow s p .owner permitLive (refAt ps 0) (fun i =>
    let w := s.win i
    if w.tier = .overlay then .refuse .badState
    else if w.offer.isSome then .refuse .badState
    else .answer (raise (s.setWin i { w with offer := some ⟨p.other, offerFrames⟩ }) p.other .offerReceived (s.refOf i)
      (detail w.blocks.length)) .done [])

/-- OFFER (R146). -/
def execOffer (p : Port) (s : State) : Result := .next (complete s p codeOffer (takeOffer s p))

/-! ## ACCEPT (R148, R149) -/

/-- The window carries an offer to the port (R148, R150). -/
def offersTo (w : Window) (p : Port) : Bool :=
  match w.offer with
  | some o => o.target == p
  | none => false

/-- The charges after a transfer: the old owner's falls and the new owner's rises by the window's blocks (R37). -/
def moveCharge (s : State) (w : Window) (p : Port) : State :=
  let k := w.blocks.length
  let s1 := match w.owner with
    | some o => s.setCharge o (s.charge.get o - k)
    | none => s
  s1.setCharge p (s1.charge.get p + k)

/-- The old owner's stream into the window is closed, with STREAM_CLOSED to it (R54, R149). -/
def transferStream (s : State) (i : Slot) (old : Option Port) : State :=
  match old with
  | some o =>
    if streamInto s o (s.refOf i) then
      raise (s.setStream o none) o .streamClosed (s.refOf i) closedByTransfer
    else s
  | none => s

/-- The transfer of a window to a port, its notices to the old owner in the order STREAM_CLOSED, COMMIT_ABANDONED,
OFFER_ACCEPTED (R149). -/
def transferWindow (s : State) (i : Slot) (p : Port) : State :=
  let w := s.win i
  let s1 := transferStream s i w.owner
  let s2 := abandonUnit s1 i w.owner
  let s3 := raiseOwner s2 w.owner .offerAccepted (s.refOf i) (detail w.blocks.length)
  (moveCharge s3 w p).setWin i { w with owner := some p, offer := none, staging := Staging.empty }

/-- ACCEPT: an offer to the port, its quota, and then the transfer (R148, R149). -/
def takeAccept (s : State) (p : Port) (ps : List Byte) : Verdict :=
  withWindow s p .any permitLive (refAt ps 0) (fun i =>
    let w := s.win i
    if offersTo w p = false then .refuse .noOffer
    else if s.quota.get p < s.charge.get p + w.blocks.length then .refuse .quota
    else .answer (transferWindow s i p) .done (refBytes (s.refOf i)))

/-- ACCEPT (R149). -/
def execAccept (p : Port) (s : State) : Result := .next (complete s p codeAccept (takeAccept s p))

/-! ## DECLINE (R150) -/

/-- DECLINE clears the offer made to the port, with OFFER_DECLINED, reason DECLINE, to the owner (R150). -/
def takeDecline (s : State) (p : Port) (ps : List Byte) : Verdict :=
  withWindow s p .any permitLive (refAt ps 0) (fun i =>
    if offersTo (s.win i) p = false then .refuse .noOffer
    else .answer (declineOffer declinedByDecline s i) .done [])

/-- DECLINE (R150). -/
def execDecline (p : Port) (s : State) : Result := .next (complete s p codeDecline (takeDecline s p))

/-! ## WITHDRAW (R151) -/

/-- WITHDRAW clears the owner's offer, with OFFER_WITHDRAWN, reason WITHDRAW, to the target (R151). -/
def takeWithdraw (s : State) (p : Port) (ps : List Byte) : Verdict :=
  withWindow s p .owner permitLive (refAt ps 0) (fun i =>
    let w := s.win i
    match w.offer with
    | none => .refuse .noOffer
    | some o =>
      .answer (raise (s.setWin i { w with offer := none }) o.target .offerWithdrawn (s.refOf i) withdrawnByWithdraw)
        .done [])

/-- WITHDRAW (R151). -/
def execWithdraw (p : Port) (s : State) : Result := .next (complete s p codeWithdraw (takeWithdraw s p))

end Sys2Proof.Machine
end

