-- ==== Sys2Proof/Machine/Windows.lean ====
section
/-! DEFINITION. The window requests: CREATE, RETIRE, QUERY, LIST_OWNED and LIST_STACK (chapter 1, R29, R30, R80, R194, R195). -/

namespace Sys2Proof.Machine

/-! ## CREATE (R13, R14, R29, R30) -/

/-- The parameters of a CREATE, in range (R13, R191). -/
structure CreateParams where
  format : Format
  width : Nat
  height : Nat
  surfaces : Nat
  tier : Tier
deriving DecidableEq, Repr

/-- The parameters of a CREATE, where all are in range (R13 step 1, R191). -/
def readCreate (ps : List Byte) : Option CreateParams :=
  match formatOf (byteAt ps 0), tierOf (byteAt ps 6) with
  | some fmt, some tier =>
    let w := be16At ps 1
    let h := be16At ps 3
    let n := natAt ps 5
    if inRange 1 480 w && inRange 1 320 h && inRange 1 2 n then some ⟨fmt, w, h, n, tier⟩ else none
  | _, _ => none

/-- The blocks one surface of the window needs (R24). -/
def CreateParams.perSurface (c : CreateParams) : Nat := surfaceBlocks c.format c.width c.height

/-- The blocks a CREATE needs: the surface count times those of one surface (R13, R29). -/
def CreateParams.needed (c : CreateParams) : Nat := c.surfaces * c.perSurface

/-- The lowest-numbered FREE slot (R1). -/
def lowestFreeSlot (s : State) : Option Slot := allSlots.find? (fun i => (s.win i).state == .free)

/-- The record of a new window: HIDDEN, with the creation values of R14 and the lowest-numbered free blocks, the first of them
identity 0's and the others identity 1's (R30). -/
def createdWindow (c : CreateParams) (p : Port) (g : Gen) (taken : List Block) : Window :=
  { state := .hidden, gen := g, owner := some p, tier := c.tier, format := c.format, width := c.width, height := c.height,
    surface0 := taken.take c.perSurface,
    surface1 := if c.surfaces = 2 then some (taken.drop c.perSurface) else none,
    front := 0, active := ActiveFields.created, staging := Staging.empty, offer := none, leaseCounter := 0,
    renewPending := false, graceCounter := 0 }

/-- A CREATE that passes every check: the blocks leave the free set, the charge rises and the record is made (R14, R30). -/
def createWindow (s : State) (p : Port) (c : CreateParams) (i : Slot) : State :=
  let s1 : State := { s with freeSet := s.freeSet.drop c.needed }
  (s1.setCharge p (s.charge.get p + c.needed)).setWin i
    (createdWindow c p (s.win i).gen (s.freeSet.take c.needed))

/-- CREATE: parameters, slot, quota, space, and then the new window (R13, R14). -/
def takeCreate (s : State) (p : Port) (ps : List Byte) : Verdict :=
  match readCreate ps with
  | none => .refuse .badParam
  | some c =>
    match lowestFreeSlot s with
    | none => .refuse .noHandle
    | some i =>
      if s.quota.get p < s.charge.get p + c.needed then .refuse .quota
      else if s.freeSet.length < c.needed then .refuse .noSpace
      else .answer (createWindow s p c i) .done (refBytes (s.refOf i))

/-- CREATE (R14). -/
def execCreate (p : Port) (s : State) : Result := .next (complete s p codeCreate (takeCreate s p))

/-! ## RETIRE (R15) -/

/-- RETIRE: the owner, or Port A, retires the window; the engine then makes its choice (R15, R46). -/
def takeRetire (s : State) (p : Port) (ps : List Byte) : Verdict :=
  withWindow s p .ownerOrA permitLive (refAt ps 0) (fun i =>
    .answer (settleEngine (retireWindow s i (.request p))) .done [])

/-- RETIRE (R15). -/
def execRetire (p : Port) (s : State) : Result := .next (complete s p codeRetire (takeRetire s p))

/-! ## QUERY (R20, R195) -/

/-- A value in its slot of the QUERY record, or zero bytes where it is absent (R195). -/
def slotBytes {α : Type} (size : Nat) (bytes : α → List Byte) : Option α → List Byte
  | some v => bytes v
  | none => List.replicate size 0

/-- The staged placement in its 3-byte slot. What stands in the reference bytes of TOP, BOTTOM and OUT no rule states
(log entry 7). -/
def placementBytes (n : Nat) (pl : Placement) : List Byte :=
  pl.code :: match pl with
    | .above r => refBytes r
    | .below r => refBytes r
    | _ => [Config.unstatedByte n, Config.unstatedByte (n + 1)]

/-- The staged key in its 4-byte slot. What stands in the colour bytes of REMOVE no rule states (log entry 7). -/
def keyBytes (n : Nat) : StagedKey → List Byte
  | .set c => 0x01 :: colourBytes c
  | .remove => [0x00, Config.unstatedByte n, Config.unstatedByte (n + 1), Config.unstatedByte (n + 2)]

/-- The staging mask: the bit of each staged field that holds a value (R192, R195). -/
def stagingMask (st : Staging) : Nat :=
  st.position.isSome.toNat + 2 * st.scroll.isSome.toNat + 4 * st.placement.isSome.toNat + 8 * st.key.isSome.toNat
    + 16 * st.ink.isSome.toNat + 32 * st.leaseLength.isSome.toNat + 64 * st.fallback.isSome.toNat
    + 128 * st.swap.toNat

/-- The 23 bytes of staged values, every field in its slot (R195). -/
def stagedBytes (n : Nat) (st : Staging) : List Byte :=
  slotBytes 4 (fun p => beSigned p.1 ++ beSigned p.2) st.position
  ++ slotBytes 4 (fun p => be16 p.1 ++ be16 p.2) st.scroll
  ++ slotBytes 3 (placementBytes n) st.placement
  ++ slotBytes 4 (keyBytes (n + 2)) st.key
  ++ slotBytes 3 colourBytes st.ink
  ++ slotBytes 1 (fun l => [byteOf l]) st.leaseLength
  ++ slotBytes 4 (fun f => f.1.code :: colourBytes f.2) st.fallback

/-- The commit entry in the QUERY record (R195). -/
def entryBytes : Option CommitEntry → List Byte
  | some e => [0x01, byteOf e.tag, byteOf e.deferral]
  | none => [0x00, 0x00, 0x00]

/-- The offer in the QUERY record (R195). -/
def offerBytes : Option Offer → List Byte
  | some o => [0x01, portCode o.target, byteOf o.frames]
  | none => [0x00, 0x00, 0x00]

/-- The number of surfaces of a window (R4). -/
def Window.surfaceCount (w : Window) : Nat := if w.double then 2 else 1

/-- The QUERY record of the window in a slot, `n` the count of free values drawn before it (R195). -/
def queryRecord (s : State) (n : Nat) (i : Slot) : List Byte :=
  let w := s.win i
  let a := w.active
  [byteOf i.handle, byteOf w.gen.val, w.state.code, ownerCode w.owner, w.tier.code, w.format.code]
  ++ be16 w.width ++ be16 w.height ++ be16 w.stride
  ++ [byteOf w.surfaceCount, byteOf w.front.val, byteOf w.surface0.length]
  ++ beSigned a.x ++ beSigned a.y ++ be16 a.sx ++ be16 a.sy
  ++ (flagByte a.key.isSome :: slotBytes 3 colourBytes a.key)
  ++ colourBytes a.ink
  ++ [byteOf a.leaseLength, a.policy.code] ++ colourBytes a.fallbackColour
  ++ be16 (stagingMask w.staging) ++ stagedBytes n w.staging
  ++ entryBytes (commitEntry s i) ++ offerBytes w.offer
  ++ [byteOf w.leaseCounter, flagByte w.renewPending, byteOf w.graceCounter]
  ++ w.blocks.map (fun b => byteOf b.val)

/-- The free values a QUERY record may hold. -/
def queryDraws : Nat := 5

/-- QUERY returns the whole record and changes no state but the model's own count of draws (R20). -/
def takeQuery (s : State) (p : Port) (ps : List Byte) : Verdict :=
  withWindow s p .any permitAll (refAt ps 0) (fun i =>
    .answer { s with draws := s.draws + queryDraws } .done (queryRecord s s.draws i))

/-- QUERY (R20). -/
def execQuery (p : Port) (s : State) : Result := .next (complete s p codeQuery (takeQuery s p))

/-! ## LIST_OWNED and LIST_STACK (R21, R80, R194) -/

/-- The non-FREE windows a port owns, in ascending order of handle (R21). -/
def ownedSlots (s : State) (p : Port) : List Slot :=
  allSlots.filter (fun i => (s.win i).state != .free && (s.win i).owner == some p)

/-- The LIST_OWNED entry of a window: handle, generation and state (R194). -/
def ownedBytes (s : State) (i : Slot) : List Byte :=
  [byteOf i.handle, byteOf (s.win i).gen.val, (s.win i).state.code]

/-- The LIST_OWNED payload (R194). -/
def ownedPayload (s : State) (p : Port) : List Byte :=
  byteOf (ownedSlots s p).length :: (ownedSlots s p).flatMap (ownedBytes s)

/-- LIST_OWNED changes no state (R21). -/
def takeListOwned (s : State) (p : Port) (_ : List Byte) : Verdict := .answer s .done (ownedPayload s p)

/-- LIST_OWNED (R21). -/
def execListOwned (p : Port) (s : State) : Result := .next (complete s p codeListOwned (takeListOwned s p))

/-- The LIST_STACK entry of a window: handle, generation, owner, tier and state (R194). -/
def stackBytes (s : State) (r : WinRef) : List Byte :=
  let w := s.win r.slot
  refBytes r ++ [ownerCode w.owner, w.tier.code, w.state.code]

/-- The LIST_STACK payload, from bottom to top (R194). -/
def stackPayload (s : State) : List Byte := byteOf s.stack.length :: s.stack.flatMap (stackBytes s)

/-- LIST_STACK changes no state (R80). -/
def takeListStack (s : State) (_ : List Byte) : Verdict := .answer s .done (stackPayload s)

/-- LIST_STACK (R80). -/
def execListStack (p : Port) (s : State) : Result := .next (complete s p codeListStack (takeListStack s))

end Sys2Proof.Machine
end

