-- ==== Sys2Proof/Machine/Dispatch.lean ====
section
/-! DEFINITION. The dispatch of a command to its meaning: one arm per row of spec/opcode_table.json, in the table's order. -/

namespace Sys2Proof.Machine

def exec (i : Instr) (s : State) : Host.Outcome State Fault Refusal :=
  match i with
  | .hardwareReset => Sys2Proof.Machine.execHardwareReset s
  | .selectAssert p => Sys2Proof.Machine.execSelectAssert p s
  | .selectRelease p bits => Sys2Proof.Machine.execSelectRelease p bits s
  | .nop p => Sys2Proof.Machine.execNop p s
  | .status p => Sys2Proof.Machine.execStatus p s
  | .collect p => Sys2Proof.Machine.execCollect p s
  | .subscribe p => Sys2Proof.Machine.execSubscribe p s
  | .detach p => Sys2Proof.Machine.execDetach p s
  | .create p => Sys2Proof.Machine.execCreate p s
  | .retire p => Sys2Proof.Machine.execRetire p s
  | .query p => Sys2Proof.Machine.execQuery p s
  | .listOwned p => Sys2Proof.Machine.execListOwned p s
  | .listStack p => Sys2Proof.Machine.execListStack p s
  | .stage p => Sys2Proof.Machine.execStage p s
  | .discard p => Sys2Proof.Machine.execDiscard p s
  | .arm p => Sys2Proof.Machine.execArm p s
  | .disarm p => Sys2Proof.Machine.execDisarm p s
  | .renew p => Sys2Proof.Machine.execRenew p s
  | .openStream p => Sys2Proof.Machine.execOpenStream p s
  | .put p => Sys2Proof.Machine.execPut p s
  | .closeStream p => Sys2Proof.Machine.execCloseStream p s
  | .fill p => Sys2Proof.Machine.execFill p s
  | .copy p => Sys2Proof.Machine.execCopy p s
  | .cancelOp p => Sys2Proof.Machine.execCancelOp p s
  | .offer p => Sys2Proof.Machine.execOffer p s
  | .accept p => Sys2Proof.Machine.execAccept p s
  | .decline p => Sys2Proof.Machine.execDecline p s
  | .withdraw p => Sys2Proof.Machine.execWithdraw p s
  | .setProfile p => Sys2Proof.Machine.execSetProfile p s
  | .switchProfile p => Sys2Proof.Machine.execSwitchProfile p s
  | .display p => Sys2Proof.Machine.execDisplay p s
  | .setBackground p => Sys2Proof.Machine.execSetBackground p s
  | .setQuota p => Sys2Proof.Machine.execSetQuota p s
  | .setGrace p => Sys2Proof.Machine.execSetGrace p s
  | .restart p => Sys2Proof.Machine.execRestart p s
  | .undefinedRequest p => Sys2Proof.Machine.execUndefinedRequest p s
  | .operationCompletion => Sys2Proof.Machine.execOperationCompletion s
  | .scrubCompletion => Sys2Proof.Machine.execScrubCompletion s
  | .frameBoundary order => Sys2Proof.Machine.execFrameBoundary order s
  | .commitExpiry h => Sys2Proof.Machine.execCommitExpiry h s
  | .lapse h => Sys2Proof.Machine.execLapse h s
  | .eviction h => Sys2Proof.Machine.execEviction h s
  | .offerExpiry h => Sys2Proof.Machine.execOfferExpiry h s

end Sys2Proof.Machine
end

