-- ==== Sys2Proof/Safety.lean ====
section
/-! DEFINITION. What holds of the part in every run: the invariants the manual's prose states, each over one block's state, and
what a safe step is. Statements cite them by name; tests check them at the reset state. -/

namespace Sys2Proof.Safety

open Sys2Proof.Machine

/-! ## Notices -/

/-- The keys of a notice list, kind and handle (R159). -/
def noticeKeys (l : List Notice) : List (NoticeKind × Nat) := l.map (fun n => (n.kind, n.handle))

/-- A notice list is sound: at most 32 notices, at most one per key, occurrences in 1..255, and at least one notice while the
overflow flag is set (R159, R160, R163). -/
abbrev boxOk (b : NoticeBox) : Prop :=
  b.list.length ≤ 32 ∧ (noticeKeys b.list).Nodup ∧ (∀ n ∈ b.list, 1 ≤ n.occurrences ∧ n.occurrences ≤ 255) ∧
    (b.overflow = true → b.list ≠ [])

/-- Both notice lists are sound. -/
abbrev NoticesInv (s : State) : Prop := boxOk s.notices.a ∧ boxOk s.notices.b

/-! ## The block pool -/

/-- The blocks held by the windows, slot by slot. -/
def windowBlocks (s : State) : List Block := allSlots.flatMap (fun i => (s.win i).blocks)

/-- The number of blocks in the surfaces of the windows a port owns (R34). -/
def ownedBlockCount (s : State) (p : Port) : Nat :=
  (allSlots.map (fun i => if (s.win i).owner = some p then (s.win i).blocks.length else 0)).sum

/-- The block pool is sound: the free set is in ascending order without duplicates (R26), every block is in exactly one of the
free set, the scrub list and the windows' surfaces (R23), a FREE record has no owner, a record without an owner has no surfaces
(R7), and each port's charge is the number of its windows' blocks (R34). -/
abbrev PoolInv (s : State) : Prop :=
  s.freeSet.Pairwise (· < ·) ∧
  (s.freeSet ++ s.scrubList ++ windowBlocks s).Perm allBlocks ∧
  (∀ i ∈ allSlots, (s.win i).state = .free → (s.win i).owner = none) ∧
  (∀ i ∈ allSlots, (s.win i).owner = none → (s.win i).blocks = []) ∧
  (s.charge.a = ownedBlockCount s .A ∧ s.charge.b = ownedBlockCount s .B)

/-- The quotas together never exceed 192 (R36). -/
abbrev QuotaInv (s : State) : Prop := s.quota.a + s.quota.b ≤ 192

/-! ## The frame store -/

/-- The frame store is in its canonical form. -/
abbrev StoreInv (s : State) : Prop := s.store.wf = true

/-- A block is zero in all its bytes: scrubbed since the last hardware reset and with no byte listed (R26). -/
abbrev blockZero (f : FrameStore) (b : Block) : Prop :=
  b ∉ f.undefinedBlocks ∧ ∀ c ∈ f.cells, c.1 / 2048 ≠ b.val

/-- Every free block is zero (R26), and no window holds a block that was never scrubbed. -/
abbrev ZeroInv (s : State) : Prop :=
  (∀ b ∈ s.freeSet, blockZero s.store b) ∧ (∀ b ∈ windowBlocks s, b ∉ s.store.undefinedBlocks)

/-! ## The Surface Engine -/

/-- The engine's queue holds at most 8 operations (R41), and its activity agrees with the queue and the scrub list (R46). -/
abbrev EngineInv (s : State) : Prop :=
  s.opQueue.length ≤ 8 ∧
  (s.activity = .operating → s.opQueue ≠ []) ∧
  (s.activity = .scrubbing → s.scrubList ≠ []) ∧
  (s.activity = .idle → s.opQueue = [] ∧ s.scrubList = [])

/-! ## The commit queue -/

/-- A window may be armed: HIDDEN, SHOWN or LAPSED (R87). -/
abbrev live (w : Window) : Prop := permitLive w.state = true

/-- The commit queue is sound: it holds each window at most once, under its current generation, only windows in HIDDEN, SHOWN
or LAPSED with a staging that is not empty, with tags and deferral counts in 0..15, and the members of one group have one
owner and one deferral count (R87, R99). -/
abbrev CommitInv (s : State) : Prop :=
  (s.commitQueue.map (fun e => e.ref.slot)).Nodup ∧
  (∀ e ∈ s.commitQueue, e.ref.gen = (s.win e.ref.slot).gen ∧ live (s.win e.ref.slot) ∧
    (s.win e.ref.slot).staging ≠ Staging.empty ∧ e.tag ≤ 15 ∧ e.deferral ≤ 15) ∧
  (∀ e ∈ s.commitQueue, ∀ x ∈ s.commitQueue, e.tag ≠ 0 → x.tag = e.tag →
    (s.win x.ref.slot).owner = (s.win e.ref.slot).owner ∧ x.deferral = e.deferral)

/-- The members of each group stand consecutive in the commit queue: the run that begins at the first of them holds them all (R87). -/
abbrev ConsecutiveInv (s : State) : Prop :=
  ∀ e ∈ s.commitQueue, e.tag ≠ 0 →
    (s.commitQueue.dropWhile (fun x => x.tag ≠ e.tag)).takeWhile (fun x => x.tag = e.tag) =
      s.commitQueue.filter (fun x => x.tag = e.tag)

/-! ## The stacking list and the view -/

/-- The stacking list is sound: it holds each window once, exactly the windows in SHOWN, LAPSED or RETIRING under their current
generation (R66), and every NORMAL entry lies below every OVERLAY entry (R67). -/
abbrev StackInv (s : State) : Prop :=
  s.stack.Nodup ∧
  (∀ r ∈ s.stack, (s.win r.slot).gen = r.gen ∧ inListState (s.win r.slot).state = true) ∧
  (∀ i ∈ allSlots, inListState (s.win i).state = true → s.refOf i ∈ s.stack) ∧
  s.stack.Pairwise (fun x y => isNormal s y = true → isNormal s x = true)

/-- The frame-stable view is the list with the records' own values (R71, R119). -/
abbrev ViewInv (s : State) : Prop := s.view = s.stack.map (viewEntry s)

/-! ## Staged and active fields -/

/-- The reference a placement carries, if it is ABOVE or BELOW (R72). -/
def placementNamed : Placement → Option WinRef
  | .above r => some r
  | .below r => some r
  | .top => none
  | .bottom => none
  | .out => none

/-- A position component lies in -1023..1023 (R5, R84). -/
abbrev inPositionRange (v : Int) : Prop := -1023 ≤ v ∧ v ≤ 1023

/-- The staged values of the window in a slot lie within the ranges STAGE checks: no ABOVE or BELOW names the window itself, an M1
window stages no key and no swap, only an M1 window an ink, and only a double-surfaced window a swap (R83, R84). -/
abbrev stagingOk (i : Slot) (w : Window) : Prop :=
  (∀ v ∈ w.staging.position, inPositionRange v.1 ∧ inPositionRange v.2) ∧
  (∀ v ∈ w.staging.scroll, v.1 < w.width ∧ v.2 < w.height) ∧
  (∀ pl ∈ w.staging.placement, ∀ r ∈ placementNamed pl, r.slot ≠ i) ∧
  (w.format = .m1 → w.staging.key = none ∧ w.staging.swap = false) ∧
  (w.format ≠ .m1 → w.staging.ink = none) ∧
  (w.staging.swap = true → w.double = true) ∧
  (∀ l ∈ w.staging.leaseLength, l ≤ 250)

/-- The active fields and the front of a window lie within their ranges (R4, R5). -/
abbrev activeOk (w : Window) : Prop :=
  inPositionRange w.active.x ∧ inPositionRange w.active.y ∧ w.active.sx < w.width ∧ w.active.sy < w.height ∧
  (w.format = .m1 → w.active.key = none) ∧ (w.format ≠ .m1 → w.active.ink = Colour.white) ∧
  w.active.leaseLength ≤ 250 ∧ (w.double = false → w.front = 0)

/-- Every window's staged and active fields are within their ranges. -/
abbrev FieldsInv (s : State) : Prop :=
  ∀ i ∈ allSlots, (s.win i).state ≠ .free → stagingOk i (s.win i) ∧ activeOk (s.win i)

/-! ## Surfaces, operations and streams -/

/-- The size of a window and the lengths of its block lists agree with R3, R4 and R24. -/
abbrev shapeOk (w : Window) : Prop :=
  1 ≤ w.width ∧ w.width ≤ 480 ∧ 1 ≤ w.height ∧ w.height ≤ 320 ∧
  w.surface0.length = surfaceBlocks w.format w.width w.height ∧
  (∀ l ∈ w.surface1, l.length = surfaceBlocks w.format w.width w.height) ∧ (w.surface1 = none → w.front = 0)

/-- A rectangle with at least one pixel lies wholly inside a window's surface (R50). -/
def inside (r : Rect) (w : Window) : Bool :=
  decide (1 ≤ r.width) && decide (1 ≤ r.height) && decide (r.x + r.width ≤ w.width) && decide (r.y + r.height ≤ w.height)

/-- The pixels of a rectangle from a cursor on, in stream order (R49, R51). -/
def pixelsFrom (r : Rect) (col row : Nat) : Nat := (r.y + r.height - 1 - row) * r.width + (r.x + r.width - col)

/-- A cursor lies inside its rectangle (R49). -/
def cursorInside (r : Rect) (col row : Nat) : Bool :=
  decide (r.x ≤ col) && decide (col < r.x + r.width) && decide (r.y ≤ row) && decide (row < r.y + r.height)

/-- A reference and an identity name a surface of a window in HIDDEN, SHOWN or LAPSED. -/
def surfaceLive (s : State) (r : WinRef) (id : SurfaceId) : Bool :=
  (s.win r.slot).gen == r.gen && permitLive (s.win r.slot).state && (id == 0 || (s.win r.slot).double)

/-- The format of a pixel value. -/
def pixelFormat : Pixel → Format
  | .c16 _ => .c16
  | .c24 _ => .c24
  | .m1 _ => .m1

/-- The body of an operation lies inside the surfaces it names (R50, R51, R56, R58). -/
def bodyInside (s : State) (dest : Window) : OpBody → Bool
  | .put rect c r pixels =>
    inside rect dest && cursorInside rect c r && decide (1 ≤ pixels.length) && decide (pixels.length ≤ pixelsFrom rect c r)
      && pixels.all (fun p => pixelFormat p == dest.format)
  | .fill rect value => inside rect dest && pixelFormat value == dest.format
  | .copy src srcId rect x y =>
    surfaceLive s src srcId && inside rect (s.win src.slot) && inside ⟨x, y, rect.width, rect.height⟩ dest
      && (s.win src.slot).format == dest.format

/-- Every window has the shape of its format and size, every open stream is its owner's and has its cursor inside its rectangle with
the pixels from the cursor on remaining (R49), and every operation of the engine queue names live surfaces and lies inside
them (R42, R61). -/
abbrev ShapeInv (s : State) : Prop :=
  (∀ i ∈ allSlots, (s.win i).state ≠ .free → shapeOk (s.win i)) ∧
  (∀ p ∈ [Port.A, Port.B], ∀ v ∈ s.streams.get p,
    surfaceLive s v.ref v.id = true ∧ (s.win v.ref.slot).owner = some p ∧ inside v.rect (s.win v.ref.slot) = true ∧
      cursorInside v.rect v.col v.row = true ∧ v.remaining = pixelsFrom v.rect v.col v.row) ∧
  (∀ op ∈ s.opQueue, surfaceLive s op.dest op.destId = true ∧ bodyInside s (s.win op.dest.slot) op.body = true)

/-- The pixel an operation writes in column `c` of row `r` of its destination, if it writes one there (R55, R57, R59): inside a FILL's
rectangle its value, inside a COPY's destination what its source holds, along a PUT's places its pixels in stream order. -/
def opPixel (s : State) (op : EngineOp) (c r : Nat) : Option Pixel :=
  match op.body with
  | .fill rect v =>
    if rect.x ≤ c ∧ c < rect.x + rect.width ∧ rect.y ≤ r ∧ r < rect.y + rect.height then some v else none
  | .copy src srcId rect x y =>
    if x ≤ c ∧ c < x + rect.width ∧ y ≤ r ∧ r < y + rect.height then
      some (readPixel s.store (s.win src.slot).format (s.win src.slot).stride ((s.win src.slot).surface srcId)
        (rect.x + (c - x)) (rect.y + (r - y)))
    else none
  | .put rect col row pixels =>
    if rect.x ≤ c ∧ c < rect.x + rect.width ∧ rect.y ≤ r ∧
        (row - rect.y) * rect.width + (col - rect.x) ≤ (r - rect.y) * rect.width + (c - rect.x) then
      pixels[(r - rect.y) * rect.width + (c - rect.x) - ((row - rect.y) * rect.width + (col - rect.x))]?
    else none

/-- How many pixels an operation writes before the one in column `c` of row `r` (R51, R55, R57). -/
def pixelsBefore (body : OpBody) (c r : Nat) : Nat :=
  match body with
  | .fill rect _ => (r - rect.y) * rect.width + (c - rect.x)
  | .copy _ _ rect x y => (r - y) * rect.width + (c - x)
  | .put rect col row _ =>
    (r - rect.y) * rect.width + (c - rect.x) - ((row - rect.y) * rect.width + (col - rect.x))

/-- How many pixels an operation writes in all. -/
def pixelCount : OpBody → Nat
  | .fill rect _ => rect.width * rect.height
  | .copy _ _ rect _ _ => rect.width * rect.height
  | .put _ _ _ pixels => pixels.length

/-- What an event that may abandon the operation in flight leaves in the operation's destination (R55, R57, R59, R60). After a PUT or a FILL a
leading run of its pixels that leaves out the last is written, and every other pixel is as it was. After a COPY each pixel is as it was
or the one the COPY writes there, and at least one that it writes is as it was. -/
def AbandonedPixels (s t : State) (op : EngineOp) : Prop :=
  let w := s.win op.dest.slot
  let old := fun c r => readPixel s.store w.format w.stride (w.surface op.destId) c r
  let left := fun c r => readPixel t.store w.format w.stride (w.surface op.destId) c r
  match op.body with
  | .copy _ _ _ _ _ =>
    (∀ c r : Nat, c < w.width → r < w.height → left c r = old c r ∨ opPixel s op c r = some (left c r)) ∧
    ∃ c r : Nat, opPixel s op c r ≠ none ∧ left c r = old c r
  | body =>
    ∃ k : Nat, k < pixelCount body ∧ ∀ c r : Nat, c < w.width → r < w.height →
      left c r = if pixelsBefore body c r < k then (opPixel s op c r).getD (old c r) else old c r

/-- The bytes of a surface's blocks past its end and the unused bits of an M1 row's last byte are zero (R25). -/
def PaddingInv (s : State) : Prop :=
  ∀ (i : Slot) (id : SurfaceId),
    (∀ o : Nat, (s.win i).stride * (s.win i).height ≤ o → readSurface s.store ((s.win i).surface id) o = 0) ∧
    ((s.win i).format = .m1 → ∀ r c : Nat, r < (s.win i).height → (s.win i).width ≤ c → c < 8 * (s.win i).stride →
      (readSurface s.store ((s.win i).surface id) (r * (s.win i).stride + c / 8)).getLsbD (7 - c % 8) = false)

/-! ## Leases and offers -/

/-- The lease state of a record is sound (R5, R9, R128): L and the grace counter lie in 0..250; on a window in HIDDEN, SHOWN or
LAPSED the counter lies between 0 and L and is 0 only where the window is LAPSED or L is 0; a LAPSED window has counter 0 and a
lease; only a LAPSED or RETIRING window has a grace counter, and a staged lease length lies in 0..250. -/
abbrev leaseOk (w : Window) : Prop :=
  w.active.leaseLength ≤ 250 ∧ w.graceCounter ≤ 250 ∧
  (live w → w.leaseCounter ≤ w.active.leaseLength ∧
    (w.leaseCounter = 0 → w.state = .lapsed ∨ w.active.leaseLength = 0)) ∧
  (w.state = .lapsed → w.leaseCounter = 0 ∧ 0 < w.active.leaseLength) ∧
  (w.state = .hidden ∨ w.state = .shown → w.graceCounter = 0) ∧
  (w.state = .hidden ∨ w.state = .retiring → w.renewPending = false) ∧
  (∀ l ∈ w.staging.leaseLength, l ≤ 250)

/-- Every record's lease state is sound and the device grace lies in 0..250 (R128). -/
abbrev LeaseInv (s : State) : Prop := s.grace ≤ 250 ∧ ∀ i ∈ allSlots, leaseOk (s.win i)

/-- Authority and offers of a record are sound: an OVERLAY window is Port A's and carries no offer (R143), and an offer stands
only on a window in HIDDEN, SHOWN or LAPSED, names the port that does not own it, and has 1..120 frames remaining (R145). -/
abbrev offerOk (w : Window) : Prop :=
  (w.state ≠ .free → w.owner ≠ none) ∧
  (w.state ≠ .free → w.tier = .overlay → w.owner = some .A ∧ w.offer = none) ∧
  (∀ o ∈ w.offer, live w ∧ w.owner = some o.target.other ∧ 1 ≤ o.frames ∧ o.frames ≤ 120)

/-- Every record's offer is sound. -/
abbrev OfferInv (s : State) : Prop := ∀ i ∈ allSlots, offerOk (s.win i)

/-! ## The link -/

/-- A transaction that carries a held response carries the one the port still holds, so that a release consumes what it sent
(R175, R178). -/
abbrev linkOk (l : Link) : Prop :=
  ∀ t ∈ l.transaction, t.carriesHeld = true →
    match l.phase with
    | .held r => ∃ flags, t.out = responseFrame r.status r.tag flags r.payload
    | _ => False

/-- Both links are sound. -/
abbrev LinkInv (s : State) : Prop := linkOk s.links.a ∧ linkOk s.links.b

/-! ## Words that statements use -/

/-- The port has this request in processing (R175). -/
abbrev Processing (s : State) (p : Port) (r : Request) : Prop := (s.links.get p).phase = .processing r

/-- A reference as sent names the window in a slot: its handle is the slot's, the record is not FREE, and its generation is the
record's (R11, steps 1 and 2). -/
abbrev Names (s : State) (r : RawRef) (i : Slot) : Prop :=
  r.handle.toNat = i.val + 1 ∧ (s.win i).state ≠ .free ∧ r.gen.toNat = (s.win i).gen.val

/-- A reference as sent names a window that the port owns, in HIDDEN, SHOWN or LAPSED: it passes the reference check of every
request of R10 that requires ownership, RENEW apart. -/
abbrev NamesOwn (s : State) (p : Port) (r : RawRef) (i : Slot) : Prop :=
  r.handle.toNat = i.val + 1 ∧ r.gen.toNat = (s.win i).gen.val ∧ (s.win i).owner = some p ∧ live (s.win i)

/-- A command's port: the port whose pin it is or whose request it completes. Internal events and HARDWARE_RESET have none. -/
def commandPort : Instr → Option Port
  | .hardwareReset => none
  | .selectAssert p => some p
  | .selectRelease p _ => some p
  | .nop p => some p
  | .status p => some p
  | .collect p => some p
  | .subscribe p => some p
  | .detach p => some p
  | .create p => some p
  | .retire p => some p
  | .query p => some p
  | .listOwned p => some p
  | .listStack p => some p
  | .stage p => some p
  | .discard p => some p
  | .arm p => some p
  | .disarm p => some p
  | .renew p => some p
  | .openStream p => some p
  | .put p => some p
  | .closeStream p => some p
  | .fill p => some p
  | .copy p => some p
  | .cancelOp p => some p
  | .offer p => some p
  | .accept p => some p
  | .decline p => some p
  | .withdraw p => some p
  | .setProfile p => some p
  | .switchProfile p => some p
  | .display p => some p
  | .setBackground p => some p
  | .setQuota p => some p
  | .setGrace p => some p
  | .restart p => some p
  | .undefinedRequest p => some p
  | .operationCompletion => none
  | .scrubCompletion => none
  | .frameBoundary _ => none
  | .commitExpiry _ => none
  | .lapse _ => none
  | .eviction _ => none
  | .offerExpiry _ => none

/-- The table of request codes (R190): each code with the command that completes its request. -/
def requestTable (p : Port) : List (Byte × Instr) :=
  [(0x01, .nop p), (0x02, .status p), (0x03, .collect p), (0x04, .subscribe p), (0x05, .detach p), (0x10, .create p),
   (0x11, .retire p), (0x12, .query p), (0x13, .listOwned p), (0x14, .listStack p), (0x20, .stage p), (0x21, .discard p),
   (0x22, .arm p), (0x23, .disarm p), (0x24, .renew p), (0x30, .openStream p), (0x31, .put p), (0x32, .closeStream p),
   (0x33, .fill p), (0x34, .copy p), (0x35, .cancelOp p), (0x40, .offer p), (0x41, .accept p), (0x42, .decline p),
   (0x43, .withdraw p), (0x50, .setProfile p), (0x51, .switchProfile p), (0x52, .display p), (0x53, .setBackground p),
   (0x54, .setQuota p), (0x55, .setGrace p), (0x5F, .restart p)]

/-- The command that completes a request of this code on this port; UNDEFINED_REQUEST for a code that R190 does not list. -/
def requestCommand (p : Port) (code : Byte) : Instr := ((requestTable p).lookup code).getD (.undefinedRequest p)

/-- A raising: who is told, what, of which window, with what detail (R161). -/
structure Raising where
  port : Port
  kind : NoticeKind
  ref : WinRef
  detail : BitVec 16
deriving DecidableEq, Repr

/-- The notice lists after raisings in this order, each as R161 gives (R162). -/
def raiseAll (n : PerPort NoticeBox) (l : List Raising) : PerPort NoticeBox :=
  l.foldl (fun m x => m.set x.port ((m.get x.port).take x.kind x.ref.slot.handle x.ref.gen x.detail)) n

/-- The state after raisings in this order. -/
def raised (s : State) (l : List Raising) : State := { s with notices := raiseAll s.notices l }

/-- The requests that name one window and the ownership and the states the reference check asks of each (R10): the code, the
command that completes the request, the ownership, and the states permitted. -/
def referenceTable (p : Port) : List (Byte × Instr × Ownership × (WinState → Bool)) :=
  [(0x11, .retire p, .ownerOrA, permitLive), (0x12, .query p, .any, permitAll), (0x20, .stage p, .owner, permitLive),
   (0x21, .discard p, .owner, permitLive), (0x23, .disarm p, .owner, permitLive), (0x24, .renew p, .owner, permitShown),
   (0x30, .openStream p, .owner, permitLive), (0x33, .fill p, .owner, permitLive), (0x40, .offer p, .owner, permitLive),
   (0x41, .accept p, .any, permitLive), (0x42, .decline p, .any, permitLive), (0x43, .withdraw p, .owner, permitLive)]

/-! ## Frames as R173 and R179 give them -/

/-- The parameter length a frame's fourth and fifth bytes announce (R173). -/
def announced (bs : List Byte) : Nat := (bs.getD 3 0).toNat * 256 + (bs.getD 4 0).toNat

/-- The kind under which R179 rejects the complete bytes of a transaction: none where they carry no request or a valid frame. That no complete
byte is no request, and no frame cut short inside its sync byte, is the model's choice between R173 and R179 (log entry 22). -/
def frameFault (bs : List Byte) : Option RejectKind :=
  if bs = [] ∨ bs.head? = some 0xFF then none
  else if bs.head? ≠ some 0xA5 then some .syncError
  else if 5 ≤ bs.length ∧ 512 < announced bs then some .lengthError
  else if bs.length < 5 ∨ bs.length < 6 + announced bs then some .shortFrame
  else if bs.getD (5 + announced bs) 0 ≠ crc8 (bs.take (5 + announced bs)) then some .crcError
  else none

/-- A link after the consumption of R178 at a release: where the held response was sent in this transaction and every byte of it was
clocked out, it is discarded, the port becomes IDLE and the rejection flag is cleared. The transaction is over. -/
def afterConsumption (l : Link) (bits : List Bool) : Link :=
  match l.transaction with
  | some t =>
    if t.carriesHeld ∧ t.out.length ≤ bits.length / 8 then
      { l with phase := .idle, rejection := false, transaction := none }
    else { l with transaction := none }
  | none => l

/-! ## Retirement -/

/-- The members of a window's group other than the window itself, in queue order; none for a window armed alone (R101). -/
def groupMates (s : State) (i : Slot) : List WinRef :=
  (s.commitQueue.filter (fun x => s.commitQueue.any (fun e =>
    e.ref.slot == i && e.tag != 0 && x.tag == e.tag) && x.ref.slot != i)).map CommitEntry.ref

/-- The commit queue without the unit of a window: its own entry, and its whole group where it is in one (R16, R91). -/
def withoutUnit (s : State) (i : Slot) : List CommitEntry :=
  s.commitQueue.filter (fun x => !(x.ref.slot == i || s.commitQueue.any (fun e =>
    e.ref.slot == i && e.tag != 0 && x.tag == e.tag)))

/-- The notices a retirement raises after its own, in the order of R16: COMMIT_ABANDONED in the group's order, OP_CANCELLED in
queue order, STREAM_CLOSED to the owner with this cause where the retirement is not the owner's own act, OFFER_WITHDRAWN. -/
def retirementRaisings (s : State) (i : Slot) (owner : Port) (closed : Option (BitVec 16)) : List Raising :=
  (groupMates s i).map (fun r => ⟨owner, .commitAbandoned, r, detail i.handle⟩)
  ++ (s.opQueue.filter (opNames (s.refOf i))).map (fun op => ⟨op.issuer, .opCancelled, op.dest, detail op.opNumber.toNat⟩)
  ++ (match closed with
      | some cause =>
        if streamInto s .A (s.refOf i) || streamInto s .B (s.refOf i) then [⟨owner, .streamClosed, s.refOf i, cause⟩] else []
      | none => [])
  ++ (match (s.win i).offer with
      | some o => [⟨o.target, .offerWithdrawn, s.refOf i, 0x0002⟩]
      | none => [])

/-- The record of a window after its retirement: FREE with its generation incremented where it was HIDDEN, else RETIRING without
staging, offer and renewal and with its lease and grace counters kept (R9, R16, R17). -/
def retiredWindow (w : Window) : Window :=
  if w.state = .hidden then Window.free (w.gen + 1)
  else { w with state := .retiring, staging := Staging.empty, offer := none, renewPending := false }

/-- The notices that the retirements of a DETACH raise to the other port, windows in this order (R16, R61, R154): OP_CANCELLED to the
issuer of each operation that names the window and no window retired before it, then OFFER_WITHDRAWN to the target of its offer. -/
def detachRaisings (s : State) : List Slot → List EngineOp → List Raising
  | [], _ => []
  | i :: rest, ops =>
    (ops.filter (opNames (s.refOf i))).map (fun op => ⟨op.issuer, .opCancelled, op.dest, op.opNumber.setWidth 16⟩)
    ++ (match (s.win i).offer with
        | some o => [⟨o.target, .offerWithdrawn, s.refOf i, 0x0002⟩]
        | none => [])
    ++ detachRaisings s rest (ops.filter (fun op => !opNames (s.refOf i) op))

/-- The notice of a key in a port's list, if there is one (R159). -/
def noticeOf (s : State) (p : Port) (k : NoticeKind) (h : Nat) : Option Notice :=
  (s.notices.get p).list.find? (fun n => n.kind = k ∧ n.handle = h)

/-- Between two states a key has been raised this many times into a port's list, the last time with this generation and detail (R161, R163).
The notice of the key has its occurrences increased by that many, from none where there was no notice, and at most to 255. Or it has been
dropped for want of room: no notice of the key stood or stands in the list, the list is full, and the overflow flag is set. -/
abbrev toldKey (s t : State) (p : Port) (k : NoticeKind) (h times : Nat) (g : Gen) (d : BitVec 16) : Prop :=
  noticeOf t p k h =
      some ⟨k, h, g, min 255 (((noticeOf s p k h).map Notice.occurrences).getD 0 + times), d⟩ ∨
    (noticeOf s p k h = none ∧ noticeOf t p k h = none ∧ (t.notices.get p).overflow = true ∧
      32 ≤ (t.notices.get p).list.length)

/-- The same for one raising that concerns a window (R160). -/
abbrev tells (s t : State) (p : Port) (k : NoticeKind) (r : WinRef) (d : BitVec 16) : Prop :=
  toldKey s t p k (r.slot.val + 1) 1 r.gen d

/-! ## Commits and countdowns at a frame boundary -/

/-- A window's entry is held back: its staging holds a swap and its back surface is being written, by an operation of the engine queue or by
an open stream (R92). -/
abbrev swapHeld (s : State) (i : Slot) : Prop :=
  (s.win i).staging.swap = true ∧
  ((∃ op ∈ s.opQueue, op.dest = s.refOf i ∧ op.destId ≠ (s.win i).front) ∨
    (∃ q ∈ [Port.A, Port.B], ∃ v ∈ s.streams.get q, v.ref = s.refOf i ∧ v.id ≠ (s.win i).front))

/-- Two entries stand in one unit: they are the same entry, or they share a group tag (R88, R93). -/
abbrev sameGroup (e x : CommitEntry) : Prop := x = e ∨ (e.tag ≠ 0 ∧ x.tag = e.tag)

/-- The unit of an entry is ready: no member of it is held back (R92, R93). -/
abbrev readyUnit (s : State) (e : CommitEntry) : Prop := ∀ x ∈ s.commitQueue, sameGroup e x → ¬ swapHeld s x.ref.slot

/-- A window's commit is applied at a boundary that occurs now: it has an entry whose unit is ready (R94). -/
abbrev commitDue (s : State) (i : Slot) : Prop := ∃ e ∈ s.commitQueue, e.ref.slot = i ∧ readyUnit s e

/-- A window is due for eviction at a boundary that occurs now, unless its commit is applied there (R129, R137). -/
abbrev evictionDue (w : Window) : Prop :=
  w.state = .lapsed ∧ 0 < w.active.leaseLength ∧ w.renewPending = false ∧ w.graceCounter = 1

/-- A window is evicted at a boundary that occurs now (R104, R129, R137). -/
abbrev evicted (s : State) (i : Slot) : Prop := evictionDue (s.win i) ∧ ¬ commitDue s i

/-- An operation is cancelled at a boundary that occurs now: it names a window that is evicted there (R61, R137). -/
abbrev cancelledAt (s : State) (op : EngineOp) : Prop := ∃ i : Slot, evicted s i ∧ opNames (s.refOf i) op = true

/-- The operations of one issuer into one window's slot that a boundary cancels, in queue order: their OP_CANCELLED share a key
(R61). -/
def cancelledInto (s : State) (q : Port) (j : Slot) : List EngineOp :=
  s.opQueue.filter (fun op => cancelledAt s op ∧ op.issuer = q ∧ op.dest.slot = j)

/-- An offer after a boundary has counted it: gone when the count reaches 0 (R147). -/
def countedOffer (o : Option Offer) : Option Offer :=
  match o with
  | some v => if v.frames ≤ 1 then none else some { v with frames := v.frames - 1 }
  | none => none

/-- The active fields after an application: each staged value in place of the active one (R82, R95). -/
def committedFields (st : Staging) (a : ActiveFields) : ActiveFields :=
  { x := (st.position.map Prod.fst).getD a.x
    y := (st.position.map Prod.snd).getD a.y
    sx := (st.scroll.map Prod.fst).getD a.sx
    sy := (st.scroll.map Prod.snd).getD a.sy
    key := match st.key with
      | some (.set c) => some c
      | some .remove => none
      | none => a.key
    ink := st.ink.getD a.ink
    leaseLength := st.leaseLength.getD a.leaseLength
    policy := (st.fallback.map Prod.fst).getD a.policy
    fallbackColour := (st.fallback.map Prod.snd).getD a.fallbackColour }

/-- The state of a window whose commit is applied (R8, R95, R96): moved OUT or left HIDDEN it is HIDDEN, else SHOWN. -/
def committedState (w : Window) : WinState :=
  if w.staging.placement = some .out then .hidden
  else if w.staging.placement = none ∧ w.state = .hidden then .hidden
  else .shown

/-- The entries of the ready units in the order in which the walk applies them: each unit at the place of its first entry, its members in queue
order (R78, R94, R95). -/
def walkOrder (s : State) : List Slot :=
  (((s.commitQueue.filter (fun e => e.tag = 0 ∨ s.commitQueue.find? (fun x => x.tag = e.tag) = some e)).flatMap (fun e =>
    s.commitQueue.filter (fun x => sameGroup e x))).filter (fun e => readyUnit s e)).map (fun e => e.ref.slot)

/-- The records and the list after the removal of the windows that are RETIRING (R69, R70). -/
def walkStart (s : State) : State :=
  { s with
    windows := s.windows.map (fun w => if w.state = .retiring then Window.free (w.gen + 1) else w)
    stack := s.stack.filter (fun r => (s.win r.slot).state ≠ .retiring) }

/-- One application of the walk, as the placements after it see it: the list is edited by the staged placement, if there is one, and the
window is in the state the application leaves (R72, R78, R95). -/
def walkStep (s : State) (i : Slot) : State :=
  { s with
    windows := s.windows.set i { s.win i with state := committedState (s.win i) }
    stack := match (s.win i).staging.placement with
      | some pl => (place s (s.win i).tier (s.refOf i) pl).list
      | none => s.stack }

/-- The state that the walk has made of the records' states and the list after applying these windows in this order. -/
def walkAfter (s : State) (l : List Slot) : State := l.foldl walkStep (walkStart s)

/-- The commit queue after a boundary: the entries of the units that are neither ready nor at count 15 nor hit by an eviction, at their
places, each with its deferral count incremented (R94, R98, R99, R104). -/
def deferredQueue (s : State) : List CommitEntry :=
  (s.commitQueue.filter (fun e => ¬ readyUnit s e ∧ e.deferral < 15 ∧
    ∀ x ∈ s.commitQueue, sameGroup e x → ¬ evictionDue (s.win x.ref.slot))).map (fun e => { e with deferral := e.deferral + 1 })

/-- The record of a window after a boundary that applies its commit: fields, front, state, an empty staging, a full lease under the L the
application leaves (R95 to R98, R130), and its offer counted (R147). -/
def committedWindow (w : Window) : Window :=
  { w with
    state := committedState w
    front := if w.staging.swap then (if w.front = 0 then 1 else 0) else w.front
    active := committedFields w.staging w.active
    staging := ⟨none, none, none, none, none, none, none, false⟩
    offer := countedOffer w.offer
    leaseCounter := w.staging.leaseLength.getD w.active.leaseLength
    renewPending := false
    graceCounter := 0 }

/-- The record of a HIDDEN, SHOWN or LAPSED window after a boundary that does not apply its commit, by the table of R129 with the device
grace, and its offer counted (R147). -/
def countedWindow (grace : Nat) (w : Window) : Window :=
  if w.state = .hidden ∨ w.active.leaseLength = 0 then { w with offer := countedOffer w.offer }
  else if w.renewPending then
    { w with
      state := .shown, leaseCounter := w.active.leaseLength, renewPending := false, graceCounter := 0
      offer := countedOffer w.offer }
  else if w.state = .shown then
    if w.leaseCounter = 1 then
      { w with state := .lapsed, leaseCounter := 0, renewPending := false, graceCounter := grace,
               offer := countedOffer w.offer }
    else { w with leaseCounter := w.leaseCounter - 1, offer := countedOffer w.offer }
  else if w.graceCounter = 1 then
    { w with state := .retiring, staging := Staging.empty, offer := none, renewPending := false, graceCounter := 0 }
  else { w with graceCounter := w.graceCounter - 1, offer := countedOffer w.offer }

/-- The engine's activity after operations have left the queue: a scrub goes on, else the choice of R46. -/
def choice (s : State) : Activity :=
  if s.activity = .scrubbing then .scrubbing
  else if s.opQueue ≠ [] then .operating
  else if s.scrubList ≠ [] then .scrubbing
  else .idle

/-- The engine's activity after an operation has been accepted: a scrub goes on, else the engine operates (R46). -/
def acceptedActivity (s : State) : Activity := if s.activity = .scrubbing then .scrubbing else .operating

/-- The three bytes of a supplied placement (R192). The reference of TOP, BOTTOM and OUT is any two bytes. -/
def placementParam (x y : Byte) : Placement → List Byte
  | .top => [0x00, x, y]
  | .bottom => [0x01, x, y]
  | .above r => [0x02, byteOf r.slot.handle, byteOf r.gen.val]
  | .below r => [0x03, byteOf r.slot.handle, byteOf r.gen.val]
  | .out => [0x04, x, y]

/-- The four bytes of a supplied key (R192). The colour of REMOVE is any three bytes. -/
def keyParam (ignored : Colour) : StagedKey → List Byte
  | .set c => [0x01, c.red, c.green, c.blue]
  | .remove => [0x00, ignored.red, ignored.green, ignored.blue]

/-- The presence mask of the fields a staging holds, one bit each from bit 0 on (R192). -/
def maskOf (v : Staging) : Nat :=
  v.position.isSome.toNat + 2 * v.scroll.isSome.toNat + 4 * v.placement.isSome.toNat + 8 * v.key.isSome.toNat
    + 16 * v.ink.isSome.toNat + 32 * v.leaseLength.isSome.toNat + 64 * v.fallback.isSome.toNat + 128 * v.swap.toNat

/-- The parameters of a STAGE that supplies the values a staging holds, for the reference of two bytes (R192): the reference, the
presence mask, and the values in ascending order of mask bit. The bytes that the part ignores are `x`, `y` and `c`. -/
def stageParams (x y : Byte) (c : Colour) (handle gen : Byte) (v : Staging) : List Byte :=
  [handle, gen, 0x00, byteOf (maskOf v)]
  ++ (v.position.map (fun q => beSigned q.1 ++ beSigned q.2)).getD []
  ++ (v.scroll.map (fun q => be16 q.1 ++ be16 q.2)).getD []
  ++ (v.placement.map (placementParam x y)).getD []
  ++ (v.key.map (keyParam c)).getD []
  ++ (v.ink.map colourBytes).getD []
  ++ (v.leaseLength.map (fun l => [byteOf l])).getD []
  ++ (v.fallback.map (fun f => f.1.code :: colourBytes f.2)).getD []

/-- The bytes that stand before the value of mask bit `n` in the value list of a STAGE with this mask (R192). -/
def stageBytesBefore (mask : Byte) (n : Nat) : Nat :=
  (([4, 4, 3, 4, 3, 1, 4].take n).zipIdx.map (fun q => q.1 * (mask.getLsbD q.2).toNat)).sum

/-- The staging after a STAGE that supplies these values has been merged into it (R85). -/
def mergedStaging (v old : Staging) : Staging :=
  { position := v.position.or old.position
    scroll := v.scroll.or old.scroll
    placement := v.placement.or old.placement
    key := v.key.or old.key
    ink := v.ink.or old.ink
    leaseLength := v.leaseLength.or old.leaseLength
    fallback := v.fallback.or old.fallback
    swap := v.swap || old.swap }

/-! ## Parameters as a host writes them (R189, R191) -/

/-- The eight bytes of a rectangle (R189). -/
def rectParam (r : Rect) : List Byte := be16 r.x ++ be16 r.y ++ be16 r.width ++ be16 r.height

/-- The parameters of a CREATE (R191). -/
def createParams (fmt : Format) (width height count : Nat) (tier : Tier) : List Byte :=
  [fmt.code] ++ be16 width ++ be16 height ++ [byteOf count, tier.code]

/-- The parameters of an ARM of windows (R191): the count, then each window's reference. -/
def armParams (s : State) (l : List Slot) : List Byte :=
  byteOf l.length :: l.flatMap (fun i => [byteOf (i.val + 1), byteOf (s.win i).gen.val])

/-- The parameters of a SET_PROFILE (R191). -/
def profileParams (slot : ProfileSlot) (f : Profile) : List Byte :=
  [slot.code] ++ be16 f.activeWidth ++ be16 f.activeHeight
  ++ [byteOf f.hFront, byteOf f.hSync, byteOf f.hBack, byteOf f.vFront, byteOf f.vSync, byteOf f.vBack, byteOf f.divisor,
      byteOf ((if f.hsync = .activeHigh then 1 else 0) + (if f.vsync = .activeHigh then 2 else 0)
        + (if f.de = .activeHigh then 4 else 0))]

/-- Every field of a profile is in its range (R108). -/
abbrev profileOk (f : Profile) : Prop :=
  16 ≤ f.activeWidth ∧ f.activeWidth ≤ 480 ∧ 16 ≤ f.activeHeight ∧ f.activeHeight ≤ 320 ∧
  1 ≤ f.hFront ∧ f.hFront ≤ 64 ∧ 1 ≤ f.hSync ∧ f.hSync ≤ 64 ∧ 1 ≤ f.hBack ∧ f.hBack ≤ 64 ∧
  1 ≤ f.vFront ∧ f.vFront ≤ 32 ∧ 1 ≤ f.vSync ∧ f.vSync ≤ 32 ∧ 1 ≤ f.vBack ∧ f.vBack ≤ 32 ∧
  4 ≤ f.divisor ∧ f.divisor ≤ 32

/-- A role byte names this identity of a window: 00h the front, 01h the other identity of a double-surfaced window (R44,
R189). -/
abbrev RoleNames (w : Window) (role : Byte) (id : SurfaceId) : Prop :=
  (role = 0x00 ∧ id = w.front) ∨ (role = 0x01 ∧ w.double = true ∧ id ≠ w.front)

/-- A CREATE with these parameters passes every check and takes this slot (R1, R13). -/
abbrev CreateFits (s : State) (p : Port) (fmt : Format) (width height count : Nat) (tier : Tier) (i : Slot) : Prop :=
  1 ≤ width ∧ width ≤ 480 ∧ 1 ≤ height ∧ height ≤ 320 ∧ (count = 1 ∨ count = 2) ∧ (tier = .overlay → p = .A) ∧
  (s.win i).state = .free ∧ (∀ j : Slot, j < i → (s.win j).state ≠ .free) ∧
  s.charge.get p + count * surfaceBlocks fmt width height ≤ s.quota.get p ∧
  count * surfaceBlocks fmt width height ≤ s.freeSet.length

/-- A colour in 5-6-5: the top 5 bits of red, 6 of green and 5 of blue (R57, R123). -/
def packed565 (c : Colour) : BitVec 16 :=
  BitVec.ofNat 16 (c.red.toNat / 8 * 2048 + c.green.toNat / 4 * 32 + c.blue.toNat / 8)

/-- The colour of a FILL as the pixel it writes (R57): on an M1 window the last byte of the value, 0 or 1. -/
def fillPixel (fmt : Format) (c : Colour) : Pixel :=
  match fmt with
  | .c16 => .c16 (packed565 c)
  | .c24 => .c24 c
  | .m1 => .m1 (c.blue == 1)

/-- A FILL's value suits the format: any colour for C16 and C24, 000000h or 000001h for M1 (R56, R191). -/
abbrev fillOk (fmt : Format) (c : Colour) : Prop := fmt = .m1 → c = ⟨0, 0, 0⟩ ∨ c = ⟨0, 0, 1⟩

/-- The pixels that the bytes of a PUT carry (R52). -/
def pixelsCarried (fmt : Format) (bytes : Nat) : Nat :=
  match fmt with
  | .c16 => bytes / 2
  | .c24 => bytes / 3
  | .m1 => bytes * 8

/-- The byte count of a PUT fills whole pixels (R51). -/
abbrev wholePixels (fmt : Format) (bytes : Nat) : Prop :=
  (fmt = .c16 → bytes % 2 = 0) ∧ (fmt = .c24 → bytes % 3 = 0)

/-- The place `n` pixels after a place of a rectangle, in stream order (R51). -/
def placeAfter (r : Rect) (col row n : Nat) : Nat × Nat :=
  let k := (row - r.y) * r.width + (col - r.x) + n
  (r.x + k % r.width, r.y + k / r.width)

/-- The stream after a PUT has accepted `n` pixels: closed when none remains (R51, R53). -/
def streamLeft (v : Stream) (n : Nat) : Option Stream :=
  if n = v.remaining then none
  else some { v with
    col := (placeAfter v.rect v.col v.row n).1
    row := (placeAfter v.rect v.col v.row n).2
    remaining := v.remaining - n }

/-- The status of an accepted PUT, by the pixels discarded (R53). -/
def putAnswer (fmt : Format) (discarded : Nat) : Status :=
  if discarded = 0 ∨ (fmt = .m1 ∧ discarded < 8) then .accepted else .overrun

/-! ## What the panel shows (R117, R123, R124) -/

/-- The colour a window of the view gives from a surface pixel: none where the pixel is transparent, an M1 bit of 0 or a pixel equal to the
key; else the ink, the stored colour, or the 5-6-5 components widened by repeating their top bits (R123, R124). -/
def shownColour (v : ViewEntry) : Pixel → Option Colour
  | .m1 ink => if ink then some v.ink else none
  | .c24 c => if v.key = some c then none else some c
  | .c16 p =>
    if v.key.map packed565 = some p then none
    else some ⟨BitVec.ofNat 8 (p.toNat / 2048 * 8 + p.toNat / 2048 / 4),
      BitVec.ofNat 8 (p.toNat / 32 % 64 * 4 + p.toNat / 32 % 64 / 16),
      BitVec.ofNat 8 (p.toNat % 32 * 8 + p.toNat % 32 / 4)⟩

/-- The column and the row of the surface that a window of the view shows at a panel pixel it covers (R121). -/
def shownPlace (v : ViewEntry) (px py : Nat) : Nat × Nat :=
  ((((px : Int) - v.x).toNat + v.sx) % v.width, (((py : Int) - v.y).toNat + v.sy) % v.height)

/-- A signal's level: high where it is active and ACTIVE_HIGH, or inactive and ACTIVE_LOW (R109). -/
def levelOf (polarity : Polarity) (active : Prop) [Decidable active] : Bool :=
  if active then polarity == .activeHigh else polarity == .activeLow

/-! ## Frames the part sends (R176, R177, R193) -/

/-- The flags byte as it stands (R176, R193). -/
def flagsNow (s : State) (p : Port) : Byte :=
  byteOf ((if (s.notices.get p).list = [] then 0 else 1) + (if (s.links.get p).rejection then 2 else 0)
    + (if (s.notices.get p).overflow then 4 else 0))

/-- The frame a port sends in a transaction that begins now: none, the held response, or the NOT_READY header (R176, R177). -/
def frameNow (s : State) (p : Port) : List Byte :=
  match (s.links.get p).phase with
  | .idle => []
  | .held r =>
    let body := [0x5A, r.status.code, r.tag, flagsNow s p] ++ be16 r.payload.length ++ r.payload
    body ++ [crc8 body]
  | .processing r =>
    let body := [0x5A, 0x02, r.tag, flagsNow s p, 0x00, 0x00]
    body ++ [crc8 body]

/-! ## Reset -/

/-- The values a hardware reset leaves in every block (R22, R38, R64, R81, R106, R126, R141, R158, R170, R187). -/
abbrev resetValues (t : State) : Prop :=
  (∀ i ∈ allSlots, t.win i = Window.free 0) ∧ t.freeSet = [] ∧ t.scrubList = List.finRange 192 ∧ t.charge = ⟨0, 0⟩ ∧
  t.quota = ⟨128, 64⟩ ∧ t.opQueue = [] ∧ t.activity = .scrubbing ∧ t.streams = ⟨none, none⟩ ∧ t.opCounter = ⟨0, 0⟩ ∧
  t.commitQueue = [] ∧ t.stack = [] ∧ t.view = [] ∧ t.grace = 60 ∧
  t.timing =
    { p0 := ⟨320, 240, 8, 8, 24, 4, 2, 6, 12, .activeLow, .activeLow, .activeHigh⟩
      p1 := ⟨480, 320, 12, 8, 28, 4, 2, 8, 8, .activeLow, .activeLow, .activeHigh⟩
      current := .P0, pendingSwitch := none, display := false, pendingDisplay := none
      background := ⟨0, 0, 0⟩, pendingBackground := none, frameCounter := 0 } ∧
  t.notices = ⟨⟨[], false⟩, ⟨[], false⟩⟩ ∧ t.subscribed = ⟨false, false⟩ ∧
  (∀ p ∈ [Port.A, Port.B], (t.links.get p).phase = .idle ∧ (t.links.get p).rejection = false ∧
    (t.links.get p).lastRejection = .none)

/-! ## Safe steps -/

/-- A step is safe when it answers a next state: it neither faults nor refuses. -/
abbrev safeStep (s : State) : Prop := ∃ t, step s = .next t

end Sys2Proof.Safety
end

