-- ==== Sys2Proof/Certificates/Slice0/Obligations.lean ====
section
/-! DEFINITION. The statements for the provers: what the manual's rules say the commands, the events and the whole part do.

A request's statement assumes `Processing s p ⟨code, tag, params⟩`: the port has that request in processing. Its conclusion names the
state after the completion, in which the port holds the response (`State.hold`). -/

open Sys2Proof Sys2Proof.Machine Sys2Proof.Safety

/-! ## The queue of commands and reset -/

/-- A step runs the command at the front of the queue on the state with the queue's rest. That an empty queue idles is the model's
choice (log entry 13). -/
def Obligations.StepTakesFrontCommand : Prop :=
  (∀ (s : State) (c : Instr) (rest : List Instr),
    step { s with pending := c :: rest } = exec c { s with pending := rest }) ∧
  (∀ s : State, step { s with pending := [] } = .next { s with pending := [] })

/-- A hardware reset leaves every block in its reset state. A transaction whose select stays asserted clocks out FFh and is not judged
(R187). The FREE records are `Window.free 0`: the fields to which R7 gives no meaning hold the model's choice (log entry 11). -/
def Obligations.HardwareResetValues : Prop :=
  resetValues State.reset ∧
  ∀ s : State, ∃ t : State, exec .hardwareReset s = .next t ∧ resetValues t ∧
    ∀ p : Port, (t.links.get p).transaction =
      (if (s.links.get p).transaction = none then none
       else some { out := [], carriesHeld := false, judged := false })

/-! ## The link -/

/-- The assertion of select fixes the bytes of the transaction: the held response or the NOT_READY header, with its flags and CRC
formed at that moment, then FFh throughout (R176), sent on the data-out line most significant bit first, the first bit from the assertion
on; while select is released the line is in high impedance (R172). The transaction is to be judged at its release, and carries a held
response exactly where the port is HELD. The assertion changes nothing else. The status codes are those of R193. -/
def Obligations.SelectAssertFixesBytes : Prop :=
  (∀ (s : State) (p : Port), (s.links.get p).transaction = none →
    (∀ k : Nat, dataLine s p k = none) ∧
    ∃ (t : State) (x : Transaction), exec (.selectAssert p) s = .next t ∧
      t = s.setLink p { s.links.get p with transaction := some x } ∧ x.judged = true ∧
      (x.carriesHeld = true ↔ ∃ r, (s.links.get p).phase = .held r) ∧
      (∀ n : Nat, dataOut t p n = some ((frameNow s p ++ List.replicate n 0xFF).take n)) ∧
      (∀ k : Nat, dataLine t p k = some (((frameNow s p).getD (k / 8) 0xFF).getLsbD (7 - k % 8)))) ∧
  [Status.done, .accepted, .notReady, .overrun, .busy, .badRequest, .badLength, .badParam, .notPermitted, .staleRef, .notOwner,
      .badState, .noHandle, .noSpace, .quota, .armed, .notArmed, .nothingStaged, .badRect, .badTarget, .badFormat, .noStream,
      .streamOpen, .inUse, .notFound, .noOffer].map Status.code =
    [0x00, 0x01, 0x02, 0x03, 0x10, 0x11, 0x12, 0x13, 0x14, 0x15, 0x16, 0x17, 0x18, 0x19, 0x1A, 0x1B, 0x1C, 0x1D, 0x1E, 0x1F, 0x20,
      0x21, 0x22, 0x23, 0x24, 0x25]

/-- A port's link is its own: a command of the other port or of no port leaves it as it is (R172), and no command but the release of the
port's own select and a hardware reset changes the bytes of a transaction in progress (R176). And no command changes the queue of
waiting commands, which is the model's own. -/
def Obligations.LinkBelongsToItsPort : Prop :=
  ∀ (c : Instr) (s t : State), exec c s = .next t → t.pending = s.pending ∧
    (c ≠ .hardwareReset → ∀ p : Port,
      (commandPort c ≠ some p → t.links.get p = s.links.get p) ∧
      ((∀ bits, c ≠ .selectRelease p bits) → (s.links.get p).transaction ≠ none →
        (t.links.get p).transaction = (s.links.get p).transaction))

/-- A release of a transaction that carried no request consumes a held response clocked out whole, its CRC byte included, and one not
clocked out whole it leaves held; a header or FFh bytes consume nothing (R178). A transaction begun before a hardware reset is
not judged (R187). That a transaction of fewer than eight clock pulses carries no request and is not rejected, as R173 says, is the model's
choice where R179 speaks of a frame cut short inside its sync byte (log entry 22). -/
def Obligations.ReleaseConsumesWholeResponse : Prop :=
  ∀ (s : State) (p : Port) (bits : List Bool) (x : Transaction), (s.links.get p).transaction = some x →
    (x.judged = true → LinkInv s → completeBytes bits = [] ∨ (completeBytes bits).head? = some 0xFF →
      exec (.selectRelease p bits) s = .next (s.setLink p (afterConsumption (s.links.get p) bits))) ∧
    (x.judged = false →
      exec (.selectRelease p bits) s = .next (s.setLink p { s.links.get p with transaction := none }))

/-- A malformed frame is rejected at the release, after any consumption: the rejection flag is set with the kind of the first condition
of R179 that holds, and nothing else of the link state changes. The conditions are tested on complete bytes, so that a frame of which not even
the sync byte is complete is none of these: the model's choice (log entry 22). -/
def Obligations.MalformedFrameRejected : Prop :=
  ∀ (s : State) (p : Port) (bits : List Bool) (x : Transaction) (k : RejectKind),
    LinkInv s → (s.links.get p).transaction = some x → x.judged = true →
    frameFault (completeBytes bits) = some k →
    exec (.selectRelease p bits) s =
      .next (s.setLink p { afterConsumption (s.links.get p) bits with rejection := true, lastRejection := k })

/-- Every request of up to 512 parameter bytes, sent as the frame of R173 with its CRC and any filler behind it, is received with its
code, tag and parameters as they were sent, and is admitted or discarded by the link state (R180). A covered sequence followed
by its CRC leaves the register at 00h. The CRC is that of R174: the register starts at FFh, each byte is combined with it by exclusive OR, and
it is then shifted left eight times, combined with 07h where the bit shifted out is 1. A5h gives 81h, and A5h, 00h, 00h give A3h. -/
def Obligations.RequestFrameReceived : Prop :=
  ((∀ bs : List Byte, crc8 bs = crcFrom 0xFF bs) ∧ (∀ r : Byte, crcFrom r [] = r) ∧
    (∀ (r b : Byte) (bs : List Byte), crcFrom r (b :: bs) =
      crcFrom ((List.range 8).foldl (fun v _ => if v.msb then (v <<< 1) ^^^ 0x07 else v <<< 1) (r ^^^ b)) bs) ∧
    crc8 [0xA5] = 0x81 ∧ crc8 [0xA5, 0x00, 0x00] = 0xA3) ∧
  (∀ bs : List Byte, crcFrom 0xFF (bs ++ [crc8 bs]) = 0) ∧
  ∀ (s : State) (p : Port) (x : Transaction) (r : Request) (filler : List Byte) (tail : List Bool),
    LinkInv s → (s.links.get p).transaction = some x → x.judged = true →
    r.params.length ≤ 512 → tail.length < 8 →
    exec (.selectRelease p (bitsOfBytes (requestFrame r ++ filler) ++ tail)) s =
      .next (s.setLink p
        (let l := afterConsumption (s.links.get p) (bitsOfBytes (requestFrame r ++ filler) ++ tail)
         match l.phase with
         | .idle => { l with phase := .processing r }
         | .processing _ => { l with rejection := true, lastRejection := .busyLink }
         | .held _ => { l with rejection := true, lastRejection := .responsePending }))

/-! ## The evaluation of requests -/

/-- Every request in processing completes: whatever its code, parameters and port, the port becomes HELD with one response that carries
the request's tag and is not NOT_READY, the rest of its link and the other port's link stay, and the payload fits the limit
of 512 bytes where the pool and the list are sound (R182, R183). -/
def Obligations.EveryRequestCompletes : Prop :=
  ∀ (s : State) (p : Port) (r : Request), Processing s p r →
    ∃ (t : State) (a : Response), exec (requestCommand p r.code) s = .next t ∧
      t.links = s.links.set p { s.links.get p with phase := .held a } ∧ a.tag = r.tag ∧ a.status ≠ .notReady ∧
      (PoolInv s → StackInv s → a.payload.length ≤ 512)

/-- A request answered with any status but DONE, ACCEPTED and OVERRUN is refused: it has no effect on any block, and its response
carries no payload (R183, R193). -/
def Obligations.RefusedRequestHasNoEffect : Prop :=
  ∀ (s t : State) (p : Port) (r : Request) (a : Response), Processing s p r →
    exec (requestCommand p r.code) s = .next t → (t.links.get p).phase = .held a →
    a.status ≠ .done → a.status ≠ .accepted → a.status ≠ .overrun →
    t = s.hold p a ∧ a.payload = [] ∧ 0x10 ≤ a.status.code

/-- The first three stages of the common evaluation, in order: an undefined code, a wrong parameter length, and a code or an OVERLAY
CREATE that belongs to Port A alone (R142, R183). The first is the whole effect of UNDEFINED_REQUEST. -/
def Obligations.CommonStagesRefuse : Prop :=
  ∀ (s : State) (p : Port) (r : Request), Processing s p r →
    ((requestTable p).lookup r.code = none →
      exec (.undefinedRequest p) s = .next (s.hold p ⟨.badRequest, r.tag, []⟩)) ∧
    (∀ x ∈ requestTable p, x.1 = r.code → lengthOk r.code r.params = false →
      exec x.2 s = .next (s.hold p ⟨.badLength, r.tag, []⟩)) ∧
    (∀ x ∈ requestTable p, x.1 = r.code → lengthOk r.code r.params = true → p = .B →
      r.code ∈ [0x50, 0x51, 0x52, 0x53, 0x54, 0x55, 0x5F] ∨ (r.code = 0x10 ∧ r.params.getLast? = some 0x01) →
      exec x.2 s = .next (s.hold p ⟨.notPermitted, r.tag, []⟩))

/-- The parameter length each code requires (R184, R190): fixed, counted for ARM and STAGE, a range for PUT. -/
def Obligations.RequiredParameterLengths : Prop :=
  (∀ x ∈ [((0x01 : Byte), 0), (0x02, 0), (0x03, 0), (0x04, 1), (0x05, 0), (0x10, 7), (0x11, 2), (0x12, 2), (0x13, 0), (0x14, 0),
      (0x21, 2), (0x23, 2), (0x24, 2), (0x30, 11), (0x32, 0), (0x33, 14), (0x34, 18), (0x35, 1), (0x40, 2), (0x41, 2),
      (0x42, 2), (0x43, 2), (0x50, 13), (0x51, 1), (0x52, 1), (0x53, 3), (0x54, 2), (0x55, 1), (0x5F, 0)],
    ∀ ps : List Byte, lengthOk x.1 ps = true ↔ ps.length = x.2) ∧
  (∀ ps : List Byte, lengthOk 0x22 ps = true ↔
    ∃ (count : Byte) (refs : List Byte), ps = count :: refs ∧ 1 ≤ count.toNat ∧ count.toNat ≤ 8 ∧
      refs.length = 2 * count.toNat) ∧
  (∀ ps : List Byte, lengthOk 0x20 ps = true ↔
    ∃ (handle gen high low : Byte) (values : List Byte), ps = handle :: gen :: high :: low :: values ∧
      values.length = 4 * (low.getLsbD 0).toNat + 4 * (low.getLsbD 1).toNat + 3 * (low.getLsbD 2).toNat
        + 4 * (low.getLsbD 3).toNat + 3 * (low.getLsbD 4).toNat + (low.getLsbD 5).toNat + 4 * (low.getLsbD 6).toNat) ∧
  (∀ ps : List Byte, lengthOk 0x31 ps = true ↔ 1 ≤ ps.length ∧ ps.length ≤ 512)

/-- The reference check of every request that names one window, and of each reference of COPY and ARM (R10, R11): the first of its four
steps that fails gives the status and the request has no effect. -/
def Obligations.FailedReferenceRefuses : Prop :=
  (∀ (s : State) (p : Port) (r : Request) (x : Byte × Instr × Ownership × (WinState → Bool)) (st : Status),
    Processing s p r → x ∈ referenceTable p → x.1 = r.code → lengthOk r.code r.params = true →
    refCheck s p x.2.2.1 x.2.2.2 (refAt r.params 0) = .error st →
    exec x.2.1 s = .next (s.hold p ⟨st, r.tag, []⟩)) ∧
  (∀ (s : State) (p : Port) (r : Request) (st : Status), Processing s p r → r.code = 0x34 → r.params.length = 18 →
    refCheck s p .owner permitLive (refAt r.params 0) = .error st ∨
      ((∃ i, refCheck s p .owner permitLive (refAt r.params 0) = .ok i) ∧
        refCheck s p .owner permitLive (refAt r.params 11) = .error st) →
    exec (.copy p) s = .next (s.hold p ⟨st, r.tag, []⟩)) ∧
  (∀ (s : State) (p : Port) (r : Request) (k : Nat) (st : Status), Processing s p r → r.code = 0x22 →
    lengthOk r.code r.params = true → k < natAt r.params 0 →
    (∀ j < k, ∃ i, refCheck s p .owner permitLive (refAt r.params (1 + 2 * j)) = .ok i) →
    refCheck s p .owner permitLive (refAt r.params (1 + 2 * k)) = .error st →
    exec (.arm p) s = .next (s.hold p ⟨st, r.tag, []⟩)) ∧
  (∀ (s : State) (p : Port) (o : Ownership) (permit : WinState → Bool) (r : RawRef),
    (r.handle.toNat = 0 ∨ 24 < r.handle.toNat → refCheck s p o permit r = .error .badParam) ∧
    (∀ i : Slot, r.handle.toNat = i.val + 1 →
      ((s.win i).state = .free ∨ r.gen.toNat ≠ (s.win i).gen.val → refCheck s p o permit r = .error .staleRef) ∧
      (Names s r i → (o = .owner ∧ (s.win i).owner ≠ some p) ∨ (o = .ownerOrA ∧ (s.win i).owner ≠ some p ∧ p = .B) →
        refCheck s p o permit r = .error .notOwner) ∧
      (Names s r i → o = .any ∨ (s.win i).owner = some p ∨ (o = .ownerOrA ∧ p = .A) →
        refCheck s p o permit r = if permit (s.win i).state then .ok i else .error .badState)))

/-! ## General requests and reading requests -/

/-- NOP, STATUS, LIST_OWNED and LIST_STACK change no state and return what the blocks hold at the completion (R21, R80, R185, R186,
R194), with the codes of R194 for states, owners, tiers and rejection kinds. -/
def Obligations.ReadingRequestsReport : Prop :=
  ([WinState.free, .hidden, .shown, .lapsed, .retiring].map WinState.code = [0x00, 0x01, 0x02, 0x03, 0x04] ∧
    [some Port.A, some Port.B].map ownerCode = [0x00, 0x01] ∧ [Tier.normal, .overlay].map Tier.code = [0x00, 0x01] ∧
    [RejectKind.none, .syncError, .lengthError, .shortFrame, .crcError, .busyLink, .responsePending].map RejectKind.code =
      [0x00, 0x01, 0x02, 0x03, 0x04, 0x05, 0x06]) ∧
  ∀ (s : State) (p : Port) (tag : Byte),
    (Processing s p ⟨0x01, tag, []⟩ → exec (.nop p) s = .next (s.hold p ⟨.done, tag, []⟩)) ∧
    (Processing s p ⟨0x02, tag, []⟩ → exec (.status p) s = .next (s.hold p ⟨.done, tag,
      [byteOf s.freeSet.length, byteOf s.scrubList.length, byteOf (s.charge.get p), byteOf (s.quota.get p),
       if s.timing.current = .P0 then 0x00 else 0x01,
       if s.timing.pendingSwitch = none then 0xFF else if s.timing.pendingSwitch = some .P0 then 0x00 else 0x01,
       if s.timing.display then 0x01 else 0x00,
       s.timing.frameCounter.extractLsb' 24 8, s.timing.frameCounter.extractLsb' 16 8,
       s.timing.frameCounter.extractLsb' 8 8, s.timing.frameCounter.extractLsb' 0 8,
       byteOf s.opQueue.length, byteOf s.commitQueue.length, byteOf (s.notices.get p).list.length,
       (s.links.get p).lastRejection.code]⟩)) ∧
    (Processing s p ⟨0x13, tag, []⟩ → ∃ owned : List Slot,
      owned.Pairwise (· < ·) ∧ (∀ i : Slot, i ∈ owned ↔ (s.win i).state ≠ .free ∧ (s.win i).owner = some p) ∧
      exec (.listOwned p) s = .next (s.hold p ⟨.done, tag, byteOf owned.length ::
        owned.flatMap (fun i => [byteOf (i.val + 1), byteOf (s.win i).gen.val, (s.win i).state.code])⟩)) ∧
    (Processing s p ⟨0x14, tag, []⟩ → exec (.listStack p) s = .next (s.hold p ⟨.done, tag, byteOf s.stack.length ::
      s.stack.flatMap (fun r => [byteOf (r.slot.val + 1), byteOf r.gen.val, ownerCode (s.win r.slot).owner,
        (s.win r.slot).tier.code, (s.win r.slot).state.code])⟩))

/-- QUERY returns the record of any window that is not FREE, to either port, in the layout of R195, and changes nothing but the model's own
count of free values drawn. The reference bytes of a staged TOP, BOTTOM or OUT and the colour bytes of a staged REMOVE are free
values (log entry 7). The format and port codes are those of R195, the placement and policy codes and the mask bits those of R192. -/
def Obligations.QueryReportsRecord : Prop :=
  ([Format.c16, .c24, .m1].map Format.code = [0x00, 0x01, 0x02] ∧ [Policy.keep, .fill, .vanish].map Policy.code = [0x00, 0x01, 0x02] ∧
    [Port.A, .B].map portCode = [0x00, 0x01] ∧
    ∀ r : WinRef, [Placement.top, .bottom, .above r, .below r, .out].map Placement.code = [0x00, 0x01, 0x02, 0x03, 0x04]) ∧
  ∀ (s : State) (p : Port) (tag h g : Byte) (i : Slot), Processing s p ⟨0x12, tag, [h, g]⟩ → Names s ⟨h, g⟩ i →
    ∃ record : List Byte,
      exec (.query p) s = .next ({ s with draws := s.draws + 5 }.hold p ⟨.done, tag, record⟩) ∧
      record.take 15 = [h, g, (s.win i).state.code, ownerCode (s.win i).owner, (s.win i).tier.code, (s.win i).format.code]
        ++ be16 (s.win i).width ++ be16 (s.win i).height ++ be16 (s.win i).stride
        ++ [if (s.win i).surface1 = none then 1 else 2, byteOf (s.win i).front.val, byteOf (s.win i).surface0.length] ∧
      (record.drop 15).take 22 = beSigned (s.win i).active.x ++ beSigned (s.win i).active.y
        ++ be16 (s.win i).active.sx ++ be16 (s.win i).active.sy
        ++ (match (s.win i).active.key with
            | some c => [0x01, c.red, c.green, c.blue]
            | none => [0x00, 0x00, 0x00, 0x00])
        ++ colourBytes (s.win i).active.ink
        ++ [byteOf (s.win i).active.leaseLength, (s.win i).active.policy.code]
        ++ colourBytes (s.win i).active.fallbackColour ++ [0x00, byteOf (maskOf (s.win i).staging)] ∧
      (record.drop 37).take 4 = ((s.win i).staging.position.map (fun v => beSigned v.1 ++ beSigned v.2)).getD [0, 0, 0, 0] ∧
      (record.drop 41).take 4 = ((s.win i).staging.scroll.map (fun v => be16 v.1 ++ be16 v.2)).getD [0, 0, 0, 0] ∧
      (match (s.win i).staging.placement with
        | some (.above r) => (record.drop 45).take 3 = [0x02, byteOf (r.slot.val + 1), byteOf r.gen.val]
        | some (.below r) => (record.drop 45).take 3 = [0x03, byteOf (r.slot.val + 1), byteOf r.gen.val]
        | some pl => (record.drop 45).take 1 = [pl.code]
        | none => (record.drop 45).take 3 = [0, 0, 0]) ∧
      (match (s.win i).staging.key with
        | some (.set c) => (record.drop 48).take 4 = [0x01, c.red, c.green, c.blue]
        | some .remove => (record.drop 48).take 1 = [0x00]
        | none => (record.drop 48).take 4 = [0, 0, 0, 0]) ∧
      (record.drop 52).take 3 = ((s.win i).staging.ink.map colourBytes).getD [0, 0, 0] ∧
      (record.drop 55).take 1 = [byteOf ((s.win i).staging.leaseLength.getD 0)] ∧
      (record.drop 56).take 4 =
        ((s.win i).staging.fallback.map (fun f => f.1.code :: colourBytes f.2)).getD [0, 0, 0, 0] ∧
      (record.drop 60).take 3 = (match s.commitQueue.find? (fun e => e.ref.slot = i) with
        | some e => [0x01, byteOf e.tag, byteOf e.deferral]
        | none => [0x00, 0x00, 0x00]) ∧
      (record.drop 63).take 6 = (match (s.win i).offer with
        | some o => [0x01, portCode o.target, byteOf o.frames]
        | none => [0x00, 0x00, 0x00])
        ++ [byteOf (s.win i).leaseCounter, if (s.win i).renewPending then 0x01 else 0x00,
            byteOf (s.win i).graceCounter] ∧
      record.drop 69 = (s.win i).blocks.map (fun b => byteOf b.val)

/-- COLLECT removes up to 8 of the oldest notices, returns them, and clears the overflow flag when the list is then empty (R163, R164, R194);
SUBSCRIBE sets the port's subscription to the value carried and refuses any value but ON and OFF (R166). The kind codes are those of
R196. -/
def Obligations.CollectAndSubscribe : Prop :=
  [NoticeKind.committed, .commitExpired, .commitAbandoned, .placementAdjusted, .leaseLapsed, .leaseRestored, .windowEvicted,
      .windowRetired, .opDone, .opCancelled, .offerReceived, .offerAccepted, .offerDeclined, .offerWithdrawn, .offerExpired,
      .streamClosed, .profileSwitched, .frameBoundary, .restarted].map NoticeKind.code =
    [0x01, 0x02, 0x03, 0x04, 0x05, 0x06, 0x07, 0x08, 0x09, 0x0A, 0x0B, 0x0C, 0x0D, 0x0E, 0x0F, 0x10, 0x11, 0x12, 0x13] ∧
  ∀ (s : State) (p : Port) (tag : Byte),
    (Processing s p ⟨0x03, tag, []⟩ → exec (.collect p) s = .next
      ((s.setNotices p ⟨(s.notices.get p).list.drop 8,
        (s.notices.get p).overflow && decide (8 < (s.notices.get p).list.length)⟩).hold p
        ⟨.done, tag, byteOf (min 8 (s.notices.get p).list.length) ::
          ((s.notices.get p).list.take 8).flatMap (fun n =>
            [n.kind.code, byteOf n.handle, byteOf n.gen.val, byteOf n.occurrences, n.detail.extractLsb' 8 8,
             n.detail.extractLsb' 0 8])⟩)) ∧
    (∀ v : Byte, Processing s p ⟨0x04, tag, [v]⟩ →
      (v = 0x00 ∨ v = 0x01 → exec (.subscribe p) s = .next
        ({ s with subscribed := s.subscribed.set p (v = 0x01) }.hold p ⟨.done, tag, []⟩)) ∧
      (v ≠ 0x00 → v ≠ 0x01 → exec (.subscribe p) s = .next (s.hold p ⟨.badParam, tag, []⟩)))

/-- DETACH clears the detaching port's state in one event (R19, R65, R154): its HIDDEN windows become FREE, its SHOWN and LAPSED ones
RETIRING, its operations, stream, notices, overflow flag, subscription and the offers made to it go. The other port is told of its cancelled
operations, the withdrawn and the declined offers, in the order of R154's list, which is read from it by inference (log entry 21). It keeps
its windows, its operations and its stream but for those that name a retired window, its commit entries and its subscription, and the device
settings stay. An operation that the DETACH abandons leaves whole pixels, old or its own (R55, R57, R59). The fields of a FREE record to
which R7 gives no meaning hold the model's choice (log entry 11). -/
def Obligations.DetachClearsPort : Prop :=
  ∀ (s : State) (p : Port) (tag : Byte), CommitInv s → Processing s p ⟨0x05, tag, []⟩ →
    ∃ t : State, exec (.detach p) s = .next t ∧
      (∀ i : Slot, t.win i =
        if i ∈ detachedSlots s p then retiredWindow (s.win i)
        else { s.win i with offer := if (s.win i).offer.map Offer.target = some p then none else (s.win i).offer }) ∧
      t.opQueue = s.opQueue.filter (fun op =>
        op.issuer != p && (detachedSlots s p).all (fun i => !opNames (s.refOf i) op)) ∧
      t.commitQueue = s.commitQueue.filter (fun e => (s.win e.ref.slot).owner != some p) ∧
      t.streams = (s.streams.set p none).set p.other
        (if (detachedSlots s p).any (fun i => streamInto s p.other (s.refOf i)) then none else s.streams.get p.other) ∧
      t.notices.get p = ⟨[], false⟩ ∧ t.subscribed = s.subscribed.set p false ∧
      (∃ declined : List Slot,
        declined.Perm ((List.finRange 24).filter (fun i =>
          i ∉ detachedSlots s p ∧ (s.win i).offer.map Offer.target = some p)) ∧
        t.notices.get p.other = (raiseAll s.notices (detachRaisings s (detachedSlots s p) s.opQueue
          ++ declined.flatMap (fun i => ((s.win i).owner.map (fun o =>
            Raising.mk o .offerDeclined (s.refOf i) 0x0002)).toList))).get p.other) ∧
      t.scrubList = s.scrubList ++ ((detachedSlots s p).filter (fun i => (s.win i).state = .hidden)).flatMap (fun i =>
        (s.win i).blocks) ∧
      t.charge = s.charge.set p (s.charge.get p -
        (((detachedSlots s p).filter (fun i => (s.win i).state = .hidden)).map (fun i => (s.win i).blocks.length)).sum) ∧
      t.activity = choice { t with activity := s.activity } ∧
      (∀ a : Address, (∀ op, inFlight s = some op →
          op.issuer = p ∨ (∃ i ∈ detachedSlots s p, opNames (s.refOf i) op = true) →
          ∀ b ∈ (s.win op.dest.slot).surface op.destId, a.val / 2048 ≠ b.val) → t.store.read a = s.store.read a) ∧
      (PoolInv s → ShapeInv s → ∀ op, inFlight s = some op → AbandonedPixels s t op) ∧
      t.stack = s.stack ∧ t.view = s.view ∧ t.freeSet = s.freeSet ∧ t.quota = s.quota ∧ t.opCounter = s.opCounter ∧
      t.grace = s.grace ∧ t.timing = s.timing ∧ t.links = (s.hold p ⟨.done, tag, []⟩).links

/-! ## Creating and retiring windows -/

/-- A CREATE that passes every check makes a HIDDEN window in the lowest-numbered FREE slot with the creation values of R14 and the
first blocks of the ascending free set, charges them to the port, and answers the new reference. -/
def Obligations.CreateMakesWindow : Prop :=
  ∀ (s : State) (p : Port) (tag : Byte) (fmt : Format) (width height count : Nat) (tier : Tier) (i : Slot),
    Processing s p ⟨0x10, tag, createParams fmt width height count tier⟩ →
    CreateFits s p fmt width height count tier i →
    exec (.create p) s = .next ({ s with
      windows := s.windows.set i
        { state := .hidden, gen := (s.win i).gen, owner := some p, tier := tier, format := fmt, width := width
          height := height
          surface0 := s.freeSet.take (surfaceBlocks fmt width height)
          surface1 := if count = 2 then
            some ((s.freeSet.drop (surfaceBlocks fmt width height)).take (surfaceBlocks fmt width height)) else none
          front := 0
          active := ⟨0, 0, 0, 0, none, ⟨255, 255, 255⟩, 0, .keep, ⟨0, 0, 0⟩⟩
          staging := ⟨none, none, none, none, none, none, none, false⟩
          offer := none, leaseCounter := 0, renewPending := false, graceCounter := 0 }
      freeSet := s.freeSet.drop (count * surfaceBlocks fmt width height)
      charge := s.charge.set p (s.charge.get p + count * surfaceBlocks fmt width height) }.hold p
        ⟨.done, tag, [byteOf (i.val + 1), byteOf (s.win i).gen.val]⟩)

/-- The own checks of CREATE in order (R13, R29): a value out of its set or range, no FREE record, the quota, the free set. -/
def Obligations.CreateRefusesInOrder : Prop :=
  ∀ (s : State) (p : Port) (tag f c tier : Byte) (width height : Nat), width < 65536 → height < 65536 →
    Processing s p ⟨0x10, tag, [f] ++ be16 width ++ be16 height ++ [c, tier]⟩ → (tier = 0x01 → p = .A) →
    (2 < f.toNat ∨ width = 0 ∨ 480 < width ∨ height = 0 ∨ 320 < height ∨ (c ≠ 1 ∧ c ≠ 2) ∨ (tier ≠ 0x00 ∧ tier ≠ 0x01) →
      exec (.create p) s = .next (s.hold p ⟨.badParam, tag, []⟩)) ∧
    ∀ (fmt : Format) (level : Tier), f = fmt.code → tier = level.code → 1 ≤ width → width ≤ 480 → 1 ≤ height →
      height ≤ 320 → (c = 1 ∨ c = 2) →
      ((∀ i : Slot, (s.win i).state ≠ .free) → exec (.create p) s = .next (s.hold p ⟨.noHandle, tag, []⟩)) ∧
      ((∃ i : Slot, (s.win i).state = .free) →
        s.quota.get p < s.charge.get p + c.toNat * surfaceBlocks fmt width height →
        exec (.create p) s = .next (s.hold p ⟨.quota, tag, []⟩)) ∧
      ((∃ i : Slot, (s.win i).state = .free) →
        s.charge.get p + c.toNat * surfaceBlocks fmt width height ≤ s.quota.get p →
        s.freeSet.length < c.toNat * surfaceBlocks fmt width height →
        exec (.create p) s = .next (s.hold p ⟨.noSpace, tag, []⟩))

/-- An allocation takes the lowest-numbered blocks of the free set (R30): every block taken lies below every block left, each list
ascends, identity 1 lies above identity 0, and the charge rises by the blocks taken. -/
def Obligations.AllocationTakesLowestBlocks : Prop :=
  ∀ (s : State) (p : Port) (tag : Byte) (fmt : Format) (width height count : Nat) (tier : Tier) (i : Slot),
    PoolInv s → Processing s p ⟨0x10, tag, createParams fmt width height count tier⟩ →
    CreateFits s p fmt width height count tier i →
    ∃ t : State, exec (.create p) s = .next t ∧
      (t.win i).blocks.length = count * surfaceBlocks fmt width height ∧
      (∀ b : Block, b ∈ s.freeSet ↔ b ∈ (t.win i).blocks ∨ b ∈ t.freeSet) ∧
      (∀ b ∈ (t.win i).blocks, ∀ c ∈ t.freeSet, b < c) ∧
      (t.win i).surface0.length = surfaceBlocks fmt width height ∧ (t.win i).surface0.Pairwise (· < ·) ∧
      ((t.win i).surface1 = none ↔ count = 1) ∧
      (∀ l ∈ (t.win i).surface1, l.length = surfaceBlocks fmt width height ∧ l.Pairwise (· < ·) ∧
        ∀ b ∈ (t.win i).surface0, ∀ c ∈ l, b < c) ∧
      t.charge = s.charge.set p (s.charge.get p + count * surfaceBlocks fmt width height)

/-- RETIRE by the owner or by Port A retires the window in one event (R15, R16, R17): its unit, its operations, its stream and its offer
go, a HIDDEN window becomes FREE with its blocks on the scrub list and off its owner's charge, a SHOWN or LAPSED one becomes
RETIRING, and the notices are raised in the order of R16. An operation that the retirement abandons leaves whole pixels, old or its own
(R55, R57, R59, R61). The fields of a FREE record to which R7 gives no meaning hold the model's choice (log entry 11). -/
def Obligations.RetireFreesOrRetires : Prop :=
  ∀ (s : State) (p o : Port) (tag h g : Byte) (i : Slot), CommitInv s →
    Processing s p ⟨0x11, tag, [h, g]⟩ → Names s ⟨h, g⟩ i → (s.win i).owner = some o → (o = p ∨ p = .A) →
    permitLive (s.win i).state = true →
    ∃ t : State, exec (.retire p) s = .next t ∧
      t.windows = s.windows.set i (retiredWindow (s.win i)) ∧
      t.commitQueue = withoutUnit s i ∧
      t.opQueue = s.opQueue.filter (fun op => !opNames (s.refOf i) op) ∧
      (∀ q : Port, t.streams.get q = if streamInto s q (s.refOf i) then none else s.streams.get q) ∧
      t.notices = raiseAll s.notices
        ((if o = p then [] else
            [⟨o, .windowRetired, s.refOf i, if (s.win i).state = .hidden then 0x0000 else 0x0004⟩])
          ++ retirementRaisings s i o (if o = p then none else some 0x0001)) ∧
      (if (s.win i).state = .hidden then
          t.scrubList = s.scrubList ++ (s.win i).blocks ∧
          t.charge = s.charge.set o (s.charge.get o - (s.win i).blocks.length)
        else t.scrubList = s.scrubList ∧ t.charge = s.charge) ∧
      t.activity = choice { t with activity := s.activity } ∧
      (∀ a : Address, (∀ op, inFlight s = some op → opNames (s.refOf i) op = true →
          ∀ b ∈ (s.win op.dest.slot).surface op.destId, a.val / 2048 ≠ b.val) → t.store.read a = s.store.read a) ∧
      (PoolInv s → ShapeInv s → ∀ op, inFlight s = some op → AbandonedPixels s t op) ∧
      t.stack = s.stack ∧ t.view = s.view ∧ t.freeSet = s.freeSet ∧ t.quota = s.quota ∧ t.opCounter = s.opCounter ∧
      t.grace = s.grace ∧ t.timing = s.timing ∧ t.subscribed = s.subscribed ∧
      t.links = (s.hold p ⟨.done, tag, []⟩).links

/-! ## Staging and the commit queue -/

/-- STAGE reads back exactly the values a host wrote in the layout of R192, for every set of fields and every value in range, and merges
them field by field into the staging of the unarmed window (R82, R84, R85). What stands in the reference of TOP, BOTTOM and OUT (`x`, `y`) and
in the colour of REMOVE (`c`) is ignored, whatever its bytes (R192). -/
def Obligations.StageMergesSuppliedFields : Prop :=
  ∀ (s : State) (p : Port) (tag h g x y : Byte) (c : Colour) (i : Slot) (v : Staging),
    Processing s p ⟨0x20, tag, stageParams x y c h g v⟩ → NamesOwn s p ⟨h, g⟩ i →
    (s.win i).width ≤ 480 → (s.win i).height ≤ 320 → (∀ e ∈ s.commitQueue, e.ref.slot ≠ i) →
    stagingOk i { s.win i with staging := v } →
    exec (.stage p) s =
      .next ((s.setWin i { s.win i with staging := mergedStaging v (s.win i).staging }).hold p ⟨.done, tag, []⟩)

/-- The own checks of STAGE in order (R83, R84): an armed window, a mask bit outside the table of R82 or a value out of range, a field
the format does not take, a swap on a single-surfaced window. Out of range too are a placement above 04h, the handle of an ABOVE or BELOW that
is 0 or above 24, its generation above 15, a key above 01h and a policy above 02h, wherever in the value list they stand (R84, R192). -/
def Obligations.StageRefusesInOrder : Prop :=
  ∀ (s : State) (p : Port) (r : Request) (i : Slot), Processing s p r → r.code = 0x20 →
    lengthOk 0x20 r.params = true → NamesOwn s p (refAt r.params 0) i →
    ((∃ e ∈ s.commitQueue, e.ref.slot = i) → exec (.stage p) s = .next (s.hold p ⟨.armed, r.tag, []⟩)) ∧
    ((∀ e ∈ s.commitQueue, e.ref.slot ≠ i) →
      (natAt r.params 2 ≠ 0 → exec (.stage p) s = .next (s.hold p ⟨.badParam, r.tag, []⟩)) ∧
      (∀ (h g mask code a b : Byte) (before rest : List Byte), r.params = [h, g, 0x00, mask] ++ before ++ [code, a, b] ++ rest →
        mask.getLsbD 2 = true → before.length = stageBytesBefore mask 2 →
        4 < code.toNat ∨ ((code = 0x02 ∨ code = 0x03) ∧ (a = 0 ∨ 24 < a.toNat ∨ 15 < b.toNat)) →
        exec (.stage p) s = .next (s.hold p ⟨.badParam, r.tag, []⟩)) ∧
      (∀ (h g mask code : Byte) (before rest : List Byte) (n : Nat), r.params = [h, g, 0x00, mask] ++ before ++ code :: rest →
        mask.getLsbD n = true → before.length = stageBytesBefore mask n →
        (n = 3 ∧ 1 < code.toNat) ∨ (n = 6 ∧ 2 < code.toNat) →
        exec (.stage p) s = .next (s.hold p ⟨.badParam, r.tag, []⟩)) ∧
      (∀ (h g x y : Byte) (c : Colour) (v : Staging), r.params = stageParams x y c h g v →
        (∀ x ∈ v.position, -32768 ≤ x.1 ∧ x.1 < 32768 ∧ -32768 ≤ x.2 ∧ x.2 < 32768) →
        (∀ x ∈ v.scroll, x.1 < 65536 ∧ x.2 < 65536) → (∀ x ∈ v.leaseLength, x < 256) →
        ((∃ x ∈ v.position, ¬ (inPositionRange x.1 ∧ inPositionRange x.2)) ∨
            (∃ x ∈ v.scroll, ¬ (x.1 < (s.win i).width ∧ x.2 < (s.win i).height)) ∨
            (∃ pl ∈ v.placement, ∃ n ∈ placementNamed pl, n.slot = i) ∨ (∃ x ∈ v.leaseLength, 250 < x) →
          exec (.stage p) s = .next (s.hold p ⟨.badParam, r.tag, []⟩)) ∧
        ((∀ x ∈ v.position, inPositionRange x.1 ∧ inPositionRange x.2) →
          (∀ x ∈ v.scroll, x.1 < (s.win i).width ∧ x.2 < (s.win i).height) →
          (∀ pl ∈ v.placement, ∀ n ∈ placementNamed pl, n.slot ≠ i) → (∀ x ∈ v.leaseLength, x ≤ 250) →
          (((s.win i).format = .m1 ∧ (v.key ≠ none ∨ v.swap = true)) ∨ ((s.win i).format ≠ .m1 ∧ v.ink ≠ none) →
            exec (.stage p) s = .next (s.hold p ⟨.badFormat, r.tag, []⟩)) ∧
          ((s.win i).format ≠ .m1 → v.ink = none → v.swap = true → (s.win i).surface1 = none →
            exec (.stage p) s = .next (s.hold p ⟨.badTarget, r.tag, []⟩)))))

/-- DISCARD (R86): under the reference check with ownership, which permits HIDDEN, SHOWN and LAPSED, an armed window is refused with
ARMED, and any other loses every staged field; where the staging is empty already nothing changes. -/
def Obligations.DiscardEmptiesStaging : Prop :=
  ∀ (s : State) (p : Port) (tag h g : Byte), Processing s p ⟨0x21, tag, [h, g]⟩ →
    (∀ st : Status, refCheck s p .owner permitLive ⟨h, g⟩ = .error st →
      exec (.discard p) s = .next (s.hold p ⟨st, tag, []⟩)) ∧
    ∀ i : Slot, NamesOwn s p ⟨h, g⟩ i →
      ((∃ e ∈ s.commitQueue, e.ref.slot = i) → exec (.discard p) s = .next (s.hold p ⟨.armed, tag, []⟩)) ∧
      ((∀ e ∈ s.commitQueue, e.ref.slot ≠ i) →
        exec (.discard p) s = .next ((s.setWin i { s.win i with
          staging := ⟨none, none, none, none, none, none, none, false⟩ }).hold p ⟨.done, tag, []⟩) ∧
        ((s.win i).staging = ⟨none, none, none, none, none, none, none, false⟩ →
          exec (.discard p) s = .next (s.hold p ⟨.done, tag, []⟩)))

/-- ARM appends one entry per window, in list order, with deferral count 0 and one tag: 0 for one window, else the lowest tag of 1..15
that no entry carries (R88, R90). -/
def Obligations.ArmAppendsEntries : Prop :=
  ∀ (s : State) (p : Port) (tag : Byte) (l : List Slot) (group : Nat),
    Processing s p ⟨0x22, tag, armParams s l⟩ → 1 ≤ l.length → l.length ≤ 8 → l.Nodup →
    (∀ i ∈ l, (s.win i).owner = some p ∧ live (s.win i) ∧ (s.win i).staging ≠ Staging.empty ∧
      ∀ e ∈ s.commitQueue, e.ref.slot ≠ i) →
    (l.length = 1 ∧ group = 0) ∨ (2 ≤ l.length ∧ 1 ≤ group ∧ group ≤ 15 ∧ (∀ e ∈ s.commitQueue, e.tag ≠ group) ∧
      ∀ u, 1 ≤ u → u < group → ∃ e ∈ s.commitQueue, e.tag = u) →
    exec (.arm p) s = .next ({ s with
      commitQueue := s.commitQueue ++ l.map (fun i => CommitEntry.mk ⟨i, (s.win i).gen⟩ group 0) }.hold p
        ⟨.done, tag, [byteOf group]⟩)

/-- The own checks of ARM in order (R89): a handle named twice, then the first window of the list that is armed or has nothing staged,
then no free tag for a group. -/
def Obligations.ArmRefusesInOrder : Prop :=
  ∀ (s : State) (p : Port) (tag : Byte) (l : List Slot), Processing s p ⟨0x22, tag, armParams s l⟩ →
    1 ≤ l.length → l.length ≤ 8 → (∀ i ∈ l, (s.win i).owner = some p ∧ live (s.win i)) →
    (¬ l.Nodup → exec (.arm p) s = .next (s.hold p ⟨.badParam, tag, []⟩)) ∧
    (∀ (before after : List Slot) (i : Slot), l.Nodup → l = before ++ i :: after →
      (∀ j ∈ before, (∀ e ∈ s.commitQueue, e.ref.slot ≠ j) ∧ (s.win j).staging ≠ Staging.empty) →
      ((∃ e ∈ s.commitQueue, e.ref.slot = i) → exec (.arm p) s = .next (s.hold p ⟨.armed, tag, []⟩)) ∧
      ((∀ e ∈ s.commitQueue, e.ref.slot ≠ i) → (s.win i).staging = Staging.empty →
        exec (.arm p) s = .next (s.hold p ⟨.nothingStaged, tag, []⟩))) ∧
    (l.Nodup → (∀ j ∈ l, (∀ e ∈ s.commitQueue, e.ref.slot ≠ j) ∧ (s.win j).staging ≠ Staging.empty) →
      2 ≤ l.length → (∀ u, 1 ≤ u → u ≤ 15 → ∃ e ∈ s.commitQueue, e.tag = u) →
      exec (.arm p) s = .next (s.hold p ⟨.busy, tag, []⟩))

/-- DISARM removes the window's entry, or its whole group, keeps every staging, raises no notice and answers the number of windows
disarmed; a window with no entry is refused with NOT_ARMED (R91). -/
def Obligations.DisarmRemovesUnit : Prop :=
  ∀ (s : State) (p : Port) (tag h g : Byte) (i : Slot), CommitInv s →
    Processing s p ⟨0x23, tag, [h, g]⟩ → NamesOwn s p ⟨h, g⟩ i →
    ((∃ e ∈ s.commitQueue, e.ref.slot = i) → exec (.disarm p) s = .next
      ({ s with commitQueue := withoutUnit s i }.hold p
        ⟨.done, tag, [byteOf (s.commitQueue.length - (withoutUnit s i).length)]⟩)) ∧
    ((∀ e ∈ s.commitQueue, e.ref.slot ≠ i) → exec (.disarm p) s = .next (s.hold p ⟨.notArmed, tag, []⟩))

/-- RENEW (R131): under the reference check with ownership, which permits SHOWN and LAPSED, renew-pending is set where the window has a
lease, and nothing changes where it has none; a HIDDEN and a RETIRING window are refused with BAD_STATE. -/
def Obligations.RenewSetsPending : Prop :=
  ∀ (s : State) (p : Port) (tag h g : Byte), Processing s p ⟨0x24, tag, [h, g]⟩ →
    (∀ st : Status, refCheck s p .owner permitShown ⟨h, g⟩ = .error st →
      exec (.renew p) s = .next (s.hold p ⟨st, tag, []⟩)) ∧
    ∀ i : Slot, Names s ⟨h, g⟩ i → (s.win i).owner = some p →
      ((s.win i).state = .hidden ∨ (s.win i).state = .retiring →
        exec (.renew p) s = .next (s.hold p ⟨.badState, tag, []⟩)) ∧
      ((s.win i).state = .shown ∨ (s.win i).state = .lapsed →
        ((s.win i).active.leaseLength = 0 → exec (.renew p) s = .next (s.hold p ⟨.done, tag, []⟩)) ∧
        ((s.win i).active.leaseLength ≠ 0 → exec (.renew p) s =
          .next ((s.setWin i { s.win i with renewPending := true }).hold p ⟨.done, tag, []⟩)))

/-! ## Drawing -/

/-- OPEN_STREAM opens the port's stream on the identity its role names, with the cursor at the rectangle's top-left and every pixel
remaining (R44, R50); CLOSE_STREAM closes it and changes nothing else, and on a closed stream it is refused (R54). -/
def Obligations.StreamsOpenAndClose : Prop :=
  (∀ (s : State) (p : Port) (tag h g role : Byte) (i : Slot) (id : SurfaceId) (r : Rect),
    Processing s p ⟨0x30, tag, [h, g, role] ++ rectParam r⟩ → NamesOwn s p ⟨h, g⟩ i → RoleNames (s.win i) role id →
    s.streams.get p = none → inside r (s.win i) = true → (s.win i).width ≤ 480 → (s.win i).height ≤ 320 →
    exec (.openStream p) s = .next ((s.setStream p
      (some ⟨⟨i, (s.win i).gen⟩, id, r, r.x, r.y, r.width * r.height⟩)).hold p ⟨.done, tag, []⟩)) ∧
  (∀ (s : State) (p : Port) (tag : Byte), Processing s p ⟨0x32, tag, []⟩ →
    (s.streams.get p ≠ none →
      exec (.closeStream p) s = .next ((s.setStream p none).hold p ⟨.done, tag, []⟩)) ∧
    (s.streams.get p = none → exec (.closeStream p) s = .next (s.hold p ⟨.noStream, tag, []⟩)))

/-- The pixels that PUT data carries, in order (R52, R189): two bytes a pixel for C16, the first the more significant; three for C24; for
M1 eight pixels a byte, the first in the most significant bit. A PUT accepts as many as the stream has remaining, queues them as
one operation with the port's next op number, moves the cursor on in stream order, closes the stream with its last pixel, and
answers OVERRUN where more than padding is discarded (R43, R45, R51, R53, R194). -/
def Obligations.PutAcceptsPixels : Prop :=
  (∀ data : List Byte,
    (∀ k : Nat, 2 * k + 1 < data.length →
      (pixelsOf .c16 data)[k]? = some (.c16 (data.getD (2 * k) 0 ++ data.getD (2 * k + 1) 0))) ∧
    (∀ k : Nat, 3 * k + 2 < data.length → (pixelsOf .c24 data)[k]? =
      some (.c24 ⟨data.getD (3 * k) 0, data.getD (3 * k + 1) 0, data.getD (3 * k + 2) 0⟩)) ∧
    (∀ k : Nat, k < 8 * data.length →
      (pixelsOf .m1 data)[k]? = some (.m1 ((data.getD (k / 8) 0).getLsbD (7 - k % 8)))) ∧
    ∀ fmt : Format, (pixelsOf fmt data).length = pixelsCarried fmt data.length) ∧
  ∀ (s : State) (p : Port) (tag : Byte) (data : List Byte) (v : Stream) (fmt : Format) (n : Nat),
    Processing s p ⟨0x31, tag, data⟩ → 1 ≤ data.length → data.length ≤ 512 → s.streams.get p = some v →
    cursorInside v.rect v.col v.row = true → fmt = (s.win v.ref.slot).format → wholePixels fmt data.length →
    s.opQueue.length < 8 → n = min (pixelsCarried fmt data.length) v.remaining →
    exec (.put p) s = .next ({ s with
      opQueue := s.opQueue ++
        [EngineOp.mk p (s.opCounter.get p) v.ref v.id (.put v.rect v.col v.row ((pixelsOf fmt data).take n))]
      opCounter := s.opCounter.set p (s.opCounter.get p + 1)
      activity := acceptedActivity s
      streams := s.streams.set p (streamLeft v n) }.hold p
        ⟨putAnswer fmt (pixelsCarried fmt data.length - n), tag,
          s.opCounter.get p :: be16 n ++
            (match streamLeft v n with
             | some w => 0x01 :: be16 w.col ++ be16 w.row
             | none => [0x00, 0x00, 0x00, 0x00, 0x00])⟩)

/-- FILL and COPY are accepted into the queue with the port's next op number, the resolved identities and, for FILL, the value converted
to the window's format (R44, R45, R56, R57, R58). -/
def Obligations.FillAndCopyAccepted : Prop :=
  ∀ (s : State) (p : Port) (tag h g role : Byte) (i : Slot) (id : SurfaceId) (r : Rect),
    NamesOwn s p ⟨h, g⟩ i → RoleNames (s.win i) role id → inside r (s.win i) = true →
    (s.win i).width ≤ 480 → (s.win i).height ≤ 320 → s.opQueue.length < 8 →
    (∀ c : Colour, fillOk (s.win i).format c →
      Processing s p ⟨0x33, tag, [h, g, role] ++ rectParam r ++ [c.red, c.green, c.blue]⟩ →
      exec (.fill p) s = .next ({ s with
        opQueue := s.opQueue ++
          [EngineOp.mk p (s.opCounter.get p) ⟨i, (s.win i).gen⟩ id (.fill r (fillPixel (s.win i).format c))]
        opCounter := s.opCounter.set p (s.opCounter.get p + 1)
        activity := acceptedActivity s }.hold p ⟨.accepted, tag, [s.opCounter.get p]⟩)) ∧
    (∀ (h' g' role' : Byte) (j : Slot) (id' : SurfaceId) (x y : Nat),
      NamesOwn s p ⟨h', g'⟩ j → RoleNames (s.win j) role' id' → (s.win j).format = (s.win i).format →
      inside ⟨x, y, r.width, r.height⟩ (s.win j) = true → (s.win j).width ≤ 480 → (s.win j).height ≤ 320 →
      Processing s p ⟨0x34, tag, [h, g, role] ++ rectParam r ++ [h', g', role'] ++ be16 x ++ be16 y⟩ →
      exec (.copy p) s = .next ({ s with
        opQueue := s.opQueue ++
          [EngineOp.mk p (s.opCounter.get p) ⟨j, (s.win j).gen⟩ id' (.copy ⟨i, (s.win i).gen⟩ id r x y)]
        opCounter := s.opCounter.set p (s.opCounter.get p + 1)
        activity := acceptedActivity s }.hold p ⟨.accepted, tag, [s.opCounter.get p]⟩))

/-- The own checks of the drawing requests in order (R45, R50, R51, R56, R58): role, open stream, BACK of a single-surfaced window, the
rectangle, the M1 value, and a full queue last. -/
def Obligations.DrawingRefusesInOrder : Prop :=
  (∀ (s : State) (p : Port) (tag h g role : Byte) (i : Slot) (r : Rect), NamesOwn s p ⟨h, g⟩ i →
    r.x < 65536 → r.y < 65536 → r.width < 65536 → r.height < 65536 →
    (Processing s p ⟨0x30, tag, [h, g, role] ++ rectParam r⟩ →
      (role ≠ 0x00 → role ≠ 0x01 → exec (.openStream p) s = .next (s.hold p ⟨.badParam, tag, []⟩)) ∧
      (role = 0x00 ∨ role = 0x01 → s.streams.get p ≠ none →
        exec (.openStream p) s = .next (s.hold p ⟨.streamOpen, tag, []⟩)) ∧
      (role = 0x01 → s.streams.get p = none → (s.win i).surface1 = none →
        exec (.openStream p) s = .next (s.hold p ⟨.badTarget, tag, []⟩)) ∧
      (∀ id, RoleNames (s.win i) role id → s.streams.get p = none → inside r (s.win i) = false →
        exec (.openStream p) s = .next (s.hold p ⟨.badRect, tag, []⟩))) ∧
    (∀ c : Colour, Processing s p ⟨0x33, tag, [h, g, role] ++ rectParam r ++ [c.red, c.green, c.blue]⟩ →
      (role ≠ 0x00 → role ≠ 0x01 → exec (.fill p) s = .next (s.hold p ⟨.badParam, tag, []⟩)) ∧
      (role = 0x01 → (s.win i).surface1 = none → exec (.fill p) s = .next (s.hold p ⟨.badTarget, tag, []⟩)) ∧
      (∀ id, RoleNames (s.win i) role id →
        (inside r (s.win i) = false → exec (.fill p) s = .next (s.hold p ⟨.badRect, tag, []⟩)) ∧
        (inside r (s.win i) = true → ¬ fillOk (s.win i).format c →
          exec (.fill p) s = .next (s.hold p ⟨.badParam, tag, []⟩)) ∧
        (inside r (s.win i) = true → fillOk (s.win i).format c → 8 ≤ s.opQueue.length →
          exec (.fill p) s = .next (s.hold p ⟨.busy, tag, []⟩)))) ∧
    (∀ (h' g' role' : Byte) (j : Slot) (x y : Nat), NamesOwn s p ⟨h', g'⟩ j → x < 65536 → y < 65536 →
      Processing s p ⟨0x34, tag, [h, g, role] ++ rectParam r ++ [h', g', role'] ++ be16 x ++ be16 y⟩ →
      (1 < role.toNat ∨ 1 < role'.toNat → exec (.copy p) s = .next (s.hold p ⟨.badParam, tag, []⟩)) ∧
      (role.toNat ≤ 1 → role'.toNat ≤ 1 →
        (role = 0x01 ∧ (s.win i).surface1 = none) ∨ (role' = 0x01 ∧ (s.win j).surface1 = none) →
        exec (.copy p) s = .next (s.hold p ⟨.badTarget, tag, []⟩)) ∧
      (∀ id id', RoleNames (s.win i) role id → RoleNames (s.win j) role' id' →
        ((s.win i).format ≠ (s.win j).format → exec (.copy p) s = .next (s.hold p ⟨.badFormat, tag, []⟩)) ∧
        ((s.win i).format = (s.win j).format →
          (inside r (s.win i) = false ∨ inside ⟨x, y, r.width, r.height⟩ (s.win j) = false →
            exec (.copy p) s = .next (s.hold p ⟨.badRect, tag, []⟩)) ∧
          (inside r (s.win i) = true → inside ⟨x, y, r.width, r.height⟩ (s.win j) = true → 8 ≤ s.opQueue.length →
            exec (.copy p) s = .next (s.hold p ⟨.busy, tag, []⟩)))))) ∧
  (∀ (s : State) (p : Port) (tag : Byte) (data : List Byte), Processing s p ⟨0x31, tag, data⟩ →
    1 ≤ data.length → data.length ≤ 512 →
    (s.streams.get p = none → exec (.put p) s = .next (s.hold p ⟨.noStream, tag, []⟩)) ∧
    (∀ v : Stream, s.streams.get p = some v →
      (¬ wholePixels (s.win v.ref.slot).format data.length →
        exec (.put p) s = .next (s.hold p ⟨.badLength, tag, []⟩)) ∧
      (wholePixels (s.win v.ref.slot).format data.length → 8 ≤ s.opQueue.length →
        exec (.put p) s = .next (s.hold p ⟨.busy, tag, []⟩))))

/-- CANCEL_OP removes the port's own operation of that number, abandons it where it is in flight, raises OP_CANCELLED with its number,
and leaves the engine to its choice; the pixels written stay: a leading run of a PUT or a FILL, some but not all of a COPY, each pixel old or
the operation's own (R55, R57, R59). No byte outside the operation's destination changes, and none at all where the operation was not in flight.
Any other number is refused with NOT_FOUND (R60). -/
def Obligations.CancelOpRemovesOwnOperation : Prop :=
  ∀ (s : State) (p : Port) (tag n : Byte), Processing s p ⟨0x35, tag, [n]⟩ →
    ((∀ op ∈ s.opQueue, op.issuer ≠ p ∨ op.opNumber ≠ n) →
      exec (.cancelOp p) s = .next (s.hold p ⟨.notFound, tag, []⟩)) ∧
    (∀ (before after : List EngineOp) (op : EngineOp), s.opQueue = before ++ op :: after → op.issuer = p →
      op.opNumber = n → (∀ o ∈ before ++ after, o.issuer ≠ p ∨ o.opNumber ≠ n) →
      ∃ t : State, exec (.cancelOp p) s = .next t ∧
        t = { s with
          opQueue := before ++ after
          activity := choice { s with opQueue := before ++ after }
          store := t.store
          draws := t.draws
          notices := raiseAll s.notices [⟨p, .opCancelled, op.dest, n.setWidth 16⟩] }.hold p ⟨.done, tag, []⟩ ∧
        (∀ a : Address, (inFlight s = some op →
          ∀ b ∈ (s.win op.dest.slot).surface op.destId, a.val / 2048 ≠ b.val) → t.store.read a = s.store.read a) ∧
        (PoolInv s → ShapeInv s → inFlight s = some op → AbandonedPixels s t op))

/-! ## Transfer -/

/-- OFFER sets an offer of 120 frames to the other port and raises OFFER_RECEIVED to it, and is refused for an OVERLAY window and for one
already offered (R146). DECLINE by the offer's target (R150) and WITHDRAW by the owner (R151) clear the offer, raise OFFER_DECLINED to the
owner or OFFER_WITHDRAWN to the target with their reason, and change nothing else; without such an offer they are refused. -/
def Obligations.OfferIsSetAndCleared : Prop :=
  ∀ (s : State) (p : Port) (tag h g : Byte),
    (∀ i : Slot, Processing s p ⟨0x40, tag, [h, g]⟩ → NamesOwn s p ⟨h, g⟩ i →
      ((s.win i).tier = .normal → (s.win i).offer = none → exec (.offer p) s = .next
        ((raised (s.setWin i { s.win i with offer := some ⟨p.other, 120⟩ })
          [⟨p.other, .offerReceived, s.refOf i, BitVec.ofNat 16 (s.win i).blocks.length⟩]).hold p ⟨.done, tag, []⟩)) ∧
      ((s.win i).tier = .overlay ∨ (s.win i).offer ≠ none →
        exec (.offer p) s = .next (s.hold p ⟨.badState, tag, []⟩))) ∧
    (Processing s p ⟨0x42, tag, [h, g]⟩ →
      (∀ st : Status, refCheck s p .any permitLive ⟨h, g⟩ = .error st →
        exec (.decline p) s = .next (s.hold p ⟨st, tag, []⟩)) ∧
      ∀ i : Slot, Names s ⟨h, g⟩ i → live (s.win i) →
        ((s.win i).offer.map Offer.target ≠ some p → exec (.decline p) s = .next (s.hold p ⟨.noOffer, tag, []⟩)) ∧
        (∀ o : Port, (s.win i).offer.map Offer.target = some p → (s.win i).owner = some o →
          exec (.decline p) s = .next ((raised (s.setWin i { s.win i with offer := none })
            [⟨o, .offerDeclined, s.refOf i, 0x0001⟩]).hold p ⟨.done, tag, []⟩))) ∧
    (Processing s p ⟨0x43, tag, [h, g]⟩ →
      (∀ st : Status, refCheck s p .owner permitLive ⟨h, g⟩ = .error st →
        exec (.withdraw p) s = .next (s.hold p ⟨st, tag, []⟩)) ∧
      ∀ i : Slot, NamesOwn s p ⟨h, g⟩ i →
        ((s.win i).offer = none → exec (.withdraw p) s = .next (s.hold p ⟨.noOffer, tag, []⟩)) ∧
        (∀ o : Offer, (s.win i).offer = some o →
          exec (.withdraw p) s = .next ((raised (s.setWin i { s.win i with offer := none })
            [⟨o.target, .offerWithdrawn, s.refOf i, 0x0001⟩]).hold p ⟨.done, tag, []⟩)))

/-- ACCEPT by the offer's target, within its quota, transfers the window in one event: the owner and the charges change, the offer, the
staging, the unit and the old owner's stream into the window go, and the old owner is told in the order of R149. Nothing else
changes; without an offer to the port, or over its quota, it is refused and the offer stays (R37, R148, R149). -/
def Obligations.AcceptTransfersWindow : Prop :=
  ∀ (s : State) (p : Port) (tag h g : Byte) (i : Slot), CommitInv s → Processing s p ⟨0x41, tag, [h, g]⟩ →
    Names s ⟨h, g⟩ i → live (s.win i) →
    ((s.win i).offer.map Offer.target ≠ some p → exec (.accept p) s = .next (s.hold p ⟨.noOffer, tag, []⟩)) ∧
    ((s.win i).offer.map Offer.target = some p →
      (s.quota.get p < s.charge.get p + (s.win i).blocks.length →
        exec (.accept p) s = .next (s.hold p ⟨.quota, tag, []⟩)) ∧
      (s.charge.get p + (s.win i).blocks.length ≤ s.quota.get p → (s.win i).owner = some p.other →
        exec (.accept p) s = .next ((raised { s with
          windows := s.windows.set i { s.win i with owner := some p, offer := none, staging := Staging.empty }
          charge := (s.charge.set p.other (s.charge.get p.other - (s.win i).blocks.length)).set p
            (s.charge.get p + (s.win i).blocks.length)
          streams := s.streams.set p.other
            (if streamInto s p.other (s.refOf i) then none else s.streams.get p.other)
          commitQueue := withoutUnit s i }
          ((if streamInto s p.other (s.refOf i) then [⟨p.other, .streamClosed, s.refOf i, 0x0003⟩] else [])
            ++ (groupMates s i).map (fun r => ⟨p.other, .commitAbandoned, r, detail (i.val + 1)⟩)
            ++ [⟨p.other, .offerAccepted, s.refOf i, BitVec.ofNat 16 (s.win i).blocks.length⟩])).hold p
          ⟨.done, tag, [h, g]⟩)))

/-! ## Device requests -/

/-- SET_PROFILE writes a slot that is neither current nor the pending target, SWITCH_PROFILE sets a pending switch to the other slot,
DISPLAY and SET_BACKGROUND set values that wait for the next boundary, and SET_GRACE sets the device grace at once (R113, R114, R116, R118,
R136); each with its refusals in order, a polarity byte with a bit above 2 among them (R191). -/
def Obligations.DeviceRequestsSetValues : Prop :=
  ∀ (s : State) (tag : Byte),
    (∀ (slot : ProfileSlot) (f : Profile), Processing s .A ⟨0x50, tag, profileParams slot f⟩ →
      (s.timing.current = slot ∨ s.timing.pendingSwitch = some slot →
        exec (.setProfile .A) s = .next (s.hold .A ⟨.inUse, tag, []⟩)) ∧
      (s.timing.current ≠ slot → s.timing.pendingSwitch ≠ some slot → profileOk f →
        exec (.setProfile .A) s = .next ({ s with timing :=
          (if slot = ProfileSlot.P0 then { s.timing with p0 := f } else { s.timing with p1 := f }) }.hold .A ⟨.done, tag, []⟩)) ∧
      (s.timing.current ≠ slot → s.timing.pendingSwitch ≠ some slot → ¬ profileOk f →
        f.activeWidth < 65536 → f.activeHeight < 65536 → f.hFront < 256 → f.hSync < 256 → f.hBack < 256 → f.vFront < 256 →
        f.vSync < 256 → f.vBack < 256 → f.divisor < 256 →
        exec (.setProfile .A) s = .next (s.hold .A ⟨.badParam, tag, []⟩))) ∧
    (∀ ps : List Byte, Processing s .A ⟨0x50, tag, ps⟩ → ps.length = 13 →
      (1 < (ps.getD 0 0).toNat → exec (.setProfile .A) s = .next (s.hold .A ⟨.badParam, tag, []⟩)) ∧
      (∀ slot : ProfileSlot, ps.getD 0 0 = slot.code → s.timing.current ≠ slot → s.timing.pendingSwitch ≠ some slot →
        8 ≤ (ps.getD 12 0).toNat → exec (.setProfile .A) s = .next (s.hold .A ⟨.badParam, tag, []⟩))) ∧
    [ProfileSlot.P0, .P1].map ProfileSlot.code = [0x00, 0x01] ∧
    (∀ v : Byte, Processing s .A ⟨0x51, tag, [v]⟩ →
      (1 < v.toNat → exec (.switchProfile .A) s = .next (s.hold .A ⟨.badParam, tag, []⟩)) ∧
      (v.toNat ≤ 1 → s.timing.pendingSwitch ≠ none →
        exec (.switchProfile .A) s = .next (s.hold .A ⟨.busy, tag, []⟩)) ∧
      (s.timing.pendingSwitch = none → s.timing.current.code = v →
        exec (.switchProfile .A) s = .next (s.hold .A ⟨.done, tag, []⟩)) ∧
      (∀ slot : ProfileSlot, s.timing.pendingSwitch = none → slot.code = v → s.timing.current ≠ slot →
        exec (.switchProfile .A) s = .next
          ({ s with timing := { s.timing with pendingSwitch := some slot } }.hold .A ⟨.done, tag, []⟩))) ∧
    (∀ v : Byte, Processing s .A ⟨0x52, tag, [v]⟩ →
      (1 < v.toNat → exec (.display .A) s = .next (s.hold .A ⟨.badParam, tag, []⟩)) ∧
      (v.toNat ≤ 1 → exec (.display .A) s = .next
        ({ s with timing := { s.timing with pendingDisplay := some (v = 0x01) } }.hold .A ⟨.done, tag, []⟩))) ∧
    (∀ r g b : Byte, Processing s .A ⟨0x53, tag, [r, g, b]⟩ → exec (.setBackground .A) s = .next
      ({ s with timing := { s.timing with pendingBackground := some ⟨r, g, b⟩ } }.hold .A ⟨.done, tag, []⟩)) ∧
    (∀ v : Byte, Processing s .A ⟨0x55, tag, [v]⟩ →
      (250 < v.toNat → exec (.setGrace .A) s = .next (s.hold .A ⟨.badParam, tag, []⟩)) ∧
      (v.toNat ≤ 250 → exec (.setGrace .A) s = .next ({ s with grace := v.toNat }.hold .A ⟨.done, tag, []⟩)))

/-- SET_QUOTA (R36): from Port A both quotas take the values carried, at the completion and together, with no charge changed, unless a
value or their sum exceeds 192; from Port B it is refused. A value below a port's charge is accepted. -/
def Obligations.SetQuotaSetsBoth : Prop :=
  ∀ (s : State) (tag a b : Byte),
    (Processing s .A ⟨0x54, tag, [a, b]⟩ →
      (192 < a.toNat ∨ 192 < b.toNat ∨ 192 < a.toNat + b.toNat →
        exec (.setQuota .A) s = .next (s.hold .A ⟨.badParam, tag, []⟩)) ∧
      (a.toNat + b.toNat ≤ 192 →
        exec (.setQuota .A) s = .next ({ s with quota := ⟨a.toNat, b.toNat⟩ }.hold .A ⟨.done, tag, []⟩))) ∧
    (Processing s .B ⟨0x54, tag, [a, b]⟩ →
      exec (.setQuota .B) s = .next (s.hold .B ⟨.notPermitted, tag, []⟩))

/-- RESTART frees every window with its generation incremented, puts the windows' blocks on the scrub list in ascending number behind what
is there, empties the engine queue, the streams, the commit queue, the list, the view and both notice lists, places one RESTARTED in each
list, and keeps everything else (R22, R33, R65, R81, R156, R170). The operation in flight is abandoned and leaves whole pixels, old or its own
(R55, R57, R59). The fields of a FREE record to which R7 gives no meaning hold the model's choice (log entry 11). -/
def Obligations.RestartClearsPart : Prop :=
  ∀ (s : State) (tag : Byte), Processing s .A ⟨0x5F, tag, []⟩ →
    ∃ t : State, exec (.restart .A) s = .next t ∧
      (∀ i : Slot, t.win i = if (s.win i).state = .free then s.win i else Window.free ((s.win i).gen + 1)) ∧
      (∃ held : List Block, held.Pairwise (· < ·) ∧ (∀ b, b ∈ held ↔ ∃ i : Slot, b ∈ (s.win i).blocks) ∧
        t.scrubList = s.scrubList ++ held) ∧
      t.charge = ⟨0, 0⟩ ∧ t.opQueue = [] ∧ t.streams = ⟨none, none⟩ ∧ t.commitQueue = [] ∧ t.stack = [] ∧ t.view = [] ∧
      (∀ q : Port, t.notices.get q = ⟨[⟨.restarted, 0, 0, 1, s.timing.frameCounter.setWidth 16⟩], false⟩) ∧
      t.activity = choice { t with activity := s.activity } ∧
      (∀ a : Address, (∀ op, inFlight s = some op →
        ∀ b ∈ (s.win op.dest.slot).surface op.destId, a.val / 2048 ≠ b.val) → t.store.read a = s.store.read a) ∧
      (PoolInv s → ShapeInv s → ∀ op, inFlight s = some op → AbandonedPixels s t op) ∧
      t.freeSet = s.freeSet ∧ t.quota = s.quota ∧ t.opCounter = s.opCounter ∧ t.grace = s.grace ∧ t.timing = s.timing ∧
      t.subscribed = s.subscribed ∧ t.links = (s.hold .A ⟨.done, tag, []⟩).links

/-! ## The Surface Engine and the frame store -/

/-- The operation in flight completes: it leaves the head of the queue, OP_DONE goes to its issuer with the destination's reference and the
op number, the engine makes its choice, and no byte outside the destination surface changes (R46, R47). With sound shapes it always
completes; an operation that would leave its surface, which no run makes, faults by the model's choice (log entry 16). -/
def Obligations.OperationCompletes : Prop :=
  ∀ (s : State) (op : EngineOp) (rest : List EngineOp), s.activity = .operating → s.opQueue = op :: rest →
    (ShapeInv s → ∃ t : State, exec .operationCompletion s = .next t ∧
      t = { s with
        opQueue := rest
        activity := choice { s with opQueue := rest }
        store := t.store
        notices := raiseAll s.notices [⟨op.issuer, .opDone, op.dest, op.opNumber.setWidth 16⟩] } ∧
      (∀ a : Address, (∀ b ∈ (s.win op.dest.slot).surface op.destId, a.val / 2048 ≠ b.val) →
        t.store.read a = s.store.read a)) ∧
    (opFits s op = false → exec .operationCompletion s = .fault .outsideSurface)

/-- What the completed operation wrote, pixel by pixel (R48, R55, R57, R59): inside a FILL's rectangle its value, inside a COPY's
destination the pixel its source held before, also where the two overlap, along a PUT's places its pixels in stream order, and everywhere
else in the surface, and in every other surface of every window, what stood there. -/
def Obligations.OperationWritesItsPixels : Prop :=
  ∀ (s t : State) (op : EngineOp) (rest : List EngineOp), PoolInv s → ShapeInv s →
    s.activity = .operating → s.opQueue = op :: rest → exec .operationCompletion s = .next t →
    ∀ (i : Slot) (id : SurfaceId) (c r : Nat), (s.win i).state ≠ .free → (id = 0 ∨ (s.win i).double = true) →
      c < (s.win i).width → r < (s.win i).height →
      readPixel t.store (s.win i).format (s.win i).stride ((s.win i).surface id) c r =
        ((if i = op.dest.slot ∧ id = op.destId then opPixel s op c r else none).getD
          (readPixel s.store (s.win i).format (s.win i).stride ((s.win i).surface id) c r))

/-- A scrub completes: the block reads as zero in all its bytes, leaves the head of the scrub list and joins the free set, which stays
ascending; no other byte changes, and the engine makes its choice (R26, R28, R46). -/
def Obligations.ScrubZeroesBlock : Prop :=
  ∀ (s : State) (b : Block) (rest : List Block), PoolInv s → s.activity = .scrubbing → s.scrubList = b :: rest →
    ∃ t : State, exec .scrubCompletion s = .next t ∧
      t = { s with
        store := t.store
        scrubList := rest
        freeSet := t.freeSet
        activity := if s.opQueue ≠ [] then .operating else if rest ≠ [] then .scrubbing else .idle } ∧
      t.freeSet.Pairwise (· < ·) ∧ (∀ c : Block, c ∈ t.freeSet ↔ c = b ∨ c ∈ s.freeSet) ∧
      (∀ a : Address, t.store.read a = if a.val / 2048 = b.val then 0 else s.store.read a)

/-! ## The frame boundary -/

/-- Every frame boundary completes, whatever order its blocks work in: the counter is incremented, the pending switch, display value and
background take effect and are cleared (R111, R112, R115, R117, R118), the view is the list as the walk left it with the records' values (R71,
R119), and what no boundary work concerns is kept. Where no window is due for eviction the engine's queue, the streams and the frame store
are kept too, no boundary writes a byte outside the surface of the operation in flight, and one that an eviction abandons leaves whole
pixels, old or its own (R55, R57, R59, R61). Under a sound commit queue the operations that leave the queue are those that name a window that the
boundary evicts, the streams that close are those into such a window, and the store is kept where the operation in flight is not one of
them (R61, R104, R137). The engine makes its choice after the event: a scrub goes on, and an operation in flight is not put aside for blocks
released (R46). Which windows are evicted is fixed by the state in which the boundary occurs, an inference of the model (log entry 10). -/
def Obligations.BoundarySetsTimingAndView : Prop :=
  ∀ (order : BoundaryOrder) (s : State), ∃ t : State, exec (.frameBoundary order) s = .next t ∧
    t.timing = { s.timing with
      frameCounter := s.timing.frameCounter + 1
      current := s.timing.pendingSwitch.getD s.timing.current, pendingSwitch := none
      display := s.timing.pendingDisplay.getD s.timing.display, pendingDisplay := none
      background := s.timing.pendingBackground.getD s.timing.background, pendingBackground := none } ∧
    t.view = t.stack.map (fun r =>
      { ref := r, format := (t.win r.slot).format, width := (t.win r.slot).width, height := (t.win r.slot).height
        front := (t.win r.slot).front
        blocks := (if (t.win r.slot).front = 0 then (t.win r.slot).surface0 else (t.win r.slot).surface1.getD [])
        x := (t.win r.slot).active.x, y := (t.win r.slot).active.y, sx := (t.win r.slot).active.sx
        sy := (t.win r.slot).active.sy, key := (t.win r.slot).active.key, ink := (t.win r.slot).active.ink
        policy := (t.win r.slot).active.policy, fallbackColour := (t.win r.slot).active.fallbackColour }) ∧
    t.freeSet = s.freeSet ∧ t.quota = s.quota ∧ t.opCounter = s.opCounter ∧ t.grace = s.grace ∧
    t.subscribed = s.subscribed ∧ t.links = s.links ∧
    t.activity = choice { t with activity := s.activity } ∧
    ((∀ i : Slot, ¬ evictionDue (s.win i)) → t.opQueue = s.opQueue ∧ t.streams = s.streams ∧ t.store = s.store) ∧
    (CommitInv s → t.opQueue = s.opQueue.filter (fun op => ¬ cancelledAt s op) ∧
      (∀ q : Port, t.streams.get q =
        if ∃ i : Slot, evicted s i ∧ streamInto s q (s.refOf i) = true then none else s.streams.get q) ∧
      ((∀ op, inFlight s = some op → ¬ cancelledAt s op) → t.store = s.store)) ∧
    (∀ a : Address, (∀ op, inFlight s = some op →
      ∀ b ∈ (s.win op.dest.slot).surface op.destId, a.val / 2048 ≠ b.val) → t.store.read a = s.store.read a) ∧
    (PoolInv s → ShapeInv s → ∀ op, inFlight s = some op → AbandonedPixels s t op)

/-- At every boundary each subscribed port is told FRAME_BOUNDARY with the new count, and both ports PROFILE_SWITCHED where a switch was
applied, each once: gathered with its occurrences up by one, appended, or dropped from a full list with the overflow flag set (R115, R161, R163,
R167). An unsubscribed port is not told FRAME_BOUNDARY. -/
def Obligations.BoundaryRaisesDeviceNotices : Prop :=
  ∀ (order : BoundaryOrder) (s t : State) (q : Port), exec (.frameBoundary order) s = .next t →
    (s.subscribed.get q = true → toldKey s t q .frameBoundary 0 1 0 ((s.timing.frameCounter + 1).setWidth 16)) ∧
    (∀ slot : ProfileSlot, s.timing.pendingSwitch = some slot →
      toldKey s t q .profileSwitched 0 1 0 (if slot = .P0 then 0 else 1)) ∧
    (s.subscribed.get q = false → ∀ n : Notice, n.kind = .frameBoundary →
      (n ∈ (t.notices.get q).list ↔ n ∈ (s.notices.get q).list))

/-- A boundary completes every retirement (R18, R33, R70): each window that was RETIRING is FREE with its generation incremented and out of
the list, its blocks are on the scrub list, windows in ascending order of handle, and off its owner's charge. No other window becomes
FREE. The fields of a FREE record to which R7 gives no meaning hold the model's choice (log entry 11). -/
def Obligations.BoundaryRemovesRetiring : Prop :=
  ∀ (order : BoundaryOrder) (s t : State), CommitInv s → exec (.frameBoundary order) s = .next t →
    (∀ i : Slot, (s.win i).state = .retiring → t.win i = Window.free ((s.win i).gen + 1) ∧ ∀ r ∈ t.stack, r.slot ≠ i) ∧
    (∀ i : Slot, (s.win i).state ≠ .retiring → (s.win i).state ≠ .free → (t.win i).state ≠ .free) ∧
    t.scrubList = s.scrubList ++ ((List.finRange 24).filter (fun i => (s.win i).state = .retiring)).flatMap (fun i =>
      (s.win i).blocks) ∧
    (∀ q : Port, t.charge.get q = s.charge.get q - (((List.finRange 24).filter (fun i =>
      (s.win i).state = .retiring ∧ (s.win i).owner = some q)).map (fun i => (s.win i).blocks.length)).sum)

/-- A boundary applies every unit that is ready, whole (R92 to R98, R130): each window of it takes its staged values, its swap, its state and a
full lease, its entry is gone, and its owner is told COMMITTED, and LEASE_RESTORED where it was LAPSED and stays in the list. The list is
what the staged placements of the ready units make of it after the removal, one after another in queue order, each on the list and the states
that those before it have left (R69, R72, R78, R95), whatever order the blocks work in; an adjusted placement is told with its reason (R79).
Each notice is raised once. Which units are ready is fixed by the state in which the boundary occurs, an inference of the model (log entry 10).
That an offer of 0 frames, which no run reaches, expires is the model's choice (log entry 19). -/
def Obligations.BoundaryAppliesReadyCommits : Prop :=
  ∀ (order : BoundaryOrder) (s : State), CommitInv s → ∃ t : State, exec (.frameBoundary order) s = .next t ∧
    t.stack = (walkAfter s (walkOrder s)).stack ∧ (∀ i : Slot, i ∈ walkOrder s ↔ commitDue s i) ∧
    (∀ (before after : List Slot) (i : Slot) (pl : Placement) (reason : BitVec 16) (o : Port),
      walkOrder s = before ++ i :: after → (s.win i).staging.placement = some pl → (s.win i).owner = some o →
      (place (walkAfter s before) (s.win i).tier (s.refOf i) pl).adjusted = some reason →
      tells s t o .placementAdjusted (s.refOf i) reason) ∧
    ∀ i : Slot, commitDue s i →
      t.win i = committedWindow (s.win i) ∧ (∀ x ∈ t.commitQueue, x.ref.slot ≠ i) ∧
      ∀ o : Port, (s.win i).owner = some o →
        tells s t o .committed (s.refOf i) ((s.timing.frameCounter + 1).setWidth 16) ∧
        ((s.win i).state = .lapsed → 0 < (s.win i).active.leaseLength → (s.win i).staging.placement ≠ some .out →
          tells s t o .leaseRestored (s.refOf i) 0x0001)

/-- A boundary holds back every unit that is not ready, whole (R93, R94, R99, R100): with a deferral count below 15 each entry stays with its
count incremented, at 15 each is removed unapplied and the owner is told COMMIT_EXPIRED, and in either case the window keeps its staging, its
active fields and its front. A unit of which a member is evicted at this boundary is not meant (R104). The queue after the boundary is the
deferred entries alone, at their places. Where a member is evicted, each member that is not keeps its staging and is told COMMIT_ABANDONED with an
evicted member's handle, or, at count 15, COMMIT_EXPIRED where the walk came first (R101, R104). That a unit not ready when the boundary occurs is held back whatever an eviction cancels is an
inference of the model (log entry 10). -/
def Obligations.BoundaryDefersOrExpires : Prop :=
  ∀ (order : BoundaryOrder) (s : State), CommitInv s → ∃ t : State, exec (.frameBoundary order) s = .next t ∧
    t.commitQueue = deferredQueue s ∧
    (∀ e ∈ s.commitQueue, ¬ readyUnit s e →
      (∀ x ∈ s.commitQueue, sameGroup e x → ¬ evictionDue (s.win x.ref.slot)) →
      (e.deferral < 15 → { e with deferral := e.deferral + 1 } ∈ t.commitQueue) ∧
      (e.deferral = 15 → (∀ x ∈ t.commitQueue, x.ref.slot ≠ e.ref.slot) ∧
        ∀ o : Port, (s.win e.ref.slot).owner = some o →
          tells s t o .commitExpired e.ref ((s.timing.frameCounter + 1).setWidth 16)) ∧
      (t.win e.ref.slot).staging = (s.win e.ref.slot).staging ∧ (t.win e.ref.slot).active = (s.win e.ref.slot).active ∧
      (t.win e.ref.slot).front = (s.win e.ref.slot).front) ∧
    ∀ e ∈ s.commitQueue, ¬ readyUnit s e → ¬ evictionDue (s.win e.ref.slot) →
      (∃ x ∈ s.commitQueue, sameGroup e x ∧ evictionDue (s.win x.ref.slot)) →
      (t.win e.ref.slot).staging = (s.win e.ref.slot).staging ∧ (t.win e.ref.slot).active = (s.win e.ref.slot).active ∧
      (t.win e.ref.slot).front = (s.win e.ref.slot).front ∧
      ∀ o : Port, (s.win e.ref.slot).owner = some o →
        (∃ x ∈ s.commitQueue, sameGroup e x ∧ evictionDue (s.win x.ref.slot) ∧
          tells s t o .commitAbandoned e.ref (BitVec.ofNat 16 (x.ref.slot.val + 1))) ∨
        (e.deferral = 15 ∧ tells s t o .commitExpired e.ref ((s.timing.frameCounter + 1).setWidth 16))

/-- A boundary counts the lease, the grace and the offer of every HIDDEN, SHOWN or LAPSED window whose commit it does not apply, by the
table of R129 and by R147, in whatever order the windows are visited, and tells a lapse and an eviction to the owner and Port A, a renewal's
restoration to the owner, and an offer's expiry to both ports (R133, R134, R137, R147), each once. For an evicted window it also tells the issuer of
each operation that names it OP_CANCELLED, once for each operation cancelled and last with the number of the last cancelled, the owner
STREAM_CLOSED, cause EVICTION, where a stream was open into it, and the target of its offer OFFER_WITHDRAWN, or both ports OFFER_EXPIRED where the
count came first (R16, R61, R147). Which commits are applied is fixed by the state in which the boundary occurs, an inference of the model (log
entry 10). What it makes of a SHOWN leased window of counter 0 and of an offer of 0 frames, which no run reaches, is its choice (log entry 19). -/
def Obligations.BoundaryCountsLeasesAndOffers : Prop :=
  ∀ (order : BoundaryOrder) (s : State) (i : Slot), CommitInv s → live (s.win i) → ¬ commitDue s i →
    ∃ t : State, exec (.frameBoundary order) s = .next t ∧ t.win i = countedWindow s.grace (s.win i) ∧
      (∀ o : Port, (s.win i).owner = some o → 0 < (s.win i).active.leaseLength →
        ((s.win i).state = .shown → (s.win i).renewPending = false → (s.win i).leaseCounter = 1 →
          tells s t o .leaseLapsed (s.refOf i) (BitVec.ofNat 16 s.grace) ∧
          tells s t .A .leaseLapsed (s.refOf i) (BitVec.ofNat 16 s.grace)) ∧
        ((s.win i).state = .lapsed → (s.win i).renewPending = true → tells s t o .leaseRestored (s.refOf i) 0x0002) ∧
        (evictionDue (s.win i) →
          tells s t o .windowEvicted (s.refOf i) ((s.timing.frameCounter + 1).setWidth 16) ∧
          tells s t .A .windowEvicted (s.refOf i) ((s.timing.frameCounter + 1).setWidth 16) ∧
          (streamInto s .A (s.refOf i) = true ∨ streamInto s .B (s.refOf i) = true →
            tells s t o .streamClosed (s.refOf i) 0x0002))) ∧
      (evictionDue (s.win i) →
        (∀ op ∈ s.opQueue, opNames (s.refOf i) op = true → ∃ (before after : List EngineOp) (last : EngineOp),
          cancelledInto s op.issuer op.dest.slot = before ++ last :: after ∧
          (∀ x ∈ after, ∃ j : Slot, evicted s j ∧ opNames (s.refOf j) x = true ∧ opNames (s.refOf j) last = false) ∧
          toldKey s t op.issuer .opCancelled (op.dest.slot.val + 1) (cancelledInto s op.issuer op.dest.slot).length
            last.dest.gen (last.opNumber.setWidth 16)) ∧
        (∀ v : Offer, (s.win i).offer = some v →
          tells s t v.target .offerWithdrawn (s.refOf i) 0x0002 ∨
          (v.frames ≤ 1 ∧ ∀ q : Port, tells s t q .offerExpired (s.refOf i) ((s.timing.frameCounter + 1).setWidth 16)))) ∧
      (∀ v : Offer, (s.win i).offer = some v → v.frames = 1 → ¬ evictionDue (s.win i) → ∀ q : Port,
        tells s t q .offerExpired (s.refOf i) ((s.timing.frameCounter + 1).setWidth 16))

/-- The four countdown outcomes as commands of their own, for a window whose outcome is due: a unit not ready at count 15 expires (R99), a lease
counter at 1 lapses the window (R133), a grace counter at 1 evicts it (R137), an offer at 1 expires (R147). That they are made outside a
frame boundary, from the present counter and readiness, is the model's choice (log entry 3). -/
def Obligations.CountdownOutcomes : Prop :=
  (∀ (s : State) (e : CommitEntry), CommitInv s → e ∈ s.commitQueue → ¬ readyUnit s e → e.deferral = 15 →
    exec (.commitExpiry (e.ref.slot.val + 1)) s = .next (raised { s with commitQueue := withoutUnit s e.ref.slot }
      ((s.commitQueue.filter (fun x => sameGroup e x)).flatMap (fun x =>
        ((s.win x.ref.slot).owner.map (fun o =>
          Raising.mk o .commitExpired x.ref (s.timing.frameCounter.setWidth 16))).toList)))) ∧
  (∀ (s : State) (i : Slot) (o : Port), CommitInv s → ¬ commitDue s i → (s.win i).owner = some o →
    (s.win i).state = .shown → 0 < (s.win i).active.leaseLength → (s.win i).renewPending = false →
    (s.win i).leaseCounter = 1 →
    exec (.lapse (i.val + 1)) s = .next (raised
      (s.setWin i { s.win i with state := .lapsed, leaseCounter := 0, renewPending := false, graceCounter := s.grace })
      (Raising.mk o .leaseLapsed (s.refOf i) (BitVec.ofNat 16 s.grace) ::
        (if o = .B then [Raising.mk .A .leaseLapsed (s.refOf i) (BitVec.ofNat 16 s.grace)] else [])))) ∧
  (∀ (s : State) (i : Slot) (o : Port), CommitInv s → ¬ commitDue s i → (s.win i).owner = some o →
    evictionDue (s.win i) →
    ∃ t : State, exec (.eviction (i.val + 1)) s = .next t ∧
      t.windows = s.windows.set i { s.win i with
        state := .retiring, staging := Staging.empty, offer := none, renewPending := false, graceCounter := 0 } ∧
      t.commitQueue = withoutUnit s i ∧ t.opQueue = s.opQueue.filter (fun op => !opNames (s.refOf i) op) ∧
      (∀ q : Port, t.streams.get q = if streamInto s q (s.refOf i) then none else s.streams.get q) ∧
      t.notices = raiseAll s.notices
        (Raising.mk o .windowEvicted (s.refOf i) (s.timing.frameCounter.setWidth 16) ::
          (if o = .B then [Raising.mk .A .windowEvicted (s.refOf i) (s.timing.frameCounter.setWidth 16)] else [])
          ++ retirementRaisings s i o (some 0x0002)) ∧
      t.stack = s.stack ∧ t.view = s.view ∧ t.scrubList = s.scrubList ∧ t.charge = s.charge ∧ t.freeSet = s.freeSet ∧
      t.quota = s.quota ∧ t.opCounter = s.opCounter ∧ t.grace = s.grace ∧ t.subscribed = s.subscribed ∧
      t.timing = s.timing ∧ t.links = s.links ∧ t.activity = choice { t with activity := s.activity } ∧
      (∀ a : Address, (∀ op, inFlight s = some op → opNames (s.refOf i) op = true →
        ∀ b ∈ (s.win op.dest.slot).surface op.destId, a.val / 2048 ≠ b.val) → t.store.read a = s.store.read a) ∧
      (PoolInv s → ShapeInv s → ∀ op, inFlight s = some op → AbandonedPixels s t op)) ∧
  (∀ (s : State) (i : Slot) (o : Offer), (s.win i).offer = some o → o.frames = 1 →
    exec (.offerExpiry (i.val + 1)) s = .next (raised (s.setWin i { s.win i with offer := none })
      [⟨.A, .offerExpired, s.refOf i, s.timing.frameCounter.setWidth 16⟩,
       ⟨.B, .offerExpired, s.refOf i, s.timing.frameCounter.setWidth 16⟩]))

/-- A command that names an event the state rules out changes nothing: the completion of a request that is not in processing, an assertion
of a select that is asserted, a release of one that is not, a completion of nothing, a countdown outcome of a handle that names no slot.
This is the model's choice (log entry 2). So does a countdown outcome that is not due: an expiry of a window that is not armed, whose unit is
ready or whose count is below 15, a lapse or an eviction of a window whose counter is not at 1, whose renewal is pending or whose commit is about
to be applied, an expiry of an offer with frames to go (the model's choice, log entry 3). -/
def Obligations.EventsRuledOutChangeNothing : Prop :=
  (∀ (s : State) (p : Port), (∀ r, ¬ Processing s p r) →
    exec (.undefinedRequest p) s = .next s ∧ ∀ x ∈ requestTable p, exec x.2 s = .next s) ∧
  (∀ (s : State) (p : Port) (r : Request), Processing s p r →
    (r.code ∈ (requestTable p).map Prod.fst → exec (.undefinedRequest p) s = .next s) ∧
    ∀ x ∈ requestTable p, x.1 ≠ r.code → exec x.2 s = .next s) ∧
  (∀ (s : State) (p : Port), (s.links.get p).transaction ≠ none → exec (.selectAssert p) s = .next s) ∧
  (∀ (s : State) (p : Port) (bits : List Bool), (s.links.get p).transaction = none →
    exec (.selectRelease p bits) s = .next s) ∧
  (∀ s : State, s.activity ≠ .operating ∨ s.opQueue = [] → exec .operationCompletion s = .next s) ∧
  (∀ s : State, s.activity ≠ .scrubbing ∨ s.scrubList = [] → exec .scrubCompletion s = .next s) ∧
  (∀ (s : State) (h : Nat), h = 0 ∨ 24 < h → exec (.commitExpiry h) s = .next s ∧ exec (.lapse h) s = .next s ∧
    exec (.eviction h) s = .next s ∧ exec (.offerExpiry h) s = .next s) ∧
  (∀ (s : State) (i : Slot), CommitInv s →
    ((∀ e ∈ s.commitQueue, e.ref.slot = i → readyUnit s e ∨ e.deferral < 15) → exec (.commitExpiry (i.val + 1)) s = .next s) ∧
    (commitDue s i ∨ (s.win i).state ≠ .shown ∨ (s.win i).active.leaseLength = 0 ∨ (s.win i).renewPending = true ∨
      (s.win i).leaseCounter ≠ 1 → exec (.lapse (i.val + 1)) s = .next s) ∧
    (commitDue s i ∨ ¬ evictionDue (s.win i) → exec (.eviction (i.val + 1)) s = .next s)) ∧
  (∀ (s : State) (i : Slot), (∀ v ∈ (s.win i).offer, 1 < v.frames) → exec (.offerExpiry (i.val + 1)) s = .next s)

/-! ## The stacking list -/

/-- What a placement makes of the list (R72 to R77, R79): the other entries keep their order; TOP and BOTTOM reach the ends of the window's own
tier; ABOVE and BELOW stand next to a present window of that tier, go to the top of the tier with reason ABSENT where the named window is
absent, and to the tier boundary with reason TIER where it is of the other tier; OUT leaves the window out. -/
def Obligations.PlacementEditsList : Prop :=
  ∀ (s : State) (i : Slot) (pl : Placement), StackInv s → (∀ r ∈ placementNamed pl, r.slot ≠ i) →
    let x := s.refOf i
    let tier := (s.win i).tier
    let others := s.stack.filter (fun r => r ≠ x)
    let normals := others.filter (isNormal s)
    let overlays := others.filter (fun r => !isNormal s r)
    let placed := place s tier x pl
    (placed.list.filter (fun r => r ≠ x) = others) ∧
    (match pl with
      | .top => placed = ⟨if tier = .normal then normals ++ x :: overlays else others ++ [x], none⟩
      | .bottom => placed = ⟨if tier = .normal then x :: others else normals ++ x :: overlays, none⟩
      | .out => placed = ⟨others, none⟩
      | .above named =>
        if (s.win named.slot).gen = named.gen ∧ inListState (s.win named.slot).state = true then
          if (s.win named.slot).tier = tier then
            ∃ below above, others = below ++ named :: above ∧ placed = ⟨below ++ named :: x :: above, none⟩
          else placed = ⟨normals ++ x :: overlays, some 0x0002⟩
        else placed = ⟨if tier = .normal then normals ++ x :: overlays else others ++ [x], some 0x0001⟩
      | .below named =>
        if (s.win named.slot).gen = named.gen ∧ inListState (s.win named.slot).state = true then
          if (s.win named.slot).tier = tier then
            ∃ below above, others = below ++ named :: above ∧ placed = ⟨below ++ x :: named :: above, none⟩
          else placed = ⟨normals ++ x :: overlays, some 0x0002⟩
        else placed = ⟨if tier = .normal then normals ++ x :: overlays else others ++ [x], some 0x0001⟩)

/-- Between boundaries nothing that is shown changes (R68, R71, R95): no command but a frame boundary, a RESTART and a hardware reset edits the list
or the view, and no such command changes the active fields, the front, the tier, the format, the size or the surfaces of a window that
stays a window. -/
def Obligations.ShownThingsChangeOnlyAtBoundaries : Prop :=
  ∀ (c : Instr) (s t : State), exec c s = .next t → c ≠ .hardwareReset → (∀ order, c ≠ .frameBoundary order) →
    (∀ p, c ≠ .restart p) →
    t.stack = s.stack ∧ t.view = s.view ∧
    ∀ i : Slot, (s.win i).state ≠ .free → (t.win i).state ≠ .free →
      (t.win i).gen = (s.win i).gen ∧ (t.win i).active = (s.win i).active ∧ (t.win i).front = (s.win i).front ∧
      (t.win i).tier = (s.win i).tier ∧ (t.win i).format = (s.win i).format ∧ (t.win i).width = (s.win i).width ∧
      (t.win i).height = (s.win i).height ∧ (t.win i).surface0 = (s.win i).surface0 ∧
      (t.win i).surface1 = (s.win i).surface1

/-- What Port B cannot do (R10, R142, R144): no command of Port B changes a device setting or a timing value, makes an OVERLAY window, or changes
any window of Port A but one that Port A has offered to it. -/
def Obligations.PortBCannotTouchWhatIsPortAs : Prop :=
  ∀ (c : Instr) (s t : State), exec c s = .next t → commandPort c = some .B →
    t.timing = s.timing ∧ t.quota = s.quota ∧ t.grace = s.grace ∧
    ∀ i : Slot,
      ((s.win i).state = .free → (t.win i).state ≠ .free → (t.win i).tier = .normal ∧ (t.win i).owner = some .B) ∧
      ((s.win i).owner = some .A → (s.win i).state ≠ .free → (s.win i).offer = none → t.win i = s.win i)

/-! ## Notices -/

/-- A raising into a sound list (R161): gathered into the notice of its key in its place, appended, or dropped with the overflow flag set. -/
def Obligations.NoticeRaisingTakesThreeWays : Prop :=
  ∀ (b : NoticeBox) (k : NoticeKind) (h : Nat) (g : Gen) (d : BitVec 16), boxOk b →
    (∀ (before after : List Notice) (n : Notice), b.list = before ++ n :: after → n.kind = k → n.handle = h →
      b.take k h g d = { b with list := before ++
        ⟨k, h, g, if n.occurrences = 255 then 255 else n.occurrences + 1, d⟩ :: after }) ∧
    ((∀ n ∈ b.list, n.kind ≠ k ∨ n.handle ≠ h) →
      (b.list.length < 32 → b.take k h g d = { b with list := b.list ++ [⟨k, h, g, 1, d⟩] }) ∧
      (b.list.length = 32 → b.take k h g d = { b with overflow := true }))

/-! ## Composition -/

/-- The colour of a panel pixel (R120 to R125): the topmost window of the view that is opaque there gives it, else the background; a window
covers its rectangle, shows the surface pixel its scroll brings there, is transparent by M1 bit or key, and widens 5-6-5 by repeating top bits.
The surface pixel is the one stored, or, where the operation in flight writes it, that one or the operation's own, never a mixture (R48,
R119). The panel signals of each line and clock of a frame period run as the current profile gives, with DE inactive and RGB zero while the
display is OFF (R109, R110, R117). -/
def Obligations.CompositionTakesTopmostOpaque : Prop :=
  (∀ (s : State) (px py : Nat),
    ((∀ v ∈ s.view, v.draw s px py = none) → composePixel s px py = s.timing.background) ∧
    (∀ (below above : List ViewEntry) (v : ViewEntry) (c : Colour), s.view = below ++ v :: above →
      (∀ u ∈ above, u.draw s px py = none) → v.draw s px py = some c → composePixel s px py = c)) ∧
  (∀ (s : State) (v : ViewEntry) (px py : Nat),
    (¬ (v.x ≤ px ∧ (px : Int) < v.x + v.width ∧ v.y ≤ py ∧ (py : Int) < v.y + v.height) → v.draw s px py = none) ∧
    (v.x ≤ px → (px : Int) < v.x + v.width → v.y ≤ py → (py : Int) < v.y + v.height →
      let at' := shownPlace v px py
      let stored := readPixel s.store v.format (v.format.stride v.width) v.blocks at'.1 at'.2
      ((s.win v.ref.slot).state = .shown ∨ (s.win v.ref.slot).state = .retiring ∨
          ((s.win v.ref.slot).state = .lapsed ∧ v.policy = .keep) →
        (inFlight s = none → v.draw s px py = shownColour v stored) ∧
        (ShapeInv s → ∀ op, inFlight s = some op → v.draw s px py = shownColour v stored ∨
          (op.dest = v.ref ∧ op.destId = v.front ∧
            ∃ new, opPixel s op at'.1 at'.2 = some new ∧ v.draw s px py = shownColour v new))) ∧
      ((s.win v.ref.slot).state = .lapsed → v.policy = .fill → v.draw s px py = some v.fallbackColour) ∧
      ((s.win v.ref.slot).state = .lapsed → v.policy = .vanish → v.draw s px py = none))) ∧
  (∀ (s : State) (line clock : Nat),
    let f := if s.timing.current = .P0 then s.timing.p0 else s.timing.p1
    let active := s.timing.display = true ∧ f.vFront + f.vSync + f.vBack ≤ line ∧
      line < f.vFront + f.vSync + f.vBack + f.activeHeight ∧ clock < f.activeWidth
    panelPins s line clock =
      { hsync := levelOf f.hsync (f.activeWidth + f.hFront ≤ clock ∧ clock < f.activeWidth + f.hFront + f.hSync)
        vsync := levelOf f.vsync (f.vFront ≤ line ∧ line < f.vFront + f.vSync)
        de := levelOf f.de active
        rgb := if active then composePixel s clock (line - (f.vFront + f.vSync + f.vBack)) else ⟨0, 0, 0⟩ } ∧
    f.framePeriod = (f.activeWidth + (f.hFront + f.hSync + f.hBack)) * (f.activeHeight + (f.vFront + f.vSync + f.vBack)) * f.divisor)

/-! ## Invariants -/

/-- The state at hardware reset is sound in every way the statements below keep. -/
def Obligations.ResetIsSound : Prop :=
  NoticesInv State.reset ∧ PoolInv State.reset ∧ QuotaInv State.reset ∧ StoreInv State.reset ∧ ZeroInv State.reset ∧
  EngineInv State.reset ∧ CommitInv State.reset ∧ ConsecutiveInv State.reset ∧ StackInv State.reset ∧ ViewInv State.reset ∧ FieldsInv State.reset ∧
  ShapeInv State.reset ∧ LeaseInv State.reset ∧ OfferInv State.reset ∧ LinkInv State.reset ∧ PaddingInv State.reset

/-- Every step keeps both notice lists sound, at most 32 notices, one per key, occurrences in 1..255 and an overflow flag only on a list that
is not empty (R159, R160, R163), the quotas within 192 together (R36), and each transaction that sends a held response paired with the
response still held (R175, R178). -/
def Obligations.NoticesQuotasAndLinksStaySound : Prop :=
  ∀ s t : State, NoticesInv s → QuotaInv s → LinkInv s → step s = .next t → NoticesInv t ∧ QuotaInv t ∧ LinkInv t

/-- Every step keeps the block pool sound: each of the 192 blocks is in exactly one of the free set, the scrub list and the surfaces of the
windows, and each charge is what its port's windows hold (R7, R23, R26, R34). So free count, scrub list and charges sum to 192 (R34). -/
def Obligations.BlockPoolStaysSound : Prop :=
  (∀ s t : State, PoolInv s → step s = .next t → PoolInv t) ∧
  (∀ s : State, PoolInv s → s.freeSet.length + s.scrubList.length + s.charge.a + s.charge.b = 192)

/-- Every step keeps the frame store in its canonical form, every free block zero in all its bytes and every window's blocks scrubbed since the
last hardware reset (R26, R28, R32). With sound shapes it also keeps zero the bytes past a surface's end and the unused bits of an M1 row, for
the life of the window (R25). -/
def Obligations.FreeBlocksStayZero : Prop :=
  (∀ s t : State, PoolInv s → StoreInv s → ZeroInv s → step s = .next t →
    StoreInv t ∧ ZeroInv t ∧ (ShapeInv s → PaddingInv s → PaddingInv t)) ∧
  (∀ s : State, ZeroInv s → ∀ b ∈ s.freeSet, ∀ a : Address, a.val / 2048 = b.val → s.store.read a = 0)

/-- Every step keeps the commit queue, the stacking list, the view and the staged and active fields sound: one entry per window, groups of one
owner and one count whose members stand consecutive (R87, R88, R99), the list exactly the SHOWN, LAPSED and RETIRING windows (R66) with no NORMAL window above an OVERLAY
one (R67), the view equal to the list (R71), and every field in its range (R5, R84). -/
def Obligations.ListAndCommitQueueStaySound : Prop :=
  ∀ s t : State, CommitInv s → StackInv s → ViewInv s → FieldsInv s → step s = .next t →
    CommitInv t ∧ StackInv t ∧ ViewInv t ∧ FieldsInv t ∧ (ConsecutiveInv s → ConsecutiveInv t)

/-- Every step keeps every window's lease and offer sound: the counter between 0 and L and 0 only on a LAPSED or unleased window (R128), no offer
on an OVERLAY window or to the owner, 1..120 frames remaining (R143, R145). Only a sound commit queue names windows alone. -/
def Obligations.LeasesAndOffersStaySound : Prop :=
  ∀ s t : State, CommitInv s → LeaseInv s → OfferInv s → step s = .next t → LeaseInv t ∧ OfferInv t

/-- From a state whose windows, streams and operations have sound shapes every step answers a next state, never a fault or a refusal. With a
sound commit queue and sound fields the shapes stay sound, as do the engine's queue of at most 8 and its activity (R41, R42, R46, R49,
R61). -/
def Obligations.EveryStepIsSafe : Prop :=
  ∀ s : State, ShapeInv s →
    ∃ t : State, step s = .next t ∧ (CommitInv s → FieldsInv s → EngineInv s → ShapeInv t ∧ EngineInv t)
end

