-- ==== Sys2Proof/Laws/Bytes.lean ====
section
/-! SUPPORT. Fields of a parameter list read back what was written, the bytes of a transaction are the bytes the host sent, and a sequence
followed by its CRC leaves the register at 00h (R172, R174, R189). -/

namespace Sys2Proof.Machine

/-! ## One field at a time -/

@[simp] theorem byteOf_toNat (n : Nat) : (byteOf n).toNat = n % 256 := by simp [byteOf]

theorem byteOf_toNat_of_lt {n : Nat} (h : n < 256) : (byteOf n).toNat = n := by
  rw [byteOf_toNat, Nat.mod_eq_of_lt h]

@[simp] theorem byteOf_self (b : Byte) : byteOf b.toNat = b := by simp [byteOf]

@[simp] theorem byteAt_cons_zero (b : Byte) (ps : List Byte) : byteAt (b :: ps) 0 = b := rfl

@[simp] theorem byteAt_cons_succ (b : Byte) (ps : List Byte) (k : Nat) : byteAt (b :: ps) (k + 1) = byteAt ps k := rfl

@[simp] theorem natAt_cons_zero (b : Byte) (ps : List Byte) : natAt (b :: ps) 0 = b.toNat := rfl

@[simp] theorem natAt_cons_succ (b : Byte) (ps : List Byte) (k : Nat) : natAt (b :: ps) (k + 1) = natAt ps k := rfl

@[simp] theorem be16At_cons_succ (b : Byte) (ps : List Byte) (k : Nat) : be16At (b :: ps) (k + 1) = be16At ps k := rfl

@[simp] theorem be16_length (n : Nat) : (be16 n).length = 2 := rfl

@[simp] theorem beSigned_length (v : Int) : (beSigned v).length = 2 := rfl

@[simp] theorem colourBytes_length (c : Colour) : (colourBytes c).length = 3 := rfl

/-- A two-byte field reads back the number written, where it fits (R189). -/
theorem be16At_be16 {n : Nat} (h : n < 65536) (ps : List Byte) : be16At (be16 n ++ ps) 0 = n := by
  show (byteOf (n / 256)).toNat * 256 + (byteOf n).toNat = n
  simp only [byteOf_toNat]
  omega

/-- A two-byte signed field reads back the number written, where it fits (R189). -/
theorem signedAt_beSigned {v : Int} (h1 : -32768 ≤ v) (h2 : v < 32768) (ps : List Byte) :
    signedAt (beSigned v ++ ps) 0 = v := by
  unfold signedAt beSigned
  rw [be16At_be16 (BitVec.isLt _), BitVec.ofNat_toNat, BitVec.setWidth_eq, BitVec.toInt_ofInt]
  simp only [Int.bmod]
  omega

@[simp] theorem colourAt_bytes (r g b : Byte) (ps : List Byte) : colourAt (r :: g :: b :: ps) 0 = ⟨r, g, b⟩ := rfl


/-! ## The bytes of a transaction (R172) -/

/-- A byte sent most significant bit first is received as it was sent. -/
theorem byteOfBits_bitsOfByte (b : Byte) :
    byteOfBits (b.getLsbD 7) (b.getLsbD 6) (b.getLsbD 5) (b.getLsbD 4) (b.getLsbD 3) (b.getLsbD 2) (b.getLsbD 1)
      (b.getLsbD 0) = b := by
  revert b
  decide

theorem completeBytes_short {l : List Bool} (h : l.length < 8) : completeBytes l = [] := by
  match l with
  | [] => rfl
  | [_] => rfl
  | [_, _] => rfl
  | [_, _, _] => rfl
  | [_, _, _, _] => rfl
  | [_, _, _, _, _] => rfl
  | [_, _, _, _, _, _] => rfl
  | [_, _, _, _, _, _, _] => rfl
  | _ :: _ :: _ :: _ :: _ :: _ :: _ :: _ :: _ => simp only [List.length_cons] at h; omega

/-- The complete bytes of what a host clocks in are the bytes it sends; an incomplete last byte counts for nothing. -/
theorem completeBytes_bitsOfBytes (bs : List Byte) {tail : List Bool} (h : tail.length < 8) :
    completeBytes (bitsOfBytes bs ++ tail) = bs := by
  induction bs with
  | nil => exact completeBytes_short h
  | cons b rest ih =>
    show byteOfBits _ _ _ _ _ _ _ _ :: completeBytes (bitsOfBytes rest ++ tail) = b :: rest
    rw [ih, byteOfBits_bitsOfByte]

/-- One byte is complete for every eight bits clocked. -/
theorem completeBytes_length (l : List Bool) : (completeBytes l).length = l.length / 8 := by
  fun_induction completeBytes l with
  | case1 b7 b6 b5 b4 b3 b2 b1 b0 rest ih => simp only [List.length_cons, ih]; omega
  | case2 l h =>
    have : l.length < 8 := by
      match l, h with
      | [], _ => simp
      | [_], _ => simp
      | [_, _], _ => simp
      | [_, _, _], _ => simp
      | [_, _, _, _], _ => simp
      | [_, _, _, _, _], _ => simp
      | [_, _, _, _, _, _], _ => simp
      | [_, _, _, _, _, _, _], _ => simp
      | a :: b :: c :: d :: e :: f :: g :: i :: r, h => exact absurd rfl (h a b c d e f g i r)
    simp only [List.length_nil]
    omega

/-! ## The CRC (R174) -/

theorem crcFrom_append (r : Byte) (xs ys : List Byte) : crcFrom r (xs ++ ys) = crcFrom (crcFrom r xs) ys := by
  simp [crcFrom]

@[simp] theorem crcByte_self (r : Byte) : crcByte r r = 0 := by
  have h : r ^^^ r = 0 := BitVec.xor_self
  unfold crcByte
  rw [h]
  decide

/-- A sequence followed by its CRC leaves the register at 00h. -/
theorem crc_leaves_zero (bs : List Byte) : crcFrom 0xFF (bs ++ [crc8 bs]) = 0 := by
  rw [crcFrom_append]
  exact crcByte_self _

/-- No shift loses anything: two register values that shift to one were one. So a byte that leaves the register at 00h is the
register, which is how the CRC of a frame is judged (R174, R179). -/
theorem crcByte_eq_zero {r b : Byte} : crcByte r b = 0 ↔ b = r := by
  have inj : ∀ x : Byte, crcShift x = 0 → x = 0 := by decide
  constructor
  · intro h
    have hx : r ^^^ b = 0 := by
      unfold crcByte at h
      exact inj _ (inj _ (inj _ (inj _ (inj _ (inj _ (inj _ (inj _ h)))))))
    exact (BitVec.xor_eq_zero_iff.1 hx).symm
  · rintro rfl
    exact crcByte_self _

/-- The part's judgement of a frame's CRC accepts exactly the CRC of the bytes before it (R174, R179). -/
theorem crc_judged (bs : List Byte) (x : Byte) : crcFrom 0xFF (bs ++ [x]) = 0 ↔ x = crc8 bs := by
  rw [crcFrom_append]
  exact crcByte_eq_zero

end Sys2Proof.Machine
end

