-- ==== Sys2Proof/Laws/State.lean ====
section
/-! SUPPORT. One lemma for each field and each named update of the state, and what the named reads see after an update, so that
no later proof unfolds a record update. -/

namespace Sys2Proof.Machine

/-! ## One value for each port -/

@[simp] theorem PerPort.get_set_same {α : Type} (v : PerPort α) (p : Port) (x : α) : (v.set p x).get p = x := by
  cases p <;> rfl

theorem PerPort.get_set_of_ne {α : Type} (v : PerPort α) {p q : Port} (x : α) (h : q ≠ p) :
    (v.set p x).get q = v.get q := by
  cases p <;> cases q <;> first | rfl | exact absurd rfl h

@[simp] theorem PerPort.get_set_other {α : Type} (v : PerPort α) (p : Port) (x : α) :
    (v.set p x).get p.other = v.get p.other := by
  cases p <;> rfl

@[simp] theorem PerPort.set_get {α : Type} (v : PerPort α) (p : Port) : v.set p (v.get p) = v := by
  cases p <;> rfl

@[simp] theorem PerPort.set_set {α : Type} (v : PerPort α) (p : Port) (x y : α) : (v.set p x).set p y = v.set p y := by
  cases p <;> rfl

theorem Port.other_ne (p : Port) : p.other ≠ p := by cases p <;> decide

@[simp] theorem Port.other_other (p : Port) : p.other.other = p := by cases p <;> rfl

theorem Port.eq_or_eq_other (p q : Port) : q = p ∨ q = p.other := by
  cases p <;> cases q <;> first | exact .inl rfl | exact .inr rfl

/-! ## Records -/

@[simp] theorem State.win_setWin_same (s : State) (i : Slot) (w : Window) : (s.setWin i w).win i = w := by
  simp [State.win, State.setWin]

theorem State.win_setWin_of_ne (s : State) {i j : Slot} (w : Window) (h : j ≠ i) : (s.setWin i w).win j = s.win j := by
  have h' : i.val ≠ j.val := fun e => h (Fin.ext e.symm)
  simp [State.win, State.setWin, Vector.getElem_set_ne, h']

theorem State.win_setWin (s : State) (i j : Slot) (w : Window) :
    (s.setWin i w).win j = if j = i then w else s.win j := by
  by_cases h : j = i
  · subst h; simp
  · simp [h, State.win_setWin_of_ne]

@[simp] theorem State.setWin_setWin (s : State) (i : Slot) (w v : Window) : (s.setWin i w).setWin i v = s.setWin i v := by
  simp [State.setWin]

theorem State.setWin_windows (s : State) (i : Slot) (w : Window) : (s.setWin i w).windows = s.windows.set i w := rfl

/-- Two states with the same records see the same record in every slot. -/
theorem State.win_congr {s t : State} (h : t.windows = s.windows) (i : Slot) : t.win i = s.win i := by
  simp only [State.win, h]

@[simp] theorem State.refOf_slot (s : State) (i : Slot) : (s.refOf i).slot = i := rfl

@[simp] theorem State.refOf_gen (s : State) (i : Slot) : (s.refOf i).gen = (s.win i).gen := rfl

/-! ## Fields kept by `State.setWin` -/

@[simp] theorem State.setWin_freeSet (s : State) (i : Slot) (w : Window) : (s.setWin i w).freeSet = s.freeSet := rfl
@[simp] theorem State.setWin_scrubList (s : State) (i : Slot) (w : Window) : (s.setWin i w).scrubList = s.scrubList := rfl
@[simp] theorem State.setWin_charge (s : State) (i : Slot) (w : Window) : (s.setWin i w).charge = s.charge := rfl
@[simp] theorem State.setWin_quota (s : State) (i : Slot) (w : Window) : (s.setWin i w).quota = s.quota := rfl
@[simp] theorem State.setWin_store (s : State) (i : Slot) (w : Window) : (s.setWin i w).store = s.store := rfl
@[simp] theorem State.setWin_opQueue (s : State) (i : Slot) (w : Window) : (s.setWin i w).opQueue = s.opQueue := rfl
@[simp] theorem State.setWin_activity (s : State) (i : Slot) (w : Window) : (s.setWin i w).activity = s.activity := rfl
@[simp] theorem State.setWin_streams (s : State) (i : Slot) (w : Window) : (s.setWin i w).streams = s.streams := rfl
@[simp] theorem State.setWin_opCounter (s : State) (i : Slot) (w : Window) : (s.setWin i w).opCounter = s.opCounter := rfl
@[simp] theorem State.setWin_commitQueue (s : State) (i : Slot) (w : Window) : (s.setWin i w).commitQueue = s.commitQueue := rfl
@[simp] theorem State.setWin_stack (s : State) (i : Slot) (w : Window) : (s.setWin i w).stack = s.stack := rfl
@[simp] theorem State.setWin_view (s : State) (i : Slot) (w : Window) : (s.setWin i w).view = s.view := rfl
@[simp] theorem State.setWin_grace (s : State) (i : Slot) (w : Window) : (s.setWin i w).grace = s.grace := rfl
@[simp] theorem State.setWin_timing (s : State) (i : Slot) (w : Window) : (s.setWin i w).timing = s.timing := rfl
@[simp] theorem State.setWin_notices (s : State) (i : Slot) (w : Window) : (s.setWin i w).notices = s.notices := rfl
@[simp] theorem State.setWin_subscribed (s : State) (i : Slot) (w : Window) : (s.setWin i w).subscribed = s.subscribed := rfl
@[simp] theorem State.setWin_links (s : State) (i : Slot) (w : Window) : (s.setWin i w).links = s.links := rfl
@[simp] theorem State.setWin_draws (s : State) (i : Slot) (w : Window) : (s.setWin i w).draws = s.draws := rfl
@[simp] theorem State.setWin_pending (s : State) (i : Slot) (w : Window) : (s.setWin i w).pending = s.pending := rfl

/-! ## Fields kept by `State.setNotices` -/

@[simp] theorem State.setNotices_windows (s : State) (p : Port) (b : NoticeBox) : (s.setNotices p b).windows = s.windows := rfl
@[simp] theorem State.setNotices_freeSet (s : State) (p : Port) (b : NoticeBox) : (s.setNotices p b).freeSet = s.freeSet := rfl
@[simp] theorem State.setNotices_scrubList (s : State) (p : Port) (b : NoticeBox) : (s.setNotices p b).scrubList = s.scrubList := rfl
@[simp] theorem State.setNotices_charge (s : State) (p : Port) (b : NoticeBox) : (s.setNotices p b).charge = s.charge := rfl
@[simp] theorem State.setNotices_quota (s : State) (p : Port) (b : NoticeBox) : (s.setNotices p b).quota = s.quota := rfl
@[simp] theorem State.setNotices_store (s : State) (p : Port) (b : NoticeBox) : (s.setNotices p b).store = s.store := rfl
@[simp] theorem State.setNotices_opQueue (s : State) (p : Port) (b : NoticeBox) : (s.setNotices p b).opQueue = s.opQueue := rfl
@[simp] theorem State.setNotices_activity (s : State) (p : Port) (b : NoticeBox) : (s.setNotices p b).activity = s.activity := rfl
@[simp] theorem State.setNotices_streams (s : State) (p : Port) (b : NoticeBox) : (s.setNotices p b).streams = s.streams := rfl
@[simp] theorem State.setNotices_opCounter (s : State) (p : Port) (b : NoticeBox) : (s.setNotices p b).opCounter = s.opCounter := rfl
@[simp] theorem State.setNotices_commitQueue (s : State) (p : Port) (b : NoticeBox) : (s.setNotices p b).commitQueue = s.commitQueue := rfl
@[simp] theorem State.setNotices_stack (s : State) (p : Port) (b : NoticeBox) : (s.setNotices p b).stack = s.stack := rfl
@[simp] theorem State.setNotices_view (s : State) (p : Port) (b : NoticeBox) : (s.setNotices p b).view = s.view := rfl
@[simp] theorem State.setNotices_grace (s : State) (p : Port) (b : NoticeBox) : (s.setNotices p b).grace = s.grace := rfl
@[simp] theorem State.setNotices_timing (s : State) (p : Port) (b : NoticeBox) : (s.setNotices p b).timing = s.timing := rfl
@[simp] theorem State.setNotices_subscribed (s : State) (p : Port) (b : NoticeBox) : (s.setNotices p b).subscribed = s.subscribed := rfl
@[simp] theorem State.setNotices_links (s : State) (p : Port) (b : NoticeBox) : (s.setNotices p b).links = s.links := rfl
@[simp] theorem State.setNotices_draws (s : State) (p : Port) (b : NoticeBox) : (s.setNotices p b).draws = s.draws := rfl
@[simp] theorem State.setNotices_pending (s : State) (p : Port) (b : NoticeBox) : (s.setNotices p b).pending = s.pending := rfl
@[simp] theorem State.setNotices_win (s : State) (p : Port) (b : NoticeBox) (j : Slot) : (s.setNotices p b).win j = s.win j := rfl
@[simp] theorem State.setNotices_refOf (s : State) (p : Port) (b : NoticeBox) (j : Slot) : (s.setNotices p b).refOf j = s.refOf j := rfl

/-! ## Fields kept by `State.setLink` -/

@[simp] theorem State.setLink_windows (s : State) (p : Port) (l : Link) : (s.setLink p l).windows = s.windows := rfl
@[simp] theorem State.setLink_freeSet (s : State) (p : Port) (l : Link) : (s.setLink p l).freeSet = s.freeSet := rfl
@[simp] theorem State.setLink_scrubList (s : State) (p : Port) (l : Link) : (s.setLink p l).scrubList = s.scrubList := rfl
@[simp] theorem State.setLink_charge (s : State) (p : Port) (l : Link) : (s.setLink p l).charge = s.charge := rfl
@[simp] theorem State.setLink_quota (s : State) (p : Port) (l : Link) : (s.setLink p l).quota = s.quota := rfl
@[simp] theorem State.setLink_store (s : State) (p : Port) (l : Link) : (s.setLink p l).store = s.store := rfl
@[simp] theorem State.setLink_opQueue (s : State) (p : Port) (l : Link) : (s.setLink p l).opQueue = s.opQueue := rfl
@[simp] theorem State.setLink_activity (s : State) (p : Port) (l : Link) : (s.setLink p l).activity = s.activity := rfl
@[simp] theorem State.setLink_streams (s : State) (p : Port) (l : Link) : (s.setLink p l).streams = s.streams := rfl
@[simp] theorem State.setLink_opCounter (s : State) (p : Port) (l : Link) : (s.setLink p l).opCounter = s.opCounter := rfl
@[simp] theorem State.setLink_commitQueue (s : State) (p : Port) (l : Link) : (s.setLink p l).commitQueue = s.commitQueue := rfl
@[simp] theorem State.setLink_stack (s : State) (p : Port) (l : Link) : (s.setLink p l).stack = s.stack := rfl
@[simp] theorem State.setLink_view (s : State) (p : Port) (l : Link) : (s.setLink p l).view = s.view := rfl
@[simp] theorem State.setLink_grace (s : State) (p : Port) (l : Link) : (s.setLink p l).grace = s.grace := rfl
@[simp] theorem State.setLink_timing (s : State) (p : Port) (l : Link) : (s.setLink p l).timing = s.timing := rfl
@[simp] theorem State.setLink_notices (s : State) (p : Port) (l : Link) : (s.setLink p l).notices = s.notices := rfl
@[simp] theorem State.setLink_subscribed (s : State) (p : Port) (l : Link) : (s.setLink p l).subscribed = s.subscribed := rfl
@[simp] theorem State.setLink_draws (s : State) (p : Port) (l : Link) : (s.setLink p l).draws = s.draws := rfl
@[simp] theorem State.setLink_pending (s : State) (p : Port) (l : Link) : (s.setLink p l).pending = s.pending := rfl
@[simp] theorem State.setLink_win (s : State) (p : Port) (l : Link) (j : Slot) : (s.setLink p l).win j = s.win j := rfl
@[simp] theorem State.setLink_refOf (s : State) (p : Port) (l : Link) (j : Slot) : (s.setLink p l).refOf j = s.refOf j := rfl

/-! ## Fields kept by `State.setStream` -/

@[simp] theorem State.setStream_windows (s : State) (p : Port) (v : Option Stream) : (s.setStream p v).windows = s.windows := rfl
@[simp] theorem State.setStream_freeSet (s : State) (p : Port) (v : Option Stream) : (s.setStream p v).freeSet = s.freeSet := rfl
@[simp] theorem State.setStream_scrubList (s : State) (p : Port) (v : Option Stream) : (s.setStream p v).scrubList = s.scrubList := rfl
@[simp] theorem State.setStream_charge (s : State) (p : Port) (v : Option Stream) : (s.setStream p v).charge = s.charge := rfl
@[simp] theorem State.setStream_quota (s : State) (p : Port) (v : Option Stream) : (s.setStream p v).quota = s.quota := rfl
@[simp] theorem State.setStream_store (s : State) (p : Port) (v : Option Stream) : (s.setStream p v).store = s.store := rfl
@[simp] theorem State.setStream_opQueue (s : State) (p : Port) (v : Option Stream) : (s.setStream p v).opQueue = s.opQueue := rfl
@[simp] theorem State.setStream_activity (s : State) (p : Port) (v : Option Stream) : (s.setStream p v).activity = s.activity := rfl
@[simp] theorem State.setStream_opCounter (s : State) (p : Port) (v : Option Stream) : (s.setStream p v).opCounter = s.opCounter := rfl
@[simp] theorem State.setStream_commitQueue (s : State) (p : Port) (v : Option Stream) : (s.setStream p v).commitQueue = s.commitQueue := rfl
@[simp] theorem State.setStream_stack (s : State) (p : Port) (v : Option Stream) : (s.setStream p v).stack = s.stack := rfl
@[simp] theorem State.setStream_view (s : State) (p : Port) (v : Option Stream) : (s.setStream p v).view = s.view := rfl
@[simp] theorem State.setStream_grace (s : State) (p : Port) (v : Option Stream) : (s.setStream p v).grace = s.grace := rfl
@[simp] theorem State.setStream_timing (s : State) (p : Port) (v : Option Stream) : (s.setStream p v).timing = s.timing := rfl
@[simp] theorem State.setStream_notices (s : State) (p : Port) (v : Option Stream) : (s.setStream p v).notices = s.notices := rfl
@[simp] theorem State.setStream_subscribed (s : State) (p : Port) (v : Option Stream) : (s.setStream p v).subscribed = s.subscribed := rfl
@[simp] theorem State.setStream_links (s : State) (p : Port) (v : Option Stream) : (s.setStream p v).links = s.links := rfl
@[simp] theorem State.setStream_draws (s : State) (p : Port) (v : Option Stream) : (s.setStream p v).draws = s.draws := rfl
@[simp] theorem State.setStream_pending (s : State) (p : Port) (v : Option Stream) : (s.setStream p v).pending = s.pending := rfl
@[simp] theorem State.setStream_win (s : State) (p : Port) (v : Option Stream) (j : Slot) : (s.setStream p v).win j = s.win j := rfl
@[simp] theorem State.setStream_refOf (s : State) (p : Port) (v : Option Stream) (j : Slot) : (s.setStream p v).refOf j = s.refOf j := rfl

/-! ## Fields kept by `State.setCharge` -/

@[simp] theorem State.setCharge_windows (s : State) (p : Port) (n : Nat) : (s.setCharge p n).windows = s.windows := rfl
@[simp] theorem State.setCharge_freeSet (s : State) (p : Port) (n : Nat) : (s.setCharge p n).freeSet = s.freeSet := rfl
@[simp] theorem State.setCharge_scrubList (s : State) (p : Port) (n : Nat) : (s.setCharge p n).scrubList = s.scrubList := rfl
@[simp] theorem State.setCharge_quota (s : State) (p : Port) (n : Nat) : (s.setCharge p n).quota = s.quota := rfl
@[simp] theorem State.setCharge_store (s : State) (p : Port) (n : Nat) : (s.setCharge p n).store = s.store := rfl
@[simp] theorem State.setCharge_opQueue (s : State) (p : Port) (n : Nat) : (s.setCharge p n).opQueue = s.opQueue := rfl
@[simp] theorem State.setCharge_activity (s : State) (p : Port) (n : Nat) : (s.setCharge p n).activity = s.activity := rfl
@[simp] theorem State.setCharge_streams (s : State) (p : Port) (n : Nat) : (s.setCharge p n).streams = s.streams := rfl
@[simp] theorem State.setCharge_opCounter (s : State) (p : Port) (n : Nat) : (s.setCharge p n).opCounter = s.opCounter := rfl
@[simp] theorem State.setCharge_commitQueue (s : State) (p : Port) (n : Nat) : (s.setCharge p n).commitQueue = s.commitQueue := rfl
@[simp] theorem State.setCharge_stack (s : State) (p : Port) (n : Nat) : (s.setCharge p n).stack = s.stack := rfl
@[simp] theorem State.setCharge_view (s : State) (p : Port) (n : Nat) : (s.setCharge p n).view = s.view := rfl
@[simp] theorem State.setCharge_grace (s : State) (p : Port) (n : Nat) : (s.setCharge p n).grace = s.grace := rfl
@[simp] theorem State.setCharge_timing (s : State) (p : Port) (n : Nat) : (s.setCharge p n).timing = s.timing := rfl
@[simp] theorem State.setCharge_notices (s : State) (p : Port) (n : Nat) : (s.setCharge p n).notices = s.notices := rfl
@[simp] theorem State.setCharge_subscribed (s : State) (p : Port) (n : Nat) : (s.setCharge p n).subscribed = s.subscribed := rfl
@[simp] theorem State.setCharge_links (s : State) (p : Port) (n : Nat) : (s.setCharge p n).links = s.links := rfl
@[simp] theorem State.setCharge_draws (s : State) (p : Port) (n : Nat) : (s.setCharge p n).draws = s.draws := rfl
@[simp] theorem State.setCharge_pending (s : State) (p : Port) (n : Nat) : (s.setCharge p n).pending = s.pending := rfl
@[simp] theorem State.setCharge_win (s : State) (p : Port) (n : Nat) (j : Slot) : (s.setCharge p n).win j = s.win j := rfl
@[simp] theorem State.setCharge_refOf (s : State) (p : Port) (n : Nat) (j : Slot) : (s.setCharge p n).refOf j = s.refOf j := rfl

/-! ## Fields kept by `State.hold` -/

@[simp] theorem State.hold_windows (s : State) (p : Port) (r : Response) : (s.hold p r).windows = s.windows := rfl
@[simp] theorem State.hold_freeSet (s : State) (p : Port) (r : Response) : (s.hold p r).freeSet = s.freeSet := rfl
@[simp] theorem State.hold_scrubList (s : State) (p : Port) (r : Response) : (s.hold p r).scrubList = s.scrubList := rfl
@[simp] theorem State.hold_charge (s : State) (p : Port) (r : Response) : (s.hold p r).charge = s.charge := rfl
@[simp] theorem State.hold_quota (s : State) (p : Port) (r : Response) : (s.hold p r).quota = s.quota := rfl
@[simp] theorem State.hold_store (s : State) (p : Port) (r : Response) : (s.hold p r).store = s.store := rfl
@[simp] theorem State.hold_opQueue (s : State) (p : Port) (r : Response) : (s.hold p r).opQueue = s.opQueue := rfl
@[simp] theorem State.hold_activity (s : State) (p : Port) (r : Response) : (s.hold p r).activity = s.activity := rfl
@[simp] theorem State.hold_streams (s : State) (p : Port) (r : Response) : (s.hold p r).streams = s.streams := rfl
@[simp] theorem State.hold_opCounter (s : State) (p : Port) (r : Response) : (s.hold p r).opCounter = s.opCounter := rfl
@[simp] theorem State.hold_commitQueue (s : State) (p : Port) (r : Response) : (s.hold p r).commitQueue = s.commitQueue := rfl
@[simp] theorem State.hold_stack (s : State) (p : Port) (r : Response) : (s.hold p r).stack = s.stack := rfl
@[simp] theorem State.hold_view (s : State) (p : Port) (r : Response) : (s.hold p r).view = s.view := rfl
@[simp] theorem State.hold_grace (s : State) (p : Port) (r : Response) : (s.hold p r).grace = s.grace := rfl
@[simp] theorem State.hold_timing (s : State) (p : Port) (r : Response) : (s.hold p r).timing = s.timing := rfl
@[simp] theorem State.hold_notices (s : State) (p : Port) (r : Response) : (s.hold p r).notices = s.notices := rfl
@[simp] theorem State.hold_subscribed (s : State) (p : Port) (r : Response) : (s.hold p r).subscribed = s.subscribed := rfl
@[simp] theorem State.hold_draws (s : State) (p : Port) (r : Response) : (s.hold p r).draws = s.draws := rfl
@[simp] theorem State.hold_pending (s : State) (p : Port) (r : Response) : (s.hold p r).pending = s.pending := rfl
@[simp] theorem State.hold_win (s : State) (p : Port) (r : Response) (j : Slot) : (s.hold p r).win j = s.win j := rfl
@[simp] theorem State.hold_refOf (s : State) (p : Port) (r : Response) (j : Slot) : (s.hold p r).refOf j = s.refOf j := rfl

/-! ## The field an update replaces -/

@[simp] theorem State.setNotices_notices (s : State) (p : Port) (b : NoticeBox) :
    (s.setNotices p b).notices = s.notices.set p b := rfl
@[simp] theorem State.setLink_links (s : State) (p : Port) (l : Link) : (s.setLink p l).links = s.links.set p l := rfl
@[simp] theorem State.setStream_streams (s : State) (p : Port) (v : Option Stream) :
    (s.setStream p v).streams = s.streams.set p v := rfl
@[simp] theorem State.setCharge_charge (s : State) (p : Port) (n : Nat) : (s.setCharge p n).charge = s.charge.set p n := rfl
@[simp] theorem State.hold_phase (s : State) (p : Port) (r : Response) : ((s.hold p r).links.get p).phase = .held r := by
  simp [State.hold]
@[simp] theorem State.hold_other (s : State) (p : Port) (r : Response) :
    (s.hold p r).links.get p.other = s.links.get p.other := by
  simp [State.hold]
@[simp] theorem State.hold_transaction (s : State) (p : Port) (r : Response) :
    ((s.hold p r).links.get p).transaction = (s.links.get p).transaction := by
  simp [State.hold]

/-! ## Slots and handles -/

theorem mem_allSlots (i : Slot) : i ∈ allSlots := by revert i; decide

theorem allSlots_nodup : allSlots.Nodup := by decide

/-- The slot a handle names is the one whose number it is (R1). -/
theorem slotOfHandle_eq_some {h : Nat} {i : Slot} : slotOfHandle h = some i ↔ h = i.handle := by
  unfold slotOfHandle Slot.handle
  split
  · rw [Option.some.injEq, Fin.ext_iff]
    simp only
    omega
  · simp only [reduceCtorEq, false_iff]
    have := i.isLt
    omega

@[simp] theorem slotOfHandle_handle (i : Slot) : slotOfHandle i.handle = some i := slotOfHandle_eq_some.2 rfl

/-- A handle names no slot exactly when it lies outside 1..24 (R1, R11). -/
theorem slotOfHandle_eq_none {h : Nat} : slotOfHandle h = none ↔ h < 1 ∨ 24 < h := by
  unfold slotOfHandle; split <;> simp only [reduceCtorEq, false_iff, true_iff] <;> omega

end Sys2Proof.Machine
end

