-- ==== Sys2Proof/Laws/Frames.lean ====
section
/-! SUPPORT. What each shared operation can change, said once: the state after it is the state before it with the named fields
replaced. A field that is not named is kept. -/

namespace Sys2Proof.Machine

/-! ## Folds -/

/-- A fold whose every step keeps a reading of the state keeps it. -/
theorem foldl_keeps {σ α β : Type} (g : σ → β) (f : σ → α → σ) (h : ∀ s x, g (f s x) = g s) (l : List α) (s : σ) :
    g (l.foldl f s) = g s := by
  induction l generalizing s with
  | nil => rfl
  | cons x rest ih => exact (ih (f s x)).trans (h s x)

/-- A fold whose every step keeps a property keeps it. -/
theorem foldl_invariant {σ α : Type} (P : σ → Prop) (f : σ → α → σ) (h : ∀ s x, P s → P (f s x)) (l : List α) (s : σ)
    (hs : P s) : P (l.foldl f s) := by
  induction l generalizing s with
  | nil => exact hs
  | cons x rest ih => exact ih _ (h s x hs)

/-- A fold of raisings changes the notices alone. -/
theorem foldl_notices_only {α : Type} (f : State → α → State)
    (h : ∀ s x, f s x = { s with notices := (f s x).notices }) (l : List α) (s : State) :
    l.foldl f s = { s with notices := (l.foldl f s).notices } := by
  induction l generalizing s with
  | nil => rfl
  | cons x rest ih =>
    have hx := h s x
    have hr := ih (f s x)
    rw [List.foldl_cons, hr, hx]

/-! ## The steady part

The fields that neither a retirement nor any piece of boundary work touches, gathered so that one equation says they are kept. -/

/-- What a retirement and a piece of boundary work keep. -/
structure Steady where
  freeSet : List Block
  quota : PerPort Nat
  opCounter : PerPort Byte
  view : List ViewEntry
  grace : Nat
  timing : Timing
  subscribed : PerPort Bool
  links : PerPort Link
  pending : List Instr

/-- The steady part of a state. -/
def State.steady (s : State) : Steady :=
  ⟨s.freeSet, s.quota, s.opCounter, s.view, s.grace, s.timing, s.subscribed, s.links, s.pending⟩

/-- Two states with equal fields are equal. -/
theorem State.eq_of_fields {s t : State} (hs : s.steady = t.steady) (h1 : s.windows = t.windows)
    (h2 : s.scrubList = t.scrubList) (h3 : s.charge = t.charge) (h4 : s.store = t.store) (h5 : s.opQueue = t.opQueue)
    (h6 : s.activity = t.activity) (h7 : s.streams = t.streams) (h8 : s.commitQueue = t.commitQueue)
    (h9 : s.stack = t.stack) (h10 : s.notices = t.notices) (h11 : s.draws = t.draws) : s = t := by
  cases s; cases t
  simp only [State.steady, Steady.mk.injEq] at *
  simp_all

/-! ## Notices -/

theorem raiseKey_frame (s : State) (p : Port) (k : NoticeKind) (h : Nat) (g : Gen) (d : BitVec 16) :
    raiseKey s p k h g d = { s with notices := (raiseKey s p k h g d).notices } := rfl

theorem raise_frame (s : State) (p : Port) (k : NoticeKind) (r : WinRef) (d : BitVec 16) :
    raise s p k r d = { s with notices := (raise s p k r d).notices } := rfl

theorem raiseDevice_frame (s : State) (p : Port) (k : NoticeKind) (d : BitVec 16) :
    raiseDevice s p k d = { s with notices := (raiseDevice s p k d).notices } := rfl

theorem raiseOwner_frame (s : State) (o : Option Port) (k : NoticeKind) (r : WinRef) (d : BitVec 16) :
    raiseOwner s o k r d = { s with notices := (raiseOwner s o k r d).notices } := by
  cases o <;> rfl

theorem raiseOwnerAndA_frame (s : State) (o : Option Port) (k : NoticeKind) (r : WinRef) (d : BitVec 16) :
    raiseOwnerAndA s o k r d = { s with notices := (raiseOwnerAndA s o k r d).notices } := by
  cases o with
  | none => rfl
  | some p => cases p <;> rfl

theorem raiseCancelled_frame (s : State) (op : EngineOp) :
    raiseCancelled s op = { s with notices := (raiseCancelled s op).notices } := rfl

/-! ## The engine -/

theorem settleEngine_frame (s : State) : settleEngine s = { s with activity := (settleEngine s).activity } := by
  unfold settleEngine
  split <;> rfl

/-- After the choice the engine is OPERATING with a queue that is not empty, SCRUBBING, or IDLE with nothing to do; a scrub in
progress goes on (R46). -/
theorem settleEngine_activity (s : State) :
    (settleEngine s).activity =
      if s.activity = .scrubbing then .scrubbing
      else if s.opQueue = [] then (if s.scrubList = [] then .idle else .scrubbing)
      else .operating := by
  unfold settleEngine
  cases ha : s.activity <;> simp [ha, List.isEmpty_iff]

theorem abandon_frame (s : State) (op : EngineOp) :
    abandon s op = { s with store := (abandon s op).store, draws := s.draws + 1 } := rfl

theorem cancelOps_frame (s : State) (hit : EngineOp → Bool) :
    cancelOps s hit =
      { s with
        store := (cancelOps s hit).store
        opQueue := s.opQueue.filter (fun o => !hit o)
        activity := (cancelOps s hit).activity
        notices := (cancelOps s hit).notices
        draws := (cancelOps s hit).draws } := by
  unfold cancelOps
  rw [foldl_notices_only raiseCancelled raiseCancelled_frame]
  cases inFlight s with
  | none => rfl
  | some op =>
    by_cases h : hit op = true
    · dsimp only; rw [if_pos h]; rfl
    · dsimp only; rw [if_neg h]

theorem acceptOp_frame (s : State) (p : Port) (dest : WinRef) (destId : SurfaceId) (body : OpBody) :
    acceptOp s p dest destId body =
      { s with
        opQueue := s.opQueue ++ [⟨p, s.opCounter.get p, dest, destId, body⟩]
        opCounter := s.opCounter.set p (s.opCounter.get p + 1)
        activity := (acceptOp s p dest destId body).activity } := by
  unfold acceptOp
  rw [settleEngine_frame]

theorem closeStreamInto_frame (s : State) (p : Port) (r : WinRef) :
    closeStreamInto s p r = { s with streams := (closeStreamInto s p r).streams } := by
  unfold closeStreamInto
  split <;> rfl

/-! ## The block pool -/

theorem releaseWindow_frame (s : State) (i : Slot) :
    releaseWindow s i =
      { s with
        windows := s.windows.set i (Window.free ((s.win i).gen + 1))
        scrubList := s.scrubList ++ (s.win i).blocks
        charge := (releaseWindow s i).charge } := by
  unfold releaseWindow
  dsimp only
  cases (s.win i).owner <;> rfl

/-! ## The commit queue -/

theorem removeUnit_frame (s : State) (i : Slot) : removeUnit s i = { s with commitQueue := (removeUnit s i).commitQueue } := by
  unfold removeUnit
  split <;> rfl

theorem abandonUnit_frame (s : State) (i : Slot) (o : Option Port) :
    abandonUnit s i o =
      { s with commitQueue := (removeUnit s i).commitQueue, notices := (abandonUnit s i o).notices } := by
  unfold abandonUnit
  rw [foldl_notices_only _ (fun t r => raiseOwner_frame t o .commitAbandoned r (detail i.handle)), removeUnit_frame]

/-! ## Retirement -/

theorem raiseRetired_frame (s : State) (i : Slot) (c : RetireCause) :
    raiseRetired s i c = { s with notices := (raiseRetired s i c).notices } := by
  cases c with
  | request p =>
    simp only [raiseRetired]
    split
    · rfl
    · exact raiseOwner_frame ..
  | detach => rfl
  | eviction => exact raiseOwnerAndA_frame ..

theorem retireStreams_frame (s : State) (i : Slot) (c : RetireCause) :
    retireStreams s i c =
      { s with streams := (retireStreams s i c).streams, notices := (retireStreams s i c).notices } := by
  unfold retireStreams
  dsimp only
  rw [closeStreamInto_frame (closeStreamInto s .A (s.refOf i)), closeStreamInto_frame s]
  split
  · rw [raiseOwner_frame]
  · rfl

theorem retireOffer_frame (s : State) (i : Slot) :
    retireOffer s i =
      { s with
        windows := s.windows.set i { s.win i with offer := none }
        notices := (retireOffer s i).notices } := by
  unfold retireOffer
  dsimp only
  split
  · rfl
  · next h =>
    have hw : s.windows.set i { s.win i with offer := none } = s.windows := by
      rw [← h]
      exact Vector.set_getElem_self ..
    rw [hw]

theorem retireState_frame (s : State) (i : Slot) :
    retireState s i =
      { s with
        windows := (retireState s i).windows
        scrubList := (retireState s i).scrubList
        charge := (retireState s i).charge } := by
  unfold retireState
  dsimp only
  split
  · rw [releaseWindow_frame]
  · rfl

theorem removeUnit_commitQueue_congr {s t : State} (h : s.commitQueue = t.commitQueue) (i : Slot) :
    (removeUnit s i).commitQueue = (removeUnit t i).commitQueue := by
  unfold removeUnit commitEntry
  rw [h]
  split
  · rfl
  · exact h

theorem retireCommit_steady (s : State) (i : Slot) (c : RetireCause) : (retireCommit s i c).steady = s.steady := by
  show (abandonUnit (raiseRetired s i c) i (s.win i).owner).steady = s.steady
  rw [abandonUnit_frame, raiseRetired_frame]
  rfl

theorem retireCommit_stack (s : State) (i : Slot) (c : RetireCause) : (retireCommit s i c).stack = s.stack := by
  show (abandonUnit (raiseRetired s i c) i (s.win i).owner).stack = s.stack
  rw [abandonUnit_frame, raiseRetired_frame]

theorem retireCommit_opQueue (s : State) (i : Slot) (c : RetireCause) : (retireCommit s i c).opQueue = s.opQueue := by
  show (abandonUnit (raiseRetired s i c) i (s.win i).owner).opQueue = s.opQueue
  rw [abandonUnit_frame, raiseRetired_frame]

theorem retireCommit_commitQueue (s : State) (i : Slot) (c : RetireCause) :
    (retireCommit s i c).commitQueue = (removeUnit s i).commitQueue := by
  show (abandonUnit (raiseRetired s i c) i (s.win i).owner).commitQueue = _
  rw [abandonUnit_frame]
  refine removeUnit_commitQueue_congr ?_ i
  rw [raiseRetired_frame]

theorem retireHolds_frame (s : State) (i : Slot) (c : RetireCause) :
    (retireHolds s i c).steady = (retireEngine s i c).steady ∧ (retireHolds s i c).stack = (retireEngine s i c).stack ∧
      (retireHolds s i c).opQueue = (retireEngine s i c).opQueue ∧
      (retireHolds s i c).commitQueue = (retireEngine s i c).commitQueue := by
  unfold retireHolds
  rw [retireOffer_frame, retireStreams_frame]
  exact ⟨rfl, rfl, rfl, rfl⟩

theorem retireEngine_frame (s : State) (i : Slot) (c : RetireCause) :
    (retireEngine s i c).steady = (retireCommit s i c).steady ∧ (retireEngine s i c).stack = (retireCommit s i c).stack ∧
      (retireEngine s i c).opQueue = (retireCommit s i c).opQueue.filter (fun o => !opNames (s.refOf i) o) ∧
      (retireEngine s i c).commitQueue = (retireCommit s i c).commitQueue := by
  unfold retireEngine
  rw [cancelOps_frame]
  exact ⟨rfl, rfl, rfl, rfl⟩

theorem retireState_kept (s : State) (i : Slot) :
    (retireState s i).steady = s.steady ∧ (retireState s i).stack = s.stack ∧ (retireState s i).opQueue = s.opQueue ∧
      (retireState s i).commitQueue = s.commitQueue := by
  rw [retireState_frame]
  exact ⟨rfl, rfl, rfl, rfl⟩

/-- A retirement keeps the free set, the quotas, the op counters, the view, the grace, the timing state, the subscriptions, the
links and the command queue (R16, R17). -/
theorem retireWindow_steady (s : State) (i : Slot) (c : RetireCause) : (retireWindow s i c).steady = s.steady :=
  (retireState_kept _ i).1.trans ((retireHolds_frame s i c).1.trans
    ((retireEngine_frame s i c).1.trans (retireCommit_steady s i c)))

/-- A retirement keeps the stacking list (R17, R68). -/
theorem retireWindow_stack (s : State) (i : Slot) (c : RetireCause) : (retireWindow s i c).stack = s.stack :=
  (retireState_kept _ i).2.1.trans ((retireHolds_frame s i c).2.1.trans
    ((retireEngine_frame s i c).2.1.trans (retireCommit_stack s i c)))

/-- A retirement removes from the engine queue the operations that name the window, and nothing else of it (R16, R61). -/
theorem retireWindow_opQueue (s : State) (i : Slot) (c : RetireCause) :
    (retireWindow s i c).opQueue = s.opQueue.filter (fun o => !opNames (s.refOf i) o) :=
  (retireState_kept _ i).2.2.1.trans ((retireHolds_frame s i c).2.2.1.trans
    ((retireEngine_frame s i c).2.2.1.trans (congrArg (List.filter _) (retireCommit_opQueue s i c))))

/-- A retirement removes the window's unit from the commit queue, and nothing else of it (R16, R101). -/
theorem retireWindow_commitQueue (s : State) (i : Slot) (c : RetireCause) :
    (retireWindow s i c).commitQueue = (removeUnit s i).commitQueue :=
  (retireState_kept _ i).2.2.2.trans ((retireHolds_frame s i c).2.2.2.trans
    ((retireEngine_frame s i c).2.2.2.trans (retireCommit_commitQueue s i c)))

/-! ## Application, deferral and expiry -/

theorem raiseApplied_frame (s : State) (o : Option Port) (r : WinRef) (fc : BitVec 16) (a : Option (BitVec 16)) (f : Bool) :
    raiseApplied s o r fc a f = { s with notices := (raiseApplied s o r fc a f).notices } := by
  unfold raiseApplied
  cases a with
  | none => exact raiseOwner_frame ..
  | some d =>
    cases f
    · dsimp only; rw [if_neg (by decide), raiseOwner_frame, raiseOwner_frame s]
    · dsimp only; rw [if_pos rfl, raiseOwner_frame, raiseOwner_frame s]

/-- An application changes one record, the list, the commit queue and the notices (R95, R97, R98). -/
theorem applyWindow_frame (fc : BitVec 16) (adj : List Nat) (s : State) (i : Slot) :
    applyWindow fc adj s i =
      { s with
        windows := s.windows.set i (appliedWindow (s.win i))
        stack := (appliedPlacement s i).list
        commitQueue := s.commitQueue.filter (fun e => e.ref.slot ≠ i)
        notices := (applyWindow fc adj s i).notices } := by
  unfold applyWindow
  dsimp only
  rw [raiseApplied_frame]
  rfl

theorem expireUnit_frame (fc : BitVec 16) (s : State) (slots : List Slot) :
    expireUnit fc s slots =
      { s with
        commitQueue := s.commitQueue.filter (fun e => e.ref.slot ∉ slots)
        notices := (expireUnit fc s slots).notices } := by
  unfold expireUnit
  rw [foldl_notices_only _ (fun t i => raiseOwner_frame ..)]

theorem holdBack_frame (fc : BitVec 16) (s : State) (slots : List Slot) :
    holdBack fc s slots =
      { s with commitQueue := (holdBack fc s slots).commitQueue, notices := (holdBack fc s slots).notices } := by
  unfold holdBack
  split
  · rfl
  · rw [expireUnit_frame]

/-! ## Leases and offers -/

theorem renewWindow_frame (s : State) (i : Slot) :
    renewWindow s i =
      { s with
        windows := s.windows.set i
          { s.win i with
            state := .shown
            leaseCounter := (s.win i).active.leaseLength
            renewPending := false
            graceCounter := 0 }
        notices := (renewWindow s i).notices } := by
  unfold renewWindow
  dsimp only
  split
  · rw [raiseOwner_frame]; rfl
  · rfl

theorem lapseWindow_frame (s : State) (i : Slot) :
    lapseWindow s i =
      { s with
        windows := s.windows.set i
          { s.win i with state := .lapsed, leaseCounter := 0, renewPending := false, graceCounter := s.grace }
        notices := (lapseWindow s i).notices } := by
  unfold lapseWindow
  dsimp only
  rw [raiseOwnerAndA_frame]
  rfl

theorem expireOffer_frame (s : State) (i : Slot) :
    expireOffer s i =
      { s with
        windows := s.windows.set i { s.win i with offer := none }
        notices := (expireOffer s i).notices } := rfl

theorem countOffer_frame (s : State) (i : Slot) :
    countOffer s i = { s with windows := (countOffer s i).windows, notices := (countOffer s i).notices } := by
  unfold countOffer
  dsimp only
  split
  · split
    · rw [expireOffer_frame]
    · rfl
  · rfl

theorem declineOffer_frame (d : BitVec 16) (s : State) (i : Slot) :
    declineOffer d s i =
      { s with
        windows := s.windows.set i { s.win i with offer := none }
        notices := (declineOffer d s i).notices } := by
  unfold declineOffer
  dsimp only
  rw [raiseOwner_frame]
  rfl

/-- A lease visit keeps what a retirement keeps, and the list. -/
theorem visitWindow_kept (s : State) (i : Slot) :
    (visitWindow s i).steady = s.steady ∧ (visitWindow s i).stack = s.stack := by
  unfold visitWindow
  dsimp only
  split
  · rw [renewWindow_frame]; exact ⟨rfl, rfl⟩
  · exact ⟨rfl, rfl⟩
  · rw [lapseWindow_frame]; exact ⟨rfl, rfl⟩
  · exact ⟨rfl, rfl⟩
  · exact ⟨retireWindow_steady _ i .eviction, retireWindow_stack _ i .eviction⟩
  · exact ⟨rfl, rfl⟩

/-! ## The frame boundary -/

theorem foldl_releaseWindow_frame (l : List Slot) (s : State) :
    l.foldl releaseWindow s =
      { s with
        windows := (l.foldl releaseWindow s).windows
        scrubList := (l.foldl releaseWindow s).scrubList
        charge := (l.foldl releaseWindow s).charge } := by
  induction l generalizing s with
  | nil => rfl
  | cons i rest ih =>
    rw [List.foldl_cons, ih, releaseWindow_frame]

theorem removeRetiring_frame (s : State) :
    removeRetiring s =
      { s with
        stack := s.stack.filter (fun r => !(allSlots.filter (fun i => (s.win i).state == .retiring)).contains r.slot)
        windows := (removeRetiring s).windows
        scrubList := (removeRetiring s).scrubList
        charge := (removeRetiring s).charge } := by
  unfold removeRetiring
  dsimp only
  rw [foldl_releaseWindow_frame]

theorem foldl_applyWindow_frame (fc : BitVec 16) (adj : List Nat) (l : List Slot) (s : State) :
    l.foldl (applyWindow fc adj) s =
      { s with
        windows := (l.foldl (applyWindow fc adj) s).windows
        stack := (l.foldl (applyWindow fc adj) s).stack
        commitQueue := (l.foldl (applyWindow fc adj) s).commitQueue
        notices := (l.foldl (applyWindow fc adj) s).notices } := by
  induction l generalizing s with
  | nil => rfl
  | cons i rest ih => rw [List.foldl_cons, ih, applyWindow_frame]

theorem walkUnit_frame (plan : BoundaryPlan) (s : State) (l : List Slot) :
    walkUnit plan s l =
      { s with
        windows := (walkUnit plan s l).windows
        stack := (walkUnit plan s l).stack
        commitQueue := (walkUnit plan s l).commitQueue
        notices := (walkUnit plan s l).notices } := by
  unfold walkUnit
  split
  · rfl
  · split
    · rw [foldl_applyWindow_frame]
    · rw [holdBack_frame]

theorem leaseVisit_kept (plan : BoundaryPlan) (s : State) (i : Slot) :
    (leaseVisit plan s i).steady = s.steady ∧ (leaseVisit plan s i).stack = s.stack := by
  unfold leaseVisit
  split
  · exact ⟨rfl, rfl⟩
  · split
    · split
      · rw [raiseOwner_frame]; exact ⟨rfl, rfl⟩
      · exact ⟨rfl, rfl⟩
    · exact visitWindow_kept s i

theorem frameNotice_frame (s : State) (p : Port) : frameNotice s p = { s with notices := (frameNotice s p).notices } := by
  unfold frameNotice
  split <;> rfl

theorem profileNotice_frame (plan : BoundaryPlan) (s : State) :
    profileNotice plan s = { s with notices := (profileNotice plan s).notices } := by
  unfold profileNotice
  split <;> rfl

/-- No piece of boundary work touches the free set, the quotas, the op counters, the view, the grace, the timing state, the
subscriptions, the links or the command queue. -/
theorem boundaryTask_steady (plan : BoundaryPlan) (run : BoundaryRun) (t : BoundaryTask) :
    (boundaryTask plan run t).state.steady = run.state.steady := by
  cases t with
  | profileNotice => simp only [boundaryTask]; rw [profileNotice_frame]; rfl
  | walkUnit =>
    simp only [boundaryTask]
    split
    · rfl
    · dsimp only; rw [walkUnit_frame]; rfl
  | leaseVisit h =>
    simp only [boundaryTask]
    split
    · exact (leaseVisit_kept ..).1
    · rfl
  | offerCount h =>
    simp only [boundaryTask]
    split
    · dsimp only; rw [countOffer_frame]; rfl
    · rfl
  | frameNotice p => simp only [boundaryTask]; rw [frameNotice_frame]; rfl

/-- The list is edited by the commit walk alone (R69). -/
theorem boundaryTask_stack (plan : BoundaryPlan) (run : BoundaryRun) {t : BoundaryTask} (h : t ≠ .walkUnit) :
    (boundaryTask plan run t).state.stack = run.state.stack := by
  cases t with
  | profileNotice => simp only [boundaryTask]; rw [profileNotice_frame]
  | walkUnit => exact absurd rfl h
  | leaseVisit h =>
    simp only [boundaryTask]
    split
    · exact (leaseVisit_kept ..).2
    · rfl
  | offerCount h =>
    simp only [boundaryTask]
    split
    · dsimp only; rw [countOffer_frame]
    · rfl
  | frameNotice p => simp only [boundaryTask]; rw [frameNotice_frame]

theorem foldl_boundaryTask_steady (plan : BoundaryPlan) (l : List BoundaryTask) (run : BoundaryRun) :
    (l.foldl (boundaryTask plan) run).state.steady = run.state.steady :=
  foldl_keeps (fun r => r.state.steady) (boundaryTask plan) (fun r t => boundaryTask_steady plan r t) l run

/-- A frame boundary keeps the free set, the quotas, the op counters, the grace, the subscriptions, the links and the command
queue; the timing state takes its own boundary step (R111), and the view is the list as the whole boundary leaves it (R71). -/
theorem frameBoundary_kept (order : BoundaryOrder) (s : State) :
    (frameBoundary order s).steady =
        { s.steady with timing := timingBoundary s.timing, view := (frameBoundary order s).view } ∧
      (frameBoundary order s).view = (frameBoundary order s).stack.map (viewEntry (frameBoundary order s)) := by
  have hv : ∀ t u : State, t.windows = u.windows → viewEntry t = viewEntry u := by
    intro t u h
    funext r
    simp only [viewEntry, State.win, h]
  unfold frameBoundary
  dsimp only
  generalize hr : (arrange order.tasks (allTasks ((units s).map unitSlots).length)).foldl
    (boundaryTask (boundaryPlan order s))
    ⟨removeRetiring { s with timing := timingBoundary s.timing }, (units s).map unitSlots⟩ = run
  have h : run.state.steady = { s.steady with timing := timingBoundary s.timing } := by
    rw [← hr, foldl_boundaryTask_steady]
    show (removeRetiring { s with timing := timingBoundary s.timing }).steady = _
    rw [removeRetiring_frame]
    rfl
  have e := settleEngine_frame (takeView run.state)
  constructor
  · rw [e]
    simp only [State.steady, takeView, Steady.mk.injEq] at h ⊢
    simp only [h, and_self]
  · rw [e]
    refine congrArg (fun f => List.map f run.state.stack) (hv _ _ ?_)
    rfl

/-! ## Whole requests -/

theorem createWindow_frame (s : State) (p : Port) (c : CreateParams) (i : Slot) :
    createWindow s p c i =
      { s with
        windows := s.windows.set i (createdWindow c p (s.win i).gen (s.freeSet.take c.needed))
        freeSet := s.freeSet.drop c.needed
        charge := s.charge.set p (s.charge.get p + c.needed) } := rfl

theorem transferWindow_frame (s : State) (i : Slot) (p : Port) :
    transferWindow s i p =
      { s with
        windows := s.windows.set i { s.win i with owner := some p, offer := none, staging := Staging.empty }
        charge := (transferWindow s i p).charge
        streams := (transferWindow s i p).streams
        commitQueue := (removeUnit s i).commitQueue
        notices := (transferWindow s i p).notices } := by
  have hs : ∀ o, transferStream s i o =
      { s with streams := (transferStream s i o).streams, notices := (transferStream s i o).notices } := by
    intro o
    unfold transferStream
    split
    · split <;> rfl
    · rfl
  have hm : ∀ (t : State) (w : Window), moveCharge t w p = { t with charge := (moveCharge t w p).charge } := by
    intro t w
    unfold moveCharge
    dsimp only
    split <;> rfl
  have hq : ∀ o, (removeUnit (transferStream s i o) i).commitQueue = (removeUnit s i).commitQueue := by
    intro o
    rw [hs]
    unfold removeUnit commitEntry
    dsimp only
    split <;> rfl
  unfold transferWindow
  dsimp only
  rw [hm, raiseOwner_frame, abandonUnit_frame, hq, hs]
  rfl

theorem detachOffers_steady (s : State) (p : Port) : (detachOffers s p).steady = s.steady := by
  refine (foldl_keeps State.steady (declineOffer declinedByDetach) (fun t i => ?_) _ _).trans ?_
  · rw [declineOffer_frame]; rfl
  · refine (congrArg State.steady (cancelOps_frame _ _)).trans ?_
    exact foldl_keeps State.steady _ (fun t i => retireWindow_steady t i .detach) _ _

theorem detachOffers_stack (s : State) (p : Port) : (detachOffers s p).stack = s.stack := by
  refine (foldl_keeps State.stack (declineOffer declinedByDetach) (fun t i => ?_) _ _).trans ?_
  · rw [declineOffer_frame]
  · refine (congrArg State.stack (cancelOps_frame _ _)).trans ?_
    exact foldl_keeps State.stack _ (fun t i => retireWindow_stack t i .detach) _ _

/-- A DETACH keeps the free set, the quotas, the op counters, the list, the view, the grace, the timing state, the links and the
command queue, and turns the port's subscription off (R154). -/
theorem detachPort_kept (s : State) (p : Port) :
    (detachPort s p).steady = { s.steady with subscribed := s.subscribed.set p false } ∧
      (detachPort s p).stack = s.stack := by
  unfold detachPort
  dsimp only
  constructor
  · refine (congrArg State.steady (settleEngine_frame _)).trans ?_
    have h := detachOffers_steady s p
    simp only [State.steady, Steady.mk.injEq] at h ⊢
    simp only [h, and_self]
  · exact (congrArg State.stack (settleEngine_frame _)).trans (detachOffers_stack s p)

theorem foldl_setWin_frame (f : State → Slot → Window) (l : List Slot) (s : State) :
    l.foldl (fun t i => t.setWin i (f t i)) s =
      { s with windows := (l.foldl (fun t i => t.setWin i (f t i)) s).windows } := by
  induction l generalizing s with
  | nil => rfl
  | cons i rest ih => rw [List.foldl_cons, ih]; rfl

theorem restartEngine_of_none {s : State} (h : inFlight s = none) :
    restartEngine s = { s with opQueue := [], streams := ⟨none, none⟩ } := by
  unfold restartEngine
  rw [h]

theorem restartEngine_of_some {s : State} {op : EngineOp} (h : inFlight s = some op) :
    restartEngine s = { abandon s op with activity := .idle, opQueue := [], streams := ⟨none, none⟩ } := by
  unfold restartEngine
  rw [h]

theorem restartEngine_frame (s : State) :
    restartEngine s =
      { s with
        store := (restartEngine s).store
        draws := (restartEngine s).draws
        activity := (restartEngine s).activity
        opQueue := []
        streams := ⟨none, none⟩ } := by
  cases h : inFlight s with
  | none => rw [restartEngine_of_none h]
  | some op => rw [restartEngine_of_some h, abandon_frame]

/-- A fold over slots that replaces each record by a function of itself does so in the slots listed, and in no other. -/
theorem foldl_setWin_win (f : Window → Window) (l : List Slot) (hl : l.Nodup) (s : State) (j : Slot) :
    (l.foldl (fun t i => t.setWin i (f (t.win i))) s).win j = if j ∈ l then f (s.win j) else s.win j := by
  induction l generalizing s with
  | nil => rfl
  | cons i rest ih =>
    have hr := List.nodup_cons.1 hl
    rw [List.foldl_cons, ih hr.2, State.win_setWin]
    by_cases hj : j = i
    · subst hj
      simp [hr.1]
    · simp [hj]

/-- A RESTART, said as one update and the engine's choice (R156). -/
theorem restartDevice_eq (s : State) :
    restartDevice s =
      settleEngine { s with
        windows := s.windows.map restartedWindow
        scrubList := s.scrubList ++ heldBlocks s
        charge := ⟨0, 0⟩
        store := (restartEngine s).store
        opQueue := []
        activity := (restartEngine s).activity
        streams := ⟨none, none⟩
        commitQueue := []
        stack := []
        view := []
        notices := ⟨restartedBox (low16 s.timing.frameCounter), restartedBox (low16 s.timing.frameCounter)⟩
        draws := (restartEngine s).draws } := by
  have hw : (restartEngine s).windows = s.windows := by rw [restartEngine_frame]
  have hb : heldBlocks (restartEngine s) = heldBlocks s := by simp only [heldBlocks, State.win, hw]
  have hl : (restartEngine s).scrubList = s.scrubList := by rw [restartEngine_frame]
  have hm : ∀ t : State, t.windows = s.windows →
      (allSlots.foldl (fun t i => t.setWin i (restartedWindow (t.win i))) t).windows = s.windows.map restartedWindow := by
    intro t ht
    apply Vector.ext
    intro i hi
    have h := foldl_setWin_win restartedWindow allSlots allSlots_nodup t ⟨i, hi⟩
    rw [if_pos (mem_allSlots _), State.win_congr ht] at h
    rw [Vector.getElem_map]
    exact h
  unfold restartDevice
  dsimp only
  refine congrArg settleEngine ?_
  rw [foldl_setWin_frame (fun t i => restartedWindow (t.win i)), hm _ (by exact hw), hb, hl, restartEngine_frame s]

theorem completeOp_frame (s : State) (op : EngineOp) :
    completeOp s op =
      { s with
        store := storeAfter s op (opWrites s op)
        opQueue := s.opQueue.tail
        activity := (completeOp s op).activity
        notices := (completeOp s op).notices } := by
  unfold completeOp
  dsimp only
  rw [settleEngine_frame]
  rfl

theorem completeScrub_frame (s : State) (b : Block) :
    completeScrub s b =
      { s with
        store := s.store.scrub b
        scrubList := s.scrubList.tail
        freeSet := insertBlock b s.freeSet
        activity := (completeScrub s b).activity } := by
  unfold completeScrub
  rw [settleEngine_frame]

/-! ## The evaluation of a request -/

/-- A completion, where the port has the request in processing, holds the response of its evaluation (R182, R183). -/
theorem complete_of_processing {s : State} {p : Port} {r : Request} (taken : List Byte → Verdict)
    (h : (s.links.get p).phase = .processing r) :
    complete s p r.code taken = (evaluate p r taken).settle s p r.tag := by
  unfold complete
  rw [h]
  exact if_pos rfl

/-- A request of a defined code and the right length, within the port's authority, comes to its own evaluation (R183). -/
theorem evaluate_taken {p : Port} {r : Request} (taken : List Byte → Verdict) (hc : r.code ∈ definedCodes)
    (hl : lengthOk r.code r.params = true) (hp : p = .A ∨ portAOnly r.code r.params = false) :
    evaluate p r taken = taken r.params := by
  unfold evaluate
  rw [if_neg (by simpa using hc), if_neg (by simp [hl]), if_neg]
  rintro ⟨rfl, h⟩
  cases hp with
  | inl h' => cases h'
  | inr h' => rw [h] at h'; cases h'

/-- A refusal leaves all but the port's link as it was (R183). -/
theorem settle_refuse (st : Status) (s : State) (p : Port) (tag : Byte) :
    (Verdict.refuse st).settle s p tag = s.hold p ⟨st, tag, []⟩ := rfl

theorem settle_answer (t : State) (st : Status) (payload : List Byte) (s : State) (p : Port) (tag : Byte) :
    (Verdict.answer t st payload).settle s p tag = t.hold p ⟨st, tag, payload⟩ := rfl

/-- The reference check passes exactly when the reference names a record that is not FREE under its current generation, the port
may name it, and its state permits the request (R11). -/
theorem refCheck_eq_ok {s : State} {p : Port} {o : Ownership} {permit : WinState → Bool} {r : RawRef} {i : Slot} :
    refCheck s p o permit r = .ok i ↔
      r.handle.toNat = i.handle ∧ (s.win i).state ≠ .free ∧ (s.win i).gen.val = r.gen.toNat ∧
        ownershipOk o p (s.win i) = true ∧ permit (s.win i).state = true := by
  unfold refCheck
  cases hs : slotOfHandle r.handle.toNat with
  | none =>
    simp only [reduceCtorEq, false_iff]
    rintro ⟨h, -⟩
    rw [slotOfHandle_eq_some.2 h] at hs
    cases hs
  | some j =>
    have hj := slotOfHandle_eq_some.1 hs
    dsimp only
    constructor
    · intro h
      split at h
      · cases h
      · split at h
        · cases h
        · split at h
          · cases h
          · cases h
            next h1 h2 h3 =>
              rw [not_or, not_not] at h1
              exact ⟨hj, h1.1, h1.2, by simpa using h2, by simpa using h3⟩
    · rintro ⟨h, h1, h2, h3, h4⟩
      have : i = j := Option.some.inj ((slotOfHandle_eq_some.2 h).symm.trans hs)
      subst this
      simp [h1, h2, h3, h4]

/-! ## The data-out line -/

/-- While select is released the line is in high impedance (R172). -/
theorem dataLine_of_released {s : State} {p : Port} (h : (s.links.get p).transaction = none) (k : Nat) :
    dataLine s p k = none := by
  simp [dataLine, h]

/-- Past its frame a transaction sends ones, the bits of FFh (R176). -/
theorem Transaction.outBit_past {t : Transaction} {k : Nat} (h : t.out.length ≤ k / 8) : t.outBit k = true := by
  have hb : ∀ j : Fin 8, (0xFF : Byte).getLsbD j.val = true := by decide
  simp only [Transaction.outBit, Transaction.outByte, List.getD_eq_default _ _ h]
  exact hb ⟨7 - k % 8, by omega⟩

end Sys2Proof.Machine
end

