-- ==== Sys2Proof/Laws/Lists.lean ====
section
/-! SUPPORT. What the shared list operations answer: a block joining the free set, a chosen order of work, the cursor of a stream. -/

namespace Sys2Proof.Machine

/-! ## The free set (R26) -/

theorem mem_insertBlock {b c : Block} {l : List Block} : c ∈ insertBlock b l ↔ c = b ∨ c ∈ l := by
  induction l with
  | nil => simp [insertBlock]
  | cons d rest ih =>
    unfold insertBlock
    split
    · simp
    · split
      · next h => subst h; simp
      · rw [List.mem_cons, ih, List.mem_cons]
        tauto

/-- A block joins an ascending free set without disturbing its order. -/
theorem insertBlock_pairwise {b : Block} {l : List Block} (h : l.Pairwise (· < ·)) :
    (insertBlock b l).Pairwise (· < ·) := by
  induction l with
  | nil => simp [insertBlock]
  | cons d rest ih =>
    have hp := List.pairwise_cons.1 h
    unfold insertBlock
    split
    · next hlt =>
      refine List.pairwise_cons.2 ⟨fun x hx => ?_, h⟩
      rcases List.mem_cons.1 hx with rfl | hx
      · exact hlt
      · exact lt_trans hlt (hp.1 x hx)
    · split
      · exact h
      · next h1 h2 =>
        refine List.pairwise_cons.2 ⟨fun x hx => ?_, ih hp.2⟩
        rcases mem_insertBlock.1 hx with rfl | hx
        · exact lt_of_le_of_ne (not_lt.1 h1) (Ne.symm h2)
        · exact hp.1 x hx

/-- A block new to the free set joins it once. -/
theorem insertBlock_perm {b : Block} {l : List Block} (h : b ∉ l) : (insertBlock b l).Perm (b :: l) := by
  induction l with
  | nil => exact List.Perm.refl _
  | cons d rest ih =>
    unfold insertBlock
    split
    · exact List.Perm.refl _
    · split
      · next e => exact absurd (e ▸ List.mem_cons_self) h
      · exact ((ih (fun hm => h (List.mem_cons_of_mem _ hm))).cons d).trans (List.Perm.swap ..)

/-! ## A chosen order of work -/

/-- Whatever order is chosen, every piece of work that is due is done, and done as often as it is due. -/
theorem arrange_perm {α : Type} [DecidableEq α] (chosen due : List α) : (arrange chosen due).Perm due := by
  induction chosen generalizing due with
  | nil => exact List.Perm.refl _
  | cons t rest ih =>
    unfold arrange
    split
    · next h => exact ((ih _).cons t).trans (List.perm_cons_erase h).symm
    · exact ih due

/-! ## The list (R74) -/

/-- An entry put above one that the list holds stands directly above its first place, and the others keep their order. -/
theorem insertAbove_append {named x : WinRef} {l m : List WinRef} (h : named ∉ l) :
    insertAbove named x (l ++ named :: m) = l ++ named :: x :: m := by
  induction l with
  | nil => simp [insertAbove]
  | cons r rest ih =>
    rw [List.mem_cons, not_or] at h
    rw [List.cons_append, insertAbove, if_neg (Ne.symm h.1), ih h.2]
    rfl

theorem insertBelow_append {named x : WinRef} {l m : List WinRef} (h : named ∉ l) :
    insertBelow named x (l ++ named :: m) = l ++ x :: named :: m := by
  induction l with
  | nil => simp [insertBelow]
  | cons r rest ih =>
    rw [List.mem_cons, not_or] at h
    rw [List.cons_append, insertBelow, if_neg (Ne.symm h.1), ih h.2]
    rfl

/-! ## The cursor of a stream (R51) -/

/-- The cursor `n` pixels on, counted along the rows of its rectangle. -/
theorem advanceCursor_eq (rect : Rect) (hw : 0 < rect.width) (n i r : Nat) (hi : i < rect.width) :
    advanceCursor rect n (rect.x + i, r) = (rect.x + (i + n) % rect.width, r + (i + n) / rect.width) := by
  induction n generalizing i r with
  | zero => simp [advanceCursor, Nat.mod_eq_of_lt hi, Nat.div_eq_of_lt hi]
  | succ n ih =>
    unfold advanceCursor nextCursor
    dsimp only
    split
    · next h =>
      have hi' : i + 1 = rect.width := by omega
      have := ih 0 (r + 1) hw
      rw [Nat.add_zero] at this
      rw [this, show i + (n + 1) = n + rect.width by omega, Nat.add_mod_right, Nat.add_div_right _ hw, Nat.zero_add]
      rw [show r + 1 + n / rect.width = r + (n / rect.width + 1) by omega]
    · next h =>
      rw [show rect.x + i + 1 = rect.x + (i + 1) by omega, ih (i + 1) r (by omega),
        show i + 1 + n = i + (n + 1) by omega]

/-- The writes of a PUT: its `k`-th pixel, at the cursor `k` pixels on (R55). -/
theorem putWrites_getElem? (rect : Rect) (pixels : List Pixel) (cur : Nat × Nat) (k : Nat) :
    (putWrites rect cur pixels)[k]? =
      pixels[k]?.map (fun p => ⟨(advanceCursor rect k cur).1, (advanceCursor rect k cur).2, p⟩) := by
  induction pixels generalizing cur k with
  | nil => simp [putWrites]
  | cons p rest ih =>
    cases k with
    | zero => simp [putWrites, advanceCursor]
    | succ k => simpa [putWrites, advanceCursor] using ih (nextCursor rect cur.1 cur.2) k

end Sys2Proof.Machine
end

