-- ==== Sys2Proof/Laws/Notices.lean ====
section
/-! SUPPORT. What a raising, a removal and a sequence of raisings do to the notice lists (R159 to R164). -/

namespace Sys2Proof.Machine

open Sys2Proof.Safety

/-! ## One raising -/

theorem Notice.hasKey_iff {n : Notice} {k : NoticeKind} {h : Nat} : n.hasKey k h = true ↔ n.kind = k ∧ n.handle = h := by
  simp [Notice.hasKey]

@[simp] theorem Notice.gather_kind (n : Notice) (g : Gen) (d : BitVec 16) : (n.gather g d).kind = n.kind := rfl

@[simp] theorem Notice.gather_handle (n : Notice) (g : Gen) (d : BitVec 16) : (n.gather g d).handle = n.handle := rfl

/-- A raising is gathered, appended or dropped, and nothing else (R161). -/
theorem NoticeBox.take_cases (b : NoticeBox) (k : NoticeKind) (h : Nat) (g : Gen) (d : BitVec 16) :
    ((∃ n ∈ b.list, n.kind = k ∧ n.handle = h) ∧
        b.take k h g d = { b with list := b.list.map (fun n => if n.hasKey k h then n.gather g d else n) }) ∨
      ((∀ n ∈ b.list, ¬ (n.kind = k ∧ n.handle = h)) ∧ b.list.length < 32 ∧
        b.take k h g d = { b with list := b.list ++ [⟨k, h, g, 1, d⟩] }) ∨
      ((∀ n ∈ b.list, ¬ (n.kind = k ∧ n.handle = h)) ∧ 32 ≤ b.list.length ∧
        b.take k h g d = { b with overflow := true }) := by
  unfold NoticeBox.take
  split
  · next hk =>
    obtain ⟨n, hn, e⟩ := List.any_eq_true.1 hk
    exact .inl ⟨⟨n, hn, Notice.hasKey_iff.1 e⟩, rfl⟩
  · next hk =>
    have absent : ∀ n ∈ b.list, ¬ (n.kind = k ∧ n.handle = h) := fun n hn e =>
      hk (List.any_eq_true.2 ⟨n, hn, Notice.hasKey_iff.2 e⟩)
    split
    · next hl => exact .inr (.inl ⟨absent, hl, rfl⟩)
    · next hl => exact .inr (.inr ⟨absent, Nat.le_of_not_lt hl, rfl⟩)

/-- A raising changes no key of the list but the one it may append (R159). -/
theorem NoticeBox.take_keys (b : NoticeBox) (k : NoticeKind) (h : Nat) (g : Gen) (d : BitVec 16) :
    noticeKeys (b.take k h g d).list = noticeKeys b.list ∨
      ((k, h) ∉ noticeKeys b.list ∧ noticeKeys (b.take k h g d).list = noticeKeys b.list ++ [(k, h)]) := by
  obtain ⟨-, e⟩ | ⟨ha, -, e⟩ | ⟨-, -, e⟩ := b.take_cases k h g d
  · left
    rw [e]
    simp only [noticeKeys, List.map_map]
    apply List.map_congr_left
    intro n _
    simp only [Function.comp_apply]
    split <;> rfl
  · right
    rw [e]
    refine ⟨fun hm => ?_, by simp [noticeKeys]⟩
    obtain ⟨n, hn, hk⟩ := List.mem_map.1 hm
    exact ha n hn (Prod.mk.inj hk)
  · left
    rw [e]

/-- A raising keeps a notice list sound. -/
theorem NoticeBox.take_boxOk {b : NoticeBox} (hb : boxOk b) (k : NoticeKind) (h : Nat) (g : Gen) (d : BitVec 16) :
    boxOk (b.take k h g d) := by
  obtain ⟨hl, hn, ho, hf⟩ := hb
  have hkeys : (noticeKeys (b.take k h g d).list).Nodup := by
    obtain e | ⟨ha, e⟩ := b.take_keys k h g d
    · rw [e]; exact hn
    · rw [e]
      exact List.nodup_append.2 ⟨hn, by simp, fun a ha' c hc => by
        rw [List.mem_singleton] at hc
        rintro rfl
        exact ha (hc ▸ ha')⟩
  refine ⟨?_, hkeys, ?_, ?_⟩ <;> obtain ⟨⟨m, hm, -⟩, e⟩ | ⟨-, hlt, e⟩ | ⟨-, hge, e⟩ := b.take_cases k h g d <;>
    rw [e]
  · simpa using hl
  · simp only [List.length_append, List.length_cons, List.length_nil]; omega
  · exact hl
  · intro n hmem
    obtain ⟨m, hm, rfl⟩ := List.mem_map.1 hmem
    split
    · have := ho m hm
      simp only [Notice.gather]
      omega
    · exact ho m hm
  · intro n hmem
    rcases List.mem_append.1 hmem with hmem | hmem
    · exact ho n hmem
    · rw [List.mem_singleton] at hmem
      subst hmem
      exact ⟨Nat.le_refl 1, Nat.le_of_ble_eq_true rfl⟩
  · exact ho
  · intro hov hnil
    exact hf hov (List.map_eq_nil_iff.1 hnil)
  · simp
  · intro _ hnil
    have : b.list = [] := hnil
    rw [this] at hge
    exact absurd hge (by decide)

/-- Removing the oldest notices keeps a notice list sound (R164). -/
theorem NoticeBox.dropOldest_boxOk {b : NoticeBox} (hb : boxOk b) (n : Nat) : boxOk (b.dropOldest n) := by
  obtain ⟨hl, hn, ho, hf⟩ := hb
  refine ⟨?_, ?_, fun m hm => ho m (List.mem_of_mem_drop hm), ?_⟩
  · show (b.list.drop n).length ≤ 32
    rw [List.length_drop]
    omega
  · show (noticeKeys (b.list.drop n)).Nodup
    unfold noticeKeys
    rw [List.map_drop]
    exact hn.sublist (List.drop_sublist ..)
  · intro hov hnil
    have he : b.list.drop n = [] := hnil
    simp [NoticeBox.dropOldest, he] at hov

theorem NoticeBox.empty_boxOk : boxOk NoticeBox.empty := by decide

/-! ## The notice of a key -/

/-- The notice of a key, found by the raising's own test. -/
theorem noticeOf_eq (s : State) (p : Port) (k : NoticeKind) (h : Nat) :
    noticeOf s p k h = (s.notices.get p).list.find? (fun n => n.hasKey k h) := by
  unfold noticeOf
  congr 1
  funext n
  rw [Bool.eq_iff_iff, decide_eq_true_iff, Notice.hasKey_iff]

/-- What one raising does to its own key in the list it reaches (R161). -/
theorem raiseKey_toldKey (s : State) (p : Port) (k : NoticeKind) (h : Nat) (g : Gen) (d : BitVec 16) :
    toldKey s (raiseKey s p k h g d) p k h 1 g d := by
  have hb : (raiseKey s p k h g d).notices.get p = (s.notices.get p).take k h g d := by
    simp [raiseKey, State.setNotices]
  have none_of : (∀ n ∈ (s.notices.get p).list, ¬ (n.kind = k ∧ n.handle = h)) →
      (s.notices.get p).list.find? (fun n => n.hasKey k h) = none := fun ha =>
    List.find?_eq_none.2 fun n hn e => ha n hn (Notice.hasKey_iff.1 e)
  unfold toldKey
  rw [noticeOf_eq, noticeOf_eq, hb]
  obtain ⟨⟨m, hm, hk⟩, e⟩ | ⟨ha, -, e⟩ | ⟨ha, hl, e⟩ := (s.notices.get p).take_cases k h g d
  · left
    rw [e]
    simp only [List.find?_map]
    have hf : ((fun n : Notice => n.hasKey k h) ∘ fun n : Notice => if n.hasKey k h then n.gather g d else n) =
        fun n : Notice => n.hasKey k h := by
      funext n
      simp only [Function.comp_apply]
      split <;> rfl
    rw [hf]
    cases hn : (s.notices.get p).list.find? (fun n => n.hasKey k h) with
    | none => exact absurd (Notice.hasKey_iff.2 hk) (List.find?_eq_none.1 hn m hm)
    | some n =>
      have hn' := List.find?_some hn
      obtain ⟨hk1, hk2⟩ := Notice.hasKey_iff.1 hn'
      simp [hn', Notice.gather, hk1, hk2]
  · left
    rw [e]
    have hone : (⟨k, h, g, 1, d⟩ : Notice).hasKey k h = true := Notice.hasKey_iff.2 ⟨rfl, rfl⟩
    simp [none_of ha, List.find?_append, hone]
  · right
    rw [e]
    exact ⟨none_of ha, none_of ha, rfl, hl⟩

/-! ## Sequences of raisings -/

@[simp] theorem raiseAll_nil (n : PerPort NoticeBox) : raiseAll n [] = n := rfl

theorem raiseAll_cons (n : PerPort NoticeBox) (x : Raising) (l : List Raising) :
    raiseAll n (x :: l) =
      raiseAll (n.set x.port ((n.get x.port).take x.kind x.ref.slot.handle x.ref.gen x.detail)) l := rfl

theorem raiseAll_append (n : PerPort NoticeBox) (l m : List Raising) : raiseAll n (l ++ m) = raiseAll (raiseAll n l) m := by
  simp [raiseAll, List.foldl_append]

/-- A raising that concerns a window, as a sequence of one. -/
theorem raise_eq_raised (s : State) (p : Port) (k : NoticeKind) (r : WinRef) (d : BitVec 16) :
    raise s p k r d = raised s [⟨p, k, r, d⟩] := rfl

theorem raised_raised (s : State) (l m : List Raising) : raised (raised s l) m = raised s (l ++ m) := by
  unfold raised
  rw [raiseAll_append]

/-- A fold of raisings is the sequence of them. -/
theorem foldl_raise {α : Type} (f : α → Raising) (l : List α) (s : State) :
    l.foldl (fun t x => raise t (f x).port (f x).kind (f x).ref (f x).detail) s = raised s (l.map f) := by
  induction l generalizing s with
  | nil => rfl
  | cons x rest ih =>
    rw [List.foldl_cons, ih, raise_eq_raised, raised_raised]
    rfl

end Sys2Proof.Machine
end

