-- ==== Sys2Proof/Laws/Store.lean ====
section
/-! SUPPORT. The laws of the frame store: a read after a write, what a write leaves alone, what a scrub zeroes, and that every
operation keeps the canonical form. -/

namespace Sys2Proof.Machine

/-! ## Cells -/

theorem lookupCell_insertCell_same (a : Nat) (v : Byte) (l : List Host.Cell) : lookupCell a (insertCell a v l) = some v := by
  induction l with
  | nil => simp [insertCell, lookupCell]
  | cons c rest ih =>
    unfold insertCell
    split
    · simp [lookupCell]
    · split
      · simp [lookupCell]
      · next h => simp [lookupCell, Ne.symm h, ih]

theorem lookupCell_insertCell_of_ne {a b : Nat} (v : Byte) (h : b ≠ a) (l : List Host.Cell) :
    lookupCell b (insertCell a v l) = lookupCell b l := by
  induction l with
  | nil => simp [insertCell, lookupCell, Ne.symm h]
  | cons c rest ih =>
    unfold insertCell
    split
    · simp [lookupCell, Ne.symm h]
    · split
      · next e => subst e; simp [lookupCell, Ne.symm h]
      · simp [lookupCell, ih]

/-- Filtering cells by address hides what fails the filter and keeps the rest. -/
theorem lookupCell_filter (q : Nat → Bool) (b : Nat) (l : List Host.Cell) :
    lookupCell b (l.filter (fun c => q c.1)) = if q b = true then lookupCell b l else none := by
  induction l with
  | nil => simp [lookupCell]
  | cons c rest ih =>
    by_cases hc : c.1 = b
    · subst hc
      by_cases hq : q c.1 = true
      · simp [hq, lookupCell]
      · simp [hq, ih]
    · by_cases hq : q c.1 = true
      · simp [hq, lookupCell, hc, ih]
      · simp [hq, ih, lookupCell, hc]

/-! ## Reading and writing -/

theorem FrameStore.isUndefined_write (f : FrameStore) (a : Address) (v : Byte) (b : Nat) :
    (f.write a v).isUndefined b = f.isUndefined b := by
  unfold FrameStore.write
  split <;> rfl

theorem FrameStore.unlisted_write (f : FrameStore) (a : Address) (v : Byte) (b : Nat) :
    (f.write a v).unlisted b = f.unlisted b := by
  unfold FrameStore.write
  split <;> rfl

/-- A write gives its byte to a later read of the same address. -/
theorem FrameStore.read_write_same (f : FrameStore) (a : Address) (v : Byte) : (f.write a v).read a = v := by
  unfold FrameStore.read FrameStore.write
  split
  · next h =>
    have e := lookupCell_filter (fun x => decide (x ≠ a.val)) a.val f.cells
    simp only [ne_eq, not_true_eq_false, decide_false, Bool.false_eq_true, if_false] at e
    simp only [ne_eq] at *
    rw [e, Option.getD_none]
    show (if f.isUndefined a.val then _ else _) = v
    rw [h.2, h.1]
    rfl
  · simp [lookupCell_insertCell_same]

/-- A write leaves every other address alone. -/
theorem FrameStore.read_write_of_ne (f : FrameStore) {a b : Address} (v : Byte) (h : b ≠ a) :
    (f.write a v).read b = f.read b := by
  have hv : b.val ≠ a.val := fun e => h (Fin.ext e)
  unfold FrameStore.read
  rw [FrameStore.unlisted_write]
  unfold FrameStore.write
  split
  · have e := lookupCell_filter (fun x => decide (x ≠ a.val)) b.val f.cells
    simp only [ne_eq, hv, not_false_eq_true, decide_true, if_true] at e
    simp only [ne_eq]
    rw [e]
  · simp [lookupCell_insertCell_of_ne v hv]

/-- The block that holds an address. -/
theorem byteAddress_block (b : Block) (o : Nat) : (byteAddress b o).val / 2048 = b.val := by
  unfold byteAddress
  simp only
  omega

/-- After a scrub every byte of the block is zero (R28). -/
theorem FrameStore.read_scrub_same (f : FrameStore) (b : Block) {a : Address} (h : a.val / 2048 = b.val) :
    (f.scrub b).read a = 0 := by
  unfold FrameStore.read FrameStore.scrub FrameStore.unlisted FrameStore.isUndefined
  have e := lookupCell_filter (fun x => decide (x / 2048 ≠ b.val)) a.val f.cells
  simp only [ne_eq, h, not_true_eq_false, decide_false, Bool.false_eq_true, if_false] at e
  simp only [ne_eq]
  rw [e, Option.getD_none]
  simp [h]
  intro x _ hx e
  exact absurd (Fin.ext e) hx

/-- A scrub leaves the bytes of every other block alone (R28). -/
theorem FrameStore.read_scrub_other (f : FrameStore) (b : Block) {a : Address} (h : a.val / 2048 ≠ b.val) :
    (f.scrub b).read a = f.read a := by
  have hu : (f.scrub b).isUndefined a.val = f.isUndefined a.val := by
    unfold FrameStore.scrub FrameStore.isUndefined
    rw [Bool.eq_iff_iff, List.any_eq_true, List.any_eq_true]
    constructor
    · rintro ⟨x, hx, e⟩
      exact ⟨x, (List.mem_filter.1 hx).1, e⟩
    · rintro ⟨x, hx, e⟩
      refine ⟨x, List.mem_filter.2 ⟨hx, ?_⟩, e⟩
      rw [decide_eq_true_iff]
      rintro rfl
      exact h (eq_of_beq e).symm
  unfold FrameStore.read FrameStore.unlisted
  rw [hu]
  unfold FrameStore.scrub
  have e := lookupCell_filter (fun x => decide (x / 2048 ≠ b.val)) a.val f.cells
  simp only [ne_eq, h, not_false_eq_true, decide_true, if_true] at e
  simp only [ne_eq]
  rw [e]

/-! ## The canonical form -/

/-- The addresses of a list of cells rise strictly exactly when each lies below all that follow it. -/
theorem risingCells_iff (l : List Host.Cell) : risingCells l = true ↔ l.Pairwise (fun c d => c.1 < d.1) := by
  induction l with
  | nil => simp [risingCells]
  | cons c rest ih =>
    cases rest with
    | nil => simp [risingCells]
    | cons d tail =>
      rw [risingCells, Bool.and_eq_true, decide_eq_true_iff, ih]
      conv_rhs => rw [List.pairwise_cons]
      constructor
      · rintro ⟨h, hp⟩
        refine ⟨?_, hp⟩
        intro x hx
        rcases List.mem_cons.1 hx with rfl | hx
        · exact h
        · exact lt_trans h ((List.pairwise_cons.1 hp).1 x hx)
      · rintro ⟨h, hp⟩
        exact ⟨h d (List.mem_cons_self ..), hp⟩

theorem mem_insertCell {a : Nat} {v : Byte} {l : List Host.Cell} {c : Host.Cell} (h : c ∈ insertCell a v l) :
    c = (a, v) ∨ c ∈ l := by
  induction l with
  | nil => simpa [insertCell] using h
  | cons d rest ih =>
    unfold insertCell at h
    split at h
    · simpa using h
    · split at h
      · rcases List.mem_cons.1 h with h | h
        · exact .inl h
        · exact .inr (List.mem_cons_of_mem _ h)
      · rcases List.mem_cons.1 h with h | h
        · exact .inr (h ▸ List.mem_cons_self ..)
        · exact (ih h).imp id (List.mem_cons_of_mem _)

theorem insertCell_rising {a : Nat} {v : Byte} {l : List Host.Cell} (h : l.Pairwise (fun c d => c.1 < d.1)) :
    (insertCell a v l).Pairwise (fun c d => c.1 < d.1) := by
  induction l with
  | nil => simp [insertCell]
  | cons d rest ih =>
    have hp := List.pairwise_cons.1 h
    unfold insertCell
    split
    · next ha =>
      refine List.pairwise_cons.2 ⟨?_, h⟩
      intro x hx
      rcases List.mem_cons.1 hx with rfl | hx
      · exact ha
      · exact lt_trans ha (hp.1 x hx)
    · split
      · next ha =>
        refine List.pairwise_cons.2 ⟨?_, hp.2⟩
        intro x hx
        exact ha ▸ hp.1 x hx
      · next h1 h2 =>
        refine List.pairwise_cons.2 ⟨?_, ih hp.2⟩
        intro x hx
        rcases mem_insertCell hx with rfl | hx
        · exact lt_of_le_of_ne (not_lt.1 h1) (Ne.symm h2)
        · exact hp.1 x hx

/-- The canonical form, said without Booleans. -/
theorem FrameStore.wf_iff (f : FrameStore) :
    f.wf = true ↔ f.cells.Pairwise (fun c d => c.1 < d.1) ∧
      ∀ c ∈ f.cells, c.1 < 393216 ∧ (f.isUndefined c.1 = true ∨ c.2 ≠ 0) := by
  unfold FrameStore.wf FrameStore.cellOk
  rw [Bool.and_eq_true, risingCells_iff, List.all_eq_true]
  simp only [Bool.and_eq_true, Bool.or_eq_true, decide_eq_true_eq]

/-- A write keeps the canonical form. -/
theorem FrameStore.write_wf {f : FrameStore} (h : f.wf = true) (a : Address) (v : Byte) : (f.write a v).wf = true := by
  rw [FrameStore.wf_iff] at *
  unfold FrameStore.write
  split
  · exact ⟨h.1.filter _, fun c hc => h.2 c (List.mem_filter.1 hc).1⟩
  · next hv =>
    refine ⟨insertCell_rising h.1, fun c hc => ?_⟩
    rcases mem_insertCell hc with rfl | hc
    · refine ⟨a.isLt, ?_⟩
      by_cases h0 : v = 0
      · left
        rw [not_and, Bool.not_eq_false] at hv
        exact hv h0
      · exact .inr h0
    · exact h.2 c hc

/-- A scrub keeps the canonical form. -/
theorem FrameStore.scrub_wf {f : FrameStore} (h : f.wf = true) (b : Block) : (f.scrub b).wf = true := by
  rw [FrameStore.wf_iff] at *
  unfold FrameStore.scrub
  refine ⟨h.1.filter _, fun c hc => ?_⟩
  have hm := List.mem_filter.1 hc
  refine ⟨(h.2 c hm.1).1, (h.2 c hm.1).2.imp ?_ id⟩
  unfold FrameStore.isUndefined
  rw [List.any_eq_true, List.any_eq_true]
  rintro ⟨x, hx, e⟩
  refine ⟨x, List.mem_filter.2 ⟨hx, ?_⟩, e⟩
  rw [decide_eq_true_iff]
  rintro rfl
  have hne := of_decide_eq_true hm.2
  exact hne (eq_of_beq e).symm

/-- The frame store after a hardware reset is in canonical form. -/
theorem FrameStore.undefinedAll_wf (n : Nat) : (FrameStore.undefinedAll n).wf = true := rfl

/-! ## Surfaces -/

theorem writeSurface_wf {f : FrameStore} (h : f.wf = true) (blocks : List Block) (o : Nat) (v : Byte) :
    (writeSurface f blocks o v).wf = true := by
  unfold writeSurface
  split
  · exact FrameStore.write_wf h ..
  · exact h

theorem writePixel_wf {f : FrameStore} (h : f.wf = true) (stride : Nat) (blocks : List Block) (c r : Nat) (p : Pixel) :
    (writePixel f stride blocks c r p).wf = true := by
  cases p with
  | c16 v => exact writeSurface_wf (writeSurface_wf h ..) ..
  | c24 v => exact writeSurface_wf (writeSurface_wf (writeSurface_wf h ..) ..) ..
  | m1 b => exact writeSurface_wf h ..

/-- Any writes into a surface keep the canonical form. -/
theorem writeAll_wf {f : FrameStore} (h : f.wf = true) (w : Window) (id : SurfaceId) (ws : List PixelWrite) :
    (writeAll w id ws f).wf = true := by
  unfold writeAll
  induction ws generalizing f with
  | nil => exact h
  | cons p rest ih => exact ih (writePixel_wf h ..)

/-- A write into a surface leaves alone every address outside the surface's blocks (R23, R24). -/
theorem read_writeSurface_outside (f : FrameStore) (blocks : List Block) (o : Nat) (v : Byte) {a : Address}
    (h : ∀ b ∈ blocks, b.val ≠ a.val / 2048) : (writeSurface f blocks o v).read a = f.read a := by
  unfold writeSurface surfaceAddress
  cases hb : blocks[o / 2048]? with
  | none => rfl
  | some b =>
    refine FrameStore.read_write_of_ne f v ?_
    rintro rfl
    exact h b (List.mem_of_getElem? hb) (byteAddress_block b o).symm

theorem read_writePixel_outside (f : FrameStore) (stride : Nat) (blocks : List Block) (c r : Nat) (p : Pixel) {a : Address}
    (h : ∀ b ∈ blocks, b.val ≠ a.val / 2048) : (writePixel f stride blocks c r p).read a = f.read a := by
  cases p with
  | c16 v => exact (read_writeSurface_outside _ _ _ _ h).trans (read_writeSurface_outside _ _ _ _ h)
  | c24 v =>
    exact (read_writeSurface_outside _ _ _ _ h).trans
      ((read_writeSurface_outside _ _ _ _ h).trans (read_writeSurface_outside _ _ _ _ h))
  | m1 b => exact read_writeSurface_outside _ _ _ _ h

end Sys2Proof.Machine
end

