-- ==== Sys2Proof/Tests/Slice0.lean ====
section
/-! SUPPORT. The model's own tests: the WellFormed smoke, the manual's worked examples, and for every obligation with hypotheses a
concrete state and operands that meet them. -/

namespace Sys2Proof.Tests

open Sys2Proof.Machine Sys2Proof.Safety

set_option Elab.async false

/-! ## Helpers -/

/-- A port's request put in processing. -/
def asked (s : State) (p : Port) (code tag : Byte) (params : List Byte) : State :=
  s.setLink p { s.links.get p with phase := .processing ⟨code, tag, params⟩ }

/-- The state after a command; the state before it where the command does not answer one. -/
def after (c : Instr) (s : State) : State :=
  match exec c s with
  | .next t => t
  | _ => s

/-- The response a port holds. -/
def heldBy (s : State) (p : Port) : Option Response :=
  match (s.links.get p).phase with
  | .held r => some r
  | _ => none

/-- The response to a request, by the command that completes it. -/
def answerTo (s : State) (p : Port) (code : Byte) (params : List Byte) : Option (Status × List Byte) :=
  (heldBy (after (requestCommand p code) (asked s p code 0x16 params)) p).map (fun r => (r.status, r.payload))

/-- The state after a request, by the command that completes it. -/
def afterRequest (s : State) (p : Port) (code : Byte) (params : List Byte) : State :=
  after (requestCommand p code) (asked s p code 0x16 params)

/-- The keys, occurrences and details of a port's notices. -/
def told (s : State) (p : Port) : List (NoticeKind × Nat × Nat × Nat) :=
  (s.notices.get p).list.map (fun n => (n.kind, n.handle, n.occurrences, n.detail.toNat))

/-- A window by its state, owner, format, size and blocks, the other fields as CREATE sets them. -/
def window (st : WinState) (g : Gen) (p : Port) (fmt : Format) (width height : Nat) (s0 : List Block)
    (s1 : Option (List Block)) : Window :=
  { Window.free g with
    state := st, owner := some p, format := fmt, width := width, height := height, surface0 := s0, surface1 := s1 }

/-- Window (1, 3): Port A's, C16 8 × 4, SHOWN, with a lease that lapses next. -/
def w1 : Window :=
  { window .shown 3 .A .c16 8 4 [0] none with
    active := { ActiveFields.created with leaseLength := 2 }, leaseCounter := 1 }

/-- Window (2, 0): Port A's, M1 12 × 3, double-surfaced, HIDDEN. -/
def w2 : Window := window .hidden 0 .A .m1 12 3 [1] (some [2])

/-- Window (3, 0): Port B's, C24 4 × 2, LAPSED, to be evicted next, offered to Port A for one more frame. -/
def w3 : Window :=
  { window .lapsed 0 .B .c24 4 2 [3] none with
    active := { ActiveFields.created with leaseLength := 5 }, graceCounter := 1, offer := some ⟨.A, 1⟩ }

/-- Window (4, 0): Port A's OVERLAY, C16 2 × 2, SHOWN. -/
def w4 : Window := { window .shown 0 .A .c16 2 2 [4] none with tier := .overlay }

/-- Window (5, 1): Port B's, C16 8 × 4, double-surfaced, RETIRING. -/
def w5 : Window := window .retiring 1 .B .c16 8 4 [5] (some [6])

/-- Five windows, with block 7 under scrub and the blocks from 8 on free. -/
def world0 : State :=
  { State.reset with
    windows := ((((((Vector.replicate 24 (Window.free 0)).set 0 w1).set 1 w2).set 2 w3).set 3 w4).set 4 w5)
    freeSet := allBlocks.drop 8
    scrubList := [7]
    charge := ⟨4, 3⟩
    store := { cells := [], undefinedBlocks := [7], epoch := 0 }
    stack := [⟨0, 3⟩, ⟨2, 0⟩, ⟨4, 1⟩, ⟨3, 0⟩] }

/-- The same with the view taken. -/
def world : State := takeView world0

/-- The same with the engine's queue, operating on the first of these operations. -/
def operating (ops : List EngineOp) : State := { world with opQueue := ops, activity := .operating }

/-- A FILL of Port A into window (1, 3), op 8. -/
def fill1 : EngineOp := ⟨.A, 8, ⟨0, 3⟩, 0, .fill ⟨0, 0, 8, 4⟩ (.c16 0xF800)⟩

/-- A FILL of Port B into the back of window (2, 0), op 3. -/
def fill2 : EngineOp := ⟨.B, 3, ⟨1, 0⟩, 1, .fill ⟨0, 0, 1, 1⟩ (.m1 true)⟩

/-- A FILL of Port B into window (3, 0), which is to be evicted next, op 4. -/
def fill3 : EngineOp := ⟨.B, 4, ⟨2, 0⟩, 0, .fill ⟨0, 0, 4, 2⟩ (.c24 ⟨1, 2, 3⟩)⟩

/-- Window (3, 0) to be evicted with that FILL in flight, another operation behind it, and Port B's stream open into it. -/
def evicting : State := (operating [fill3, fill2]).setStream .B (some ⟨⟨2, 0⟩, 0, ⟨0, 0, 4, 2⟩, 0, 0, 8⟩)

/-- The state with a staging on the window in a slot. -/
def staged (s : State) (i : Slot) (v : Staging) : State := s.setWin i { s.win i with staging := v }

/-- The state with the windows of these slots staged with a lease length and armed, each with this tag and this deferral count. -/
def armedAll (s : State) (tag count : Nat) (l : List Slot) : State :=
  let s1 := l.foldl (fun t i => staged t i { (t.win i).staging with leaseLength := some 9 }) s
  { s1 with commitQueue := s1.commitQueue ++ l.map (fun i => ⟨s1.refOf i, tag, count⟩) }

/-- The plain order of a boundary's work. -/
def plain : BoundaryOrder := ⟨[], []⟩

/-! ## Well-formedness -/

theorem test_lease_visit_of_handle_0_is_refused : (Instr.frameBoundary ⟨[.leaseVisit 0], []⟩).wf = false := by decide
theorem test_offer_count_of_handle_25_is_refused : (Instr.frameBoundary ⟨[.offerCount 25], []⟩).wf = false := by decide
theorem test_adjusted_handle_0_is_refused : (Instr.frameBoundary ⟨[], [0]⟩).wf = false := by decide
theorem test_commit_expiry_of_handle_25_is_refused : (Instr.commitExpiry 25).wf = false := by decide
theorem test_lapse_of_handle_0_is_refused : (Instr.lapse 0).wf = false := by decide
theorem test_eviction_of_handle_25_is_refused : (Instr.eviction 25).wf = false := by decide
theorem test_offer_expiry_of_handle_0_is_refused : (Instr.offerExpiry 0).wf = false := by decide
theorem test_handles_1_and_24_are_well_formed :
    (Instr.lapse 1).wf = true ∧ (Instr.frameBoundary ⟨[.leaseVisit 24, .walkUnit], [1]⟩).wf = true := by decide
theorem test_no_word_spells_a_command : decodeTableWord 8 0x01 = none := by decide

/-! ## The invariants at reset and in a state with windows -/

theorem test_world_notices : NoticesInv world := by decide +kernel
theorem test_world_pool : PoolInv world := by decide +kernel
theorem test_world_quotas : QuotaInv world := by decide +kernel
theorem test_world_store : StoreInv world := by decide +kernel
theorem test_world_free_blocks : ZeroInv world := by decide +kernel
theorem test_world_engine : EngineInv world := by decide +kernel
theorem test_world_commit_queue : CommitInv world := by decide +kernel
theorem test_world_stacking_list : StackInv world := by decide +kernel
theorem test_world_view : ViewInv world := by decide +kernel
theorem test_world_fields : FieldsInv world := by decide +kernel
theorem test_world_shapes : ShapeInv world := by decide +kernel
theorem test_world_leases : LeaseInv world := by decide +kernel
theorem test_world_offers : OfferInv world := by decide +kernel

/-- A link with select released is sound. -/
theorem linkOk_released {l : Link} (h : l.transaction = none) : linkOk l := by simp [linkOk, h]

/-- A state with both selects released has sound links. -/
theorem linkInv_released {s : State} (ha : s.links.a.transaction = none) (hb : s.links.b.transaction = none) : LinkInv s :=
  ⟨linkOk_released ha, linkOk_released hb⟩

theorem test_world_links : LinkInv world := linkInv_released rfl rfl

/-- Port A holds a NOP's response and has begun to send it. -/
def sending : State := after (.selectAssert .A) (world.hold .A ⟨.done, 0x07, []⟩)

theorem test_sending_links : LinkInv sending :=
  ⟨fun t ht _ => by
    have : t = ⟨responseFrame .done 0x07 (flagsAt world .A) [], true, true⟩ := by
      simpa [sending, after, exec, execSelectAssert, selectAssert, State.hold, State.setLink, PerPort.set, PerPort.get,
        world, takeView, world0, State.reset, Link.reset, beginTransaction, flagsAt, attention] using ht.symm
    exact ⟨flagsAt world .A, by rw [this]⟩, linkOk_released rfl⟩

/-! ## Witnesses: the link -/

/-- Select is released in each of the three phases of a link: IDLE, HELD and PROCESSING. -/
theorem witness_SelectAssertFixesBytes :
    (world.links.get .A).transaction = none ∧
    (((world.hold .A ⟨.done, 0x07, []⟩).links.get .A).transaction = none ∧
      ∃ r, ((world.hold .A ⟨.done, 0x07, []⟩).links.get .A).phase = .held r) ∧
    (((asked world .A 0x01 0x16 []).links.get .A).transaction = none ∧
      ((asked world .A 0x01 0x16 []).links.get .A).phase = .processing ⟨0x01, 0x16, []⟩) :=
  ⟨rfl, ⟨rfl, _, rfl⟩, rfl, rfl⟩

theorem witness_LinkBelongsToItsPort :
    (∃ t, exec (.nop .B) sending = .next t) ∧ Instr.nop .B ≠ .hardwareReset ∧ commandPort (.nop .B) ≠ some .A ∧
    (∀ bits, Instr.nop .B ≠ .selectRelease .A bits) ∧ (sending.links.get .A).transaction ≠ none :=
  ⟨⟨_, rfl⟩, by decide, by decide, fun _ => nofun, by decide +kernel⟩

/-- A release of a transaction that sends a held response of 7 bytes: nothing clocked, 7 bits of A5h, 6 bytes and 7 bytes of FFh; and a transaction begun
before a hardware reset. -/
theorem witness_ReleaseConsumesWholeResponse :
    LinkInv sending ∧
    (∃ x, (sending.links.get .A).transaction = some x ∧ x.judged = true ∧ x.carriesHeld = true ∧ x.out.length = 7) ∧
    completeBytes [] = [] ∧ completeBytes ((bitsOfBytes [0xA5]).take 7) = [] ∧
    (completeBytes (bitsOfBytes (List.replicate 6 0xFF))).head? = some 0xFF ∧
    (completeBytes (bitsOfBytes (List.replicate 7 0xFF))).head? = some 0xFF ∧
    (∃ x, ((after .hardwareReset sending).links.get .A).transaction = some x ∧ x.judged = false) :=
  ⟨test_sending_links, ⟨_, rfl, rfl, rfl, by decide +kernel⟩, rfl, by decide +kernel, by decide +kernel, by decide +kernel,
    ⟨_, rfl, rfl⟩⟩

/-- Every kind of malformed frame, at the boundary lengths of R179. -/
theorem witness_MalformedFrameRejected :
    LinkInv sending ∧ (∃ x, (sending.links.get .A).transaction = some x ∧ x.judged = true) ∧
    [[0x00], [0xA4], [0xA5, 0x01, 0x16, 0x02, 0x01], [0xA5, 0x01, 0x16, 0x02, 0x00], [0xA5], [0xA5, 0x01, 0x16, 0x00],
      [0xA5, 0x01, 0x16, 0x00, 0x00], [0xA5, 0x01, 0x16, 0x00, 0x00, 0xEF]].map
        (fun bs => frameFault (completeBytes (bitsOfBytes bs))) =
      [some .syncError, some .syncError, some .lengthError, some .shortFrame, some .shortFrame, some .shortFrame,
        some .shortFrame, some .crcError] :=
  ⟨test_sending_links, ⟨_, rfl, rfl⟩, by decide +kernel⟩

theorem witness_RequestFrameReceived :
    LinkInv sending ∧ (∃ x, (sending.links.get .A).transaction = some x ∧ x.judged = true) ∧
    (Request.mk 0x01 0x16 []).params.length ≤ 512 ∧ (Request.mk 0x31 0x16 (List.replicate 512 0xA5)).params.length ≤ 512 ∧
    (List.replicate 7 true).length < 8 ∧ ([] : List Bool).length < 8 :=
  ⟨test_sending_links, ⟨_, rfl, rfl⟩, by decide, by decide +kernel, by decide, by decide⟩

/-! ## Witnesses: the evaluation of requests -/

theorem witness_EveryRequestCompletes :
    Processing (asked world .B 0x12 0x16 [0x01, 0x03]) .B ⟨0x12, 0x16, [0x01, 0x03]⟩ ∧
    PoolInv (asked world .B 0x12 0x16 [0x01, 0x03]) ∧ StackInv (asked world .B 0x12 0x16 [0x01, 0x03]) := by
  decide +kernel

theorem witness_RefusedRequestHasNoEffect :
    Processing (asked world .A 0x06 0x16 []) .A ⟨0x06, 0x16, []⟩ ∧
    (∃ t, exec (requestCommand .A 0x06) (asked world .A 0x06 0x16 []) = .next t) ∧
    (after (requestCommand .A 0x06) (asked world .A 0x06 0x16 [])).links.a.phase = .held ⟨.badRequest, 0x16, []⟩ :=
  ⟨rfl, ⟨_, rfl⟩, by decide +kernel⟩

theorem witness_CommonStagesRefuse :
    Processing (asked world .B 0x06 0x16 []) .B ⟨0x06, 0x16, []⟩ ∧ (requestTable .B).lookup 0x06 = none ∧
    (requestTable .B).lookup 0xFF = none ∧
    ((0x31 : Byte), Instr.put .B) ∈ requestTable .B ∧ lengthOk 0x31 [] = false ∧ lengthOk 0x31 (List.replicate 513 0) = false ∧
    ((0x5F : Byte), Instr.restart .B) ∈ requestTable .B ∧ lengthOk 0x5F [] = true ∧
    (0x5F : Byte) ∈ [0x50, 0x51, 0x52, 0x53, 0x54, 0x55, (0x5F : Byte)] ∧
    lengthOk 0x10 [0, 0, 8, 0, 4, 1, 0x01] = true ∧ [(0 : Byte), 0, 8, 0, 4, 1, 0x01].getLast? = some 0x01 := by
  decide +kernel

/-- The status with which a reference check fails; none where it passes. -/
def failing (c : Except Status Slot) : Option Status :=
  match c with
  | .error st => some st
  | .ok _ => none

/-- Each of the four steps of the reference check fails on some reference: for a request of one window, for COPY on its first and on its
second reference, and for ARM on its first and on its second. -/
theorem witness_FailedReferenceRefuses :
    lengthOk 0x24 [0, 0] = true ∧ Processing (asked world .A 0x24 0x16 [0, 0]) .A ⟨0x24, 0x16, [0, 0]⟩ ∧
    [[0x00, 0x00], [0x19, 0x00], [0x18, 0x00], [0x01, 0x02], [0x03, 0x00], [0x02, 0x00]].map (fun ps =>
        failing (refCheck world .A .owner permitShown (refAt ps 0))) =
      [some .badParam, some .badParam, some .staleRef, some .staleRef, some .notOwner, some .badState] ∧
    failing (refCheck world .A .owner permitLive ⟨1, 3⟩) = none ∧
    failing (refCheck world .A .owner permitLive ⟨3, 0⟩) = some .notOwner ∧
    lengthOk 0x22 [2, 1, 3, 3, 0] = true ∧ natAt [2, 1, 3, 3, 0] 0 = 2 ∧
    refAt [2, 1, 3, 3, 0] 1 = ⟨1, 3⟩ ∧ refAt [2, 1, 3, 3, 0] 3 = ⟨3, 0⟩ ∧
    ([1, 3, 0] ++ rectParam ⟨0, 0, 1, 1⟩ ++ [3, 0, 0] ++ be16 0 ++ be16 0).length = 18 := by
  decide +kernel

theorem witness_FailedReferenceRefuses_table :
    ((0x24 : Byte), Instr.renew .A, Ownership.owner, permitShown) ∈ referenceTable .A := by
  simp [referenceTable]

/-! ## Witnesses: general and reading requests -/

theorem witness_ReadingRequestsReport :
    Processing (asked world .A 0x01 0x16 []) .A ⟨0x01, 0x16, []⟩ ∧ Processing (asked world .A 0x02 0x16 []) .A ⟨0x02, 0x16, []⟩ ∧
    Processing (asked world .A 0x13 0x16 []) .A ⟨0x13, 0x16, []⟩ ∧
    Processing (asked world .A 0x14 0x16 []) .A ⟨0x14, 0x16, []⟩ := by
  decide +kernel

theorem witness_QueryReportsRecord :
    Processing (asked world .A 0x12 0x16 [0x05, 0x01]) .A ⟨0x12, 0x16, [0x05, 0x01]⟩ ∧
    Names (asked world .A 0x12 0x16 [0x05, 0x01]) ⟨0x05, 0x01⟩ 4 := by
  decide +kernel

theorem witness_CollectAndSubscribe :
    Processing (asked world .A 0x03 0x16 []) .A ⟨0x03, 0x16, []⟩ ∧
    Processing (asked world .A 0x04 0x16 [0x01]) .A ⟨0x04, 0x16, [0x01]⟩ ∧
    Processing (asked world .A 0x04 0x16 [0x02]) .A ⟨0x04, 0x16, [0x02]⟩ ∧ (0x02 : Byte) ≠ 0x00 ∧ (0x02 : Byte) ≠ 0x01 := by
  decide +kernel

theorem witness_DetachClearsPort :
    CommitInv (asked (armedAll world 1 0 [0, 1]) .A 0x05 0x16 []) ∧
    Processing (asked (armedAll world 1 0 [0, 1]) .A 0x05 0x16 []) .A ⟨0x05, 0x16, []⟩ ∧
    CommitInv (asked (operating [fill1]) .A 0x05 0x16 []) ∧ PoolInv (asked (operating [fill1]) .A 0x05 0x16 []) ∧
    ShapeInv (asked (operating [fill1]) .A 0x05 0x16 []) ∧
    inFlight (asked (operating [fill1]) .A 0x05 0x16 []) = some fill1 := by
  and_intros <;> decide +kernel

/-! ## Witnesses: windows -/

/-- A CREATE that fits exactly: 75 blocks of C16 320 × 240, which bring Port A's charge of 4 to a quota of 79. -/
def roomy : State := { world with quota := ⟨79, 64⟩ }

/-- The largest window, M1 480 × 320 with two surfaces, and the smallest, C16 1 × 1, both fit; and an OVERLAY from Port A. -/
theorem witness_CreateMakesWindow :
    Processing (asked roomy .A 0x10 0x16 (createParams .c16 320 240 1 .overlay)) .A
      ⟨0x10, 0x16, createParams .c16 320 240 1 .overlay⟩ ∧
    CreateFits roomy .A .c16 320 240 1 .overlay 5 ∧ CreateFits roomy .A .m1 480 320 2 .normal 5 ∧
    CreateFits roomy .B .c16 1 1 1 .normal 5 := by
  decide +kernel

/-- Every slot holds a window. -/
def crowded : State := { world with windows := Vector.replicate 24 w2 }

theorem witness_CreateRefusesInOrder :
    Processing (asked roomy .A 0x10 0x16 ([0] ++ be16 320 ++ be16 240 ++ [1, 0])) .A
      ⟨0x10, 0x16, [0] ++ be16 320 ++ be16 240 ++ [1, 0]⟩ ∧
    (2 < (3 : Byte).toNat) ∧ (320 : Nat) < 65536 ∧ (480 < 481) ∧ (481 < 65536) ∧ (320 < 321) ∧
    ((3 : Byte) ≠ 1 ∧ (3 : Byte) ≠ 2) ∧ ((0 : Byte) ≠ 1 ∧ (0 : Byte) ≠ 2) ∧ ((2 : Byte) ≠ 0x00 ∧ (2 : Byte) ≠ 0x01) ∧
    (0 : Byte) = Format.c16.code ∧ (0 : Byte) = Tier.normal.code ∧
    (∀ i : Slot, (crowded.win i).state ≠ .free) ∧ (∃ i : Slot, (roomy.win i).state = .free) ∧
    roomy.quota.get .A < roomy.charge.get .A + (1 : Byte).toNat * surfaceBlocks .c16 321 240 ∧
    roomy.charge.get .A + (1 : Byte).toNat * surfaceBlocks .c16 320 240 ≤ roomy.quota.get .A ∧
    ({ roomy with freeSet := allBlocks.drop 118 } : State).freeSet.length
      < (1 : Byte).toNat * surfaceBlocks .c16 320 240 := by
  decide +kernel

theorem witness_AllocationTakesLowestBlocks :
    PoolInv (asked roomy .A 0x10 0x16 (createParams .m1 480 320 2 .normal)) ∧
    Processing (asked roomy .A 0x10 0x16 (createParams .m1 480 320 2 .normal)) .A
      ⟨0x10, 0x16, createParams .m1 480 320 2 .normal⟩ ∧
    CreateFits (asked roomy .A 0x10 0x16 (createParams .m1 480 320 2 .normal)) .A .m1 480 320 2 .normal 5 := by
  decide +kernel

/-- The owner retires a HIDDEN window in a group, Port A retires a LAPSED window of Port B, and the owner retires a window into which an
operation is in flight. -/
theorem witness_RetireFreesOrRetires :
    CommitInv (asked (armedAll world 1 0 [0, 1]) .A 0x11 0x16 [0x02, 0x00]) ∧
    Processing (asked (armedAll world 1 0 [0, 1]) .A 0x11 0x16 [0x02, 0x00]) .A ⟨0x11, 0x16, [0x02, 0x00]⟩ ∧
    Names (asked (armedAll world 1 0 [0, 1]) .A 0x11 0x16 [0x02, 0x00]) ⟨0x02, 0x00⟩ 1 ∧
    (world.win 1).owner = some .A ∧ permitLive (world.win 1).state = true ∧
    CommitInv (asked world .A 0x11 0x16 [0x03, 0x00]) ∧
    Processing (asked world .A 0x11 0x16 [0x03, 0x00]) .A ⟨0x11, 0x16, [0x03, 0x00]⟩ ∧
    Names (asked world .A 0x11 0x16 [0x03, 0x00]) ⟨0x03, 0x00⟩ 2 ∧
    (world.win 2).owner = some .B ∧ permitLive (world.win 2).state = true ∧
    CommitInv (asked (operating [fill1]) .A 0x11 0x16 [0x01, 0x03]) ∧
    Names (asked (operating [fill1]) .A 0x11 0x16 [0x01, 0x03]) ⟨0x01, 0x03⟩ 0 ∧
    PoolInv (asked (operating [fill1]) .A 0x11 0x16 [0x01, 0x03]) ∧
    ShapeInv (asked (operating [fill1]) .A 0x11 0x16 [0x01, 0x03]) ∧
    inFlight (asked (operating [fill1]) .A 0x11 0x16 [0x01, 0x03]) = some fill1 := by
  and_intros <;> decide +kernel

/-! ## Witnesses: staging and the commit queue -/

/-- Window (5, 1) is HIDDEN here: Port B's, C16 8 × 4, double-surfaced. -/
def wide : State := world.setWin 4 { w5 with state := .hidden }

/-- Every field staged, at the ends of the ranges. -/
def fullStaging : Staging :=
  { position := some (-1023, 1023), scroll := some (7, 3), placement := some (.above ⟨23, 15⟩),
    key := some (.set ⟨1, 2, 3⟩), ink := none, leaseLength := some 250, fallback := some (.vanish, ⟨4, 5, 6⟩), swap := true }

/-- A placement of TOP and a key of REMOVE, whose reference and colour are ignored. -/
def ignoring : Staging := { Staging.empty with placement := some .top, key := some .remove }

/-- Every field at once, and fields with ignored bytes of A5h. -/
theorem witness_StageMergesSuppliedFields :
    Processing (asked wide .B 0x20 0x16 (stageParams 0 0 Colour.black 5 1 fullStaging)) .B
      ⟨0x20, 0x16, stageParams 0 0 Colour.black 5 1 fullStaging⟩ ∧
    Processing (asked wide .B 0x20 0x16 (stageParams 0xA5 0xA5 ⟨0xA5, 0xA5, 0xA5⟩ 5 1 ignoring)) .B
      ⟨0x20, 0x16, [5, 1, 0x00, 0x0C, 0x00, 0xA5, 0xA5, 0x00, 0xA5, 0xA5, 0xA5]⟩ ∧
    NamesOwn wide .B ⟨5, 1⟩ 4 ∧ (wide.win 4).width ≤ 480 ∧ (wide.win 4).height ≤ 320 ∧
    (∀ e ∈ wide.commitQueue, e.ref.slot ≠ 4) ∧ stagingOk 4 { wide.win 4 with staging := fullStaging } ∧
    stagingOk 4 { wide.win 4 with staging := ignoring } := by
  decide +kernel

/-- An armed window; a mask bit above 7; each value one beyond its range; the fields a format does not take; a swap of a
single-surfaced window. -/
theorem witness_StageRefusesInOrder :
    Processing (asked world .A 0x20 0x16 (stageParams 0 0 Colour.black 1 3 { Staging.empty with swap := true })) .A
      ⟨0x20, 0x16, stageParams 0 0 Colour.black 1 3 { Staging.empty with swap := true }⟩ ∧
    lengthOk 0x20 (stageParams 0 0 Colour.black 1 3 { Staging.empty with swap := true }) = true ∧ NamesOwn world .A ⟨1, 3⟩ 0 ∧
    (∃ e ∈ (armedAll world 0 0 [0]).commitQueue, e.ref.slot = 0) ∧ (∀ e ∈ world.commitQueue, e.ref.slot ≠ 0) ∧
    lengthOk 0x20 [1, 3, 0x01, 0x00] = true ∧ natAt [1, 3, 0x01, 0x00] 2 ≠ 0 ∧
    ¬ (inPositionRange (-1024) ∧ inPositionRange 0) ∧ ¬ (inPositionRange 0 ∧ inPositionRange 1024) ∧
    ¬ (8 < (world.win 0).width ∧ 0 < (world.win 0).height) ∧ ¬ (0 < (world.win 0).width ∧ 4 < (world.win 0).height) ∧
    (∃ n ∈ placementNamed (.below ⟨0, 3⟩), n.slot = 0) ∧ 250 < 251 ∧
    ((world.win 1).format = .m1 ∧ (some StagedKey.remove ≠ none ∨ false = true)) ∧
    ((world.win 0).format ≠ .m1 ∧ some Colour.white ≠ none) ∧
    ((world.win 0).format ≠ .m1 ∧ { Staging.empty with swap := true }.ink = none ∧ (world.win 0).surface1 = none) := by
  decide +kernel

/-- Values whose encoding no staging has, behind a position where they are not the first: placement 05h, ABOVE of handles 0 and 25, BELOW of
generation 16, key 02h, policy 03h. -/
theorem witness_StageRefusesInOrder_encodings :
    (∀ v ∈ [[(0x05 : Byte), 0, 0], [0x02, 0, 0], [0x02, 25, 0], [0x03, 24, 16]],
      lengthOk 0x20 ([1, 3, 0x00, 0x05] ++ [0, 0, 0, 0] ++ v ++ []) = true) ∧
    (0x05 : Byte).getLsbD 2 = true ∧ ([0, 0, 0, 0] : List Byte).length = stageBytesBefore 0x05 2 ∧
    (4 < (0x05 : Byte).toNat ∧ (24 < (25 : Byte).toNat) ∧ 15 < (16 : Byte).toNat) ∧
    lengthOk 0x20 ([1, 3, 0x00, 0x08] ++ [] ++ 0x02 :: [0, 0, 0]) = true ∧ (0x08 : Byte).getLsbD 3 = true ∧
    ([] : List Byte).length = stageBytesBefore 0x08 3 ∧ 1 < (0x02 : Byte).toNat ∧
    lengthOk 0x20 ([1, 3, 0x00, 0x60] ++ [9] ++ 0x03 :: [0, 0, 0]) = true ∧ (0x60 : Byte).getLsbD 6 = true ∧
    ([9] : List Byte).length = stageBytesBefore 0x60 6 ∧ 2 < (0x03 : Byte).toNat := by
  decide +kernel

theorem witness_DiscardEmptiesStaging :
    Processing (asked world .A 0x21 0x16 [1, 3]) .A ⟨0x21, 0x16, [1, 3]⟩ ∧ NamesOwn world .A ⟨1, 3⟩ 0 ∧
    (∃ e ∈ (armedAll world 0 0 [0]).commitQueue, e.ref.slot = 0) ∧ (∀ e ∈ world.commitQueue, e.ref.slot ≠ 0) ∧
    (world.win 0).staging = ⟨none, none, none, none, none, none, none, false⟩ ∧
    failing (refCheck world .A .owner permitLive ⟨5, 1⟩) = some .notOwner := by
  decide +kernel

/-- Twenty-four staged windows of Port A; those of the last slots stand in groups 1 to `n`. -/
def manyStaged (n : Nat) : State :=
  { world with
    windows := Vector.replicate 24 { w2 with staging := { Staging.empty with leaseLength := some 9 } }
    commitQueue := (List.range n).map (fun k => ⟨⟨23, 0⟩, k + 1, 0⟩) }

/-- One window, which takes tag 0, and eight windows, which take tag 15. -/
theorem witness_ArmAppendsEntries :
    Processing (asked (manyStaged 14) .A 0x22 0x16 (armParams (manyStaged 14) [0, 1, 2, 3, 4, 5, 6, 7])) .A
      ⟨0x22, 0x16, armParams (manyStaged 14) [0, 1, 2, 3, 4, 5, 6, 7]⟩ ∧
    ([0, 1, 2, 3, 4, 5, 6, 7] : List Slot).Nodup ∧ ([0, 1, 2, 3, 4, 5, 6, 7] : List Slot).length ≤ 8 ∧
    (∀ i ∈ ([0, 1, 2, 3, 4, 5, 6, 7] : List Slot), ((manyStaged 14).win i).owner = some .A ∧ live ((manyStaged 14).win i) ∧
      ((manyStaged 14).win i).staging ≠ Staging.empty ∧ ∀ e ∈ (manyStaged 14).commitQueue, e.ref.slot ≠ i) ∧
    (∀ e ∈ (manyStaged 14).commitQueue, e.tag ≠ 15) ∧
    (∀ u ∈ List.range 15, 1 ≤ u → ∃ e ∈ (manyStaged 14).commitQueue, e.tag = u) ∧
    (([3] : List Slot).length = 1 ∧ (0 : Nat) = 0) := by
  decide +kernel

theorem witness_ArmRefusesInOrder :
    Processing (asked (manyStaged 15) .A 0x22 0x16 (armParams (manyStaged 15) [0, 1])) .A
      ⟨0x22, 0x16, armParams (manyStaged 15) [0, 1]⟩ ∧
    (∀ i ∈ ([0, 1, 23] : List Slot), ((manyStaged 15).win i).owner = some .A ∧ live ((manyStaged 15).win i)) ∧
    ¬ ([0, 0] : List Slot).Nodup ∧ ([0, 1, 23] : List Slot).Nodup ∧
    (∀ j ∈ ([0, 1] : List Slot), (∀ e ∈ (manyStaged 15).commitQueue, e.ref.slot ≠ j) ∧
      ((manyStaged 15).win j).staging ≠ Staging.empty) ∧
    (∃ e ∈ (manyStaged 15).commitQueue, e.ref.slot = 23) ∧
    ((∀ e ∈ world.commitQueue, e.ref.slot ≠ 1) ∧ (world.win 1).staging = Staging.empty) ∧
    (∀ u ∈ List.range 16, 1 ≤ u → ∃ e ∈ (manyStaged 15).commitQueue, e.tag = u) := by
  decide +kernel

theorem witness_DisarmRemovesUnit :
    CommitInv (asked (armedAll world 1 0 [0, 1]) .A 0x23 0x16 [2, 0]) ∧
    Processing (asked (armedAll world 1 0 [0, 1]) .A 0x23 0x16 [2, 0]) .A ⟨0x23, 0x16, [2, 0]⟩ ∧
    NamesOwn (asked (armedAll world 1 0 [0, 1]) .A 0x23 0x16 [2, 0]) .A ⟨2, 0⟩ 1 ∧
    (∃ e ∈ (armedAll world 1 0 [0, 1]).commitQueue, e.ref.slot = 1) ∧ CommitInv world ∧
    (∀ e ∈ world.commitQueue, e.ref.slot ≠ 1) := by
  decide +kernel

/-- A SHOWN window with a lease and one without, a LAPSED one, a HIDDEN and a RETIRING one. -/
theorem witness_RenewSetsPending :
    Processing (asked world .A 0x24 0x16 [1, 3]) .A ⟨0x24, 0x16, [1, 3]⟩ ∧
    (Names world ⟨1, 3⟩ 0 ∧ (world.win 0).owner = some .A ∧ (world.win 0).state = .shown ∧
      (world.win 0).active.leaseLength ≠ 0) ∧
    (Names world ⟨4, 0⟩ 3 ∧ (world.win 3).owner = some .A ∧ (world.win 3).state = .shown ∧
      (world.win 3).active.leaseLength = 0) ∧
    (Names world ⟨3, 0⟩ 2 ∧ (world.win 2).owner = some .B ∧ (world.win 2).state = .lapsed) ∧
    (Names world ⟨2, 0⟩ 1 ∧ (world.win 1).owner = some .A ∧ (world.win 1).state = .hidden) ∧
    (Names world ⟨5, 1⟩ 4 ∧ (world.win 4).owner = some .B ∧ (world.win 4).state = .retiring) ∧
    failing (refCheck world .A .owner permitShown ⟨3, 0⟩) = some .notOwner := by
  decide +kernel

/-! ## Witnesses: drawing -/

/-- Port A's stream into the back of window (2, 0): rectangle (0, 0, 5, 3), 15 pixels remaining. -/
def stream2 : Stream := ⟨⟨1, 0⟩, 1, ⟨0, 0, 5, 3⟩, 0, 0, 15⟩

/-- The same with the stream open. -/
def streaming : State := world.setStream .A (some stream2)

theorem witness_StreamsOpenAndClose :
    Processing (asked world .A 0x30 0x16 ([2, 0, 1] ++ rectParam ⟨0, 0, 12, 3⟩)) .A
      ⟨0x30, 0x16, [2, 0, 1] ++ rectParam ⟨0, 0, 12, 3⟩⟩ ∧
    NamesOwn world .A ⟨2, 0⟩ 1 ∧ RoleNames (world.win 1) 0x01 1 ∧ RoleNames (world.win 1) 0x00 0 ∧
    world.streams.get .A = none ∧ inside ⟨0, 0, 12, 3⟩ (world.win 1) = true ∧ inside ⟨11, 2, 1, 1⟩ (world.win 1) = true ∧
    (world.win 1).width ≤ 480 ∧ (world.win 1).height ≤ 320 ∧
    Processing (asked streaming .A 0x32 0x16 []) .A ⟨0x32, 0x16, []⟩ ∧ streaming.streams.get .A ≠ none := by
  decide +kernel

/-- The PUTs of section 3.3's worked example, 15 pixels of 16 and of 24, with seven operations queued. -/
theorem witness_PutAcceptsPixels :
    Processing (asked { streaming with opQueue := List.replicate 7 fill1 } .A 0x31 0x16 [0xFF, 0xFE]) .A
      ⟨0x31, 0x16, [0xFF, 0xFE]⟩ ∧
    streaming.streams.get .A = some stream2 ∧ cursorInside stream2.rect stream2.col stream2.row = true ∧
    Format.m1 = (streaming.win stream2.ref.slot).format ∧ wholePixels .m1 2 ∧ wholePixels .m1 3 ∧
    (List.replicate 7 fill1).length < 8 ∧ 15 = min (pixelsCarried .m1 2) stream2.remaining ∧
    15 = min (pixelsCarried .m1 3) stream2.remaining := by
  decide +kernel

theorem witness_FillAndCopyAccepted :
    NamesOwn world .A ⟨2, 0⟩ 1 ∧ RoleNames (world.win 1) 0x00 0 ∧ RoleNames (world.win 1) 0x01 1 ∧
    inside ⟨0, 0, 12, 3⟩ (world.win 1) = true ∧ (world.win 1).width ≤ 480 ∧ (world.win 1).height ≤ 320 ∧
    world.opQueue.length < 8 ∧ fillOk (world.win 1).format ⟨0, 0, 0⟩ ∧ fillOk (world.win 1).format ⟨0, 0, 1⟩ ∧
    fillOk (world.win 0).format ⟨255, 0, 0⟩ ∧
    Processing (asked world .A 0x33 0x16 ([2, 0, 0] ++ rectParam ⟨0, 0, 12, 3⟩ ++ [0, 0, 1])) .A
      ⟨0x33, 0x16, [2, 0, 0] ++ rectParam ⟨0, 0, 12, 3⟩ ++ [0, 0, 1]⟩ ∧
    inside ⟨6, 1, 6, 2⟩ (world.win 1) = true ∧
    Processing (asked world .A 0x34 0x16 ([2, 0, 0] ++ rectParam ⟨0, 0, 6, 2⟩ ++ [2, 0, 1] ++ be16 6 ++ be16 1)) .A
      ⟨0x34, 0x16, [2, 0, 0] ++ rectParam ⟨0, 0, 6, 2⟩ ++ [2, 0, 1] ++ be16 6 ++ be16 1⟩ := by
  decide +kernel

/-- Role 02h; BACK of a single-surfaced window; an empty rectangle and one a column too wide; an M1 value of 2; two formats; a full
queue; an open and a closed stream; a byte count that splits a pixel. -/
theorem witness_DrawingRefusesInOrder :
    NamesOwn world .A ⟨1, 3⟩ 0 ∧ NamesOwn world .A ⟨2, 0⟩ 1 ∧ (0x02 : Byte) ≠ 0x00 ∧ (0x02 : Byte) ≠ 0x01 ∧
    1 < (0x02 : Byte).toNat ∧
    Processing (asked streaming .A 0x30 0x16 ([1, 3, 1] ++ rectParam ⟨0, 0, 9, 4⟩)) .A
      ⟨0x30, 0x16, [1, 3, 1] ++ rectParam ⟨0, 0, 9, 4⟩⟩ ∧
    streaming.streams.get .A ≠ none ∧ world.streams.get .A = none ∧ (world.win 0).surface1 = none ∧
    RoleNames (world.win 0) 0x00 0 ∧ inside ⟨0, 0, 9, 4⟩ (world.win 0) = false ∧ inside ⟨0, 0, 0, 4⟩ (world.win 0) = false ∧
    RoleNames (world.win 1) 0x01 1 ∧ inside ⟨0, 0, 12, 3⟩ (world.win 1) = true ∧ ¬ fillOk (world.win 1).format ⟨0, 0, 2⟩ ∧
    fillOk (world.win 1).format ⟨0, 0, 1⟩ ∧ 8 ≤ (List.replicate 8 fill1).length ∧
    (world.win 0).format ≠ (world.win 1).format ∧ inside ⟨7, 1, 6, 2⟩ (world.win 1) = false ∧
    Processing (asked world .B 0x31 0x16 [1]) .B ⟨0x31, 0x16, [1]⟩ ∧ world.streams.get .B = none ∧
    ¬ wholePixels .c16 511 ∧ ¬ wholePixels .c24 511 ∧ wholePixels .c16 512 ∧ wholePixels .c24 510 := by
  and_intros <;> decide +kernel

/-- The operation in flight and a queued one are cancelled; number 9 is no operation of Port A. -/
theorem witness_CancelOpRemovesOwnOperation :
    Processing (asked (operating [fill1, fill2]) .A 0x35 0x16 [8]) .A ⟨0x35, 0x16, [8]⟩ ∧
    (operating [fill1, fill2]).opQueue = [] ++ fill1 :: [fill2] ∧ fill1.issuer = .A ∧ fill1.opNumber = 8 ∧
    (∀ o ∈ [] ++ [fill2], o.issuer ≠ .A ∨ o.opNumber ≠ 8) ∧ inFlight (operating [fill1, fill2]) = some fill1 ∧
    (operating [fill2, fill1]).opQueue = [fill2] ++ fill1 :: [] ∧
    (∀ op ∈ (operating [fill1, fill2]).opQueue, op.issuer ≠ .A ∨ op.opNumber ≠ 9) ∧
    PoolInv (asked (operating [fill1, fill2]) .A 0x35 0x16 [8]) ∧ ShapeInv (asked (operating [fill1, fill2]) .A 0x35 0x16 [8]) ∧
    inFlight (asked (operating [fill1, fill2]) .A 0x35 0x16 [8]) = some fill1 := by
  and_intros <;> decide +kernel

/-! ## Witnesses: transfer and device requests -/

theorem witness_OfferIsSetAndCleared :
    Processing (asked world .A 0x40 0x16 [1, 3]) .A ⟨0x40, 0x16, [1, 3]⟩ ∧
    (NamesOwn world .A ⟨1, 3⟩ 0 ∧ (world.win 0).tier = .normal ∧ (world.win 0).offer = none) ∧
    (NamesOwn world .A ⟨4, 0⟩ 3 ∧ (world.win 3).tier = .overlay) ∧ (NamesOwn world .B ⟨3, 0⟩ 2 ∧ (world.win 2).offer ≠ none) ∧
    Processing (asked world .A 0x42 0x16 [3, 0]) .A ⟨0x42, 0x16, [3, 0]⟩ ∧
    failing (refCheck world .A .any permitLive ⟨5, 1⟩) = some .badState ∧
    (Names world ⟨1, 3⟩ 0 ∧ live (world.win 0) ∧ (world.win 0).offer.map Offer.target ≠ some .A) ∧
    (Names world ⟨3, 0⟩ 2 ∧ live (world.win 2) ∧ (world.win 2).offer.map Offer.target = some .A ∧
      (world.win 2).owner = some .B) ∧
    Processing (asked world .B 0x43 0x16 [3, 0]) .B ⟨0x43, 0x16, [3, 0]⟩ ∧
    failing (refCheck world .B .owner permitLive ⟨1, 3⟩) = some .notOwner ∧ (world.win 2).offer = some ⟨.A, 1⟩ := by
  decide +kernel

/-- Port A's charge of 4 and the window's one block meet a quota of 5 exactly and exceed one of 4. -/
theorem witness_AcceptTransfersWindow :
    CommitInv (asked world .A 0x41 0x16 [3, 0]) ∧ Processing (asked world .A 0x41 0x16 [3, 0]) .A ⟨0x41, 0x16, [3, 0]⟩ ∧
    Names (asked world .A 0x41 0x16 [3, 0]) ⟨3, 0⟩ 2 ∧ live (world.win 2) ∧
    (world.win 2).offer.map Offer.target = some .A ∧ (world.win 2).owner = some (Port.other .A) ∧
    (world.win 0).offer.map Offer.target ≠ some .B ∧
    world.charge.get .A + (world.win 2).blocks.length ≤ ({ world with quota := ⟨5, 64⟩ } : State).quota.get .A ∧
    ({ world with quota := ⟨4, 64⟩ } : State).quota.get .A < world.charge.get .A + (world.win 2).blocks.length := by
  decide +kernel

/-- A profile at the upper ends of its ranges, one with an active width a pixel too small, one with a divisor too large, and one with a
polarity bit 3. -/
theorem witness_DeviceRequestsSetValues :
    Processing (asked world .A 0x50 0x16 (profileParams .P1 ⟨480, 320, 64, 64, 64, 32, 32, 32, 32, .activeLow, .activeHigh, .activeLow⟩)) .A
      ⟨0x50, 0x16, profileParams .P1 ⟨480, 320, 64, 64, 64, 32, 32, 32, 32, .activeLow, .activeHigh, .activeLow⟩⟩ ∧
    profileOk ⟨480, 320, 64, 64, 64, 32, 32, 32, 32, .activeLow, .activeHigh, .activeLow⟩ ∧
    profileOk ⟨16, 16, 1, 1, 1, 1, 1, 1, 4, .activeLow, .activeHigh, .activeLow⟩ ∧
    ¬ profileOk ⟨15, 16, 1, 1, 1, 1, 1, 1, 4, .activeLow, .activeHigh, .activeLow⟩ ∧
    ¬ profileOk ⟨16, 16, 1, 1, 1, 1, 1, 1, 33, .activeLow, .activeHigh, .activeLow⟩ ∧
    world.timing.current ≠ .P1 ∧ world.timing.pendingSwitch ≠ some .P1 ∧ world.timing.current = .P0 ∧
    ({ world.timing with pendingSwitch := some .P1 } : Timing).pendingSwitch ≠ none ∧
    Processing (asked world .A 0x50 0x16 [1, 0, 16, 0, 16, 1, 1, 1, 1, 1, 1, 4, 0x08]) .A
      ⟨0x50, 0x16, [1, 0, 16, 0, 16, 1, 1, 1, 1, 1, 1, 4, 0x08]⟩ ∧
    [(1 : Byte), 0, 16, 0, 16, 1, 1, 1, 1, 1, 1, 4, 0x08].length = 13 ∧
    [(1 : Byte), 0, 16, 0, 16, 1, 1, 1, 1, 1, 1, 4, 0x08].getD 0 0 = ProfileSlot.P1.code ∧
    8 ≤ ([(1 : Byte), 0, 16, 0, 16, 1, 1, 1, 1, 1, 1, 4, 0x08].getD 12 0).toNat ∧
    Processing (asked world .A 0x51 0x16 [1]) .A ⟨0x51, 0x16, [1]⟩ ∧ 1 < (2 : Byte).toNat ∧ (1 : Byte).toNat ≤ 1 ∧
    world.timing.pendingSwitch = none ∧ world.timing.current.code = 0 ∧ ProfileSlot.P1.code = 1 ∧
    Processing (asked world .A 0x52 0x16 [1]) .A ⟨0x52, 0x16, [1]⟩ ∧
    Processing (asked world .A 0x53 0x16 [1, 2, 3]) .A ⟨0x53, 0x16, [1, 2, 3]⟩ ∧
    Processing (asked world .A 0x55 0x16 [250]) .A ⟨0x55, 0x16, [250]⟩ ∧ (250 : Byte).toNat ≤ 250 ∧
    250 < (251 : Byte).toNat := by
  and_intros <;> decide +kernel

theorem witness_SetQuotaSetsBoth :
    Processing (asked world .A 0x54 0x16 [192, 0]) .A ⟨0x54, 0x16, [192, 0]⟩ ∧ (192 : Byte).toNat + (0 : Byte).toNat ≤ 192 ∧
    192 < (192 : Byte).toNat + (1 : Byte).toNat ∧ 192 < (193 : Byte).toNat ∧
    Processing (asked world .B 0x54 0x16 [1, 1]) .B ⟨0x54, 0x16, [1, 1]⟩ := by
  decide +kernel

theorem witness_RestartClearsPart :
    Processing (asked (operating [fill1, fill2]) .A 0x5F 0x16 []) .A ⟨0x5F, 0x16, []⟩ ∧
    PoolInv (asked (operating [fill1, fill2]) .A 0x5F 0x16 []) ∧ ShapeInv (asked (operating [fill1, fill2]) .A 0x5F 0x16 []) ∧
    inFlight (asked (operating [fill1, fill2]) .A 0x5F 0x16 []) = some fill1 := by
  and_intros <;> decide +kernel

/-! ## Witnesses: the engine -/

/-- A FILL that runs past its window's one block. -/
def fillPast : EngineOp := ⟨.A, 9, ⟨0, 3⟩, 0, .fill ⟨0, 0, 8, 129⟩ (.c16 1)⟩

theorem witness_OperationCompletes :
    (operating [fill1]).activity = .operating ∧ (operating [fill1]).opQueue = fill1 :: [] ∧ ShapeInv (operating [fill1]) ∧
    opFits (operating [fillPast]) fillPast = false := by
  decide +kernel

/-- A command that answers a next state. -/
def goesOn (c : Instr) (s : State) : Bool :=
  match exec c s with
  | .next _ => true
  | _ => false

/-- What `goesOn` says. -/
theorem goesOn_spec {c : Instr} {s : State} (h : goesOn c s = true) : ∃ t, exec c s = .next t := by
  unfold goesOn at h
  split at h
  · exact ⟨_, ‹_›⟩
  · exact absurd h (by decide)

theorem witness_OperationWritesItsPixels :
    PoolInv (operating [fill1]) ∧ ShapeInv (operating [fill1]) ∧ (operating [fill1]).activity = .operating ∧
    (operating [fill1]).opQueue = fill1 :: [] ∧ goesOn .operationCompletion (operating [fill1]) = true ∧
    ((operating [fill1]).win 1).state ≠ .free ∧ ((operating [fill1]).win 1).double = true ∧ 11 < (world.win 1).width ∧
    2 < (world.win 1).height := by
  and_intros <;> decide +kernel

theorem witness_ScrubZeroesBlock : PoolInv world ∧ world.activity = .scrubbing ∧ world.scrubList = 7 :: [] := by
  decide +kernel

/-! ## Witnesses: the frame boundary -/

/-- Port A subscribed, and a switch to P1 pending. -/
def attentive : State :=
  { world with subscribed := ⟨true, false⟩, timing := { world.timing with pendingSwitch := some .P1 } }

theorem witness_BoundaryRaisesDeviceNotices :
    (∃ t, exec (.frameBoundary plain) attentive = .next t) ∧ attentive.subscribed.get .A = true ∧
    attentive.subscribed.get .B = false ∧ attentive.timing.pendingSwitch = some .P1 ∧
    (Notice.mk .frameBoundary 0 0 1 1).kind = .frameBoundary :=
  ⟨⟨_, rfl⟩, rfl, rfl, rfl, rfl⟩

theorem witness_BoundaryRemovesRetiring_inv :
    CommitInv world ∧ (world.win 4).state = .retiring ∧ (world.win 0).state ≠ .retiring ∧ (world.win 0).state ≠ .free := by
  decide +kernel

theorem witness_BoundaryRemovesRetiring : ∃ t, exec (.frameBoundary plain) world = .next t := ⟨_, rfl⟩

/-- A group of a SHOWN, a HIDDEN and an OVERLAY window, and a LAPSED window alone. -/
theorem witness_BoundaryAppliesReadyCommits :
    CommitInv (armedAll (armedAll world 1 3 [0, 1, 3]) 0 0 [2]) ∧
    commitDue (armedAll (armedAll world 1 3 [0, 1, 3]) 0 0 [2]) 1 ∧ (world.win 1).owner = some .A ∧
    commitDue (armedAll (armedAll world 1 3 [0, 1, 3]) 0 0 [2]) 2 ∧
    ((armedAll world 0 0 [2]).win 2).state = .lapsed ∧ 0 < ((armedAll world 0 0 [2]).win 2).active.leaseLength ∧
    ((armedAll world 0 0 [2]).win 2).staging.placement ≠ some .out := by
  and_intros <;> decide +kernel

/-- Window (5, 1) HIDDEN with a swap staged and armed at this deferral count, and Port B's stream open into its back surface. -/
def held (count : Nat) : State :=
  { (staged wide 4 { Staging.empty with swap := true }).setStream .B (some ⟨⟨4, 1⟩, 1, ⟨0, 0, 8, 4⟩, 0, 0, 32⟩) with
    commitQueue := [⟨⟨4, 1⟩, 0, count⟩] }

theorem witness_BoundarySetsTimingAndView :
    (∀ i : Slot, ¬ evictionDue ((held 3).setWin 2 (Window.free 0) |>.win i)) ∧ inFlight (operating [fill1]) = some fill1 ∧
    (∀ b ∈ ((operating [fill1]).win fill1.dest.slot).surface fill1.destId, 2048 / 2048 ≠ b.val) ∧
    PoolInv (operating [fill1]) ∧ ShapeInv (operating [fill1]) ∧ CommitInv (operating [fill1]) ∧
    ¬ cancelledAt (operating [fill1]) fill1 ∧
    (CommitInv evicting ∧ PoolInv evicting ∧ ShapeInv evicting ∧ inFlight evicting = some fill3 ∧ evicted evicting 2 ∧
      cancelledAt evicting fill3 ∧ ¬ cancelledAt evicting fill2 ∧ streamInto evicting .B (evicting.refOf 2) = true) := by
  and_intros <;> decide +kernel

theorem witness_BoundaryDefersOrExpires :
    CommitInv (held 14) ∧ CommitInv (held 15) ∧ CommitEntry.mk ⟨4, 1⟩ 0 14 ∈ (held 14).commitQueue ∧
    ¬ readyUnit (held 14) ⟨⟨4, 1⟩, 0, 14⟩ ∧ ¬ readyUnit (held 15) ⟨⟨4, 1⟩, 0, 15⟩ ∧
    (∀ x ∈ (held 15).commitQueue, sameGroup ⟨⟨4, 1⟩, 0, 15⟩ x → ¬ evictionDue ((held 15).win x.ref.slot)) := by
  and_intros <;> decide +kernel

/-- The same with window (3, 0), which is to be evicted, in its group. -/
def ganged (count : Nat) : State :=
  { staged (held count) 2 { Staging.empty with leaseLength := some 9 } with
    commitQueue := [⟨⟨4, 1⟩, 1, count⟩, ⟨⟨2, 0⟩, 1, count⟩] }

theorem witness_BoundaryDefersOrExpires_eviction :
    (CommitInv (ganged 14) ∧ ¬ readyUnit (ganged 14) ⟨⟨4, 1⟩, 1, 14⟩) ∧ (CommitInv (ganged 15) ∧ ¬ readyUnit (ganged 15) ⟨⟨4, 1⟩, 1, 15⟩) ∧
    ¬ evictionDue ((ganged 14).win 4) ∧ evictionDue ((ganged 14).win 2) ∧ sameGroup ⟨⟨4, 1⟩, 1, 14⟩ ⟨⟨2, 0⟩, 1, 14⟩ ∧
    ((ganged 14).win 4).owner = some .B := by
  and_intros <;> decide +kernel

/-- The walk before the lease visits, and the visit of window (3, 0) before the walk. -/
theorem test_boundary_abandons_the_group_of_an_evicted_window :
    told (after (.frameBoundary plain) (ganged 15)) .B =
      [(.commitExpired, 5, 1, 1), (.commitExpired, 3, 1, 1), (.windowEvicted, 3, 1, 1)] ∧
    told (after (.frameBoundary ⟨[.leaseVisit 3], []⟩) (ganged 15)) .B = [(.windowEvicted, 3, 1, 1), (.commitAbandoned, 5, 1, 3)] := by
  decide +kernel

/-- The LAPSED window (3, 0) with renew-pending set. -/
def renewing : State := world.setWin 2 { w3 with renewPending := true }

/-- A window to lapse, a HIDDEN one, one to be evicted, one without a lease, one deferred, and one to be renewed whose offer expires. -/
theorem witness_BoundaryCountsLeasesAndOffers :
    CommitInv world ∧ (∀ i ∈ ([0, 1, 2, 3] : List Slot), live (world.win i) ∧ ¬ commitDue world i) ∧ CommitInv (held 3) ∧
    live ((held 3).win 4) ∧ ¬ commitDue (held 3) 4 ∧
    ((world.win 0).owner = some .A ∧ 0 < (world.win 0).active.leaseLength ∧ (world.win 0).state = .shown ∧
      (world.win 0).renewPending = false ∧ (world.win 0).leaseCounter = 1) ∧
    ((world.win 2).owner = some .B ∧ 0 < (world.win 2).active.leaseLength ∧ evictionDue (world.win 2)) ∧
    (CommitInv renewing ∧ live (renewing.win 2) ∧ ¬ commitDue renewing 2 ∧ (renewing.win 2).state = .lapsed ∧
      (renewing.win 2).renewPending = true ∧ (renewing.win 2).offer = some ⟨.A, 1⟩ ∧ ¬ evictionDue (renewing.win 2)) ∧
    (CommitInv evicting ∧ live (evicting.win 2) ∧ ¬ commitDue evicting 2 ∧ evictionDue (evicting.win 2) ∧
      fill3 ∈ evicting.opQueue ∧ opNames (evicting.refOf 2) fill3 = true ∧ streamInto evicting .B (evicting.refOf 2) = true ∧
      (evicting.win 2).offer = some ⟨.A, 1⟩) := by
  and_intros <;> decide +kernel

/-- The notices of an eviction in the order of R16; the operation into another window stays. -/
theorem test_boundary_evicts :
    told (after (.frameBoundary plain) evicting) .B = [(.windowEvicted, 3, 1, 1), (.opCancelled, 3, 1, 4), (.streamClosed, 3, 1, 2)] ∧
    (after (.frameBoundary plain) evicting).opQueue = [fill2] ∧ (after (.frameBoundary plain) evicting).activity = .operating := by
  decide +kernel

theorem witness_CountdownOutcomes :
    (CommitInv (held 15) ∧ CommitEntry.mk ⟨4, 1⟩ 0 15 ∈ (held 15).commitQueue ∧ ¬ readyUnit (held 15) ⟨⟨4, 1⟩, 0, 15⟩) ∧
    (CommitInv world ∧ ¬ commitDue world 0 ∧ (world.win 0).owner = some .A ∧ (world.win 0).state = .shown ∧
      0 < (world.win 0).active.leaseLength ∧ (world.win 0).renewPending = false ∧ (world.win 0).leaseCounter = 1) ∧
    (¬ commitDue world 2 ∧ (world.win 2).owner = some .B ∧ evictionDue (world.win 2)) ∧
    (CommitInv (operating [fill3]) ∧ PoolInv (operating [fill3]) ∧ ShapeInv (operating [fill3]) ∧ ¬ commitDue (operating [fill3]) 2 ∧
      evictionDue ((operating [fill3]).win 2) ∧ inFlight (operating [fill3]) = some fill3) ∧
    (world.win 2).offer = some ⟨.A, 1⟩ := by
  and_intros <;> decide +kernel

theorem witness_EventsRuledOutChangeNothing :
    (∀ r, ¬ Processing world .A r) ∧ Processing (asked world .A 0x01 0x16 []) .A ⟨0x01, 0x16, []⟩ ∧
    (0x01 : Byte) ∈ (requestTable .A).map Prod.fst ∧ (0x02 : Byte) ≠ 0x01 ∧ (sending.links.get .A).transaction ≠ none ∧
    (world.links.get .A).transaction = none ∧ world.activity ≠ .operating ∧ (operating []).opQueue = [] ∧
    (operating []).activity ≠ .scrubbing ∧ ({ world with scrubList := [] } : State).scrubList = [] ∧ 24 < 25 :=
  ⟨fun _ h => (nomatch h), rfl, by decide +kernel, by decide, by decide +kernel, rfl, by decide, rfl, by decide, rfl, by decide⟩

/-- A deferral count of 14 and a ready unit at 15; a lease counter of 2 and a commit about to be applied; a grace counter of 2; an offer of 2
frames. -/
theorem witness_EventsRuledOutChangeNothing_not_due :
    (CommitInv (held 14) ∧ ∀ e ∈ (held 14).commitQueue, e.ref.slot = 4 → readyUnit (held 14) e ∨ e.deferral < 15) ∧
    (CommitInv (armedAll world 0 15 [0, 2]) ∧ (∀ e ∈ (armedAll world 0 15 [0, 2]).commitQueue, e.ref.slot = 0 →
      readyUnit (armedAll world 0 15 [0, 2]) e ∨ e.deferral < 15) ∧
      commitDue (armedAll world 0 15 [0, 2]) 0 ∧ commitDue (armedAll world 0 15 [0, 2]) 2) ∧
    (CommitInv (world.setWin 0 { w1 with leaseCounter := 2 }) ∧ ((world.setWin 0 { w1 with leaseCounter := 2 }).win 0).leaseCounter ≠ 1) ∧
    (CommitInv (world.setWin 2 { w3 with graceCounter := 2 }) ∧ ¬ evictionDue ((world.setWin 2 { w3 with graceCounter := 2 }).win 2)) ∧
    (∀ v ∈ ((world.setWin 2 { w3 with offer := some ⟨.A, 2⟩ }).win 2).offer, 1 < v.frames) := by
  and_intros <;> decide +kernel

/-! ## Witnesses: the list, what is shown, authority, notices, composition -/

/-- A window in the list placed by a present window of its tier, by one of the other tier, and by an absent one. -/
theorem witness_PlacementEditsList :
    StackInv world ∧ (∀ r ∈ placementNamed (.above ⟨2, 0⟩), r.slot ≠ 0) ∧ (∀ r ∈ placementNamed (.below ⟨3, 0⟩), r.slot ≠ 0) ∧
    (∀ r ∈ placementNamed (.above ⟨1, 0⟩), r.slot ≠ 0) ∧
    ((world.win 2).gen = 0 ∧ inListState (world.win 2).state = true ∧ (world.win 2).tier = (world.win 0).tier) ∧
    ((world.win 3).gen = 0 ∧ inListState (world.win 3).state = true ∧ (world.win 3).tier ≠ (world.win 0).tier) ∧
    ¬ (inListState (world.win 1).state = true) := by
  decide +kernel

theorem witness_ShownThingsChangeOnlyAtBoundaries :
    (∃ t, exec (.eviction 3) world = .next t) ∧ Instr.eviction 3 ≠ .hardwareReset ∧
    (∀ order, Instr.eviction 3 ≠ .frameBoundary order) ∧ (∀ p, Instr.eviction 3 ≠ .restart p) ∧
    (world.win 2).state ≠ .free ∧ ((after (.eviction 3) world).win 2).state ≠ .free :=
  ⟨⟨_, rfl⟩, by decide, fun _ => nofun, fun _ => nofun, by decide +kernel, by decide +kernel⟩

/-- Port B creates a window in slot 6, and Port A's window (1, 3) is not offered. -/
theorem witness_PortBCannotTouchWhatIsPortAs :
    (∃ t, exec (.create .B) (asked world .B 0x10 0x16 (createParams .c16 1 1 1 .normal)) = .next t) ∧
    commandPort (.create .B) = some .B ∧
    ((asked world .B 0x10 0x16 (createParams .c16 1 1 1 .normal)).win 5).state = .free ∧
    ((afterRequest world .B 0x10 (createParams .c16 1 1 1 .normal)).win 5).state ≠ .free ∧
    (world.win 0).owner = some .A ∧ (world.win 0).state ≠ .free ∧ (world.win 0).offer = none :=
  ⟨⟨_, rfl⟩, rfl, by decide +kernel, by decide +kernel, by decide +kernel, by decide +kernel, by decide +kernel⟩

/-- A list of this many notices with different handles, the first raised 255 times. -/
def boxOf (n : Nat) : NoticeBox :=
  ⟨(List.range n).map (fun k => ⟨.opDone, k + 1, 0, if k = 0 then 255 else 1, 5⟩), false⟩

theorem witness_NoticeRaisingTakesThreeWays :
    boxOk (boxOf 24) ∧ (boxOf 24).list = [] ++ ⟨.opDone, 1, 0, 255, 5⟩ :: (boxOf 24).list.drop 1 ∧
    boxOk (boxOf 31) ∧ (∀ n ∈ (boxOf 31).list, n.kind ≠ .committed ∨ n.handle ≠ 1) ∧ (boxOf 31).list.length < 32 ∧
    boxOk (boxOf 32) ∧ (∀ n ∈ (boxOf 32).list, n.kind ≠ .committed ∨ n.handle ≠ 1) ∧ (boxOf 32).list.length = 32 := by
  decide +kernel

/-- An entry of the view alone over nothing, pixels at and past its corners, and an operation in flight on a front surface of the view. -/
theorem witness_CompositionTakesTopmostOpaque :
    (∀ v ∈ world.view, v.draw world 100 100 = none) ∧
    world.view = world.view.take 3 ++ viewEntry world ⟨3, 0⟩ :: [] ∧
    (viewEntry world ⟨3, 0⟩).draw world 1 1 = some Colour.black ∧ inFlight world = none ∧
    ¬ ((viewEntry world ⟨0, 3⟩).x ≤ 8 ∧ (8 : Int) < (viewEntry world ⟨0, 3⟩).x + (viewEntry world ⟨0, 3⟩).width) ∧
    ((viewEntry world ⟨0, 3⟩).x ≤ 7 ∧ (7 : Int) < (viewEntry world ⟨0, 3⟩).x + (viewEntry world ⟨0, 3⟩).width ∧
      (viewEntry world ⟨0, 3⟩).y ≤ 3 ∧ (3 : Int) < (viewEntry world ⟨0, 3⟩).y + (viewEntry world ⟨0, 3⟩).height) ∧
    (world.win 0).state = .shown ∧ (world.win 4).state = .retiring ∧ (world.win 2).state = .lapsed ∧
    ShapeInv (operating [fill1]) ∧ inFlight (operating [fill1]) = some fill1 ∧
    fill1.dest = (viewEntry world ⟨0, 3⟩).ref ∧ fill1.destId = (viewEntry world ⟨0, 3⟩).front := by
  and_intros <;> decide +kernel

/-! ## Witnesses: the invariants over a step -/

/-- The world with a commit and a lapse due, an operation in flight, and a frame boundary in front of the queue. -/
def busy : State := { armedAll (operating [fill1]) 0 0 [1] with pending := [.frameBoundary plain] }

theorem test_busy_notices : NoticesInv busy ∧ QuotaInv busy := by decide +kernel
theorem test_busy_pool : PoolInv busy := by decide +kernel
theorem test_busy_store : StoreInv busy ∧ ZeroInv busy := by decide +kernel
theorem test_busy_commit_queue : CommitInv busy := by decide +kernel
theorem test_busy_stacking_list : StackInv busy ∧ ViewInv busy := by decide +kernel
theorem test_busy_fields : FieldsInv busy := by decide +kernel
theorem test_busy_leases : LeaseInv busy := by decide +kernel
theorem test_busy_offers : OfferInv busy := by decide +kernel
theorem test_busy_shapes : ShapeInv busy := by decide +kernel
theorem test_busy_engine : EngineInv busy := by decide +kernel

theorem witness_NoticesQuotasAndLinksStaySound :
    NoticesInv busy ∧ QuotaInv busy ∧ LinkInv busy ∧ ∃ t, step busy = .next t :=
  ⟨test_busy_notices.1, test_busy_notices.2, linkInv_released rfl rfl, ⟨_, rfl⟩⟩

theorem witness_BlockPoolStaysSound : PoolInv busy ∧ ∃ t, step busy = .next t := ⟨test_busy_pool, ⟨_, rfl⟩⟩

/-- A surface whose blocks are all scrubbed reads as zero in a store that lists nothing. -/
theorem readSurface_of_empty_store {f : FrameStore} {blocks : List Block} (hc : f.cells = [])
    (hb : ∀ b ∈ blocks, b ∉ f.undefinedBlocks) (o : Nat) : readSurface f blocks o = 0 := by
  unfold readSurface surfaceAddress
  cases h : blocks[o / 2048]? with
  | none => rfl
  | some b =>
    have hq : (b.val * 2048 + o % 2048) / 2048 = b.val := by omega
    have hn : f.isUndefined (b.val * 2048 + o % 2048) = false := by
      simp only [FrameStore.isUndefined, List.any_eq_false, hq]
      intro x hx he
      exact hb b (List.mem_of_getElem? h) (Fin.ext (beq_iff_eq.1 he) ▸ hx)
    simp [FrameStore.read, hc, lookupCell, FrameStore.unlisted, byteAddress, hn]

theorem test_busy_padding : PaddingInv busy := by
  have hb : ∀ (i : Slot) (id : SurfaceId), ∀ b ∈ (busy.win i).surface id, b ∉ busy.store.undefinedBlocks := by decide +kernel
  exact fun i id => ⟨fun o _ => readSurface_of_empty_store rfl (hb i id) o,
    fun _ r c _ _ _ => by rw [readSurface_of_empty_store rfl (hb i id)]; exact BitVec.getLsbD_zero⟩

theorem witness_FreeBlocksStayZero :
    PoolInv busy ∧ StoreInv busy ∧ ZeroInv busy ∧ (∃ t, step busy = .next t) ∧ ShapeInv busy ∧ PaddingInv busy ∧
    (8 : Block) ∈ busy.freeSet ∧ 16384 / 2048 = (8 : Block).val :=
  ⟨test_busy_pool, test_busy_store.1, test_busy_store.2, ⟨_, rfl⟩, test_busy_shapes, test_busy_padding, by decide +kernel,
    by decide +kernel⟩

theorem witness_ListAndCommitQueueStaySound :
    CommitInv busy ∧ StackInv busy ∧ ViewInv busy ∧ FieldsInv busy ∧ ConsecutiveInv busy ∧ ∃ t, step busy = .next t :=
  ⟨test_busy_commit_queue, test_busy_stacking_list.1, test_busy_stacking_list.2, test_busy_fields, by decide +kernel, ⟨_, rfl⟩⟩

/-- Two groups that stand consecutive, and two whose members alternate. -/
theorem test_consecutive_groups :
    ConsecutiveInv (armedAll (armedAll world 1 0 [0, 1]) 2 0 [2, 3]) ∧
    ¬ ConsecutiveInv (armedAll (armedAll (armedAll world 1 0 [0]) 2 0 [2]) 1 0 [1]) := by
  and_intros <;> decide +kernel

theorem witness_LeasesAndOffersStaySound :
    CommitInv busy ∧ LeaseInv busy ∧ OfferInv busy ∧ ∃ t, step busy = .next t :=
  ⟨test_busy_commit_queue, test_busy_leases, test_busy_offers, ⟨_, rfl⟩⟩

theorem witness_EveryStepIsSafe : ShapeInv busy ∧ CommitInv busy ∧ FieldsInv busy ∧ EngineInv busy :=
  ⟨test_busy_shapes, test_busy_commit_queue, test_busy_fields, test_busy_engine⟩

/-! ## Worked examples of the manual: the link (sections 10.1, 11.2 and 11.4) -/

theorem test_crc_of_one_byte : crc8 [0xA5] = 0x81 := by decide +kernel
theorem test_crc_of_three_bytes : crc8 [0xA5, 0x00, 0x00] = 0xA3 := by decide +kernel

theorem test_release_receives_NOP_frame :
    ((after (.selectRelease .A (bitsOfBytes [0xA5, 0x01, 0x16, 0x00, 0x00, 0xEE])) (after (.selectAssert .A) world)).links.get
      .A).phase = .processing ⟨0x01, 0x16, []⟩ := by decide +kernel

theorem test_release_rejects_a_wrong_crc :
    ((after (.selectRelease .A (bitsOfBytes [0xA5, 0x01, 0x16, 0x00, 0x00, 0xEF])) (after (.selectAssert .A) world)).links.get
      .A).lastRejection = .crcError := by decide +kernel

/-- Port B's list of section 11's COLLECT example. -/
def collecting : State :=
  world.setNotices .B ⟨[⟨.opDone, 5, 2, 2, 41⟩, ⟨.frameBoundary, 0, 0, 3, 501⟩], false⟩

theorem test_collect_payload :
    answerTo collecting .B 0x03 [] =
      some (.done, [0x02, 0x09, 0x05, 0x02, 0x02, 0x00, 0x29, 0x12, 0x00, 0x00, 0x03, 0x01, 0xF5]) := by decide +kernel

theorem test_assert_fixes_collect_response :
    (dataOut (after (.selectAssert .B) (afterRequest collecting .B 0x03 [])) .B 6) =
      some [0x5A, 0x00, 0x16, 0x00, 0x00, 0x0D] := by decide +kernel

/-- The first bits of the line are those of 5Ah, most significant first; past the response they are 1; released, there are none. -/
theorem test_data_line_sends_msb_first :
    (List.range 8).map (dataLine sending .A) =
      [some false, some true, some false, some true, some true, some false, some true, some false] ∧
    dataLine sending .A 56 = some true ∧ dataLine world .A 0 = none := by decide +kernel

theorem test_hardware_reset_puts_all_blocks_on_the_scrub_list :
    (after .hardwareReset world).scrubList = allBlocks ∧ (after .hardwareReset world).quota = ⟨128, 64⟩ := by decide +kernel

theorem test_undefined_code_is_bad_request : answerTo world .A 0x06 [1, 2, 3] = some (.badRequest, []) := by decide +kernel

theorem test_nop_is_done : answerTo world .B 0x01 [] = some (.done, []) := by decide +kernel

theorem test_status_after_reset :
    answerTo State.reset .A 0x02 [] = some (.done, [0, 192, 0, 128, 0, 0xFF, 0, 0, 0, 0, 0, 0, 0, 0, 0]) := by decide +kernel

theorem test_subscribe_on : (afterRequest world .B 0x04 [0x01]).subscribed = ⟨false, true⟩ := by decide +kernel

theorem test_detach_frees_hidden_and_retires_shown :
    let t := afterRequest world .A 0x05 []
    (t.win 1).state = .free ∧ (t.win 0).state = .retiring ∧ (t.win 2).offer = none ∧ t.scrubList = [7, 1, 2] := by
  decide +kernel

/-! ## Worked examples: block accounting (chapter 2) -/

/-- Every block free and no window (event 0). -/
def fresh : State := { State.reset with freeSet := allBlocks, scrubList := [], activity := .idle }

theorem test_create_takes_blocks_0_to_19 :
    let t := afterRequest fresh .A 0x10 (createParams .c16 200 100 1 .normal)
    (t.win 0).surface0 = allBlocks.take 20 ∧ t.charge = ⟨20, 0⟩ ∧ t.freeSet.length = 172 := by decide +kernel

theorem test_create_is_refused_with_quota :
    answerTo { fresh with charge := ⟨95, 40⟩ } .A 0x10 (createParams .c24 320 240 1 .normal) = some (.quota, []) := by
  decide +kernel

theorem test_retire_hidden_releases_blocks :
    (afterRequest world .A 0x11 [2, 0]).scrubList = [7, 1, 2] ∧ (afterRequest world .A 0x11 [2, 0]).charge = ⟨2, 3⟩ := by
  decide +kernel

theorem test_retire_by_port_A_tells_the_owner :
    told (afterRequest world .A 0x11 [3, 0]) .B = [(.windowRetired, 3, 1, 4)] := by decide +kernel

theorem test_query_begins_with_the_record :
    (answerTo world .A 0x12 [3, 0]).map (fun a => (a.2.length, a.2.take 15)) =
      some (70, [3, 0, 3, 1, 0, 1, 0, 4, 0, 2, 0, 12, 1, 0, 1]) := by decide +kernel

theorem test_list_owned : answerTo world .B 0x13 [] = some (.done, [2, 3, 0, 3, 5, 1, 4]) := by decide +kernel

theorem test_list_stack :
    answerTo world .A 0x14 [] = some (.done, [4, 1, 3, 0, 0, 2, 3, 0, 1, 0, 3, 5, 1, 1, 0, 4, 4, 0, 0, 1, 2]) := by
  decide +kernel

theorem test_scrub_frees_the_block :
    (after .scrubCompletion world).freeSet.head? = some 7 ∧ (after .scrubCompletion world).activity = .idle := by decide +kernel

/-! ## Worked examples: staging and commit (sections 11.3 and 5.5) -/

/-- The bytes of section 11.3's example, on window (5, 1) of this test. -/
theorem test_stage_example :
    ((afterRequest wide .B 0x20 [0x05, 0x01, 0x00, 0x05, 0xFF, 0xEC, 0x00, 0x1E, 0x02, 0x03, 0x02]).win 4).staging =
      { Staging.empty with position := some (-20, 30), placement := some (.above ⟨2, 2⟩) } := by decide +kernel

theorem test_stage_refuses_position_8000h :
    answerTo world .A 0x20 [0x01, 0x03, 0x00, 0x01, 0x80, 0x00, 0x00, 0x00] = some (.badParam, []) := by decide +kernel

theorem test_discard_empties :
    ((afterRequest (staged world 0 fullStaging) .A 0x21 [1, 3]).win 0).staging = Staging.empty := by decide +kernel

theorem test_arm_of_two_takes_tag_1 :
    answerTo (staged (staged world 0 fullStaging) 1 fullStaging) .A 0x22 [2, 1, 3, 2, 0] = some (.done, [1]) := by
  decide +kernel

theorem test_disarm_answers_two :
    answerTo (armedAll world 1 0 [0, 1]) .A 0x23 [1, 3] = some (.done, [2]) := by decide +kernel

theorem test_renew_of_retiring_window_is_bad_state : answerTo world .B 0x24 [5, 1] = some (.badState, []) := by decide +kernel

theorem test_commit_expiry_tells_the_owner :
    told (after (.commitExpiry 5) (held 15)) .B = [(.commitExpired, 5, 1, 0)] := by decide +kernel

/-! ## Worked examples: drawing (chapter 3) -/

theorem test_open_stream_starts_at_the_top_left :
    (afterRequest world .A 0x30 ([2, 0, 1] ++ rectParam ⟨0, 0, 5, 3⟩)).streams.a = some stream2 := by decide +kernel

/-- Section 3.3: 16 pixels into 15, of which one is padding. -/
theorem test_put_packs_M1_pixels :
    answerTo streaming .A 0x31 [0xFF, 0xFE] = some (.accepted, [0, 0, 15, 0, 0, 0, 0, 0]) := by decide +kernel

theorem test_put_of_three_bytes_overruns :
    answerTo streaming .A 0x31 [0xFF, 0xFE, 0x00] = some (.overrun, [0, 0, 15, 0, 0, 0, 0, 0]) := by decide +kernel

theorem test_close_stream : (afterRequest streaming .A 0x32 []).streams = ⟨none, none⟩ := by decide +kernel

/-- Pure red is F800h in 5-6-5. -/
theorem test_fill_converts_to_565 :
    ((afterRequest world .A 0x33 ([1, 3, 0] ++ rectParam ⟨0, 0, 8, 4⟩ ++ [255, 0, 0])).opQueue.map EngineOp.body) =
      [.fill ⟨0, 0, 8, 4⟩ (.c16 0xF800)] := by decide +kernel

theorem test_copy_is_queued_behind :
    (afterRequest (operating [fill1]) .A 0x34 ([2, 0, 0] ++ rectParam ⟨0, 0, 2, 2⟩ ++ [2, 0, 1] ++ be16 3 ++ be16 1)).opQueue =
      [fill1, ⟨.A, 0, ⟨1, 0⟩, 1, .copy ⟨1, 0⟩ 0 ⟨0, 0, 2, 2⟩ 3 1⟩] := by decide +kernel

/-- A C16 window 10 pixels wide whose row 0 holds the values 1 to 10, with section 3.5's overlapping COPY in flight. -/
def overlapping : State :=
  { world with
    windows := (world.windows.set 0 (window .hidden 3 .A .c16 10 2 [0] none))
    store := writeAll (window .hidden 3 .A .c16 10 2 [0] none) 0
      ((List.range 10).map (fun k => ⟨k, 0, .c16 (BitVec.ofNat 16 (k + 1))⟩)) world.store
    opQueue := [⟨.A, 0, ⟨0, 3⟩, 0, .copy ⟨0, 3⟩ 0 ⟨0, 0, 6, 1⟩ 2 0⟩]
    activity := .operating }

theorem test_overlapping_copy :
    (List.range 10).map (fun c => readPixel (after .operationCompletion overlapping).store .c16 20 [0] c 0) =
      [.c16 1, .c16 2, .c16 1, .c16 2, .c16 3, .c16 4, .c16 5, .c16 6, .c16 9, .c16 10] := by decide +kernel

theorem test_completion_raises_op_done : told (after .operationCompletion (operating [fill1])) .A = [(.opDone, 1, 1, 8)] := by
  decide +kernel

theorem test_cancel_of_a_queued_operation :
    let t := afterRequest (operating [fill2, fill1]) .A 0x35 [8]
    t.opQueue = [fill2] ∧ told t .A = [(.opCancelled, 1, 1, 8)] := by decide +kernel

theorem test_cancel_of_another_ports_number : answerTo (operating [fill2]) .A 0x35 [3] = some (.notFound, []) := by
  decide +kernel

/-! ## Worked examples: leases, transfer and device requests (chapters 6 to 9) -/

theorem test_lapse_tells_the_owner_the_grace : told (after (.lapse 1) world) .A = [(.leaseLapsed, 1, 1, 60)] := by decide +kernel

theorem test_eviction_tells_owner_and_port_A :
    told (after (.eviction 3) world) .A = [(.windowEvicted, 3, 1, 0), (.offerWithdrawn, 3, 1, 2)] ∧
    told (after (.eviction 3) world) .B = [(.windowEvicted, 3, 1, 0)] := by decide +kernel

theorem test_offer_expiry_tells_both :
    told (after (.offerExpiry 3) world) .A = [(.offerExpired, 3, 1, 0)] ∧
    told (after (.offerExpiry 3) world) .B = [(.offerExpired, 3, 1, 0)] := by decide +kernel

theorem test_offer_tells_the_blocks : told (afterRequest world .A 0x40 [2, 0]) .B = [(.offerReceived, 2, 1, 2)] := by
  decide +kernel

theorem test_accept_moves_the_charge :
    (afterRequest world .A 0x41 [3, 0]).charge = ⟨5, 2⟩ ∧
    told (afterRequest world .A 0x41 [3, 0]) .B = [(.offerAccepted, 3, 1, 1)] := by decide +kernel

theorem test_accept_over_quota_keeps_the_offer :
    ((afterRequest { world with quota := ⟨4, 64⟩ } .A 0x41 [3, 0]).win 2).offer = some ⟨.A, 1⟩ := by decide +kernel

theorem test_decline_tells_the_owner : told (afterRequest world .A 0x42 [3, 0]) .B = [(.offerDeclined, 3, 1, 1)] := by
  decide +kernel

theorem test_withdraw_tells_the_target : told (afterRequest world .B 0x43 [3, 0]) .A = [(.offerWithdrawn, 3, 1, 1)] := by
  decide +kernel

theorem test_set_profile_of_the_current_slot : answerTo world .A 0x50 (profileParams .P0 Profile.default0) = some (.inUse, []) := by
  decide +kernel

theorem test_switch_profile_is_pending : (afterRequest world .A 0x51 [1]).timing.pendingSwitch = some .P1 := by decide +kernel

theorem test_display_is_pending : (afterRequest world .A 0x52 [1]).timing.pendingDisplay = some true := by decide +kernel

theorem test_background_is_pending :
    (afterRequest world .A 0x53 [0, 0, 64]).timing.pendingBackground = some ⟨0, 0, 64⟩ := by decide +kernel

theorem test_quotas_above_192_are_refused : answerTo world .A 0x54 [128, 65] = some (.badParam, []) := by decide +kernel

theorem test_grace_251_is_refused : answerTo world .A 0x55 [251] = some (.badParam, []) := by decide +kernel

theorem test_restart_frees_and_tells :
    let t := afterRequest world .A 0x5F []
    (t.win 0) = Window.free 4 ∧ t.scrubList = [7, 0, 1, 2, 3, 4, 5, 6] ∧ told t .B = [(.restarted, 0, 1, 0)] := by
  decide +kernel

/-! ## Worked example: one boundary's walk (chapter 4) -/

/-- A window of the walk, C16 4 × 4. -/
def walker (st : WinState) (g : Gen) (p : Port) (tier : Tier) (b : Block) (v : Staging) : Window :=
  { window st g p .c16 4 4 [b] none with tier := tier, staging := v }

/-- A staging of a placement alone. -/
def moved (pl : Placement) : Staging := { Staging.empty with placement := some pl }

/-- The seven windows before boundary n. -/
def walk : State :=
  { State.reset with
    windows := ((((((((Vector.replicate 24 (Window.free 0)).set 1
        { walker .shown 3 .A .normal 0 { moved .top with swap := true } with surface1 := some [1] }).set 4
        (walker .shown 1 .B .normal 2 (moved (.below ⟨1, 3⟩)))).set 5
        (walker .retiring 4 .B .normal 3 Staging.empty)).set 6
        (walker .shown 0 .A .overlay 4 (moved (.below ⟨1, 3⟩)))).set 8
        (walker .hidden 2 .B .normal 5 (moved (.above ⟨5, 4⟩)))).set 10
        (walker .hidden 0 .A .overlay 6 (moved .bottom))).set 11
        (walker .hidden 8 .A .normal 7 (moved (.above ⟨10, 0⟩))))
    streams := ⟨some ⟨⟨1, 3⟩, 1, ⟨0, 0, 1, 1⟩, 0, 0, 1⟩, none⟩
    stack := [⟨1, 3⟩, ⟨5, 4⟩, ⟨4, 1⟩, ⟨6, 0⟩]
    commitQueue := [⟨⟨8, 2⟩, 0, 0⟩, ⟨⟨10, 0⟩, 3, 0⟩, ⟨⟨11, 8⟩, 3, 0⟩, ⟨⟨4, 1⟩, 0, 0⟩, ⟨⟨1, 3⟩, 0, 0⟩, ⟨⟨6, 0⟩, 0, 0⟩] }

theorem test_walk_leaves_the_list :
    (after (.frameBoundary plain) walk).stack = [⟨4, 1⟩, ⟨1, 3⟩, ⟨8, 2⟩, ⟨11, 8⟩, ⟨6, 0⟩, ⟨10, 0⟩] ∧
    (after (.frameBoundary plain) walk).commitQueue = [⟨⟨1, 3⟩, 0, 1⟩] ∧
    (after (.frameBoundary plain) walk).win 5 = Window.free 5 := by
  decide +kernel

/-- Windows 11 and 12 of the walk: the placement of the second is adjusted, after four applications. -/
theorem witness_BoundaryAppliesReadyCommits_placement :
    CommitInv walk ∧ walkOrder walk = [8, 10] ++ 11 :: [4, 6] ∧ (walk.win 11).staging.placement = some (.above ⟨10, 0⟩) ∧
    (walk.win 11).owner = some .A ∧
    (place (walkAfter walk [8, 10]) (walk.win 11).tier (walk.refOf 11) (.above ⟨10, 0⟩)).adjusted = some 0x0002 := by
  and_intros <;> decide +kernel

theorem test_walk_tells_the_owners :
    told (after (.frameBoundary plain) walk) .B =
      [(.committed, 9, 1, 1), (.placementAdjusted, 9, 1, 1), (.committed, 5, 1, 1)] ∧
    told (after (.frameBoundary plain) walk) .A =
      [(.committed, 11, 1, 1), (.committed, 12, 1, 1), (.placementAdjusted, 12, 1, 2), (.committed, 7, 1, 1),
        (.placementAdjusted, 7, 1, 2)] := by
  decide +kernel

/-! ## Worked example: composing two pixels (chapter 6) -/

theorem test_widening :
    [widen5 31, widen5 16, widen5 1] = [255, 132, 8] ∧ [widen6 63, widen6 32, widen6 1] = [255, 130, 4] := by decide

/-- The four windows of the example, surface pixel (40, 30) of (1, 0) storing its key and pixel (25, 15) of (4, 0) red 16, green 32,
blue 31. -/
def composing : State :=
  let v (fmt : Format) (w h : Nat) (b : Block) (n : Nat) (x y : Int) : Window :=
    { window .shown 0 .A fmt w h ((allBlocks.drop b.val).take n) none with
      active := { ActiveFields.created with x := x, y := y } }
  let c := v .c24 100 80 0 12 60 20
  let m := v .m1 64 32 12 1 90 40
  let l := v .c16 40 40 13 2 80 30
  let k := v .c16 50 50 15 3 (-20) (-10)
  let s : State := { State.reset with
    windows := (((((Vector.replicate 24 (Window.free 0)).set 0
        { c with active := { c.active with key := some ⟨0, 255, 0⟩ } }).set 1
        { m with active := { m.active with sx := 10, ink := ⟨255, 255, 0⟩ } }).set 2
        { l with state := .lapsed, gen := 1, active := { l.active with policy := .vanish, leaseLength := 1 } }).set 3 k)
    stack := [⟨0, 0⟩, ⟨1, 0⟩, ⟨2, 1⟩, ⟨3, 0⟩]
    activity := .idle
    timing := { Timing.reset with background := ⟨0, 0, 64⟩ }
    store := writeAll k 0 [⟨25, 15, .c16 0x841F⟩] (writeAll c 0 [⟨40, 30, .c24 ⟨0, 255, 0⟩⟩] { cells := [], undefinedBlocks := [], epoch := 0 }) }
  takeView s

theorem test_compose_two_pixels :
    composePixel composing 100 50 = ⟨0, 0, 64⟩ ∧ composePixel composing 5 5 = ⟨132, 130, 255⟩ := by decide +kernel

/-- P0's syncs are ACTIVE_LOW and its DE ACTIVE_HIGH: clock 328 begins HSYNC, line 4 VSYNC, and the display is OFF. -/
theorem test_pins_of_P0 :
    panelPins State.reset 4 328 = ⟨false, false, false, Colour.black⟩ ∧
    panelPins State.reset 12 0 = ⟨true, true, false, Colour.black⟩ := by decide +kernel

/-- 17.01 ms at 64 MHz, to the first boundary under P0 (R126). -/
theorem test_frame_period_of_P0 : Profile.default0.framePeriod = 1088640 := by decide

end Sys2Proof.Tests
end

