-- ==== Sys2Proof/Proofs/Requests.lean ====
section
/-! What a command can do to the state, said once: the common evaluation of a request inverted, and for each command the one change it can
make, with what its checks have made sure of (R10, R182, R183). -/

namespace Sys2Proof.Machine

open Sys2Proof.Safety

/-! ## The common evaluation -/

/-- An evaluation that answers has passed the three common stages (R183). -/
theorem evaluate_eq_answer {p : Port} {r : Request} {taken : List Byte → Verdict} {t : State} {st : Status} {payload : List Byte}
    (h : evaluate p r taken = .answer t st payload) :
    lengthOk r.code r.params = true ∧ (p = .A ∨ portAOnly r.code r.params = false) ∧
      taken r.params = .answer t st payload := by
  unfold evaluate at h
  split at h
  · cases h
  · split at h
    · cases h
    · next hl =>
      split at h
      · cases h
      · next hp =>
        refine ⟨by simpa using hl, ?_, h⟩
        cases p with
        | A => exact .inl rfl
        | B => exact .inr (by simpa using hp)

/-- The completion of a request leaves the state, holds a refusal, or holds the answer of the request's own evaluation (R182, R183). -/
theorem complete_cases (s : State) (p : Port) (code : Byte) (taken : List Byte → Verdict) :
    complete s p code taken = s ∨ (∃ a, complete s p code taken = s.hold p a) ∨
      ∃ (ps : List Byte) (t : State) (st : Status) (payload : List Byte) (a : Response),
        lengthOk code ps = true ∧ (p = .A ∨ portAOnly code ps = false) ∧ taken ps = .answer t st payload ∧
        complete s p code taken = t.hold p a := by
  unfold complete
  split
  · next r _ =>
    split
    · next hc =>
      cases hv : evaluate p r taken with
      | refuse st => exact .inr (.inl ⟨_, rfl⟩)
      | answer t st payload =>
        obtain ⟨hl, hp, ht⟩ := evaluate_eq_answer hv
        exact .inr (.inr ⟨r.params, t, st, payload, _, hc ▸ hl, hc ▸ hp, ht, rfl⟩)
    · exact .inl rfl
  · exact .inl rfl

/-- A request that names a window answers only where its reference check passes (R183). -/
theorem withWindow_eq_answer {s : State} {p : Port} {o : Ownership} {permit : WinState → Bool} {r : RawRef}
    {next : Slot → Verdict} {t : State} {st : Status} {payload : List Byte}
    (h : withWindow s p o permit r next = .answer t st payload) :
    ∃ i, ownershipOk o p (s.win i) = true ∧ permit (s.win i).state = true ∧ next i = .answer t st payload := by
  unfold withWindow at h
  split at h
  · cases h
  · next i hi =>
    obtain ⟨-, -, -, ho, hp⟩ := refCheck_eq_ok.1 hi
    exact ⟨i, ho, hp, h⟩

@[simp] theorem ownershipOk_owner {p : Port} {w : Window} : ownershipOk .owner p w = true ↔ w.owner = some p := by
  simp [ownershipOk]

@[simp] theorem ownershipOk_ownerOrA {p : Port} {w : Window} :
    ownershipOk .ownerOrA p w = true ↔ w.owner = some p ∨ p = .A := by
  simp [ownershipOk]

theorem offersTo_iff {w : Window} {p : Port} : offersTo w p = true ↔ ∃ v, w.offer = some v ∧ v.target = p := by
  unfold offersTo
  split
  · next v hv => simp [hv]
  · next hv => simp [hv]

/-- What the checks of an ARM have made sure of each of its windows (R89). -/
theorem armCheck_eq_ok {s : State} {p : Port} {rs : List RawRef} {slots : List Slot} (h : armCheck s p rs = .ok slots) :
    ∀ i ∈ slots, (s.win i).owner = some p ∧ live (s.win i) := by
  induction rs generalizing slots with
  | nil => cases h; simp
  | cons r rest ih =>
    unfold armCheck at h
    split at h
    · cases h
    · next i hi =>
      split at h
      · cases h
      · next l hl =>
        cases h
        obtain ⟨-, -, -, ho, hp⟩ := refCheck_eq_ok.1 hi
        intro j hj
        rcases List.mem_cons.1 hj with rfl | hj
        · exact ⟨by simpa using ho, hp⟩
        · exact ih hl j hj

theorem armRefusal_eq_none {s : State} {slots : List Slot} (h : armRefusal s slots = none) :
    ∀ i ∈ slots, armed s i = false ∧ (s.win i).staging ≠ Staging.empty := by
  induction slots with
  | nil => simp
  | cons i rest ih =>
    unfold armRefusal at h
    split at h
    · cases h
    · next ha =>
      split at h
      · cases h
      · next hs =>
        intro j hj
        rcases List.mem_cons.1 hj with rfl | hj
        · exact ⟨by simpa using ha, hs⟩
        · exact ih h j hj

/-- The parameters of a CREATE are in range where they are read (R13, R191). -/
theorem readCreate_eq_some {ps : List Byte} {c : CreateParams} (h : readCreate ps = some c) :
    1 ≤ c.width ∧ c.width ≤ 480 ∧ 1 ≤ c.height ∧ c.height ≤ 320 ∧ (c.surfaces = 1 ∨ c.surfaces = 2) ∧
      tierOf (byteAt ps 6) = some c.tier := by
  unfold readCreate at h
  split at h
  · next fmt tier _ ht =>
    dsimp only at h
    split at h
    · next hr =>
      cases h
      simp only [inRange, Bool.and_eq_true, decide_eq_true_eq] at hr
      obtain ⟨⟨⟨hw1, hw2⟩, hh1, hh2⟩, hn1, hn2⟩ := hr
      exact ⟨hw1, hw2, hh1, hh2, by dsimp only; omega, ht⟩
    · cases h
  · cases h

/-- A CREATE of an OVERLAY window belongs to Port A alone (R142). -/
theorem tier_of_portAOnly {ps : List Byte} {tier : Tier} (h : portAOnly codeCreate ps = false)
    (ht : tierOf (byteAt ps 6) = some tier) : tier = .normal := by
  have hb : byteAt ps 6 ≠ 0x01 := by
    intro e
    simp [portAOnly, e, codeCreate] at h
  unfold tierOf at ht
  rw [if_neg hb] at ht
  split at ht
  · exact (Option.some.inj ht).symm
  · cases ht

/-! ## The change each command makes -/

/-- The changes that a command of a port, or of no port, can make to the state before the response is held, each with what the command's checks
have made sure of. -/
inductive Change (s : State) : Option Port → State → Prop
  | keep (q : Option Port) : Change s q s
  | reset : Change s none (hardwareReset s)
  | link (p : Port) (l : Link) : Change s (some p) (s.setLink p l)
  | collect (p : Port) : Change s (some p) (s.setNotices p ((s.notices.get p).dropOldest collectMax))
  | subscribe (p : Port) (v : Bool) : Change s (some p) { s with subscribed := s.subscribed.set p v }
  | detach (p : Port) : Change s (some p) (detachPort s p)
  | create (p : Port) (c : CreateParams) (i : Slot) (ps : List Byte) (hc : readCreate ps = some c)
      (htier : p = .B → c.tier = .normal) (hi : lowestFreeSlot s = some i)
      (hq : s.charge.get p + c.needed ≤ s.quota.get p) (hf : c.needed ≤ s.freeSet.length) :
      Change s (some p) (createWindow s p c i)
  | retire (p : Port) (i : Slot) (ho : (s.win i).owner = some p ∨ p = .A) (hl : live (s.win i)) :
      Change s (some p) (settleEngine (retireWindow s i (.request p)))
  | query (p : Port) (n : Nat) : Change s (some p) { s with draws := n }
  | stage (p : Port) (i : Slot) (ps : List Byte) (ho : (s.win i).owner = some p) (hl : live (s.win i))
      (ha : armed s i = false) (hb : (checkStage i (s.win i) ps).anyBad = false)
      (hf : stageFormatBad (stageMask ps) (s.win i).format = false)
      (hd : (checkStage i (s.win i) ps).swap = true → (s.win i).double = true) :
      Change s (some p) (s.setWin i { s.win i with staging := (checkStage i (s.win i) ps).mergeInto (s.win i).staging })
  | discard (p : Port) (i : Slot) (ho : (s.win i).owner = some p) (hl : live (s.win i)) (ha : armed s i = false) :
      Change s (some p) (emptyStaging s i)
  | arm (p : Port) (slots : List Slot) (tag : Nat) (hw : ∀ i ∈ slots, (s.win i).owner = some p ∧ live (s.win i))
      (ha : ∀ i ∈ slots, armed s i = false ∧ (s.win i).staging ≠ Staging.empty) (hn : slots.Nodup)
      (ht : armTag s slots = some tag) : Change s (some p) (armWindows s slots tag)
  | disarm (p : Port) (i : Slot) (ho : (s.win i).owner = some p) (hl : live (s.win i)) : Change s (some p) (removeUnit s i)
  | renew (p : Port) (i : Slot) (ho : (s.win i).owner = some p) (hl : permitShown (s.win i).state = true) :
      Change s (some p) (s.setWin i { s.win i with renewPending := true })
  | stream (p : Port) (v : Option Stream) : Change s (some p) (s.setStream p v)
  | put (p : Port) (dest : WinRef) (id : SurfaceId) (body : OpBody) (v : Option Stream) :
      Change s (some p) ((acceptOp s p dest id body).setStream p v)
  | draw (p : Port) (dest : WinRef) (id : SurfaceId) (body : OpBody) : Change s (some p) (acceptOp s p dest id body)
  | cancel (p : Port) (hit : EngineOp → Bool) : Change s (some p) (settleEngine (cancelOps s hit))
  | offer (p : Port) (i : Slot) (ho : (s.win i).owner = some p) (hl : live (s.win i)) (ht : (s.win i).tier ≠ .overlay)
      (hn : (s.win i).offer = none) :
      Change s (some p) (raise (s.setWin i { s.win i with offer := some ⟨p.other, offerFrames⟩ }) p.other .offerReceived
        (s.refOf i) (detail (s.win i).blocks.length))
  | accept (p : Port) (i : Slot) (hl : live (s.win i)) (ho : offersTo (s.win i) p = true)
      (hq : s.charge.get p + (s.win i).blocks.length ≤ s.quota.get p) : Change s (some p) (transferWindow s i p)
  | decline (p : Port) (i : Slot) (hl : live (s.win i)) (ho : offersTo (s.win i) p = true) :
      Change s (some p) (declineOffer declinedByDecline s i)
  | withdraw (p : Port) (i : Slot) (v : Offer) (ho : (s.win i).owner = some p) (hl : live (s.win i))
      (hv : (s.win i).offer = some v) :
      Change s (some p) (raise (s.setWin i { s.win i with offer := none }) v.target .offerWithdrawn (s.refOf i)
        withdrawnByWithdraw)
  | timing (t : Timing) : Change s (some .A) { s with timing := t }
  | quota (a b : Nat) (h : a + b ≤ 192) : Change s (some .A) { s with quota := ⟨a, b⟩ }
  | grace (n : Nat) (h : n ≤ 250) : Change s (some .A) { s with grace := n }
  | restart : Change s (some .A) (restartDevice s)
  | complete (op : EngineOp) (h : inFlight s = some op) (hf : opFits s op = true) : Change s none (completeOp s op)
  | scrub (b : Block) (rest : List Block) (ha : s.activity = .scrubbing) (h : s.scrubList = b :: rest) :
      Change s none (completeScrub s b)
  | boundary (order : BoundaryOrder) : Change s none (frameBoundary order s)
  | expire (i : Slot) (h : expiryDue s i = true) :
      Change s none (expireUnit (low16 s.timing.frameCounter) s (unitOf s i))
  | lapse (i : Slot) (h : visitDue s i .lapses = true) : Change s none (lapseWindow s i)
  | evict (i : Slot) (h : visitDue s i .evicted = true) : Change s none (settleEngine (evictWindow s i))
  | offerExpiry (i : Slot) (h : offerDue s i = true) : Change s none (expireOffer s i)

/-! Each request's own evaluation, where it answers. -/

section
variable {s t : State} {p : Port} {ps payload : List Byte} {st : Status}

theorem takeSubscribe_change (h : takeSubscribe s p ps = .answer t st payload) : Change s (some p) t := by
  unfold takeSubscribe at h
  split at h <;> cases h
  exact .subscribe ..

theorem takeCreate_change (hp : p = .A ∨ portAOnly codeCreate ps = false) (h : takeCreate s p ps = .answer t st payload) :
    Change s (some p) t := by
  unfold takeCreate at h
  split at h
  · cases h
  · next c hc =>
    split at h
    · cases h
    · next i hi =>
      split at h
      · cases h
      · next hq =>
        split at h
        · cases h
        · next hf =>
          cases h
          refine .create p c i ps hc ?_ hi (Nat.le_of_not_lt hq) (Nat.le_of_not_lt hf)
          rintro rfl
          exact tier_of_portAOnly (hp.resolve_left nofun) (readCreate_eq_some hc).2.2.2.2.2

theorem takeRetire_change (h : takeRetire s p ps = .answer t st payload) : Change s (some p) t := by
  obtain ⟨i, ho, hl, h⟩ := withWindow_eq_answer h
  cases h
  exact .retire p i (by simpa using ho) hl

theorem takeQuery_change (h : takeQuery s p ps = .answer t st payload) : Change s (some p) t := by
  obtain ⟨i, -, -, h⟩ := withWindow_eq_answer h
  cases h
  exact .query ..

theorem takeStage_change (h : takeStage s p ps = .answer t st payload) : Change s (some p) t := by
  obtain ⟨i, ho, hl, h⟩ := withWindow_eq_answer h
  dsimp only at h
  split at h
  · cases h
  · next ha =>
    split at h
    · cases h
    · next hb =>
      split at h
      · cases h
      · next hf =>
        split at h
        · cases h
        · next hd =>
          cases h
          simp only [Bool.or_eq_true, not_or, Bool.not_eq_true, Bool.and_eq_true, Bool.not_eq_true', not_and,
            Bool.not_eq_false] at ha hb hf hd
          exact .stage p i ps (by simpa using ho) hl ha hb.2 hf hd

theorem takeDiscard_change (h : takeDiscard s p ps = .answer t st payload) : Change s (some p) t := by
  obtain ⟨i, ho, hl, h⟩ := withWindow_eq_answer h
  split at h
  · cases h
  · next ha =>
    cases h
    exact .discard p i (by simpa using ho) hl (by simpa using ha)

theorem takeArm_change (h : takeArm s p ps = .answer t st payload) : Change s (some p) t := by
  unfold takeArm at h
  split at h
  · cases h
  · next slots hs =>
    split at h
    · cases h
    · next hn =>
      split at h
      · cases h
      · next hr =>
        split at h
        · cases h
        · next tag ht =>
          cases h
          exact .arm p slots tag (armCheck_eq_ok hs) (armRefusal_eq_none hr) (not_not.1 hn) ht

theorem takeDisarm_change (h : takeDisarm s p ps = .answer t st payload) : Change s (some p) t := by
  obtain ⟨i, ho, hl, h⟩ := withWindow_eq_answer h
  split at h
  · cases h
  · cases h
    exact .disarm p i (by simpa using ho) hl

theorem takeRenew_change (h : takeRenew s p ps = .answer t st payload) : Change s (some p) t := by
  obtain ⟨i, ho, hl, h⟩ := withWindow_eq_answer h
  cases h
  split
  · exact .keep _
  · exact .renew p i (by simpa using ho) hl

theorem takeOpenStream_change (h : takeOpenStream s p ps = .answer t st payload) : Change s (some p) t := by
  obtain ⟨i, -, -, h⟩ := withWindow_eq_answer h
  dsimp only at h
  split at h
  · cases h
  · split at h
    · cases h
    · split at h
      · cases h
      · split at h <;> cases h
        exact .stream ..

theorem takePut_change (h : takePut s p ps = .answer t st payload) : Change s (some p) t := by
  unfold takePut at h
  split at h
  · cases h
  · dsimp only at h
    split at h
    · cases h
    · split at h <;> cases h
      exact .put ..

theorem takeCloseStream_change (h : takeCloseStream s p ps = .answer t st payload) : Change s (some p) t := by
  unfold takeCloseStream at h
  split at h <;> cases h
  exact .stream ..

theorem takeFill_change (h : takeFill s p ps = .answer t st payload) : Change s (some p) t := by
  obtain ⟨i, -, -, h⟩ := withWindow_eq_answer h
  dsimp only at h
  split at h
  · cases h
  · split at h
    · cases h
    · split at h
      · cases h
      · split at h
        · cases h
        · split at h <;> cases h
          exact .draw ..

theorem takeCopy_change (h : takeCopy s p ps = .answer t st payload) : Change s (some p) t := by
  obtain ⟨i, -, -, h⟩ := withWindow_eq_answer h
  obtain ⟨j, -, -, h⟩ := withWindow_eq_answer h
  dsimp only at h
  split at h
  · split at h
    · split at h
      · cases h
      · split at h
        · cases h
        · split at h <;> cases h
          exact .draw ..
    · cases h
  · cases h

theorem takeCancelOp_change (h : takeCancelOp s p ps = .answer t st payload) : Change s (some p) t := by
  unfold takeCancelOp at h
  dsimp only at h
  split at h <;> cases h
  exact .cancel ..

theorem takeOffer_change (h : takeOffer s p ps = .answer t st payload) : Change s (some p) t := by
  obtain ⟨i, ho, hl, h⟩ := withWindow_eq_answer h
  dsimp only at h
  split at h
  · cases h
  · next ht =>
    split at h
    · cases h
    · next hn =>
      cases h
      exact .offer p i (by simpa using ho) hl ht (by simpa using hn)

theorem takeAccept_change (h : takeAccept s p ps = .answer t st payload) : Change s (some p) t := by
  obtain ⟨i, -, hl, h⟩ := withWindow_eq_answer h
  dsimp only at h
  split at h
  · cases h
  · next ho =>
    split at h
    · cases h
    · next hq =>
      cases h
      exact .accept p i hl (by simpa using ho) (Nat.le_of_not_lt hq)

theorem takeDecline_change (h : takeDecline s p ps = .answer t st payload) : Change s (some p) t := by
  obtain ⟨i, -, hl, h⟩ := withWindow_eq_answer h
  split at h
  · cases h
  · next ho =>
    cases h
    exact .decline p i hl (by simpa using ho)

theorem takeWithdraw_change (h : takeWithdraw s p ps = .answer t st payload) : Change s (some p) t := by
  obtain ⟨i, ho, hl, h⟩ := withWindow_eq_answer h
  dsimp only at h
  split at h
  · cases h
  · next v hv =>
    cases h
    exact .withdraw p i v (by simpa using ho) hl hv

theorem takeSetProfile_change (h : takeSetProfile s ps = .answer t st payload) : Change s (some .A) t := by
  unfold takeSetProfile at h
  split at h
  · cases h
  · split at h
    · cases h
    · split at h <;> cases h
      exact .timing _

theorem takeSwitchProfile_change (h : takeSwitchProfile s ps = .answer t st payload) : Change s (some .A) t := by
  unfold takeSwitchProfile at h
  split at h
  · cases h
  · split at h
    · cases h
    · split at h <;> cases h
      · exact .keep _
      · exact .timing _

theorem takeDisplay_change (h : takeDisplay s ps = .answer t st payload) : Change s (some .A) t := by
  unfold takeDisplay at h
  split at h <;> cases h
  exact .timing _

theorem takeSetQuota_change (h : takeSetQuota s ps = .answer t st payload) : Change s (some .A) t := by
  unfold takeSetQuota at h
  dsimp only at h
  split at h <;> cases h
  exact .quota _ _ (by omega)

theorem takeSetGrace_change (h : takeSetGrace s ps = .answer t st payload) : Change s (some .A) t := by
  unfold takeSetGrace at h
  split at h <;> cases h
  exact .grace _ (by omega)

end

/-- A completion makes the change of the request's own evaluation, or none, and may hold a response. -/
theorem complete_change {s t : State} {p : Port} {code : Byte} {taken : List Byte → Verdict}
    (h : complete s p code taken = t)
    (ht : ∀ (ps : List Byte) (u : State) (st : Status) (payload : List Byte),
      (p = .A ∨ portAOnly code ps = false) → taken ps = .answer u st payload → Change s (some p) u) :
    ∃ u, Change s (some p) u ∧ (t = u ∨ ∃ q a, t = u.hold q a) := by
  subst h
  obtain e | ⟨a, e⟩ | ⟨ps, u, st, payload, a, -, hp, hu, e⟩ := complete_cases s p code taken
  · exact ⟨s, .keep _, .inl e⟩
  · exact ⟨s, .keep _, .inr ⟨p, a, e⟩⟩
  · exact ⟨u, ht ps u st payload hp hu, .inr ⟨p, a, e⟩⟩

/-- The same for a device request, which only Port A's authority brings to its own evaluation (R142). -/
theorem complete_device_change {s t : State} {p : Port} {code : Byte} {taken : List Byte → Verdict}
    (h : complete s p code taken = t) (hc : ∀ ps, portAOnly code ps = true)
    (ht : ∀ (ps : List Byte) (u : State) (st : Status) (payload : List Byte),
      taken ps = .answer u st payload → Change s (some .A) u) :
    ∃ u, Change s (some p) u ∧ (t = u ∨ ∃ q a, t = u.hold q a) := by
  refine complete_change h fun ps u st payload hp hu => ?_
  have : p = .A := hp.resolve_right (by simp [hc ps])
  subst this
  exact ht ps u st payload hu

/-- A verdict that answers the state as it was makes no change. -/
theorem answer_same_change {s u : State} {st st' : Status} {payload payload' : List Byte} {q : Option Port}
    (h : Verdict.answer s st' payload' = .answer u st payload) : Change s q u := by
  cases h
  exact .keep q

/-- Every command makes one of the changes, and may hold a response after it. -/
theorem exec_change {c : Instr} {s t : State} (h : exec c s = .next t) :
    ∃ u, Change s (commandPort c) u ∧ (t = u ∨ ∃ q a, t = u.hold q a) := by
  cases c <;> try replace h := Host.Outcome.next.inj h
  case hardwareReset => exact ⟨t, h ▸ .reset, .inl rfl⟩
  case selectAssert p =>
    refine ⟨t, ?_, .inl rfl⟩
    subst h
    unfold selectAssert
    dsimp only
    split
    · exact .keep _
    · exact .link ..
  case selectRelease p bits => exact ⟨t, h ▸ .link .., .inl rfl⟩
  case nop p => exact complete_change h fun _ _ _ _ _ hu => answer_same_change hu
  case status p => exact complete_change h fun _ _ _ _ _ hu => answer_same_change hu
  case collect p =>
    refine complete_change h fun _ _ _ _ _ hu => ?_
    cases hu
    exact .collect p
  case subscribe p => exact complete_change h fun _ _ _ _ _ => takeSubscribe_change
  case detach p =>
    refine complete_change h fun _ _ _ _ _ hu => ?_
    cases hu
    exact .detach p
  case create p => exact complete_change h fun _ _ _ _ hp => takeCreate_change hp
  case retire p => exact complete_change h fun _ _ _ _ _ => takeRetire_change
  case query p => exact complete_change h fun _ _ _ _ _ => takeQuery_change
  case listOwned p => exact complete_change h fun _ _ _ _ _ hu => answer_same_change hu
  case listStack p => exact complete_change h fun _ _ _ _ _ hu => answer_same_change hu
  case stage p => exact complete_change h fun _ _ _ _ _ => takeStage_change
  case discard p => exact complete_change h fun _ _ _ _ _ => takeDiscard_change
  case arm p => exact complete_change h fun _ _ _ _ _ => takeArm_change
  case disarm p => exact complete_change h fun _ _ _ _ _ => takeDisarm_change
  case renew p => exact complete_change h fun _ _ _ _ _ => takeRenew_change
  case openStream p => exact complete_change h fun _ _ _ _ _ => takeOpenStream_change
  case put p => exact complete_change h fun _ _ _ _ _ => takePut_change
  case closeStream p => exact complete_change h fun _ _ _ _ _ => takeCloseStream_change
  case fill p => exact complete_change h fun _ _ _ _ _ => takeFill_change
  case copy p => exact complete_change h fun _ _ _ _ _ => takeCopy_change
  case cancelOp p => exact complete_change h fun _ _ _ _ _ => takeCancelOp_change
  case offer p => exact complete_change h fun _ _ _ _ _ => takeOffer_change
  case accept p => exact complete_change h fun _ _ _ _ _ => takeAccept_change
  case decline p => exact complete_change h fun _ _ _ _ _ => takeDecline_change
  case withdraw p => exact complete_change h fun _ _ _ _ _ => takeWithdraw_change
  case setProfile p => exact complete_device_change h (fun _ => rfl) fun _ _ _ _ => takeSetProfile_change
  case switchProfile p => exact complete_device_change h (fun _ => rfl) fun _ _ _ _ => takeSwitchProfile_change
  case display p => exact complete_device_change h (fun _ => rfl) fun _ _ _ _ => takeDisplay_change
  case setBackground p =>
    refine complete_device_change h (fun _ => rfl) fun _ _ _ _ hu => ?_
    cases hu
    exact .timing _
  case setQuota p => exact complete_device_change h (fun _ => rfl) fun _ _ _ _ => takeSetQuota_change
  case setGrace p => exact complete_device_change h (fun _ => rfl) fun _ _ _ _ => takeSetGrace_change
  case restart p =>
    refine complete_device_change h (fun _ => rfl) fun _ _ _ _ hu => ?_
    cases hu
    exact .restart
  case undefinedRequest p =>
    refine ⟨s, .keep _, ?_⟩
    subst h
    split
    · split
      · exact .inl rfl
      · next r _ hc =>
        refine .inr ⟨p, ⟨.badRequest, r.tag, []⟩, ?_⟩
        unfold evaluate
        rw [if_pos hc]
        rfl
    · exact .inl rfl
  case operationCompletion =>
    simp only [exec, execOperationCompletion] at h
    split at h
    · next op ho =>
      split at h
      · next hf => exact ⟨t, Host.Outcome.next.inj h ▸ .complete op ho hf, .inl rfl⟩
      · cases h
    · exact ⟨t, Host.Outcome.next.inj h ▸ .keep _, .inl rfl⟩
  case scrubCompletion =>
    simp only [exec, execScrubCompletion] at h
    split at h
    · next b rest ha hs => exact ⟨t, Host.Outcome.next.inj h ▸ .scrub b rest ha hs, .inl rfl⟩
    · exact ⟨t, Host.Outcome.next.inj h ▸ .keep _, .inl rfl⟩
  case frameBoundary order => exact ⟨t, h ▸ .boundary order, .inl rfl⟩
  case commitExpiry n =>
    refine ⟨t, ?_, .inl rfl⟩
    subst h
    split
    · split
      · next i _ hd => exact .expire i hd
      · exact .keep _
    · exact .keep _
  case lapse n =>
    refine ⟨t, ?_, .inl rfl⟩
    subst h
    split
    · split
      · next i _ hd => exact .lapse i hd
      · exact .keep _
    · exact .keep _
  case eviction n =>
    refine ⟨t, ?_, .inl rfl⟩
    subst h
    split
    · split
      · next i _ hd => exact .evict i hd
      · exact .keep _
    · exact .keep _
  case offerExpiry n =>
    refine ⟨t, ?_, .inl rfl⟩
    subst h
    split
    · split
      · next i _ hd => exact .offerExpiry i hd
      · exact .keep _
    · exact .keep _

/-- A property that every change keeps, whatever response is held and whatever commands wait, is kept by every step. -/
theorem step_keeps {I : State → Prop} (hold : ∀ (u : State) q a, I u → I (u.hold q a))
    (pending : ∀ (u : State) (l : List Instr), I u → I { u with pending := l })
    (change : ∀ v q u, I v → Change v q u → I u) {s t : State} (hs : I s) (h : step s = .next t) : I t := by
  unfold step at h
  split at h
  · cases h; exact hs
  · next c rest _ =>
    obtain ⟨u, hc, rfl | ⟨q, a, rfl⟩⟩ := exec_change h
    · exact change _ _ _ (pending s rest hs) hc
    · exact hold _ _ _ (change _ _ _ (pending s rest hs) hc)

end Sys2Proof.Machine
end

