-- ==== Sys2Proof/Proofs/Retirement.lean ====
section
/-! What a retirement makes of each field of the state: the record, the queues, the streams, the engine and the notices, each said once
(R16, R17, R61). -/

namespace Sys2Proof.Machine

open Sys2Proof.Safety

/-! ## Records by slot -/

/-- A state whose records are those of another with one replaced. -/
theorem State.win_of_set {s t : State} {i : Slot} {w : Window} (h : t.windows = s.windows.set i w) (j : Slot) :
    t.win j = if j = i then w else s.win j :=
  (State.win_congr (s := s.setWin i w) h j).trans (State.win_setWin s i j w)

@[simp] theorem State.setWin_self (s : State) (i : Slot) : s.setWin i (s.win i) = s := by
  simp [State.setWin, State.win]

/-- What two states with the same steady part share. -/
theorem State.fields_of_steady {s t : State} (h : t.steady = s.steady) :
    t.freeSet = s.freeSet ∧ t.quota = s.quota ∧ t.opCounter = s.opCounter ∧ t.view = s.view ∧ t.grace = s.grace ∧
      t.timing = s.timing ∧ t.subscribed = s.subscribed ∧ t.links = s.links ∧ t.pending = s.pending := by
  simpa only [State.steady, Steady.mk.injEq] using h

/-! ## Raisings as sequences -/

/-- The raising to a window's owner, where it has one. -/
def ownerRaising (o : Option Port) (k : NoticeKind) (r : WinRef) (d : BitVec 16) : List Raising :=
  (o.map (fun p => Raising.mk p k r d)).toList

/-- The raisings to a window's owner and to Port A, once where the owner is Port A. -/
def ownerAndARaisings (o : Option Port) (k : NoticeKind) (r : WinRef) (d : BitVec 16) : List Raising :=
  ownerRaising o k r d ++ if o = some .A then [] else [⟨.A, k, r, d⟩]

theorem raiseOwner_eq_raised (s : State) (o : Option Port) (k : NoticeKind) (r : WinRef) (d : BitVec 16) :
    raiseOwner s o k r d = raised s (ownerRaising o k r d) := by
  cases o <;> rfl

theorem raiseOwnerAndA_eq_raised (s : State) (o : Option Port) (k : NoticeKind) (r : WinRef) (d : BitVec 16) :
    raiseOwnerAndA s o k r d = raised s (ownerAndARaisings o k r d) := by
  unfold raiseOwnerAndA ownerAndARaisings
  dsimp only
  rw [raiseOwner_eq_raised]
  split
  · rw [List.append_nil]
  · rw [raise_eq_raised, raised_raised]

/-- A fold of sequences of raisings is their sequence. -/
theorem foldl_raised {α : Type} (f : α → List Raising) (l : List α) (s : State) :
    l.foldl (fun t x => raised t (f x)) s = raised s (l.flatMap f) := by
  induction l generalizing s with
  | nil => rfl
  | cons x rest ih => rw [List.foldl_cons, ih, raised_raised, List.flatMap_cons]

theorem raised_notices (s : State) (l : List Raising) : (raised s l).notices = raiseAll s.notices l := rfl

/-! ## The engine put down -/

/-- The engine with the operation in flight abandoned where it meets a condition (R60, R61). -/
def stopped (s : State) (hit : EngineOp → Bool) : State :=
  match inFlight s with
  | some op => if hit op then { abandon s op with activity := .idle } else s
  | none => s

/-- The operation in flight is abandoned, or it does not meet the condition and nothing happens. -/
theorem stopped_cases (s : State) (hit : EngineOp → Bool) :
    (∃ op, inFlight s = some op ∧ hit op = true ∧
      stopped s hit = { s with
        store := storeAfter s op (abandonedWrites s.draws op (opWrites s op)), draws := s.draws + 1, activity := .idle }) ∨
    ((∀ op, inFlight s = some op → hit op = false) ∧ stopped s hit = s) := by
  unfold stopped
  cases h : inFlight s with
  | none => exact .inr ⟨nofun, rfl⟩
  | some op =>
    dsimp only
    split
    · next hh => exact .inl ⟨op, rfl, hh, rfl⟩
    · next hh => exact .inr ⟨fun _ e => Option.some.inj e ▸ by simpa using hh, rfl⟩

/-- The notice of a cancelled operation (R61). -/
def cancelRaising (op : EngineOp) : Raising := ⟨op.issuer, .opCancelled, op.dest, detail op.opNumber.toNat⟩

theorem cancelOps_eq (s : State) (hit : EngineOp → Bool) :
    cancelOps s hit =
      raised { stopped s hit with opQueue := s.opQueue.filter (fun o => !hit o) }
        ((s.opQueue.filter hit).map cancelRaising) := by
  unfold cancelOps stopped
  exact foldl_raise cancelRaising ..

/-- What the layout of a surface depends on: the format, the size and the block lists of its window (R3, R24). -/
def Window.layout (w : Window) : Format × Nat × Nat × List Block × Option (List Block) :=
  (w.format, w.width, w.height, w.surface0, w.surface1)

theorem Window.layout_eq {v w : Window} (h : v.layout = w.layout) :
    v.format = w.format ∧ v.width = w.width ∧ v.height = w.height ∧ v.surface0 = w.surface0 ∧ v.surface1 = w.surface1 := by
  simpa [Window.layout] using h

theorem Window.stride_of_layout {v w : Window} (h : v.layout = w.layout) : v.stride = w.stride := by
  obtain ⟨hf, hw, -, -, -⟩ := Window.layout_eq h
  simp [Window.stride, hf, hw]

theorem Window.surface_of_layout {v w : Window} (h : v.layout = w.layout) (id : SurfaceId) : v.surface id = w.surface id := by
  obtain ⟨-, -, -, h0, h1⟩ := Window.layout_eq h
  simp [Window.surface, h0, h1]

/-- What an operation writes depends on the frame store and the layouts alone. -/
theorem opWrites_congr {s t : State} (hs : t.store = s.store) (hw : ∀ i, (t.win i).layout = (s.win i).layout) (op : EngineOp) :
    opWrites t op = opWrites s op := by
  unfold opWrites
  split
  · rfl
  · rfl
  · next src srcId rect dx dy _ =>
    have h := hw src.slot
    simp only [copyWrites, hs, (Window.layout_eq h).1, Window.stride_of_layout h, Window.surface_of_layout h]

theorem storeAfter_congr {s t : State} (hs : t.store = s.store) (op : EngineOp)
    (hw : (t.win op.dest.slot).layout = (s.win op.dest.slot).layout) (ws : List PixelWrite) :
    storeAfter t op ws = storeAfter s op ws := by
  simp only [storeAfter, writeAll, hs, Window.stride_of_layout hw, Window.surface_of_layout hw]

theorem inFlight_congr {s t : State} (ha : t.activity = s.activity) (hq : t.opQueue = s.opQueue) :
    inFlight t = inFlight s := by
  unfold inFlight
  rw [ha, hq]

/-- The engine is put down alike in two states that agree on the engine, the store and the layouts. -/
theorem stopped_congr {s t : State} (hit : EngineOp → Bool) (hs : t.store = s.store) (hd : t.draws = s.draws)
    (ha : t.activity = s.activity) (hq : t.opQueue = s.opQueue) (hw : ∀ i, (t.win i).layout = (s.win i).layout) :
    (stopped t hit).store = (stopped s hit).store ∧ (stopped t hit).draws = (stopped s hit).draws ∧
      (stopped t hit).activity = (stopped s hit).activity := by
  unfold stopped
  rw [inFlight_congr ha hq]
  cases inFlight s with
  | none => exact ⟨hs, hd, ha⟩
  | some op =>
    dsimp only
    split
    · simp only [abandon, opWrites_congr hs hw, storeAfter_congr hs op (hw _), hd, and_self]
    · exact ⟨hs, hd, ha⟩

/-! ## The raisings of a retirement -/

/-- The retirement's own notice (R15, R19, R137). -/
def retireOwnRaisings (s : State) (i : Slot) : RetireCause → List Raising
  | .request p =>
    if (s.win i).owner = some p then []
    else ownerRaising (s.win i).owner .windowRetired (s.refOf i) (detail (retiredState (s.win i).state).code.toNat)
  | .detach => []
  | .eviction => ownerAndARaisings (s.win i).owner .windowEvicted (s.refOf i) (low16 s.timing.frameCounter)

/-- COMMIT_ABANDONED to an owner for each other member of the window's group (R101). -/
def abandonRaisings (s : State) (i : Slot) (o : Option Port) : List Raising :=
  (otherMembers s i).flatMap (fun r => ownerRaising o .commitAbandoned r (detail i.handle))

/-- STREAM_CLOSED to the owner, unless the retirement is the owner's own act (R16, R54). -/
def retireStreamRaisings (s : State) (i : Slot) (c : RetireCause) : List Raising :=
  if (streamInto s .A (s.refOf i) || streamInto s .B (s.refOf i)) && !c.ownAct (s.win i).owner then
    ownerRaising (s.win i).owner .streamClosed (s.refOf i) c.streamCause
  else []

/-- OFFER_WITHDRAWN to the target of the window's offer (R16). -/
def retireOfferRaisings (s : State) (i : Slot) : List Raising :=
  match (s.win i).offer with
  | some o => [⟨o.target, .offerWithdrawn, s.refOf i, withdrawnByRetirement⟩]
  | none => []

/-- All the notices of a retirement, in the order of R16. -/
def retireRaisings (s : State) (i : Slot) (c : RetireCause) : List Raising :=
  retireOwnRaisings s i c ++ abandonRaisings s i (s.win i).owner
    ++ (s.opQueue.filter (opNames (s.refOf i))).map cancelRaising ++ retireStreamRaisings s i c ++ retireOfferRaisings s i

theorem raiseRetired_eq (s : State) (i : Slot) (c : RetireCause) : raiseRetired s i c = raised s (retireOwnRaisings s i c) := by
  cases c with
  | request p =>
    simp only [raiseRetired, retireOwnRaisings]
    split
    · rfl
    · exact raiseOwner_eq_raised ..
  | detach => rfl
  | eviction => exact raiseOwnerAndA_eq_raised ..

theorem abandonUnit_eq (s : State) (i : Slot) (o : Option Port) :
    abandonUnit s i o = raised (removeUnit s i) (abandonRaisings s i o) := by
  unfold abandonUnit abandonRaisings
  simp only [raiseOwner_eq_raised]
  exact foldl_raised ..

/-- The first changes of a retirement: the unit leaves the queue and the staging is emptied (R16). -/
theorem retireCommit_eq (s : State) (i : Slot) (c : RetireCause) :
    retireCommit s i c =
      raised { s with
          commitQueue := (removeUnit s i).commitQueue
          windows := s.windows.set i { s.win i with staging := Staging.empty } }
        (retireOwnRaisings s i c ++ abandonRaisings s i (s.win i).owner) := by
  have hq : (removeUnit (raised s (retireOwnRaisings s i c)) i).commitQueue = (removeUnit s i).commitQueue :=
    removeUnit_commitQueue_congr (s := raised s _) (t := s) rfl i
  unfold retireCommit emptyStaging
  rw [raiseRetired_eq, abandonUnit_eq, removeUnit_frame, hq]
  simp only [raised, abandonRaisings, State.setWin, raiseAll_append]
  rfl

theorem closeStreamInto_eq (s : State) (p : Port) (r : WinRef) :
    closeStreamInto s p r = s.setStream p (if streamInto s p r then none else s.streams.get p) := by
  unfold closeStreamInto
  split
  · rfl
  · simp [State.setStream]

theorem retireStreams_eq (s : State) (i : Slot) (c : RetireCause) :
    retireStreams s i c =
      raised (closeStreamInto (closeStreamInto s .A (s.refOf i)) .B (s.refOf i)) (retireStreamRaisings s i c) := by
  unfold retireStreams retireStreamRaisings
  dsimp only
  split
  · exact raiseOwner_eq_raised ..
  · rfl

theorem retireOffer_eq (s : State) (i : Slot) :
    retireOffer s i = raised (s.setWin i { s.win i with offer := none }) (retireOfferRaisings s i) := by
  unfold retireOffer retireOfferRaisings
  cases h : (s.win i).offer with
  | some o =>
    dsimp only
    rw [h]
    rfl
  | none =>
    have hw : ({ s.win i with offer := none } : Window) = s.win i := by rw [← h]
    dsimp only
    rw [hw, State.setWin_self, h]
    rfl

theorem streamInto_congr {s t : State} {p : Port} (h : t.streams.get p = s.streams.get p) (r : WinRef) :
    streamInto t p r = streamInto s p r := by
  unfold streamInto
  rw [h]

/-! ## Each field after a retirement -/

theorem retireCommit_windows (s : State) (i : Slot) (c : RetireCause) :
    (retireCommit s i c).windows = s.windows.set i { s.win i with staging := Staging.empty } := by
  rw [retireCommit_eq]
  rfl

theorem retireCommit_layout (s : State) (i : Slot) (c : RetireCause) (j : Slot) :
    ((retireCommit s i c).win j).layout = (s.win j).layout := by
  rw [State.win_of_set (retireCommit_windows s i c)]
  split
  · next h => subst h; rfl
  · rfl

theorem retireEngine_windows (s : State) (i : Slot) (c : RetireCause) :
    (retireEngine s i c).windows = s.windows.set i { s.win i with staging := Staging.empty } := by
  unfold retireEngine
  rw [cancelOps_frame]
  exact retireCommit_windows s i c

theorem retireHolds_windows (s : State) (i : Slot) (c : RetireCause) :
    (retireHolds s i c).windows = s.windows.set i { s.win i with staging := Staging.empty, offer := none } := by
  unfold retireHolds
  have h := retireEngine_windows s i c
  have hw : (retireEngine s i c).win i = { s.win i with staging := Staging.empty } := by simp [State.win_of_set h]
  rw [retireOffer_frame, retireStreams_frame]
  show (retireEngine s i c).windows.set i { (retireEngine s i c).win i with offer := none } = _
  rw [hw, h, Vector.set_set]

theorem retireHolds_win_self (s : State) (i : Slot) (c : RetireCause) :
    (retireHolds s i c).win i = { s.win i with staging := Staging.empty, offer := none } := by
  simp [State.win_of_set (retireHolds_windows s i c)]

theorem retireHolds_pool (s : State) (i : Slot) (c : RetireCause) :
    (retireHolds s i c).scrubList = s.scrubList ∧ (retireHolds s i c).charge = s.charge := by
  unfold retireHolds retireEngine
  rw [retireOffer_frame, retireStreams_frame, cancelOps_frame, retireCommit_eq]
  exact ⟨rfl, rfl⟩

/-- A retirement touches one record, and makes it what R9, R16 and R17 say. -/
theorem retireWindow_windows (s : State) (i : Slot) (c : RetireCause) :
    (retireWindow s i c).windows = s.windows.set i (retiredWindow (s.win i)) := by
  unfold retireWindow retireState retiredWindow
  rw [retireHolds_win_self]
  dsimp only
  split
  · rw [releaseWindow_frame, retireHolds_win_self, retireHolds_windows]
    exact Vector.set_set ..
  · rw [State.setWin_windows, retireHolds_windows]
    exact Vector.set_set ..

theorem retireWindow_win (s : State) (i : Slot) (c : RetireCause) (j : Slot) :
    (retireWindow s i c).win j = if j = i then retiredWindow (s.win i) else s.win j :=
  State.win_of_set (retireWindow_windows s i c) j

theorem retireWindow_win_of_ne (s : State) {i j : Slot} (c : RetireCause) (h : j ≠ i) :
    (retireWindow s i c).win j = s.win j := by
  rw [retireWindow_win, if_neg h]

theorem releaseWindow_charge (s : State) (i : Slot) :
    (releaseWindow s i).charge =
      match (s.win i).owner with
      | some p => s.charge.set p (s.charge.get p - (s.win i).blocks.length)
      | none => s.charge := by
  unfold releaseWindow
  dsimp only
  cases (s.win i).owner <;> rfl

/-- The blocks of a HIDDEN window join the scrub list as it is retired; any other keeps its blocks (R17, R32). -/
theorem retireWindow_scrubList (s : State) (i : Slot) (c : RetireCause) :
    (retireWindow s i c).scrubList =
      if (s.win i).state = .hidden then s.scrubList ++ (s.win i).blocks else s.scrubList := by
  unfold retireWindow retireState
  rw [retireHolds_win_self]
  dsimp only
  split
  · rw [releaseWindow_frame, retireHolds_win_self]
    show (retireHolds s i c).scrubList ++ _ = _
    rw [(retireHolds_pool s i c).1]
    rfl
  · exact (retireHolds_pool s i c).1

theorem retireWindow_charge (s : State) (i : Slot) (c : RetireCause) :
    (retireWindow s i c).charge =
      if (s.win i).state = .hidden then
        match (s.win i).owner with
        | some p => s.charge.set p (s.charge.get p - (s.win i).blocks.length)
        | none => s.charge
      else s.charge := by
  unfold retireWindow retireState
  rw [retireHolds_win_self]
  dsimp only
  split
  · rw [releaseWindow_charge, retireHolds_win_self, (retireHolds_pool s i c).2]
    rfl
  · exact (retireHolds_pool s i c).2

theorem retireHolds_streams (s : State) (i : Slot) (c : RetireCause) (q : Port) :
    (retireHolds s i c).streams.get q = if streamInto s q (s.refOf i) then none else s.streams.get q := by
  have hr : (retireEngine s i c).refOf i = s.refOf i := by
    simp [State.refOf, State.win_of_set (retireEngine_windows s i c)]
  have hs : (retireEngine s i c).streams = s.streams := by
    unfold retireEngine
    rw [cancelOps_frame, retireCommit_eq]
    rfl
  unfold retireHolds
  rw [retireOffer_frame, retireStreams_eq, closeStreamInto_eq, closeStreamInto_eq, hr]
  simp only [raised, State.setStream_streams, hs]
  cases q
  · show (if streamInto _ .A _ = true then _ else _) = _
    rw [streamInto_congr (congrArg (PerPort.get · .A) hs)]
  · show (if streamInto _ .B _ = true then _ else _) = _
    rw [streamInto_congr (t := State.setStream _ _ _) (s := s) (by simp [hs, PerPort.get, PerPort.set])]
    rfl

theorem retireState_engine (s : State) (i : Slot) :
    (retireState s i).streams = s.streams ∧ (retireState s i).store = s.store ∧ (retireState s i).draws = s.draws ∧
      (retireState s i).activity = s.activity ∧ (retireState s i).notices = s.notices := by
  rw [retireState_frame]
  exact ⟨rfl, rfl, rfl, rfl, rfl⟩

/-- A retirement closes the streams into the window and no other (R16, R54). -/
theorem retireWindow_streams (s : State) (i : Slot) (c : RetireCause) (q : Port) :
    (retireWindow s i c).streams.get q = if streamInto s q (s.refOf i) then none else s.streams.get q := by
  unfold retireWindow
  rw [(retireState_engine _ i).1]
  exact retireHolds_streams s i c q

/-- A retirement puts the engine down where the operation in flight names the window, and not else (R61). -/
theorem retireWindow_engine (s : State) (i : Slot) (c : RetireCause) :
    (retireWindow s i c).store = (stopped s (opNames (s.refOf i))).store ∧
      (retireWindow s i c).draws = (stopped s (opNames (s.refOf i))).draws ∧
      (retireWindow s i c).activity = (stopped s (opNames (s.refOf i))).activity := by
  have h := stopped_congr (s := s) (t := retireCommit s i c) (opNames (s.refOf i))
    (by rw [retireCommit_eq]; rfl) (by rw [retireCommit_eq]; rfl) (by rw [retireCommit_eq]; rfl)
    (by rw [retireCommit_eq]; rfl) (retireCommit_layout s i c)
  unfold retireWindow retireHolds retireEngine
  rw [retireState_frame, retireOffer_frame, retireStreams_frame, cancelOps_eq]
  exact h

theorem retireHolds_notices (s : State) (i : Slot) (c : RetireCause) :
    (retireHolds s i c).notices = raiseAll s.notices (retireRaisings s i c) := by
  have hw : (retireEngine s i c).win i = { s.win i with staging := Staging.empty } := by
    simp [State.win_of_set (retireEngine_windows s i c)]
  have hr : (retireEngine s i c).refOf i = s.refOf i := by simp [State.refOf, hw]
  have hs : ∀ q, (retireEngine s i c).streams.get q = s.streams.get q := by
    intro q
    unfold retireEngine
    rw [cancelOps_frame, retireCommit_eq]
    rfl
  have h1 : (retireEngine s i c).notices =
      raiseAll s.notices (retireOwnRaisings s i c ++ abandonRaisings s i (s.win i).owner
        ++ (s.opQueue.filter (opNames (s.refOf i))).map cancelRaising) := by
    unfold retireEngine
    have hst : ∀ (t : State) (hit : EngineOp → Bool), (stopped t hit).notices = t.notices := fun t hit => by
      obtain ⟨op, -, -, e⟩ | ⟨-, e⟩ := stopped_cases t hit <;> rw [e]
    rw [cancelOps_eq, raised_notices, raiseAll_append]
    show raiseAll (stopped _ _).notices _ = _
    rw [hst, retireCommit_eq]
    rfl
  have h2 : retireStreamRaisings (retireEngine s i c) i c = retireStreamRaisings s i c := by
    simp only [retireStreamRaisings, hr, hw, streamInto_congr (hs _)]
  have h3 : ∀ t : State, t.win i = (retireEngine s i c).win i → retireOfferRaisings t i = retireOfferRaisings s i := by
    intro t ht
    have : t.refOf i = s.refOf i := by rw [State.refOf, ht, hw]; rfl
    simp only [retireOfferRaisings, this, ht, hw]
  have h4 : (retireStreams (retireEngine s i c) i c).notices =
      raiseAll (retireEngine s i c).notices (retireStreamRaisings s i c) := by
    rw [retireStreams_eq, raised_notices, h2, closeStreamInto_eq, closeStreamInto_eq]
    rfl
  unfold retireHolds
  rw [retireOffer_eq, raised_notices, h3 _ (State.win_congr (by rw [retireStreams_frame]) i), State.setWin_notices, h4, h1]
  simp only [retireRaisings, raiseAll_append]

/-- The notices of a retirement (R16). -/
theorem retireWindow_notices (s : State) (i : Slot) (c : RetireCause) :
    (retireWindow s i c).notices = raiseAll s.notices (retireRaisings s i c) := by
  unfold retireWindow
  rw [(retireState_engine _ i).2.2.2.2]
  exact retireHolds_notices s i c

end Sys2Proof.Machine
end

