-- ==== Sys2Proof/Proofs/Pool.lean ====
section
/-! The block pool: what each operation does to the places of the blocks and to the charges, and that every step keeps the pool sound
(R7, R23, R26, R34). -/

namespace Sys2Proof.Machine

open Sys2Proof.Safety

/-! ## Changes that leave the pool alone -/

/-- Two states have the same pool: the blocks in the same places, the windows with the same owners, and no window newly FREE. -/
structure SamePool (s t : State) : Prop where
  freeSet : t.freeSet = s.freeSet
  scrubList : t.scrubList = s.scrubList
  charge : t.charge = s.charge
  owner : ∀ i, (t.win i).owner = (s.win i).owner
  blocks : ∀ i, (t.win i).blocks = (s.win i).blocks
  free : ∀ i, (t.win i).state = .free → (s.win i).state = .free

theorem poolInv_of_same {s t : State} (hs : PoolInv s) (h : SamePool s t) : PoolInv t := by
  obtain ⟨hf, hp, hn, hb, hc⟩ := hs
  refine ⟨h.freeSet ▸ hf, ?_, fun i hi hfree => ?_, fun i hi ho => ?_, ?_⟩
  · simpa only [windowBlocks, h.freeSet, h.scrubList, h.blocks] using hp
  · rw [h.owner]
    exact hn i hi (h.free i hfree)
  · rw [h.blocks]
    exact hb i hi (h.owner i ▸ ho)
  · simpa only [ownedBlockCount, h.charge, h.owner, h.blocks] using hc

/-- The records are the same, and so are the places of the blocks. -/
theorem SamePool.of_windows {s t : State} (hw : t.windows = s.windows) (hf : t.freeSet = s.freeSet)
    (hs : t.scrubList = s.scrubList) (hc : t.charge = s.charge) : SamePool s t :=
  ⟨hf, hs, hc, fun i => by rw [State.win_congr hw], fun i => by rw [State.win_congr hw],
    fun i => by rw [State.win_congr hw]; exact id⟩

/-- One record is replaced by one with the same owner and blocks. -/
theorem SamePool.of_set {s t : State} {i : Slot} {w : Window} (hw : t.windows = s.windows.set i w)
    (hf : t.freeSet = s.freeSet) (hs : t.scrubList = s.scrubList) (hc : t.charge = s.charge)
    (ho : w.owner = (s.win i).owner) (hb : w.blocks = (s.win i).blocks)
    (hfree : w.state = .free → (s.win i).state = .free) : SamePool s t := by
  refine ⟨hf, hs, hc, fun j => ?_, fun j => ?_, fun j => ?_⟩ <;> rw [State.win_of_set hw] <;> split
  · next h => rw [ho, h]
  · rfl
  · next h => rw [hb, h]
  · rfl
  · next h => rw [h]; exact hfree
  · exact id

theorem poolInv_of_windows {s t : State} (h : PoolInv s) (hw : t.windows = s.windows) (hf : t.freeSet = s.freeSet)
    (hs : t.scrubList = s.scrubList) (hc : t.charge = s.charge) : PoolInv t :=
  poolInv_of_same h (.of_windows hw hf hs hc)

theorem poolInv_of_set {s t : State} (h : PoolInv s) {i : Slot} {w : Window} (hw : t.windows = s.windows.set i w)
    (hf : t.freeSet = s.freeSet) (hs : t.scrubList = s.scrubList) (hc : t.charge = s.charge)
    (ho : w.owner = (s.win i).owner) (hb : w.blocks = (s.win i).blocks)
    (hfree : w.state = .free → (s.win i).state = .free) : PoolInv t :=
  poolInv_of_same h (.of_set hw hf hs hc ho hb hfree)

theorem poolInv_settle {s : State} (h : PoolInv s) : PoolInv (settleEngine s) := by
  rw [settleEngine_frame]
  exact poolInv_of_windows h rfl rfl rfl rfl

theorem poolInv_cancel {s : State} (h : PoolInv s) (hit : EngineOp → Bool) : PoolInv (cancelOps s hit) := by
  rw [cancelOps_frame]
  exact poolInv_of_windows h rfl rfl rfl rfl

/-! ## One record replaced -/

/-- The blocks of the windows, those of one slot first. -/
theorem windowBlocks_perm (s : State) (i : Slot) :
    (windowBlocks s).Perm ((s.win i).blocks ++ (allSlots.erase i).flatMap (fun j => (s.win j).blocks)) :=
  (List.perm_cons_erase (mem_allSlots i)).flatMap_right _

theorem ownedBlockCount_eq (s : State) (p : Port) (i : Slot) :
    ownedBlockCount s p = (if (s.win i).owner = some p then (s.win i).blocks.length else 0) +
      ((allSlots.erase i).map (fun j => if (s.win j).owner = some p then (s.win j).blocks.length else 0)).sum :=
  ((List.perm_cons_erase (mem_allSlots i)).map _).sum_eq

/-- The charges of a sound pool, by port. -/
theorem poolInv_charge {s : State} (h : PoolInv s) (q : Port) : s.charge.get q = ownedBlockCount s q := by
  obtain ⟨-, -, -, -, ha, hb⟩ := h
  cases q
  · exact ha
  · exact hb

/-- A pool stays sound when one record is replaced, its blocks go from one place to another, and the charges follow. -/
theorem poolInv_replace {s t : State} {i : Slot} {w : Window} (h : PoolInv s) (hw : t.windows = s.windows.set i w)
    (hf : t.freeSet.Pairwise (· < ·))
    (hp : (t.freeSet ++ t.scrubList ++ w.blocks).Perm (s.freeSet ++ s.scrubList ++ (s.win i).blocks))
    (hfree : w.state = .free → w.owner = none) (hnone : w.owner = none → w.blocks = [])
    (hc : ∀ q, t.charge.get q = s.charge.get q - (if (s.win i).owner = some q then (s.win i).blocks.length else 0) +
      (if w.owner = some q then w.blocks.length else 0)) : PoolInv t := by
  have hrest : ∀ j ∈ allSlots.erase i, t.win j = s.win j := fun j hj => by
    rw [State.win_of_set hw, if_neg ((allSlots_nodup.mem_erase_iff).1 hj).1]
  have hi : t.win i = w := by rw [State.win_of_set hw, if_pos rfl]
  have hcharge : ∀ q, t.charge.get q = ownedBlockCount t q := by
    intro q
    have hs := poolInv_charge h q
    have hsum : ((allSlots.erase i).map (fun j => if (t.win j).owner = some q then (t.win j).blocks.length else 0)) =
        (allSlots.erase i).map (fun j => if (s.win j).owner = some q then (s.win j).blocks.length else 0) :=
      List.map_congr_left fun j hj => by rw [hrest j hj]
    rw [ownedBlockCount_eq s q i] at hs
    rw [ownedBlockCount_eq t q i, hc q, hi, hsum]
    omega
  obtain ⟨-, hperm, hn, hb, -⟩ := h
  refine ⟨hf, ?_, fun j hj => ?_, fun j hj => ?_, hcharge .A, hcharge .B⟩
  · have hfm : (allSlots.erase i).flatMap (fun j => (t.win j).blocks) =
        (allSlots.erase i).flatMap (fun j => (s.win j).blocks) :=
      List.flatMap_congr fun j hj => by rw [hrest j hj]
    calc (t.freeSet ++ t.scrubList ++ windowBlocks t).Perm
          (t.freeSet ++ t.scrubList ++ (w.blocks ++ (allSlots.erase i).flatMap (fun j => (s.win j).blocks))) := by
            refine List.Perm.append_left _ ?_
            rw [← hfm, ← hi]
            exact windowBlocks_perm t i
      _ = t.freeSet ++ t.scrubList ++ w.blocks ++ (allSlots.erase i).flatMap (fun j => (s.win j).blocks) := by
            rw [List.append_assoc _ w.blocks]
      List.Perm _ (s.freeSet ++ s.scrubList ++ (s.win i).blocks ++ (allSlots.erase i).flatMap (fun j => (s.win j).blocks)) :=
            hp.append_right _
      List.Perm _ (s.freeSet ++ s.scrubList ++ windowBlocks s) := by
            rw [List.append_assoc _ (s.win i).blocks]
            exact (windowBlocks_perm s i).symm.append_left _
      List.Perm _ allBlocks := hperm
  · rw [State.win_of_set hw]
    split
    · exact hfree
    · exact hn j hj
  · rw [State.win_of_set hw]
    split
    · exact hnone
    · exact hb j hj

/-! ## The operations that move blocks -/

/-- A window enters FREE: its blocks go to the scrub list and off its owner's charge (R17, R32). -/
theorem poolInv_release {s : State} (h : PoolInv s) (i : Slot) : PoolInv (releaseWindow s i) := by
  refine poolInv_replace (i := i) (w := Window.free ((s.win i).gen + 1)) h ?_ ?_ ?_ (fun _ => rfl) (fun _ => rfl) ?_
  · rw [releaseWindow_frame]
  · rw [releaseWindow_frame]
    exact h.1
  · rw [releaseWindow_frame]
    show (s.freeSet ++ (s.scrubList ++ (s.win i).blocks) ++ []).Perm _
    rw [List.append_nil, List.append_assoc]
  · intro q
    rw [releaseWindow_charge]
    cases ho : (s.win i).owner with
    | none => rfl
    | some p =>
      by_cases hq : q = p
      · subst hq
        simp [Window.free]
      · simp [PerPort.get_set_of_ne _ _ hq, Ne.symm hq, Window.free]

/-- A retired window keeps its blocks, or enters FREE where it was HIDDEN (R17). -/
theorem poolInv_retire {s : State} (h : PoolInv s) (i : Slot) (c : RetireCause) : PoolInv (retireWindow s i c) := by
  have hf : (retireWindow s i c).freeSet = s.freeSet := (State.fields_of_steady (retireWindow_steady s i c)).1
  by_cases hh : (s.win i).state = .hidden
  · refine poolInv_of_windows (poolInv_release h i) ?_ ?_ ?_ ?_
    · rw [releaseWindow_frame, retireWindow_windows, retiredWindow, if_pos hh]
    · rw [releaseWindow_frame, hf]
    · rw [releaseWindow_frame, retireWindow_scrubList, if_pos hh]
    · rw [releaseWindow_charge, retireWindow_charge, if_pos hh]
  · refine poolInv_of_set h (retireWindow_windows s i c) hf ?_ ?_ ?_ ?_ ?_
    · rw [retireWindow_scrubList, if_neg hh]
    · rw [retireWindow_charge, if_neg hh]
    · rw [retiredWindow, if_neg hh]
    · rw [retiredWindow, if_neg hh]
      rfl
    · rw [retiredWindow, if_neg hh]
      nofun

/-- The slot a CREATE takes is FREE (R1). -/
theorem lowestFreeSlot_free {s : State} {i : Slot} (h : lowestFreeSlot s = some i) : (s.win i).state = .free := by
  simpa using List.find?_some h

/-- A new window has all the blocks taken for it (R30). -/
theorem createdWindow_blocks {c : CreateParams} (p : Port) (g : Gen) {l : List Block} (hn : c.surfaces = 1 ∨ c.surfaces = 2)
    (hl : l.length = c.needed) : (createdWindow c p g l).blocks = l := by
  unfold createdWindow Window.blocks
  rcases hn with h | h
  · have : l.length = c.perSurface := by rw [hl, CreateParams.needed, h, Nat.one_mul]
    simp [h, ← this]
  · simp [h]

/-- An allocation takes blocks of the free set and charges them (R30, R34). -/
theorem poolInv_create {s : State} (h : PoolInv s) {p : Port} {c : CreateParams} {i : Slot}
    (hn : c.surfaces = 1 ∨ c.surfaces = 2) (hi : lowestFreeSlot s = some i) (hf : c.needed ≤ s.freeSet.length) :
    PoolInv (createWindow s p c i) := by
  have hfree := lowestFreeSlot_free hi
  have hlen : (s.freeSet.take c.needed).length = c.needed := by simpa using hf
  have hb : (createdWindow c p (s.win i).gen (s.freeSet.take c.needed)).blocks = s.freeSet.take c.needed :=
    createdWindow_blocks p _ hn hlen
  have ho : (s.win i).owner = none := h.2.2.1 i (mem_allSlots i) hfree
  have hbi : (s.win i).blocks = [] := h.2.2.2.1 i (mem_allSlots i) ho
  refine poolInv_replace (i := i) (w := createdWindow c p (s.win i).gen (s.freeSet.take c.needed)) h rfl ?_ ?_
    (by simp [createdWindow]) (by simp [createdWindow]) ?_
  · exact h.1.sublist (List.drop_sublist ..)
  · rw [hb, hbi, List.append_nil]
    show (s.freeSet.drop c.needed ++ s.scrubList ++ s.freeSet.take c.needed).Perm _
    calc (s.freeSet.drop c.needed ++ s.scrubList ++ s.freeSet.take c.needed).Perm
          (s.freeSet.take c.needed ++ (s.freeSet.drop c.needed ++ s.scrubList)) := List.perm_append_comm
      _ = s.freeSet ++ s.scrubList := by rw [← List.append_assoc, List.take_append_drop]
  · intro q
    rw [createWindow_frame, hb, hlen, ho]
    by_cases hq : q = p
    · subst hq
      simp [createdWindow]
    · simp [createdWindow, PerPort.get_set_of_ne _ _ hq, Ne.symm hq]

/-- A transfer's charges, by port (R37). -/
theorem transferWindow_charge (s : State) (i : Slot) (p q : Port) :
    (transferWindow s i p).charge.get q =
      s.charge.get q - (if (s.win i).owner = some q then (s.win i).blocks.length else 0) +
        (if p = q then (s.win i).blocks.length else 0) := by
  have hm : ∀ (t : State) (w : Window), (moveCharge t w p).charge.get q =
      t.charge.get q - (if w.owner = some q then w.blocks.length else 0) + (if p = q then w.blocks.length else 0) := by
    intro t w
    unfold moveCharge
    cases w.owner with
    | none =>
      by_cases hq : q = p
      · subst hq; simp
      · simp [PerPort.get_set_of_ne _ _ hq, Ne.symm hq]
    | some o =>
      by_cases hq : q = p <;> by_cases ho : q = o
      · subst hq; subst ho; simp
      · subst hq; simp [PerPort.get_set_of_ne _ _ ho, Ne.symm ho]
      · subst ho; simp [PerPort.get_set_of_ne _ _ hq, Ne.symm hq]
      · simp [PerPort.get_set_of_ne _ _ hq, PerPort.get_set_of_ne _ _ ho, Ne.symm hq, Ne.symm ho]
  have hc : ∀ o, (transferStream s i o).charge = s.charge := by
    intro o
    unfold transferStream
    split
    · split <;> rfl
    · rfl
  unfold transferWindow
  dsimp only
  rw [State.setWin_charge, hm, raiseOwner_frame, abandonUnit_frame]
  simp only [hc]

theorem poolInv_transfer {s : State} (h : PoolInv s) (i : Slot) (p : Port) (hl : live (s.win i)) :
    PoolInv (transferWindow s i p) := by
  have hw : (transferWindow s i p).windows =
      s.windows.set i { s.win i with owner := some p, offer := none, staging := Staging.empty } := by
    rw [transferWindow_frame]
  refine poolInv_replace (i := i) h hw ?_ ?_ ?_ (by simp) ?_
  · rw [transferWindow_frame]
    exact h.1
  · rw [transferWindow_frame]
    exact List.Perm.refl _
  · intro hs
    have hs' : (s.win i).state = .free := hs
    rw [live, hs'] at hl
    cases hl
  · intro q
    simp only [transferWindow_charge, Option.some.injEq]
    rfl

/-- The block under scrub leaves the scrub list and joins the free set (R28). -/
theorem poolInv_scrub {s : State} (h : PoolInv s) {b : Block} {rest : List Block} (hs : s.scrubList = b :: rest) :
    PoolInv (completeScrub s b) := by
  obtain ⟨hf, hp, hn, hb, hc⟩ := h
  have hnd : (s.freeSet ++ s.scrubList ++ windowBlocks s).Nodup := hp.nodup_iff.2 (List.nodup_finRange 192)
  have hnot : b ∉ s.freeSet := by
    rw [hs, List.nodup_append] at hnd
    exact fun hm => (List.nodup_append.1 hnd.1).2.2 b hm b List.mem_cons_self rfl
  rw [completeScrub_frame]
  refine ⟨insertBlock_pairwise hf, ?_, hn, hb, hc⟩
  show (insertBlock b s.freeSet ++ s.scrubList.tail ++ windowBlocks s).Perm allBlocks
  refine List.Perm.trans (List.Perm.append_right _ ?_) hp
  rw [hs, List.tail_cons]
  exact ((insertBlock_perm hnot).append_right rest).trans List.perm_middle.symm

/-- The blocks a RESTART releases are those of the windows, each once (R33). -/
theorem heldBlocks_perm {s : State} (h : PoolInv s) : (heldBlocks s).Perm (windowBlocks s) := by
  have hnd : (windowBlocks s).Nodup :=
    (List.nodup_append.1 (h.2.1.nodup_iff.2 (List.nodup_finRange 192))).2.1
  refine (List.perm_ext_iff_of_nodup ((List.nodup_finRange 192).filter _) hnd).2 fun b => ?_
  simp [windowBlocks]

theorem poolInv_restart {s : State} (h : PoolInv s) : PoolInv (restartDevice s) := by
  rw [restartDevice_eq, settleEngine_frame]
  have hwin : ∀ i, State.win { s with windows := s.windows.map restartedWindow } i = restartedWindow (s.win i) := by
    intro i
    simp [State.win]
  obtain ⟨hf, hp, hn, hb, -⟩ := id h
  have hnone : ∀ i, (restartedWindow (s.win i)).owner = none ∧ (restartedWindow (s.win i)).blocks = [] := by
    intro i
    unfold restartedWindow
    split
    · next hfree =>
      have ho := hn i (mem_allSlots i) hfree
      exact ⟨ho, hb i (mem_allSlots i) ho⟩
    · exact ⟨rfl, rfl⟩
  have hwb : windowBlocks { s with windows := s.windows.map restartedWindow } = [] := by
    simp [windowBlocks, hwin, hnone]
  have hcount : ∀ q, ownedBlockCount { s with windows := s.windows.map restartedWindow } q = 0 := by
    intro q
    simp [ownedBlockCount, hwin, hnone]
  refine ⟨hf, ?_, fun i _ _ => ?_, fun i _ _ => ?_, (hcount .A).symm, (hcount .B).symm⟩
  · show (s.freeSet ++ (s.scrubList ++ heldBlocks s) ++ windowBlocks { s with windows := s.windows.map restartedWindow }).Perm _
    rw [hwb, List.append_nil, ← List.append_assoc]
    exact ((heldBlocks_perm h).append_left _).trans hp
  · exact (congrArg Window.owner (hwin i)).trans (hnone i).1
  · exact (congrArg Window.blocks (hwin i)).trans (hnone i).2

/-- The state at hardware reset is a closed value: what is said of it is evaluated, all of it here (R22). -/
theorem reset_evaluated :
    PoolInv State.reset ∧ resetValues State.reset ∧
      (CommitInv State.reset ∧ ConsecutiveInv State.reset ∧ StackInv State.reset ∧ ViewInv State.reset ∧ FieldsInv State.reset) ∧
      (NoticesInv State.reset ∧ QuotaInv State.reset ∧ StoreInv State.reset ∧ ZeroInv State.reset ∧ EngineInv State.reset) ∧
      (ShapeInv State.reset ∧ LeaseInv State.reset ∧ OfferInv State.reset) ∧
      (∀ (i : Slot) (id : SurfaceId), (State.reset.win i).surface id = []) := by
  refine ⟨by decide +kernel, by decide +kernel, ⟨by decide +kernel, by decide +kernel, by decide +kernel, by decide +kernel, by decide +kernel⟩,
    ⟨by decide +kernel, by decide +kernel, by decide +kernel, by decide +kernel, by decide +kernel⟩,
    ⟨by decide +kernel, by decide +kernel, by decide +kernel⟩, by decide +kernel⟩

theorem poolInv_reset : PoolInv State.reset := reset_evaluated.1

theorem poolInv_hardwareReset (s : State) : PoolInv (hardwareReset s) :=
  poolInv_of_windows poolInv_reset rfl rfl rfl rfl

/-! ## The frame boundary -/

theorem samePool_apply (fc : BitVec 16) (adj : List Nat) (s : State) (i : Slot) : SamePool s (applyWindow fc adj s i) := by
  rw [applyWindow_frame]
  refine .of_set rfl rfl rfl rfl rfl rfl fun h => absurd h ?_
  show appliedState _ _ ≠ .free
  unfold appliedState
  split
  · nofun
  · nofun
  · split <;> nofun

theorem poolInv_walkUnit {s : State} (h : PoolInv s) (plan : BoundaryPlan) (l : List Slot) : PoolInv (walkUnit plan s l) := by
  unfold walkUnit
  split
  · exact h
  · split
    · exact foldl_invariant PoolInv _ (fun t i ht => poolInv_of_same ht (samePool_apply _ _ t i)) l s h
    · rw [holdBack_frame]
      exact poolInv_of_windows h rfl rfl rfl rfl

theorem poolInv_evict {s : State} (h : PoolInv s) (i : Slot) : PoolInv (evictWindow s i) := by
  unfold evictWindow
  refine poolInv_retire ?_ i .eviction
  exact poolInv_of_set h (State.setWin_windows ..) rfl rfl rfl rfl rfl id

theorem poolInv_visitWindow {s : State} (h : PoolInv s) (i : Slot) : PoolInv (visitWindow s i) := by
  unfold visitWindow
  dsimp only
  split
  · rw [renewWindow_frame]
    exact poolInv_of_set h rfl rfl rfl rfl rfl rfl nofun
  · exact poolInv_of_set h rfl rfl rfl rfl rfl rfl id
  · rw [lapseWindow_frame]
    exact poolInv_of_set h rfl rfl rfl rfl rfl rfl nofun
  · exact poolInv_of_set h rfl rfl rfl rfl rfl rfl id
  · exact poolInv_evict h i
  · exact h

theorem samePool_countOffer (s : State) (i : Slot) : SamePool s (countOffer s i) := by
  unfold countOffer
  dsimp only
  split
  · split
    · exact .of_set rfl rfl rfl rfl rfl rfl id
    · exact .of_set rfl rfl rfl rfl rfl rfl id
  · exact .of_windows rfl rfl rfl rfl

theorem poolInv_boundaryTask {plan : BoundaryPlan} {run : BoundaryRun} (h : PoolInv run.state) (t : BoundaryTask) :
    PoolInv (boundaryTask plan run t).state := by
  cases t with
  | profileNotice =>
    simp only [boundaryTask]
    rw [profileNotice_frame]
    exact h
  | walkUnit =>
    simp only [boundaryTask]
    split
    · exact h
    · exact poolInv_walkUnit h ..
  | leaseVisit n =>
    simp only [boundaryTask]
    split
    · dsimp only
      unfold leaseVisit
      split
      · exact h
      · split
        · split
          · rw [raiseOwner_frame]
            exact h
          · exact h
        · exact poolInv_visitWindow h _
    · exact h
  | offerCount n =>
    simp only [boundaryTask]
    split
    · exact poolInv_of_same h (samePool_countOffer ..)
    · exact h
  | frameNotice p =>
    simp only [boundaryTask]
    rw [frameNotice_frame]
    exact h

theorem poolInv_boundary {s : State} (h : PoolInv s) (order : BoundaryOrder) : PoolInv (frameBoundary order s) := by
  unfold frameBoundary
  dsimp only
  rw [settleEngine_frame]
  refine poolInv_of_windows (foldl_invariant (fun run : BoundaryRun => PoolInv run.state) _
    (fun run t hr => poolInv_boundaryTask hr t) _ _ ?_) rfl rfl rfl rfl
  exact foldl_invariant PoolInv _ (fun t i ht => poolInv_release ht i) _ _
    (poolInv_of_windows h rfl rfl rfl rfl)

/-! ## Every step -/

theorem poolInv_detach {s : State} (h : PoolInv s) (p : Port) : PoolInv (detachPort s p) := by
  have hd : ∀ (t : State) (i : Slot), PoolInv t → PoolInv (declineOffer declinedByDetach t i) := fun t i ht => by
    rw [declineOffer_frame]
    exact poolInv_of_set ht rfl rfl rfl rfl rfl rfl id
  have hw : PoolInv (detachWindows s p) :=
    foldl_invariant PoolInv _ (fun t i ht => poolInv_retire ht i .detach) _ s h
  have he : PoolInv (detachEngine s p) := poolInv_of_windows (poolInv_cancel hw _) rfl rfl rfl rfl
  have ho : PoolInv (detachOffers s p) := foldl_invariant PoolInv _ hd _ _ he
  exact poolInv_settle (poolInv_of_windows ho rfl rfl rfl rfl)

/-- Every change a command makes keeps the block pool sound. -/
theorem poolInv_change {s u : State} {q : Option Port} (h : PoolInv s) (hc : Change s q u) : PoolInv u := by
  cases hc with
  | reset => exact poolInv_hardwareReset s
  | detach p => exact poolInv_detach h p
  | create p c i ps hc _ hi _ hf =>
    obtain ⟨-, -, -, -, hn, -⟩ := readCreate_eq_some hc
    exact poolInv_create h hn hi hf
  | retire p i => exact poolInv_settle (poolInv_retire h i _)
  | accept p i hl => exact poolInv_transfer h i p hl
  | restart => exact poolInv_restart h
  | scrub b rest _ hs => exact poolInv_scrub h hs
  | boundary order => exact poolInv_boundary h order
  | evict i => exact poolInv_settle (poolInv_evict h i)
  | stage p i | discard p i | renew p i => exact poolInv_of_set h rfl rfl rfl rfl rfl rfl id
  | offer p i | withdraw p i | offerExpiry i => exact poolInv_of_set h rfl rfl rfl rfl rfl rfl id
  | decline p i => rw [declineOffer_frame]; exact poolInv_of_set h rfl rfl rfl rfl rfl rfl id
  | lapse i => rw [lapseWindow_frame]; exact poolInv_of_set h rfl rfl rfl rfl rfl rfl nofun
  | keep | link | collect | subscribe | query | arm | stream | timing | quota | grace => exact poolInv_of_windows h rfl rfl rfl rfl
  | disarm p i => rw [removeUnit_frame]; exact poolInv_of_windows h rfl rfl rfl rfl
  | put => rw [acceptOp_frame]; exact poolInv_of_windows h rfl rfl rfl rfl
  | draw => rw [acceptOp_frame]; exact poolInv_of_windows h rfl rfl rfl rfl
  | cancel => exact poolInv_settle (poolInv_cancel h _)
  | complete op => rw [completeOp_frame]; exact poolInv_of_windows h rfl rfl rfl rfl
  | expire i => rw [expireUnit_frame]; exact poolInv_of_windows h rfl rfl rfl rfl

/-- The windows of a sound pool hold together what the two ports are charged (R34). -/
theorem windowBlocks_length {s : State} (h : PoolInv s) : (windowBlocks s).length = s.charge.a + s.charge.b := by
  obtain ⟨-, -, -, hb, ha, hbc⟩ := h
  have hsum : ∀ l : List Slot, (l.flatMap (fun i => (s.win i).blocks)).length =
      (l.map (fun i => if (s.win i).owner = some .A then (s.win i).blocks.length else 0)).sum +
        (l.map (fun i => if (s.win i).owner = some .B then (s.win i).blocks.length else 0)).sum := by
    intro l
    induction l with
    | nil => rfl
    | cons i rest ih =>
      have hi : (s.win i).blocks.length = (if (s.win i).owner = some .A then (s.win i).blocks.length else 0) +
          (if (s.win i).owner = some .B then (s.win i).blocks.length else 0) := by
        cases ho : (s.win i).owner with
        | none => simp [hb i (mem_allSlots i) ho]
        | some p => cases p <;> simp
      simp only [List.flatMap_cons, List.length_append, List.map_cons, List.sum_cons, ih]
      omega
  rw [ha, hbc]
  exact hsum allSlots

/-- Settles O56: each operation that moves blocks replaces one record and puts its blocks elsewhere; every other change leaves the pool
alone. -/
theorem blockPoolStaysSound : Obligations.BlockPoolStaysSound := by
  refine ⟨fun s t hs h => step_keeps (I := PoolInv) (fun _ _ _ hu => hu) (fun _ _ hu => hu)
    (fun _ _ _ hv hc => poolInv_change hv hc) hs h, fun s h => ?_⟩
  have hlen := h.2.1.length_eq
  simp only [List.length_append, windowBlocks_length h, allBlocks, List.length_finRange] at hlen
  omega

end Sys2Proof.Machine
end

