-- ==== Sys2Proof/Proofs/CommitQueue.lean ====
section
/-! The commit queue: one entry per window, the unit of an entry, readiness, and the runs of groups (R87, R88, R92 to R94). -/

namespace Sys2Proof.Machine

open Sys2Proof.Safety

/-! ## One entry per window -/

/-- In a sound queue an entry is told by its window. -/
theorem commitInv_entry_unique {s : State} (h : CommitInv s) {e x : CommitEntry} (he : e ∈ s.commitQueue)
    (hx : x ∈ s.commitQueue) (hs : e.ref.slot = x.ref.slot) : e = x :=
  List.inj_on_of_nodup_map h.1 he hx hs

theorem commitInv_nodup {s : State} (h : CommitInv s) : s.commitQueue.Nodup := List.Nodup.of_map _ h.1

/-- An entry of a sound queue names its window by its present reference (R87). -/
theorem commitInv_ref {s : State} (h : CommitInv s) {e : CommitEntry} (he : e ∈ s.commitQueue) :
    e.ref = s.refOf e.ref.slot := by
  have hg := (h.2.1 e he).1
  cases hr : e.ref with
  | mk slot gen =>
    rw [hr] at hg
    simp only at hg
    simp [State.refOf, hg]

theorem armed_iff {s : State} {i : Slot} : armed s i = true ↔ ∃ e ∈ s.commitQueue, e.ref.slot = i := by
  simp [armed]

theorem armed_eq_false {s : State} {i : Slot} : armed s i = false ↔ ∀ e ∈ s.commitQueue, e.ref.slot ≠ i := by
  rw [← Bool.not_eq_true, armed_iff]
  simp

/-- An armed window of a sound queue is HIDDEN, SHOWN or LAPSED (R87). -/
theorem commitInv_live {s : State} (h : CommitInv s) {i : Slot} (ha : armed s i = true) : live (s.win i) := by
  obtain ⟨e, he, rfl⟩ := armed_iff.1 ha
  exact (h.2.1 e he).2.1

theorem not_armed_of_not_live {s : State} (h : CommitInv s) {i : Slot} (hl : ¬ live (s.win i)) :
    ∀ e ∈ s.commitQueue, e.ref.slot ≠ i := by
  rintro e he rfl
  exact hl (h.2.1 e he).2.1

theorem commitEntry_eq_some {s : State} {i : Slot} {e : CommitEntry} (h : commitEntry s i = some e) :
    e ∈ s.commitQueue ∧ e.ref.slot = i :=
  ⟨List.mem_of_find?_eq_some h, by simpa using List.find?_some h⟩

theorem commitEntry_eq_none {s : State} {i : Slot} (h : commitEntry s i = none) : ∀ e ∈ s.commitQueue, e.ref.slot ≠ i :=
  fun e he => by simpa using List.find?_eq_none.1 h e he

/-- The entry of a window, found by the part, is the one the queue holds. -/
theorem commitEntry_of_mem {s : State} (h : CommitInv s) {e : CommitEntry} (he : e ∈ s.commitQueue) :
    commitEntry s e.ref.slot = some e := by
  cases hc : commitEntry s e.ref.slot with
  | none => exact absurd rfl (commitEntry_eq_none hc e he)
  | some x =>
    obtain ⟨hx, hs⟩ := commitEntry_eq_some hc
    rw [commitInv_entry_unique h hx he hs]

/-! ## The unit of an entry -/

/-- Under tag 0 an entry is its whole unit (R88). -/
theorem sameGroup_zero {e x : CommitEntry} (h : e.tag = 0) : sameGroup e x ↔ x = e :=
  ⟨fun hx => hx.elim id fun hx => absurd h hx.1, .inl⟩

/-- Under any other tag the unit is the group (R88). -/
theorem sameGroup_tag {e x : CommitEntry} (h : e.tag ≠ 0) : sameGroup e x ↔ x.tag = e.tag :=
  ⟨fun hx => hx.elim (fun hx => hx ▸ rfl) And.right, fun hx => .inr ⟨h, hx⟩⟩

/-- The part's test of a unit is membership of the unit (R88). -/
theorem sameUnit_iff {s : State} (h : CommitInv s) {e x : CommitEntry} (he : e ∈ s.commitQueue) (hx : x ∈ s.commitQueue) :
    sameUnit e x = true ↔ sameGroup e x := by
  unfold sameUnit
  split
  · next ht =>
    rw [sameGroup_zero ht, beq_iff_eq]
    exact ⟨fun hr => commitInv_entry_unique h hx he (congrArg WinRef.slot hr), fun hr => hr ▸ rfl⟩
  · next ht => rw [sameGroup_tag ht, beq_iff_eq]

theorem filter_sameUnit {s : State} (h : CommitInv s) {e : CommitEntry} (he : e ∈ s.commitQueue) :
    s.commitQueue.filter (sameUnit e) = s.commitQueue.filter (fun x => sameGroup e x) :=
  List.filter_congr fun x hx => by rw [Bool.eq_iff_iff, sameUnit_iff h he hx, decide_eq_true_iff]

/-- A removal only takes entries away. -/
theorem removeUnit_filter (s : State) (i : Slot) : ∃ f, (removeUnit s i).commitQueue = s.commitQueue.filter f := by
  unfold removeUnit
  split
  · exact ⟨_, rfl⟩
  · exact ⟨fun _ => true, (List.filter_eq_self.2 fun _ _ => rfl).symm⟩

/-- What a window's unit is, by the queue alone: its own entry, and every entry of its group. -/
theorem inUnit_iff {s : State} (h : CommitInv s) {e x : CommitEntry} (he : e ∈ s.commitQueue) (hx : x ∈ s.commitQueue) :
    (x.ref.slot == e.ref.slot || s.commitQueue.any (fun y => y.ref.slot == e.ref.slot && y.tag != 0 && x.tag == y.tag)) = true ↔
      sameGroup e x := by
  simp only [Bool.or_eq_true, beq_iff_eq, List.any_eq_true, Bool.and_eq_true, bne_iff_ne, ne_eq]
  constructor
  · rintro (hs | ⟨y, hy, ⟨hs, ht⟩, hxy⟩)
    · exact .inl (commitInv_entry_unique h hx he hs)
    · obtain rfl := commitInv_entry_unique h hy he hs
      exact .inr ⟨ht, hxy⟩
  · rintro (rfl | ⟨ht, hxy⟩)
    · exact .inl rfl
    · exact .inr ⟨e, he, ⟨rfl, ht⟩, hxy⟩

/-- The queue after a removal, in the statements' own words (R91). -/
theorem removeUnit_eq_withoutUnit {s : State} (h : CommitInv s) (i : Slot) :
    (removeUnit s i).commitQueue = withoutUnit s i := by
  unfold removeUnit withoutUnit
  cases hc : commitEntry s i with
  | none =>
    have hn := commitEntry_eq_none hc
    refine (List.filter_eq_self.2 fun x hx => ?_).symm
    simpa using ⟨hn x hx, fun y hy hs => absurd hs (hn y hy)⟩
  | some e =>
    obtain ⟨he, rfl⟩ := commitEntry_eq_some hc
    refine List.filter_congr fun x hx => ?_
    rw [Bool.eq_iff_iff, Bool.not_eq_true', Bool.not_eq_true', ← Bool.not_eq_true, ← Bool.not_eq_true, sameUnit_iff h he hx,
      inUnit_iff h he hx]

/-- The other members of a window's group, in the statements' own words (R101). -/
theorem otherMembers_eq_groupMates {s : State} (h : CommitInv s) (i : Slot) : otherMembers s i = groupMates s i := by
  unfold otherMembers groupMates
  cases hc : commitEntry s i with
  | none =>
    have hn := commitEntry_eq_none hc
    rw [List.filter_eq_nil_iff.2, List.map_nil]
    intro x _
    simpa using fun y hy hs => absurd hs (hn y hy)
  | some e =>
    obtain ⟨he, rfl⟩ := commitEntry_eq_some hc
    dsimp only
    rw [List.filter_map, List.filter_filter]
    congr 1
    refine List.filter_congr fun x hx => ?_
    have hi := inUnit_iff h he hx
    rw [Bool.eq_iff_iff, Bool.and_eq_true, sameUnit_iff h he hx, ← hi, Bool.and_eq_true, Bool.or_eq_true]
    simp only [Function.comp_apply, decide_eq_true_eq, beq_iff_eq, bne_iff_ne, ne_eq]
    tauto

/-- After a removal the window is not armed. -/
theorem removeUnit_not_armed {s : State} (h : CommitInv s) (i : Slot) :
    ∀ e ∈ (removeUnit s i).commitQueue, e.ref.slot ≠ i := by
  rw [removeUnit_eq_withoutUnit h]
  rintro e he rfl
  simp [withoutUnit] at he

/-! ## The units of the walk -/

/-- The units of a queue without a repeated entry are the units of its entries (R94). -/
theorem mem_unitsFrom {seen : List Nat} {l : List CommitEntry} (hn : l.Nodup) {u : List CommitEntry} :
    u ∈ unitsFrom seen l ↔ ∃ e ∈ l, (e.tag = 0 ∨ e.tag ∉ seen) ∧ u = l.filter (fun x => sameGroup e x) := by
  induction l generalizing seen with
  | nil => simp [unitsFrom]
  | cons e rest ih =>
    obtain ⟨hnot, hrest⟩ := List.nodup_cons.1 hn
    have skip : ∀ y ∈ rest, ¬ sameGroup y e → (e :: rest).filter (fun x => sameGroup y x) = rest.filter (fun x => sameGroup y x) :=
      fun y _ hy => List.filter_cons_of_neg (by simpa using hy)
    unfold unitsFrom
    split
    · next ht =>
      have hone : (e :: rest).filter (fun x => sameGroup e x) = [e] := by
        rw [List.filter_cons_of_pos (by simp), List.filter_eq_nil_iff.2]
        intro x hx
        rw [decide_eq_true_iff, sameGroup_zero ht]
        rintro rfl
        exact hnot hx
      have hne : ∀ y ∈ rest, ¬ sameGroup y e := by
        rintro y hy (rfl | ⟨h1, h2⟩)
        · exact hnot hy
        · exact h1 (h2.symm.trans ht)
      rw [List.mem_cons, ih hrest]
      constructor
      · rintro (rfl | ⟨y, hy, hs, rfl⟩)
        · exact ⟨e, List.mem_cons_self, .inl ht, hone.symm⟩
        · exact ⟨y, List.mem_cons_of_mem _ hy, hs, (skip y hy (hne y hy)).symm⟩
      · rintro ⟨y, hy, hs, rfl⟩
        rcases List.mem_cons.1 hy with rfl | hy
        · exact .inl hone
        · exact .inr ⟨y, hy, hs, skip y hy (hne y hy)⟩
    · next ht =>
      split
      · next hseen =>
        have hne : ∀ y ∈ rest, (y.tag = 0 ∨ y.tag ∉ seen) → ¬ sameGroup y e := by
          rintro y hy hs (rfl | ⟨h1, h2⟩)
          · exact hnot hy
          · exact hs.elim h1 fun hs => hs (h2 ▸ hseen)
        rw [ih hrest]
        constructor
        · rintro ⟨y, hy, hs, rfl⟩
          exact ⟨y, List.mem_cons_of_mem _ hy, hs, (skip y hy (hne y hy hs)).symm⟩
        · rintro ⟨y, hy, hs, rfl⟩
          rcases List.mem_cons.1 hy with rfl | hy
          · exact absurd hseen (hs.resolve_left ht)
          · exact ⟨y, hy, hs, skip y hy (hne y hy hs)⟩
      · next hseen =>
        have hgroup : (e :: rest).filter (fun x => sameGroup e x) = e :: rest.filter (fun x => x.tag == e.tag) := by
          rw [List.filter_cons_of_pos (by simp)]
          congr 1
          refine List.filter_congr fun x hx => ?_
          rw [Bool.eq_iff_iff, decide_eq_true_iff, sameGroup_tag ht, beq_iff_eq]
        have hsame : ∀ y ∈ rest, y.tag = e.tag →
            (e :: rest).filter (fun x => sameGroup y x) = (e :: rest).filter (fun x => sameGroup e x) := by
          intro y _ hy
          refine List.filter_congr fun x _ => ?_
          simp only [sameGroup_tag ht, sameGroup_tag (hy ▸ ht : y.tag ≠ 0), hy]
        have hne : ∀ y ∈ rest, y.tag ≠ e.tag → ¬ sameGroup y e := by
          rintro y hy hs (rfl | ⟨_, h2⟩)
          · exact hnot hy
          · exact hs h2.symm
        rw [List.mem_cons, ih hrest]
        constructor
        · rintro (rfl | ⟨y, hy, hs, rfl⟩)
          · exact ⟨e, List.mem_cons_self, .inr hseen, hgroup.symm⟩
          · have hy' : y.tag ≠ e.tag := by
              rintro heq
              rcases hs with h0 | h0
              · exact ht (heq ▸ h0)
              · exact h0 (heq ▸ List.mem_cons_self)
            exact ⟨y, List.mem_cons_of_mem _ hy, hs.imp id fun h0 hm => h0 (List.mem_cons_of_mem _ hm),
              (skip y hy (hne y hy hy')).symm⟩
        · rintro ⟨y, hy, hs, rfl⟩
          rcases List.mem_cons.1 hy with rfl | hy
          · exact .inl hgroup
          · by_cases heq : y.tag = e.tag
            · exact .inl ((hsame y hy heq).trans hgroup)
            · exact .inr ⟨y, hy, hs.imp id fun h0 => by simpa using ⟨heq, h0⟩, skip y hy (hne y hy heq)⟩

theorem mem_units {s : State} (h : CommitInv s) {u : List CommitEntry} :
    u ∈ units s ↔ ∃ e ∈ s.commitQueue, u = s.commitQueue.filter (fun x => sameGroup e x) := by
  unfold units
  rw [mem_unitsFrom (commitInv_nodup h)]
  simp

/-! ## Readiness -/

theorem other_eq_iff {a b : SurfaceId} : b = otherId a ↔ b ≠ a := by
  revert a b
  decide

/-- The part's test of a surface being written, by the engine queue and both ports' streams (R63). -/
theorem beingWritten_iff {s : State} {r : WinRef} {a : SurfaceId} :
    beingWritten s r (otherId a) = true ↔
      (∃ op ∈ s.opQueue, op.dest = r ∧ op.destId ≠ a) ∨
        ∃ q ∈ [Port.A, Port.B], ∃ v ∈ s.streams.get q, v.ref = r ∧ v.id ≠ a := by
  have hstream : ∀ o : Option Stream, (match o with
      | some v => v.ref == r && v.id == otherId a
      | none => false) = true ↔ ∃ v ∈ o, v.ref = r ∧ v.id ≠ a := by
    intro o
    cases o <;> simp [other_eq_iff]
  unfold beingWritten
  rw [Bool.or_eq_true, Bool.or_eq_true, or_assoc]
  refine or_congr (by simp [other_eq_iff]) ?_
  refine (or_congr (hstream s.streams.a) (hstream s.streams.b)).trans ?_
  simp [PerPort.get]

/-- An entry is ready unless it is held back (R92). -/
theorem entryReady_iff {s : State} (h : CommitInv s) {e : CommitEntry} (he : e ∈ s.commitQueue) :
    entryReady s e = true ↔ ¬ swapHeld s e.ref.slot := by
  unfold entryReady swapHeld
  dsimp only
  rw [Bool.not_eq_true', ← Bool.not_eq_true, Bool.and_eq_true, beingWritten_iff, commitInv_ref h he]
  rfl

theorem unitReady_iff {s : State} (h : CommitInv s) {e : CommitEntry} :
    unitReady s (s.commitQueue.filter (fun x => sameGroup e x)) = true ↔ readyUnit s e := by
  unfold unitReady readyUnit
  simp only [List.all_eq_true, List.mem_filter, decide_eq_true_eq, and_imp]
  exact forall₂_congr fun x hx => imp_congr_right fun _ => entryReady_iff h hx

/-- The members of one unit are ready together (R93). -/
theorem readyUnit_congr {s : State} {e x : CommitEntry} (hx : sameGroup e x) : readyUnit s x ↔ readyUnit s e := by
  rcases hx with rfl | ⟨ht, hx⟩
  · exact Iff.rfl
  · have hall : ∀ y : CommitEntry, sameGroup x y ↔ sameGroup e y := by
      intro y
      constructor
      · rintro (rfl | ⟨_, hy⟩)
        · exact .inr ⟨ht, hx⟩
        · exact .inr ⟨ht, hy.trans hx⟩
      · rintro (rfl | ⟨_, hy⟩)
        · exact .inr ⟨hx ▸ ht, hx.symm⟩
        · exact .inr ⟨hx ▸ ht, hy.trans hx.symm⟩
    simp only [readyUnit, hall]

/-- The windows a boundary applies are those whose commit is due (R94, R104). -/
theorem mem_readySlots {s : State} (h : CommitInv s) {i : Slot} : i ∈ readySlots s ↔ commitDue s i := by
  unfold readySlots unitSlots commitDue
  simp only [List.mem_flatMap, List.mem_filter, List.mem_map, mem_units h]
  constructor
  · rintro ⟨_, ⟨⟨e, he, rfl⟩, hr⟩, x, hx, rfl⟩
    obtain ⟨hx, hg⟩ := List.mem_filter.1 hx
    exact ⟨x, hx, rfl, (readyUnit_congr (of_decide_eq_true hg)).2 ((unitReady_iff h).1 hr)⟩
  · rintro ⟨e, he, rfl, hr⟩
    exact ⟨_, ⟨⟨e, he, rfl⟩, (unitReady_iff h).2 hr⟩, e, List.mem_filter.2 ⟨he, by simp⟩, rfl⟩

/-! ## The runs of groups -/

/-- All the elements that meet a test stand in one run exactly where the list is a stretch of them between two stretches without
one. -/
theorem run_iff {α : Type} {p : α → Bool} {l : List α} :
    (l.dropWhile (fun x => !p x)).takeWhile p = l.filter p ↔
      ∃ a b c, l = a ++ b ++ c ∧ (∀ x ∈ a, p x = false) ∧ (∀ x ∈ b, p x = true) ∧ ∀ x ∈ c, p x = false := by
  constructor
  · intro h
    let r := l.dropWhile (fun x => !p x)
    refine ⟨l.takeWhile (fun x => !p x), r.takeWhile p, r.dropWhile p, ?_, fun x hx => ?_, fun x hx => ?_, fun x hx => ?_⟩
    · rw [List.append_assoc, List.takeWhile_append_dropWhile, List.takeWhile_append_dropWhile]
    · simpa using List.mem_takeWhile_imp hx
    · exact List.mem_takeWhile_imp hx
    · have hl : l.filter p = r.filter p := by
        conv_lhs => rw [← List.takeWhile_append_dropWhile (p := fun x => !p x) (l := l)]
        rw [List.filter_append, List.filter_eq_nil_iff.2, List.nil_append]
        intro y hy
        simpa using List.mem_takeWhile_imp hy
      have hr : r.filter p = r.takeWhile p ++ (r.dropWhile p).filter p := by
        conv_lhs => rw [← List.takeWhile_append_dropWhile (p := p) (l := r)]
        rw [List.filter_append, List.filter_eq_self.2 fun y hy => List.mem_takeWhile_imp hy]
      have hnil : (r.dropWhile p).filter p = [] := by
        have := h.trans (hl.trans hr)
        exact List.append_right_eq_self.1 this.symm
      simpa using List.filter_eq_nil_iff.1 hnil x hx
  · rintro ⟨a, b, c, rfl, ha, hb, hc⟩
    have hc' : (c.dropWhile fun x => !p x).takeWhile p = [] ∧ c.takeWhile p = [] := by
      cases c with
      | nil => exact ⟨rfl, rfl⟩
      | cons x rest =>
        have hd : (x :: rest).dropWhile (fun y => !p y) = [] :=
          List.dropWhile_eq_nil_iff.2 fun y hy => by simp [hc y hy]
        exact ⟨by rw [hd]; rfl, by simp [hc x List.mem_cons_self]⟩
    have hfil : (a ++ b ++ c).filter p = b := by
      rw [List.filter_append, List.filter_append, List.filter_eq_nil_iff.2 fun x hx => by simp [ha x hx],
        List.filter_eq_self.2 hb, List.filter_eq_nil_iff.2 fun x hx => by simp [hc x hx]]
      simp
    rw [hfil, List.append_assoc, List.dropWhile_append_of_pos fun x hx => by simp [ha x hx]]
    cases b with
    | nil => exact hc'.1
    | cons x rest =>
      rw [List.cons_append, List.dropWhile_cons_of_neg (by simp [hb x List.mem_cons_self]), ← List.cons_append,
        List.takeWhile_append_of_pos hb, hc'.2, List.append_nil]

/-- A queue's groups stand consecutive exactly where every tag's entries form one run (R87). -/
theorem consecutiveInv_iff {s : State} :
    ConsecutiveInv s ↔ ∀ t, t ≠ 0 → ∃ a b c, s.commitQueue = a ++ b ++ c ∧ (∀ x ∈ a, x.tag ≠ t) ∧ (∀ x ∈ b, x.tag = t) ∧
      ∀ x ∈ c, x.tag ≠ t := by
  have key : ∀ t : Nat, ((s.commitQueue.dropWhile (fun x => x.tag ≠ t)).takeWhile (fun x => x.tag = t) =
      s.commitQueue.filter (fun x => x.tag = t)) ↔
      ∃ a b c, s.commitQueue = a ++ b ++ c ∧ (∀ x ∈ a, x.tag ≠ t) ∧ (∀ x ∈ b, x.tag = t) ∧ ∀ x ∈ c, x.tag ≠ t := by
    intro t
    have := run_iff (p := fun x : CommitEntry => decide (x.tag = t)) (l := s.commitQueue)
    simpa using this
  constructor
  · intro h t ht
    by_cases hm : ∃ e ∈ s.commitQueue, e.tag = t
    · obtain ⟨e, he, rfl⟩ := hm
      exact (key e.tag).1 (h e he ht)
    · exact ⟨s.commitQueue, [], [], by simp, fun x hx hxt => hm ⟨x, hx, hxt⟩, by simp, by simp⟩
  · intro h e _ ht
    exact (key e.tag).2 (h e.tag ht)

/-- Taking entries away keeps groups consecutive. -/
theorem consecutiveInv_filter {s t : State} (h : ConsecutiveInv s) {f : CommitEntry → Bool}
    (hq : t.commitQueue = s.commitQueue.filter f) : ConsecutiveInv t := by
  rw [consecutiveInv_iff] at *
  intro n hn
  obtain ⟨a, b, c, he, ha, hb, hc⟩ := h n hn
  exact ⟨a.filter f, b.filter f, c.filter f, by simp [hq, he], fun x hx => ha x (List.mem_of_mem_filter hx),
    fun x hx => hb x (List.mem_of_mem_filter hx), fun x hx => hc x (List.mem_of_mem_filter hx)⟩

/-- Changing entries without their tags keeps groups consecutive. -/
theorem consecutiveInv_map {s t : State} (h : ConsecutiveInv s) {f : CommitEntry → CommitEntry} (hf : ∀ x, (f x).tag = x.tag)
    (hq : t.commitQueue = s.commitQueue.map f) : ConsecutiveInv t := by
  rw [consecutiveInv_iff] at *
  intro n hn
  obtain ⟨a, b, c, he, ha, hb, hc⟩ := h n hn
  refine ⟨a.map f, b.map f, c.map f, by simp [hq, he], ?_, ?_, ?_⟩ <;> simpa [hf]

/-- Entries of a tag not in use join the end of the queue, where they stand consecutive (R90). -/
theorem consecutiveInv_append {s t : State} (h : ConsecutiveInv s) {l : List CommitEntry} {n : Nat}
    (hl : ∀ x ∈ l, x.tag = n) (hn : n ≠ 0 → ∀ x ∈ s.commitQueue, x.tag ≠ n) (hq : t.commitQueue = s.commitQueue ++ l) :
    ConsecutiveInv t := by
  rw [consecutiveInv_iff] at *
  intro m hm
  by_cases hmn : m = n
  · subst hmn
    exact ⟨s.commitQueue, l, [], by simp [hq], hn hm, hl, by simp⟩
  · obtain ⟨a, b, c, he, ha, hb, hc⟩ := h m hm
    refine ⟨a, b, c ++ l, by simp [hq, he], ha, hb, fun x hx => ?_⟩
    rcases List.mem_append.1 hx with hx | hx
    · exact hc x hx
    · rw [hl x hx]
      exact Ne.symm hmn

end Sys2Proof.Machine
end

