-- ==== Sys2Proof/Proofs/ListAndQueue.lean ====
section
/-! The commit queue, the stacking list, the view and the staged and active fields stay sound: first under one record replaced, then under
each operation that edits the queue or the list, then under the boundary's work, and so under every step (R66, R67, R71, R84, R87). -/

namespace Sys2Proof.Machine

open Sys2Proof.Safety

/-! ## One record replaced -/

/-- The record in a slot is within its ranges, unless it is FREE. -/
def fieldOk (i : Slot) (w : Window) : Prop := w.state ≠ .free → stagingOk i w ∧ activeOk w

theorem fieldsInv_iff {s : State} : FieldsInv s ↔ ∀ i, fieldOk i (s.win i) :=
  ⟨fun h i => h i (mem_allSlots i), fun h i _ => h i⟩

/-- The invariants of the commit queue, the list and the fields, with the groups consecutive where `c` asks it. -/
structure ListSound (c : Prop) (s : State) : Prop where
  commit : CommitInv s
  stack : StackInv s
  fields : FieldsInv s
  consecutive : c → ConsecutiveInv s

/-- The commit queue stays sound when entries are taken away and the armed windows keep what the queue rests on. -/
theorem commitInv_filter {s t : State} (h : CommitInv s) {f : CommitEntry → Bool}
    (hq : t.commitQueue = s.commitQueue.filter f)
    (hw : ∀ e ∈ t.commitQueue, (t.win e.ref.slot).gen = (s.win e.ref.slot).gen ∧ live (t.win e.ref.slot) ∧
      (t.win e.ref.slot).staging = (s.win e.ref.slot).staging ∧ (t.win e.ref.slot).owner = (s.win e.ref.slot).owner) :
    CommitInv t := by
  obtain ⟨hn, he, hg⟩ := h
  have sub : ∀ e ∈ t.commitQueue, e ∈ s.commitQueue := fun e hm => List.mem_of_mem_filter (hq ▸ hm)
  refine ⟨?_, fun e hm => ?_, fun e hm x hx ht hxt => ?_⟩
  · rw [hq]
    exact hn.sublist (List.filter_sublist.map _)
  · obtain ⟨h1, h2, h3, -⟩ := hw e hm
    obtain ⟨k1, -, k3, k4⟩ := he e (sub e hm)
    exact ⟨k1.trans h1.symm, h2, h3 ▸ k3, k4⟩
  · rw [(hw e hm).2.2.2, (hw x hx).2.2.2]
    exact hg e (sub e hm) x (sub x hx) ht hxt

/-- The list stays sound when it is kept, and the windows in it keep their place in it, their generation and their tier. -/
theorem stackInv_of_kept {s t : State} (h : StackInv s) (hst : t.stack = s.stack)
    (hw : ∀ i, inListState (t.win i).state = inListState (s.win i).state ∧
      (inListState (s.win i).state = true → (t.win i).gen = (s.win i).gen ∧ (t.win i).tier = (s.win i).tier)) :
    StackInv t := by
  obtain ⟨hn, hr, hm, hp⟩ := h
  refine ⟨hst ▸ hn, fun r hrt => ?_, fun i hi hl => ?_, ?_⟩
  · rw [hst] at hrt
    obtain ⟨h1, h2⟩ := hr r hrt
    exact ⟨((hw r.slot).2 h2).1.trans h1, (hw r.slot).1.trans h2⟩
  · have hl' := (hw i).1 ▸ hl
    rw [hst, State.refOf, ((hw i).2 hl').1]
    exact hm i hi hl'
  · rw [hst]
    refine hp.imp_of_mem fun hx hy himp hny => ?_
    simp only [isNormal] at *
    rw [((hw _).2 (hr _ hx).2).2]
    rw [((hw _).2 (hr _ hy).2).2] at hny
    exact himp hny

/-- What the list, the view and the panel draw a window of the list by is the same in two records. -/
def sameShown (w v : Window) : Prop :=
  inListState v.state = inListState w.state ∧
    (inListState w.state = true → v.gen = w.gen ∧ v.tier = w.tier ∧ v.layout = w.layout ∧ v.front = w.front ∧ v.active = w.active)

theorem sameShown.refl (w : Window) : sameShown w w := ⟨rfl, fun _ => ⟨rfl, rfl, rfl, rfl, rfl⟩⟩

theorem viewEntry_congr {s t : State} {r : WinRef} (hl : (t.win r.slot).layout = (s.win r.slot).layout)
    (hf : (t.win r.slot).front = (s.win r.slot).front) (ha : (t.win r.slot).active = (s.win r.slot).active) :
    viewEntry t r = viewEntry s r := by
  obtain ⟨h1, h2, h3, h4, h5⟩ := Window.layout_eq hl
  simp only [viewEntry, Window.surface, h1, h2, h3, h4, h5, hf, ha]

/-- The view stays the list where both are kept and the windows of the list are drawn alike. -/
theorem viewInv_of_kept {s t : State} (h : ViewInv s) (hs : StackInv s) (hst : t.stack = s.stack) (hv : t.view = s.view)
    (hw : ∀ i, sameShown (s.win i) (t.win i)) : ViewInv t := by
  unfold ViewInv
  rw [hv, hst, h]
  refine List.map_congr_left fun r hr => ?_
  obtain ⟨-, -, hl, hf, ha⟩ := (hw r.slot).2 (hs.2.1 r hr).2
  exact (viewEntry_congr hl hf ha).symm

/-- The whole of the invariants stays when entries are taken from the queue, the list and the view are kept, and one record is replaced: by one
that is drawn alike and in its ranges, and is no longer armed or keeps what the queue rests on. -/
theorem listSound_of_set {c : Prop} {s t : State} (h : ListSound c s) {i : Slot} {w : Window} {f : CommitEntry → Bool}
    (hw : t.windows = s.windows.set i w) (hq : t.commitQueue = s.commitQueue.filter f) (hst : t.stack = s.stack)
    (hlist : inListState w.state = inListState (s.win i).state ∧
      (inListState (s.win i).state = true → w.gen = (s.win i).gen ∧ w.tier = (s.win i).tier))
    (hfield : fieldOk i (s.win i) → fieldOk i w)
    (harm : (∀ e ∈ t.commitQueue, e.ref.slot ≠ i) ∨
      (w.gen = (s.win i).gen ∧ (live (s.win i) → live w) ∧ w.staging = (s.win i).staging ∧ w.owner = (s.win i).owner)) :
    ListSound c t := by
  have hwin := State.win_of_set hw
  refine ⟨commitInv_filter h.commit hq fun e he => ?_, stackInv_of_kept h.stack hst fun j => ?_, ?_,
    fun hc => consecutiveInv_filter (h.consecutive hc) hq⟩
  · have hl := (h.commit.2.1 e (List.mem_of_mem_filter (hq ▸ he))).2.1
    rw [hwin]
    split
    · next hei =>
      subst hei
      obtain ⟨h1, h2, h3, h4⟩ := harm.resolve_left fun hn => hn e he rfl
      exact ⟨h1, h2 hl, h3, h4⟩
    · exact ⟨rfl, hl, rfl, rfl⟩
  · rw [hwin]
    split
    · next hj => exact hj ▸ hlist
    · exact ⟨rfl, fun _ => ⟨rfl, rfl⟩⟩
  · rw [fieldsInv_iff]
    intro j
    rw [hwin]
    split
    · next hj => exact hj ▸ hfield (fieldsInv_iff.1 h.fields i)
    · exact fieldsInv_iff.1 h.fields j

/-- The invariants rest on the records, the queue and the list alone. -/
theorem listSound_of_fields {c : Prop} {s t : State} (h : ListSound c s) (hw : t.windows = s.windows)
    (hq : t.commitQueue = s.commitQueue) (hst : t.stack = s.stack) : ListSound c t := by
  have hwin := State.win_congr hw
  refine ⟨commitInv_filter h.commit (f := fun _ => true) (by rw [hq, List.filter_true]) fun e he => ?_,
    stackInv_of_kept h.stack hst fun j => ?_, ?_, fun hc => ?_⟩
  · rw [hwin]
    exact ⟨rfl, (h.commit.2.1 e (hq ▸ he)).2.1, rfl, rfl⟩
  · rw [hwin]
    exact ⟨rfl, fun _ => ⟨rfl, rfl⟩⟩
  · rw [fieldsInv_iff]
    intro j
    rw [hwin]
    exact fieldsInv_iff.1 h.fields j
  · exact consecutiveInv_filter (h.consecutive hc) (f := fun _ => true) (by rw [hq, List.filter_true])

/-- Taking entries away alone. -/
theorem listSound_of_cut {c : Prop} {s t : State} (h : ListSound c s) {f : CommitEntry → Bool} (hw : t.windows = s.windows)
    (hq : t.commitQueue = s.commitQueue.filter f) (hst : t.stack = s.stack) : ListSound c t := by
  have hwin := State.win_congr hw
  refine ⟨commitInv_filter h.commit hq fun e he => ?_, stackInv_of_kept h.stack hst fun j => ?_, ?_,
    fun hc => consecutiveInv_filter (h.consecutive hc) hq⟩
  · rw [hwin]
    exact ⟨rfl, (h.commit.2.1 e (List.mem_of_mem_filter (hq ▸ he))).2.1, rfl, rfl⟩
  · rw [hwin]
    exact ⟨rfl, fun _ => ⟨rfl, rfl⟩⟩
  · rw [fieldsInv_iff]
    intro j
    rw [hwin]
    exact fieldsInv_iff.1 h.fields j

/-! ## The invariants with the view -/

/-- The invariants of O58, with the groups consecutive where `c` asks it and the view where `v` does: a boundary takes the view anew only at
its end (R71), so its work is done without it. -/
structure ShownSound (c v : Prop) (s : State) : Prop extends ListSound c s where
  view : v → ViewInv s

theorem shownSound_of_fields {c v : Prop} {s t : State} (h : ShownSound c v s) (hw : t.windows = s.windows)
    (hq : t.commitQueue = s.commitQueue) (hst : t.stack = s.stack) (hv : t.view = s.view) : ShownSound c v t :=
  ⟨listSound_of_fields h.toListSound hw hq hst,
    fun vc => viewInv_of_kept (h.view vc) h.stack hst hv fun i => by rw [State.win_congr hw]; exact .refl _⟩

theorem shownSound_of_cut {c v : Prop} {s t : State} (h : ShownSound c v s) {f : CommitEntry → Bool} (hw : t.windows = s.windows)
    (hq : t.commitQueue = s.commitQueue.filter f) (hst : t.stack = s.stack) (hv : t.view = s.view) : ShownSound c v t :=
  ⟨listSound_of_cut h.toListSound hw hq hst,
    fun vc => viewInv_of_kept (h.view vc) h.stack hst hv fun i => by rw [State.win_congr hw]; exact .refl _⟩

theorem shownSound_of_set {c v : Prop} {s t : State} (h : ShownSound c v s) {i : Slot} {w : Window} {f : CommitEntry → Bool}
    (hw : t.windows = s.windows.set i w) (hq : t.commitQueue = s.commitQueue.filter f) (hst : t.stack = s.stack)
    (hv : t.view = s.view) (hshown : sameShown (s.win i) w) (hfield : fieldOk i (s.win i) → fieldOk i w)
    (harm : (∀ e ∈ t.commitQueue, e.ref.slot ≠ i) ∨
      (w.gen = (s.win i).gen ∧ (live (s.win i) → live w) ∧ w.staging = (s.win i).staging ∧ w.owner = (s.win i).owner)) :
    ShownSound c v t := by
  refine ⟨listSound_of_set h.toListSound hw hq hst ⟨hshown.1, fun hl => ?_⟩ hfield harm,
    fun vc => viewInv_of_kept (h.view vc) h.stack hst hv fun j => ?_⟩
  · obtain ⟨hg, ht, -⟩ := hshown.2 hl
    exact ⟨hg, ht⟩
  · rw [State.win_of_set hw]
    split
    · next hj => exact hj ▸ hshown
    · exact .refl _

/-- One record is replaced and the queue is kept. -/
theorem shownSound_of_win {c v : Prop} {s t : State} (h : ShownSound c v s) {i : Slot} {w : Window}
    (hw : t.windows = s.windows.set i w) (hq : t.commitQueue = s.commitQueue) (hst : t.stack = s.stack)
    (hv : t.view = s.view) (hshown : sameShown (s.win i) w) (hfield : fieldOk i (s.win i) → fieldOk i w)
    (harm : (∀ e ∈ s.commitQueue, e.ref.slot ≠ i) ∨
      (w.gen = (s.win i).gen ∧ (live (s.win i) → live w) ∧ w.staging = (s.win i).staging ∧ w.owner = (s.win i).owner)) :
    ShownSound c v t :=
  shownSound_of_set h (f := fun _ => true) hw (by rw [hq, List.filter_true]) hst hv hshown hfield (hq ▸ harm)

/-! ## Records in their ranges -/

theorem stagingOk_empty {i : Slot} {w : Window} (h : w.staging = Staging.empty) : stagingOk i w := by
  unfold stagingOk
  rw [h]
  simp [Staging.empty]

/-- A record keeps its ranges when its staging is kept or emptied and its size, format, surfaces, front and active fields are kept. -/
theorem fieldOk_of_kept {i : Slot} {w v : Window} (h : fieldOk i w) (hfree : w.state = .free → v.state = .free)
    (hl : v.layout = w.layout) (hf : v.front = w.front) (ha : v.active = w.active)
    (hs : v.staging = w.staging ∨ v.staging = Staging.empty) : fieldOk i v := by
  intro hv
  obtain ⟨hst, hac⟩ := h (fun e => hv (hfree e))
  obtain ⟨h1, h2, h3, h4, h5⟩ := Window.layout_eq hl
  refine ⟨?_, ?_⟩
  · rcases hs with hs | hs
    · simpa only [stagingOk, Window.double, h1, h2, h3, h5, hs] using hst
    · exact stagingOk_empty hs
  · simpa only [activeOk, Window.double, h1, h2, h3, h5, hf, ha] using hac

/-! The reads of the values of a STAGE answer values in range (R84). -/

theorem readPosition_inRange {bs : List Byte} {v : Int × Int} (h : readPosition bs = some v) :
    inPositionRange v.1 ∧ inPositionRange v.2 := by
  unfold readPosition at h
  dsimp only at h
  split at h
  · next hok =>
    cases h
    simpa [positionOk, inPositionRange] using hok
  · cases h

theorem readScroll_inRange {width height : Nat} {bs : List Byte} {v : Nat × Nat} (h : readScroll width height bs = some v) :
    v.1 < width ∧ v.2 < height := by
  unfold readScroll at h
  dsimp only at h
  split at h
  · next hok =>
    cases h
    simpa using hok
  · cases h

theorem readPlacementRef_not_self {i : Slot} {r : RawRef} {x : WinRef} (h : readPlacementRef i r = some x) : x.slot ≠ i := by
  unfold readPlacementRef at h
  split at h
  · cases h
  · split at h
    · cases h
    · next hne =>
      split at h
      · cases h
        exact hne
      · cases h

theorem readPlacement_not_self {i : Slot} {bs : List Byte} {pl : Placement} (h : readPlacement i bs = some pl) :
    ∀ r ∈ placementNamed pl, r.slot ≠ i := by
  have beside : ∀ make : WinRef → Placement, (∀ x, placementNamed (make x) = some x) →
      (readPlacementRef i (refAt bs 1)).map make = some pl → ∀ r ∈ placementNamed pl, r.slot ≠ i := by
    rintro make hmake hm r hr
    obtain ⟨x, hx, rfl⟩ := Option.map_eq_some_iff.1 hm
    rw [hmake] at hr
    cases hr
    exact readPlacementRef_not_self hx
  have alone : ∀ q : Placement, placementNamed q = none → some q = some pl → ∀ r ∈ placementNamed pl, r.slot ≠ i := by
    rintro q hq hm r hr
    cases hm
    rw [hq] at hr
    cases hr
  unfold readPlacement at h
  dsimp only at h
  split at h
  · exact alone .top rfl h
  · split at h
    · exact alone .bottom rfl h
    · split at h
      · exact beside .above (fun _ => rfl) h
      · split at h
        · exact beside .below (fun _ => rfl) h
        · split at h
          · exact alone .out rfl h
          · cases h

theorem readLeaseLength_le {bs : List Byte} {n : Nat} (h : readLeaseLength bs = some n) : n ≤ 250 := by
  unfold readLeaseLength at h
  split at h
  · cases h; assumption
  · cases h

/-- A merged field holds the value read or the value it held (R85). -/
theorem mem_merge {α : Type} {P : α → Prop} {read : List Byte → Option α} (hread : ∀ b v, read b = some v → P v)
    {old : Option α} (hold : ∀ v ∈ old, P v) (bs : Option (List Byte)) : ∀ v ∈ (supplied read bs).merge old, P v := by
  intro v hv
  unfold supplied at hv
  split at hv
  · exact hold v hv
  · split at hv
    · next b _ hr =>
      cases hv
      exact hread _ _ hr
    · exact hold v hv

/-- A field whose mask bit is clear keeps what it held (R85, R192). -/
theorem merge_absent {α : Type} (read : List Byte → Option α) {present : Bool} (h : present = false) (size : Nat)
    (bs : List Byte) (old : Option α) : (supplied read (cutValue present size bs).1).merge old = old := by
  subst h
  rfl

/-- The values an accepted STAGE leaves are in range (R83 to R85). -/
theorem fieldOk_stage {i : Slot} {w : Window} {ps : List Byte} (h : fieldOk i w)
    (hf : stageFormatBad (stageMask ps) w.format = false) (hd : (checkStage i w ps).swap = true → w.double = true) :
    fieldOk i { w with staging := (checkStage i w ps).mergeInto w.staging } := by
  intro hw
  obtain ⟨⟨hpos, hscr, hpl, hm1, hnm1, hsw, hll⟩, hac⟩ := h hw
  refine ⟨⟨mem_merge (fun _ _ => readPosition_inRange) hpos _, mem_merge (fun _ _ => readScroll_inRange) hscr _,
    mem_merge (fun _ _ => readPlacement_not_self) hpl _, fun hm => ?_, fun hm => ?_, fun hs => ?_,
    mem_merge (fun _ _ => readLeaseLength_le) hll _⟩, hac⟩
  · unfold stageFormatBad at hf
    rw [if_pos hm, Bool.or_eq_false_iff] at hf
    obtain ⟨h3, h7⟩ := hf
    obtain ⟨hk, hs⟩ := hm1 hm
    refine ⟨(merge_absent readKey h3 ..).trans hk, ?_⟩
    show (w.staging.swap || (stageMask ps).getLsbD 7) = false
    rw [hs, h7]
    rfl
  · unfold stageFormatBad at hf
    rw [if_neg hm] at hf
    exact (merge_absent readInk hf ..).trans (hnm1 hm)
  · have : w.staging.swap = true ∨ (checkStage i w ps).swap = true := by
      simpa [StagedValues.mergeInto] using hs
    exact this.elim hsw hd

/-- A new window's fields are in range (R14). -/
theorem fieldOk_created {c : CreateParams} (p : Port) (g : Gen) (l : List Block) (i : Slot) (hw : 1 ≤ c.width) (hh : 1 ≤ c.height) :
    fieldOk i (createdWindow c p g l) := by
  refine fun _ => ⟨stagingOk_empty rfl, ?_⟩
  simp [activeOk, createdWindow, ActiveFields.created, inPositionRange]
  omega

/-- A window's fields stay in range as its staged values become active (R95). -/
theorem fieldOk_applied {i : Slot} {w : Window} (h : fieldOk i w) (hfree : w.state ≠ .free) : fieldOk i (appliedWindow w) := by
  obtain ⟨⟨hpos, hscr, -, hm1, hnm1, hsw, hll⟩, hx, hy, hsx, hsy, hkey, hink, hlen, hfront⟩ := h hfree
  refine fun _ => ⟨stagingOk_empty rfl, ?_, ?_, ?_, ?_, fun hm => ?_, fun hm => ?_, ?_, fun hd => ?_⟩
  · show inPositionRange (match w.staging.position with | some p => p.1 | none => w.active.x)
    cases hp : w.staging.position with
    | none => exact hx
    | some v => exact (hpos v hp).1
  · show inPositionRange (match w.staging.position with | some p => p.2 | none => w.active.y)
    cases hp : w.staging.position with
    | none => exact hy
    | some v => exact (hpos v hp).2
  · show (match w.staging.scroll with | some p => p.1 | none => w.active.sx) < w.width
    cases hp : w.staging.scroll with
    | none => exact hsx
    | some v => exact (hscr v hp).1
  · show (match w.staging.scroll with | some p => p.2 | none => w.active.sy) < w.height
    cases hp : w.staging.scroll with
    | none => exact hsy
    | some v => exact (hscr v hp).2
  · have hm' : w.format = .m1 := hm
    simp [appliedWindow, applyFields, (hm1 hm').1, hkey hm']
  · have hm' : w.format ≠ .m1 := hm
    simp [appliedWindow, applyFields, hnm1 hm', hink hm']
  · show w.staging.leaseLength.getD w.active.leaseLength ≤ 250
    cases hp : w.staging.leaseLength with
    | none => exact hlen
    | some l => exact hll l hp
  · have hd' : w.double = false := hd
    have hns : w.staging.swap = false := by
      rw [← Bool.not_eq_true]
      intro hs
      rw [hsw hs] at hd'
      cases hd'
    simp [appliedWindow, hns, hfront hd']

end Sys2Proof.Machine
end

