-- ==== Sys2Proof/Proofs/ListAndQueueSteps.lean ====
section
/-! Every step keeps the commit queue, the list, the view and the fields sound: the operations that edit the queue or the list, the
boundary's work, and the changes of the commands (R66, R67, R70 to R77, R87 to R104). -/

namespace Sys2Proof.Machine

open Sys2Proof.Safety

/-! ## The placement of one window -/

/-- The entries above the run of NORMAL entries of a sound list are OVERLAY (R67). -/
theorem not_normal_of_dropWhile {s : State} {l : List WinRef}
    (h : l.Pairwise (fun x y => isNormal s y = true → isNormal s x = true)) :
    ∀ r ∈ l.dropWhile (isNormal s), isNormal s r = false := by
  induction l with
  | nil => simp
  | cons x rest ih =>
    obtain ⟨hx, hrest⟩ := List.pairwise_cons.1 h
    cases hn : isNormal s x with
    | true =>
      rw [List.dropWhile_cons_of_pos hn]
      exact ih hrest
    | false =>
      rw [List.dropWhile_cons_of_neg (by simp [hn])]
      intro r hr
      rcases List.mem_cons.1 hr with rfl | hr
      · exact hn
      · rw [← Bool.not_eq_true]
        intro hnr
        rw [hx r hr hnr] at hn
        cases hn

/-- Any placement but OUT puts the window into a sound list with no OVERLAY entry below it where it is NORMAL and no NORMAL entry above it
where it is OVERLAY (R67, R72 to R77). -/
theorem place_split {s : State} (h : StackInv s) {i : Slot} {pl : Placement} (hpl : pl ≠ .out)
    (hself : ∀ r ∈ placementNamed pl, r.slot ≠ i) :
    ∃ l m, s.stack.filter (fun r => r ≠ s.refOf i) = l ++ m ∧ (place s (s.win i).tier (s.refOf i) pl).list = l ++ s.refOf i :: m ∧
      ((s.win i).tier = .normal → ∀ r ∈ l, isNormal s r = true) ∧
      ((s.win i).tier = .overlay → ∀ r ∈ m, isNormal s r = false) := by
  obtain ⟨hnd, -, hmem, hpw⟩ := h
  have hpw' : (s.stack.filter (fun r => r ≠ s.refOf i)).Pairwise (fun x y => isNormal s y = true → isNormal s x = true) :=
    hpw.filter _
  have hnd' : (s.stack.filter (fun r => r ≠ s.refOf i)).Nodup := hnd.filter _
  generalize hl : s.stack.filter (fun r => r ≠ s.refOf i) = others at *
  have boundary : ∃ l m, others = l ++ m ∧ atTierBoundary s others (s.refOf i) = l ++ s.refOf i :: m ∧
      ((s.win i).tier = .normal → ∀ r ∈ l, isNormal s r = true) ∧
      ((s.win i).tier = .overlay → ∀ r ∈ m, isNormal s r = false) :=
    ⟨others.takeWhile (isNormal s), others.dropWhile (isNormal s), List.takeWhile_append_dropWhile.symm, rfl,
      fun _ r hr => List.mem_takeWhile_imp hr, fun _ => not_normal_of_dropWhile hpw'⟩
  have top : ∃ l m, others = l ++ m ∧ atTop s (s.win i).tier others (s.refOf i) = l ++ s.refOf i :: m ∧
      ((s.win i).tier = .normal → ∀ r ∈ l, isNormal s r = true) ∧
      ((s.win i).tier = .overlay → ∀ r ∈ m, isNormal s r = false) := by
    cases ht : (s.win i).tier with
    | normal => rw [ht] at boundary; exact boundary
    | overlay => exact ⟨others, [], (List.append_nil _).symm, rfl, nofun, fun _ => by simp⟩
  have bottom : ∃ l m, others = l ++ m ∧ atBottom s (s.win i).tier others (s.refOf i) = l ++ s.refOf i :: m ∧
      ((s.win i).tier = .normal → ∀ r ∈ l, isNormal s r = true) ∧
      ((s.win i).tier = .overlay → ∀ r ∈ m, isNormal s r = false) := by
    cases ht : (s.win i).tier with
    | normal => exact ⟨[], others, rfl, rfl, fun _ => by simp, nofun⟩
    | overlay => rw [ht] at boundary; exact boundary
  have beside : ∀ (named : WinRef) (put : WinRef → WinRef → List WinRef → List WinRef), named.slot ≠ i →
      (∀ a b, others = a ++ named :: b → ∃ l m, others = l ++ m ∧ put named (s.refOf i) others = l ++ s.refOf i :: m ∧
        ((∀ r ∈ l, r ∈ a ∨ r = named) ∧ ∀ r ∈ m, r ∈ b ∨ r = named)) →
      ∃ l m, others = l ++ m ∧ (placeBeside s (s.win i).tier others (s.refOf i) named put).list = l ++ s.refOf i :: m ∧
        ((s.win i).tier = .normal → ∀ r ∈ l, isNormal s r = true) ∧
        ((s.win i).tier = .overlay → ∀ r ∈ m, isNormal s r = false) := by
    intro named put hne hput
    unfold placeBeside
    split
    · exact top
    · next hp =>
      split
      · exact boundary
      · next ht =>
        have ht' : (s.win named.slot).tier = (s.win i).tier := not_not.1 ht
        have hp' : (s.win named.slot).gen = named.gen ∧ inListState (s.win named.slot).state = true := by
          simpa [present] using hp
        have href : s.refOf named.slot = named := by
          cases named
          simpa [State.refOf] using hp'.1
        have hin : named ∈ others := by
          rw [← hl]
          refine List.mem_filter.2 ⟨href ▸ hmem _ (mem_allSlots _) hp'.2, ?_⟩
          rw [decide_eq_true_iff]
          rintro rfl
          exact hne rfl
        obtain ⟨a, b, hab⟩ := List.append_of_mem hin
        obtain ⟨l, m, e1, e2, hla, hmb⟩ := hput a b hab
        rw [hab] at hpw'
        obtain ⟨-, hb, hcross⟩ := List.pairwise_append.1 hpw'
        refine ⟨l, m, e1, e2, fun hn r hr => ?_, fun ho r hr => ?_⟩
        · have hnn : isNormal s named = true := by simp [isNormal, ht', hn]
          rcases hla r hr with hra | rfl
          · exact hcross r hra named List.mem_cons_self hnn
          · exact hnn
        · have hnn : isNormal s named = false := by simp [isNormal, ht', ho]
          rcases hmb r hr with hrb | rfl
          · rw [← Bool.not_eq_true]
            intro hnr
            rw [(List.pairwise_cons.1 hb).1 r hrb hnr] at hnn
            cases hnn
          · exact hnn
  have notin : ∀ {named : WinRef} {a b : List WinRef}, others = a ++ named :: b → named ∉ a := by
    intro named a b hab hm
    rw [hab] at hnd'
    exact (List.nodup_append.1 hnd').2.2 named hm named List.mem_cons_self rfl
  cases pl with
  | top => simpa only [place, hl] using top
  | bottom => simpa only [place, hl] using bottom
  | out => exact absurd rfl hpl
  | above named =>
    simp only [place, hl]
    refine beside named insertAbove (hself named rfl) fun a b hab => ⟨a ++ [named], b, by simp [hab], ?_, by simp, by simp +contextual⟩
    rw [hab, insertAbove_append (notin hab)]
    simp
  | below named =>
    simp only [place, hl]
    refine beside named insertBelow (hself named rfl) fun a b hab => ⟨a, named :: b, hab, ?_, by simp +contextual, by simp +contextual⟩
    rw [hab, insertBelow_append (notin hab)]

/-- The list stays sound when a window's own entry is taken out and the window is left out of it. -/
theorem stackInv_out {s t : State} (h : StackInv s) {i : Slot} {w : Window} (hw : t.windows = s.windows.set i w)
    (hst : t.stack = s.stack.filter (fun r => r ≠ s.refOf i)) (hs : inListState w.state = false) (htier : w.tier = (s.win i).tier) :
    StackInv t := by
  obtain ⟨hn, hr, hm, hp⟩ := h
  have hwin := State.win_of_set hw
  have hnormal : ∀ r, isNormal t r = isNormal s r := by
    intro r
    simp only [isNormal, hwin]
    split
    · next h => rw [htier, h]
    · rfl
  refine ⟨hst ▸ hn.filter _, fun r hrt => ?_, fun j _ hl => ?_, ?_⟩
  · rw [hst] at hrt
    obtain ⟨hrs, hne⟩ := List.mem_filter.1 hrt
    have hne' : r.slot ≠ i := by
      rintro rfl
      refine absurd ?_ (of_decide_eq_true hne)
      cases r
      simpa [State.refOf] using (hr _ hrs).1.symm
    rw [hwin, if_neg hne']
    exact hr r hrs
  · have hj : j ≠ i := by
      rintro rfl
      rw [hwin, if_pos rfl, hs] at hl
      cases hl
    rw [hwin, if_neg hj] at hl
    have : t.refOf j = s.refOf j := by rw [State.refOf, hwin, if_neg hj, State.refOf]
    rw [this, hst]
    exact List.mem_filter.2 ⟨hm j (mem_allSlots j) hl, by simp [State.refOf, hj]⟩
  · rw [hst]
    simpa only [hnormal] using hp.filter _

/-- The list stays sound when a window is put into it where its tier allows. -/
theorem stackInv_put {s t : State} (h : StackInv s) {i : Slot} {w : Window} {l m : List WinRef}
    (hw : t.windows = s.windows.set i w) (hs : inListState w.state = true) (hg : w.gen = (s.win i).gen)
    (htier : w.tier = (s.win i).tier) (hlm : s.stack.filter (fun r => r ≠ s.refOf i) = l ++ m)
    (hst : t.stack = l ++ s.refOf i :: m) (hn : (s.win i).tier = .normal → ∀ r ∈ l, isNormal s r = true)
    (ho : (s.win i).tier = .overlay → ∀ r ∈ m, isNormal s r = false) : StackInv t := by
  obtain ⟨hnd, hr, hm, hp⟩ := h
  have hwin := State.win_of_set hw
  have hnormal : ∀ r, isNormal t r = isNormal s r := by
    intro r
    simp only [isNormal, hwin]
    split
    · next h => rw [htier, h]
    · rfl
  have hothers : ∀ r, r ∈ l ++ m ↔ r ∈ s.stack ∧ r ≠ s.refOf i := by
    intro r
    rw [← hlm, List.mem_filter, decide_eq_true_iff]
  have hmem : ∀ r, r ∈ t.stack ↔ r = s.refOf i ∨ r ∈ l ++ m := by
    intro r
    rw [hst, List.mem_append, List.mem_cons, List.mem_append]
    tauto
  have href : ∀ j, t.refOf j = s.refOf j := by
    intro j
    simp only [State.refOf, hwin]
    split
    · next h => rw [hg, h]
    · rfl
  have hi : isNormal s (s.refOf i) = ((s.win i).tier == .normal) := rfl
  refine ⟨?_, fun r hrt => ?_, fun j _ hl => ?_, ?_⟩
  · rw [hst]
    have : (s.refOf i :: (l ++ m)).Nodup :=
      List.nodup_cons.2 ⟨fun hx => ((hothers _).1 hx).2 rfl, hlm ▸ hnd.filter _⟩
    exact (List.perm_middle.nodup_iff).2 this
  · rcases (hmem r).1 hrt with rfl | hrt
    · rw [State.refOf_slot, hwin, if_pos rfl]
      exact ⟨hg, hs⟩
    · obtain ⟨hrs, hne⟩ := (hothers r).1 hrt
      have hne' : r.slot ≠ i := by
        rintro rfl
        refine hne ?_
        cases r
        simpa [State.refOf] using (hr _ hrs).1.symm
      rw [hwin, if_neg hne']
      exact hr r hrs
  · rw [href, hmem]
    by_cases hj : j = i
    · exact .inl (hj ▸ rfl)
    · rw [hwin, if_neg hj] at hl
      exact .inr ((hothers _).2 ⟨hm j (mem_allSlots j) hl, by simp [State.refOf, hj]⟩)
  · have hpo : (l ++ m).Pairwise (fun x y => isNormal s y = true → isNormal s x = true) := hlm ▸ hp.filter _
    obtain ⟨hpl, hpm, hcross⟩ := List.pairwise_append.1 hpo
    rw [hst]
    simp only [hnormal]
    refine List.pairwise_append.2 ⟨hpl, List.pairwise_cons.2 ⟨fun r hrm hnr => ?_, hpm⟩, fun x hx y hy hny => ?_⟩
    · cases ht : (s.win i).tier with
      | normal => simp [hi, ht]
      | overlay => rw [ho ht r hrm] at hnr; cases hnr
    · rcases List.mem_cons.1 hy with rfl | hy
      · cases ht : (s.win i).tier with
        | normal => exact hn ht x hx
        | overlay => simp [hi, ht] at hny
      · exact hcross x hx y hy hny

/-! ## One application -/

theorem appliedWindow_state (w : Window) : (appliedWindow w).state = appliedState w.state w.staging.placement := rfl

theorem appliedState_live (st : WinState) (pl : Option Placement) : permitLive (appliedState st pl) = true := by
  unfold appliedState
  split
  · rfl
  · rfl
  · split <;> rfl

/-- Without a placement a window stays in or out of the list (R96). -/
theorem appliedState_inList {w : Window} (h : live w) : inListState (appliedState w.state none) = inListState w.state := by
  unfold live at h
  cases hs : w.state with
  | hidden | shown | lapsed => rfl
  | free | retiring =>
    rw [hs] at h
    cases h

/-- The application of an armed window keeps the queue, the list and the fields sound (R95 to R98). -/
theorem listSound_apply {c : Prop} {s : State} (h : ListSound c s) (fc : BitVec 16) (adj : List Nat) {i : Slot}
    (ha : armed s i = true) : ListSound c (applyWindow fc adj s i) := by
  have hl := commitInv_live h.commit ha
  have hfree : (s.win i).state ≠ .free := by
    intro e
    rw [live, e] at hl
    cases hl
  have hw : (applyWindow fc adj s i).windows = s.windows.set i (appliedWindow (s.win i)) := by rw [applyWindow_frame]
  have hq : (applyWindow fc adj s i).commitQueue = s.commitQueue.filter (fun e => e.ref.slot ≠ i) := by
    rw [applyWindow_frame]
  have hst : (applyWindow fc adj s i).stack = (appliedPlacement s i).list := by rw [applyWindow_frame]
  have hfield : fieldOk i (appliedWindow (s.win i)) := fieldOk_applied (fieldsInv_iff.1 h.fields i) hfree
  have hwin := State.win_of_set hw
  refine ⟨commitInv_filter h.commit hq fun e he => ?_, ?_, ?_, fun hc => consecutiveInv_filter (h.consecutive hc) hq⟩
  · rw [hq] at he
    obtain ⟨he, hne⟩ := List.mem_filter.1 he
    rw [hwin, if_neg (of_decide_eq_true hne)]
    exact ⟨rfl, (h.commit.2.1 e he).2.1, rfl, rfl⟩
  · unfold appliedPlacement at hst
    cases hp : (s.win i).staging.placement with
    | none =>
      rw [hp] at hst
      refine stackInv_of_kept h.stack hst fun j => ?_
      rw [hwin]
      split
      · next hj =>
        subst hj
        refine ⟨?_, fun _ => ⟨rfl, rfl⟩⟩
        rw [appliedWindow_state, hp]
        exact appliedState_inList hl
      · exact ⟨rfl, fun _ => ⟨rfl, rfl⟩⟩
    | some pl =>
      rw [hp] at hst
      by_cases hout : pl = .out
      · subst hout
        exact stackInv_out h.stack hw hst (by rw [appliedWindow_state, hp]; rfl) rfl
      · have hself := (fieldsInv_iff.1 h.fields i hfree).1.2.2.1 pl hp
        obtain ⟨l, m, hlm, hput, hn, ho⟩ := place_split h.stack hout hself
        refine stackInv_put h.stack hw ?_ rfl rfl hlm (hst.trans hput) hn ho
        rw [appliedWindow_state, hp]
        cases pl with
        | out => exact absurd rfl hout
        | top | bottom | above | below => rfl
  · rw [fieldsInv_iff]
    intro j
    rw [hwin]
    split
    · next hj => exact hj ▸ hfield
    · exact fieldsInv_iff.1 h.fields j

/-- The application of the windows of a unit, one after another. -/
theorem listSound_foldl_apply {c : Prop} (fc : BitVec 16) (adj : List Nat) (l : List Slot) (hn : l.Nodup) {s : State}
    (h : ListSound c s) (ha : ∀ i ∈ l, armed s i = true) : ListSound c (l.foldl (applyWindow fc adj) s) := by
  induction l generalizing s with
  | nil => exact h
  | cons i rest ih =>
    obtain ⟨hi, hrest⟩ := List.nodup_cons.1 hn
    refine ih hrest (listSound_apply h fc adj (ha i List.mem_cons_self)) fun j hj => ?_
    obtain ⟨e, he, hs⟩ := armed_iff.1 (ha j (List.mem_cons_of_mem _ hj))
    refine armed_iff.2 ⟨e, ?_, hs⟩
    rw [applyWindow_frame]
    refine List.mem_filter.2 ⟨he, ?_⟩
    rw [decide_eq_true_iff, hs]
    rintro rfl
    exact hi hj

/-! ## Deferral and expiry -/

/-- A list of slots takes each group of a queue whole or not at all. -/
def groupClosed (q : List CommitEntry) (l : List Slot) : Prop :=
  ∀ e ∈ q, ∀ x ∈ q, e.tag ≠ 0 → x.tag = e.tag → e.ref.slot ∈ l → x.ref.slot ∈ l

/-- Each entry of a queue stands, but for its count, in another. -/
def queueWithin (q' q : List CommitEntry) : Prop := ∀ x ∈ q', ∃ e ∈ q, e.ref.slot = x.ref.slot ∧ e.tag = x.tag

theorem queueWithin.refl (q : List CommitEntry) : queueWithin q q := fun x hx => ⟨x, hx, rfl, rfl⟩

theorem queueWithin_filter (q : List CommitEntry) (f : CommitEntry → Bool) : queueWithin (q.filter f) q :=
  fun x hx => ⟨x, List.mem_of_mem_filter hx, rfl, rfl⟩

theorem queueWithin.trans {a b c : List CommitEntry} (h1 : queueWithin a b) (h2 : queueWithin b c) : queueWithin a c := by
  intro x hx
  obtain ⟨e, he, hs, ht⟩ := h1 x hx
  obtain ⟨d, hd, hs', ht'⟩ := h2 e he
  exact ⟨d, hd, hs'.trans hs, ht'.trans ht⟩

theorem groupClosed_of_within {q q' : List CommitEntry} {l : List Slot} (h : groupClosed q l) (hq : queueWithin q' q) :
    groupClosed q' l := by
  intro e he x hx ht hxt hl
  obtain ⟨d, hd, hds, hdt⟩ := hq e he
  obtain ⟨y, hy, hys, hyt⟩ := hq x hx
  rw [← hys]
  exact h d hd y hy (hdt ▸ ht) (by rw [hyt, hxt, hdt]) (hds ▸ hl)

/-- The count of a unit's entry goes up by one (R99). -/
def countedEntry (l : List Slot) (e : CommitEntry) : CommitEntry :=
  if e.ref.slot ∈ l then { e with deferral := e.deferral + 1 } else e

theorem deferUnit_commitQueue (s : State) (l : List Slot) :
    (deferUnit s l).commitQueue = s.commitQueue.map (countedEntry l) := rfl

theorem countedEntry_ref (l : List Slot) (e : CommitEntry) : (countedEntry l e).ref = e.ref := by
  unfold countedEntry; split <;> rfl

theorem countedEntry_tag (l : List Slot) (e : CommitEntry) : (countedEntry l e).tag = e.tag := by
  unfold countedEntry; split <;> rfl

/-- The walk's unit that is not ready keeps the queue, the list and the fields sound as it is deferred or expires (R99). -/
theorem listSound_holdBack {c : Prop} {s : State} (h : ListSound c s) (fc : BitVec 16) {l : List Slot}
    (hg : groupClosed s.commitQueue l) : ListSound c (holdBack fc s l) := by
  unfold holdBack
  split
  · next hall =>
    have hbelow : ∀ e ∈ s.commitQueue, e.ref.slot ∈ l → e.deferral < 15 := fun e he hel =>
      of_decide_eq_true (List.all_eq_true.1 hall e (List.mem_filter.2 ⟨he, decide_eq_true hel⟩))
    obtain ⟨hn, he, hgr⟩ := h.commit
    refine ⟨⟨?_, ?_, ?_⟩, stackInv_of_kept h.stack rfl fun _ => ⟨rfl, fun _ => ⟨rfl, rfl⟩⟩, h.fields,
      fun hc => consecutiveInv_map (h.consecutive hc) (countedEntry_tag l) rfl⟩
    · show ((s.commitQueue.map (countedEntry l)).map (fun e => e.ref.slot)).Nodup
      simpa [List.map_map, Function.comp_def, countedEntry_ref] using hn
    · intro x hx
      rw [deferUnit_commitQueue] at hx
      obtain ⟨e, hes, rfl⟩ := List.mem_map.1 hx
      obtain ⟨h1, h2, h3, h4, h5⟩ := he e hes
      refine ⟨by rw [countedEntry_ref]; exact h1, by rw [countedEntry_ref]; exact h2, by rw [countedEntry_ref]; exact h3,
        by rw [countedEntry_tag]; exact h4, ?_⟩
      unfold countedEntry
      split
      · next hel => exact hbelow e hes hel
      · exact h5
    · intro x hx y hy hxt hyt
      rw [deferUnit_commitQueue] at hx hy
      obtain ⟨e, hes, rfl⟩ := List.mem_map.1 hx
      obtain ⟨d, hds, rfl⟩ := List.mem_map.1 hy
      rw [countedEntry_tag] at hxt hyt
      rw [countedEntry_tag] at hyt
      obtain ⟨k1, k2⟩ := hgr e hes d hds hxt hyt
      have hsame : d.ref.slot ∈ l ↔ e.ref.slot ∈ l :=
        ⟨hg d hds e hes (hyt ▸ hxt) hyt.symm, hg e hes d hds hxt hyt⟩
      refine ⟨by rw [countedEntry_ref, countedEntry_ref]; exact k1, ?_⟩
      simp only [countedEntry, hsame]
      split
      · exact congrArg (· + 1) k2
      · exact k2
  · rw [expireUnit_frame]
    exact listSound_of_cut h rfl rfl rfl

theorem holdBack_within (fc : BitVec 16) (s : State) (l : List Slot) :
    queueWithin (holdBack fc s l).commitQueue s.commitQueue := by
  unfold holdBack
  split
  · intro x hx
    obtain ⟨e, he, rfl⟩ := List.mem_map.1 hx
    exact ⟨e, he, by split <;> rfl, by split <;> rfl⟩
  · rw [expireUnit_frame]
    exact queueWithin_filter _ _

/-! ## Retirement, leases and offers -/

theorem retiring_inList {w : Window} (h : live w) (hh : w.state ≠ .hidden) : inListState w.state = inListState .retiring := by
  unfold live at h
  cases hs : w.state <;> rw [hs] at h hh
  case hidden => exact absurd rfl hh
  case shown | lapsed => rfl
  case free => cases h

theorem retiredWindow_sameShown {w : Window} (h : live w) : sameShown w (retiredWindow w) := by
  unfold retiredWindow
  split
  · next hh => exact ⟨by rw [hh]; rfl, fun hl => by rw [hh] at hl; cases hl⟩
  · next hh =>
    exact ⟨(retiring_inList h hh).symm, fun _ => ⟨rfl, rfl, rfl, rfl, rfl⟩⟩

theorem fieldOk_retired {i : Slot} {w : Window} (h : fieldOk i w) (hl : live w) : fieldOk i (retiredWindow w) := by
  unfold retiredWindow
  split
  · exact fun hn => absurd rfl hn
  · exact fieldOk_of_kept h (fun e => by rw [live, e] at hl; cases hl) rfl rfl rfl (.inr rfl)

theorem retireWindow_cut (s : State) (i : Slot) (c : RetireCause) :
    ∃ f, (retireWindow s i c).commitQueue = s.commitQueue.filter f := by
  rw [retireWindow_commitQueue]
  exact removeUnit_filter s i

theorem shownSound_retire {c v : Prop} {s : State} (h : ShownSound c v s) {i : Slot} (hl : live (s.win i)) (k : RetireCause) :
    ShownSound c v (retireWindow s i k) := by
  obtain ⟨f, hf⟩ := retireWindow_cut s i k
  refine shownSound_of_set h (retireWindow_windows s i k) hf (retireWindow_stack s i k)
    (State.fields_of_steady (retireWindow_steady s i k)).2.2.2.1 (retiredWindow_sameShown hl)
    (fun hf => fieldOk_retired hf hl) (.inl ?_)
  rw [retireWindow_commitQueue]
  exact removeUnit_not_armed h.commit i

/-- The windows of a DETACH are retired one after another. -/
theorem shownSound_foldl_retire {c v : Prop} (k : RetireCause) (l : List Slot) (hn : l.Nodup) {s : State} (h : ShownSound c v s)
    (hl : ∀ i ∈ l, live (s.win i)) : ShownSound c v (l.foldl (fun t i => retireWindow t i k) s) := by
  induction l generalizing s with
  | nil => exact h
  | cons i rest ih =>
    obtain ⟨hi, hrest⟩ := List.nodup_cons.1 hn
    refine ih hrest (shownSound_retire h (hl i List.mem_cons_self) k) fun j hj => ?_
    have hji : j ≠ i := fun e => hi (e ▸ hj)
    rw [retireWindow_win_of_ne s k hji]
    exact hl j (List.mem_cons_of_mem _ hj)

/-- What the record of a visited window says of each outcome of the visit (R129). -/
theorem leaseOutcome_visited {w : Window} (h : leaseOutcome w ≠ .unchanged) :
    (w.state = .shown ∨ w.state = .lapsed) ∧ 0 < w.active.leaseLength := by
  have hv : leaseVisited w = true := by
    rw [← Bool.not_eq_false]
    exact fun e => h (by simp [leaseOutcome, e])
  simp only [leaseVisited, Bool.and_eq_true, decide_eq_true_eq] at hv
  refine ⟨?_, hv.2⟩
  revert hv
  cases w.state <;> simp [permitShown]

theorem leaseOutcome_lapses {w : Window} (h : leaseOutcome w = .lapses) :
    w.state = .shown ∧ 0 < w.active.leaseLength ∧ w.renewPending = false ∧ w.leaseCounter = 1 := by
  obtain ⟨-, hL⟩ := leaseOutcome_visited (w := w) (by rw [h]; nofun)
  revert h
  unfold leaseOutcome
  split
  · nofun
  · split
    · nofun
    · split
      · split
        · nofun
        · split
          · next hr hs _ hc => exact fun _ => ⟨hs, hL, by simpa using hr, hc⟩
          · nofun
      · split
        · nofun
        · split <;> nofun

theorem leaseOutcome_evicted {w : Window} (h : leaseOutcome w = .evicted) : evictionDue w := by
  obtain ⟨hs, hL⟩ := leaseOutcome_visited (w := w) (by rw [h]; nofun)
  revert h
  unfold leaseOutcome
  split
  · nofun
  · split
    · nofun
    · split
      · split
        · nofun
        · split <;> nofun
      · split
        · nofun
        · split
          · next hr hns _ hc => exact fun _ => ⟨hs.resolve_left hns, hL, by simpa using hr, hc⟩
          · nofun

theorem live_of_visited {w : Window} (h : w.state = .shown ∨ w.state = .lapsed) : live w := by
  rcases h with h | h <;> rw [live, h] <;> rfl

/-- A record whose counts and renewal alone change, and which stays SHOWN or LAPSED. -/
theorem shownSound_of_counts {c v : Prop} {s t : State} (h : ShownSound c v s) {i : Slot} {w : Window}
    (hw : t.windows = s.windows.set i w) (hq : t.commitQueue = s.commitQueue) (hst : t.stack = s.stack) (hv : t.view = s.view)
    (hs : (s.win i).state = w.state ∨ (inListState (s.win i).state = true ∧ (w.state = .shown ∨ w.state = .lapsed)))
    (hg : w.gen = (s.win i).gen) (ht : w.tier = (s.win i).tier) (hl : w.layout = (s.win i).layout)
    (hf : w.front = (s.win i).front) (ha : w.active = (s.win i).active) (hsg : w.staging = (s.win i).staging)
    (ho : w.owner = (s.win i).owner) : ShownSound c v t := by
  have hlist : inListState w.state = inListState (s.win i).state := by
    rcases hs with hs | ⟨hs, h' | h'⟩
    · rw [hs]
    · rw [hs, h']; rfl
    · rw [hs, h']; rfl
  have hlive : live (s.win i) → live w := by
    rcases hs with hs | ⟨-, hs⟩
    · rw [live, live, hs]; exact id
    · exact fun _ => live_of_visited hs
  refine shownSound_of_win h hw hq hst hv ⟨hlist, fun _ => ⟨hg, ht, hl, hf, ha⟩⟩ (fun hfo => ?_) (.inr ⟨hg, hlive, hsg, ho⟩)
  refine fieldOk_of_kept hfo (fun e => ?_) hl hf ha (.inl hsg)
  rcases hs with hs | ⟨hs, -⟩
  · exact hs ▸ e
  · rw [e] at hs; cases hs

theorem inList_of_visited {w : Window} (h : w.state = .shown ∨ w.state = .lapsed) : inListState w.state = true := by
  rcases h with h | h <;> rw [h] <;> rfl

theorem shownSound_lapse {c v : Prop} {s : State} (h : ShownSound c v s) {i : Slot} (hs : inListState (s.win i).state = true) :
    ShownSound c v (lapseWindow s i) := by
  rw [lapseWindow_frame]
  exact shownSound_of_counts h rfl rfl rfl rfl (.inr ⟨hs, .inr rfl⟩) rfl rfl rfl rfl rfl rfl rfl

theorem shownSound_evict {c v : Prop} {s : State} (h : ShownSound c v s) {i : Slot} (hl : live (s.win i)) :
    ShownSound c v (evictWindow s i) := by
  unfold evictWindow
  refine shownSound_retire ?_ ?_ .eviction
  · exact shownSound_of_counts h (State.setWin_windows ..) rfl rfl rfl (.inl rfl) rfl rfl rfl rfl rfl rfl rfl
  · rw [State.win_setWin_same]
    exact hl

end Sys2Proof.Machine
end

