-- ==== Sys2Proof/Proofs/ListAndQueueSound.lean ====
section
/-! The boundary's removal in closed form; then its work, and every other change a command makes, keep the commit queue, the list, the view
and the fields sound. -/

namespace Sys2Proof.Machine

open Sys2Proof.Safety

/-! ## Removal (R70) -/

theorem releaseWindow_win (s : State) (i j : Slot) :
    (releaseWindow s i).win j = if j = i then Window.free ((s.win i).gen + 1) else s.win j :=
  State.win_of_set (by rw [releaseWindow_frame]) j

/-- The records after several windows are released one after another. -/
theorem foldl_releaseWindow_win {l : List Slot} (hn : l.Nodup) (s : State) (j : Slot) :
    (l.foldl releaseWindow s).win j = if j ∈ l then Window.free ((s.win j).gen + 1) else s.win j := by
  induction l generalizing s with
  | nil => rfl
  | cons i rest ih =>
    obtain ⟨hi, hrest⟩ := List.nodup_cons.1 hn
    rw [List.foldl_cons, ih hrest, releaseWindow_win]
    by_cases hj : j = i
    · subst hj
      simp [hi]
    · simp [hj]

/-- The windows a boundary removes. -/
def goneSlots (s : State) : List Slot := allSlots.filter (fun i => (s.win i).state == .retiring)

theorem goneSlots_nodup (s : State) : (goneSlots s).Nodup := allSlots_nodup.filter _

theorem mem_goneSlots {s : State} {i : Slot} : i ∈ goneSlots s ↔ (s.win i).state = .retiring := by
  simp [goneSlots, mem_allSlots]

theorem removeRetiring_win (s : State) (j : Slot) :
    (removeRetiring s).win j = if (s.win j).state = .retiring then Window.free ((s.win j).gen + 1) else s.win j := by
  simp only [← mem_goneSlots]
  exact foldl_releaseWindow_win (goneSlots_nodup s) _ j

theorem removeRetiring_stack (s : State) :
    (removeRetiring s).stack = s.stack.filter (fun r => !(goneSlots s).contains r.slot) := by
  rw [removeRetiring_frame]
  rfl

theorem removeRetiring_commitQueue (s : State) : (removeRetiring s).commitQueue = s.commitQueue := by
  rw [removeRetiring_frame]

/-- Removal keeps the queue, the list and the fields sound (R70). -/
theorem listSound_removeRetiring {c : Prop} {s : State} (h : ListSound c s) : ListSound c (removeRetiring s) := by
  have hwin := removeRetiring_win s
  have hq : (removeRetiring s).commitQueue = s.commitQueue.filter (fun _ => true) := by
    rw [removeRetiring_commitQueue, List.filter_true]
  refine ⟨commitInv_filter h.commit hq fun e he => ?_, ?_, ?_, fun hc => consecutiveInv_filter (h.consecutive hc) hq⟩
  · rw [removeRetiring_commitQueue] at he
    have hl := (h.commit.2.1 e he).2.1
    rw [hwin, if_neg (fun hr => by rw [live, hr] at hl; cases hl)]
    exact ⟨rfl, hl, rfl, rfl⟩
  · obtain ⟨hn, hr, hm, hp⟩ := h.stack
    have hkept : ∀ r, r ∈ (removeRetiring s).stack ↔ r ∈ s.stack ∧ (s.win r.slot).state ≠ .retiring := by
      simp [removeRetiring_stack, mem_goneSlots]
    refine ⟨removeRetiring_stack s ▸ hn.filter _, fun r hrt => ?_, fun i hi hl => ?_, ?_⟩
    · obtain ⟨hrs, hne⟩ := (hkept r).1 hrt
      rw [hwin, if_neg hne]
      exact hr r hrs
    · rw [hwin] at hl
      split at hl
      · cases hl
      · next hne =>
        have href : (removeRetiring s).refOf i = s.refOf i := by simp [State.refOf, hwin, hne]
        rw [href]
        exact (hkept _).2 ⟨hm i hi hl, hne⟩
    · rw [removeRetiring_stack]
      refine (hp.filter _).imp_of_mem fun hx hy himp => ?_
      rw [← removeRetiring_stack] at hx hy
      simp only [isNormal, hwin, if_neg ((hkept _).1 hx).2, if_neg ((hkept _).1 hy).2]
      exact himp
  · rw [fieldsInv_iff]
    intro i
    rw [hwin]
    split
    · exact fun hn => absurd rfl hn
    · exact fieldsInv_iff.1 h.fields i

/-! ## The boundary's work -/

/-- A boundary under way is sound: the queue, the list and the fields are, and the walk's units take each group whole or not at all. -/
structure Walking (c : Prop) (run : BoundaryRun) : Prop where
  sound : ShownSound c False run.state
  units : ∀ u ∈ run.toWalk, u.Nodup ∧ groupClosed run.state.commitQueue u

theorem walking_of_same {c : Prop} {run : BoundaryRun} (h : Walking c run) {t : State} (hs : ShownSound c False t)
    (hq : queueWithin t.commitQueue run.state.commitQueue) : Walking c { run with state := t } :=
  ⟨hs, fun u hu => ⟨(h.units u hu).1, groupClosed_of_within (h.units u hu).2 hq⟩⟩

theorem queueWithin_of_eq {a b : List CommitEntry} (h : a = b) : queueWithin a b := h ▸ .refl b

theorem foldl_apply_within (fc : BitVec 16) (adj : List Nat) (l : List Slot) (s : State) :
    queueWithin (l.foldl (applyWindow fc adj) s).commitQueue s.commitQueue := by
  induction l generalizing s with
  | nil => exact .refl _
  | cons i rest ih =>
    refine (ih _).trans ?_
    rw [applyWindow_frame]
    exact queueWithin_filter _ _

theorem listSound_walkUnit {c : Prop} {s : State} (h : ListSound c s) (plan : BoundaryPlan) {u : List Slot} (hn : u.Nodup)
    (hg : groupClosed s.commitQueue u) : ListSound c (walkUnit plan s u) := by
  unfold walkUnit
  split
  · exact h
  · next ha =>
    split
    · exact listSound_foldl_apply _ _ u hn h (List.all_eq_true.1 (by simpa using ha))
    · exact listSound_holdBack h _ hg

theorem walkUnit_within (plan : BoundaryPlan) (s : State) (u : List Slot) :
    queueWithin (walkUnit plan s u).commitQueue s.commitQueue := by
  unfold walkUnit
  split
  · exact .refl _
  · split
    · exact foldl_apply_within _ _ _ _
    · exact holdBack_within _ _ _

theorem shownSound_renew {c v : Prop} {s : State} (h : ShownSound c v s) {i : Slot} (hs : inListState (s.win i).state = true) :
    ShownSound c v (renewWindow s i) := by
  rw [renewWindow_frame]
  exact shownSound_of_counts h rfl rfl rfl rfl (.inr ⟨hs, .inl rfl⟩) rfl rfl rfl rfl rfl rfl rfl

theorem shownSound_visit {c v : Prop} {s : State} (h : ShownSound c v s) (i : Slot) : ShownSound c v (visitWindow s i) := by
  have visited (ho : leaseOutcome (s.win i) ≠ .unchanged) := (leaseOutcome_visited ho).1
  unfold visitWindow
  dsimp only
  split
  · next ho => exact shownSound_renew h (inList_of_visited (visited (by rw [ho]; nofun)))
  · exact shownSound_of_counts h (State.setWin_windows ..) rfl rfl rfl (.inl rfl) rfl rfl rfl rfl rfl rfl rfl
  · next ho => exact shownSound_lapse h (inList_of_visited (visited (by rw [ho]; nofun)))
  · exact shownSound_of_counts h (State.setWin_windows ..) rfl rfl rfl (.inl rfl) rfl rfl rfl rfl rfl rfl rfl
  · next ho => exact shownSound_evict h (live_of_visited (visited (by rw [ho]; nofun)))
  · exact h

theorem visitWindow_within (s : State) (i : Slot) : queueWithin (visitWindow s i).commitQueue s.commitQueue := by
  unfold visitWindow
  dsimp only
  split
  · rw [renewWindow_frame]; exact .refl _
  · exact .refl _
  · rw [lapseWindow_frame]; exact .refl _
  · exact .refl _
  · unfold evictWindow
    obtain ⟨f, hf⟩ := retireWindow_cut (s.setWin i { s.win i with graceCounter := 0 }) i .eviction
    rw [hf]
    exact queueWithin_filter _ _
  · exact .refl _

theorem shownSound_countOffer {c v : Prop} {s : State} (h : ShownSound c v s) (i : Slot) : ShownSound c v (countOffer s i) := by
  unfold countOffer
  dsimp only
  split
  · split
    · exact shownSound_of_counts h (State.setWin_windows ..) rfl rfl rfl (.inl rfl) rfl rfl rfl rfl rfl rfl rfl
    · exact shownSound_of_counts h (State.setWin_windows ..) rfl rfl rfl (.inl rfl) rfl rfl rfl rfl rfl rfl rfl
  · exact h

theorem shownSound_raiseOwner {c v : Prop} {s : State} (h : ShownSound c v s) (o : Option Port) (k : NoticeKind) (r : WinRef)
    (d : BitVec 16) : ShownSound c v (raiseOwner s o k r d) := by
  rw [raiseOwner_frame]
  exact shownSound_of_fields h rfl rfl rfl rfl

theorem shownSound_leaseVisit {c v : Prop} {s : State} (h : ShownSound c v s) (plan : BoundaryPlan) (i : Slot) :
    ShownSound c v (leaseVisit plan s i) := by
  unfold leaseVisit
  split
  · exact h
  · split
    · split
      · exact shownSound_raiseOwner h ..
      · exact h
    · exact shownSound_visit h i

theorem leaseVisit_within (plan : BoundaryPlan) (s : State) (i : Slot) :
    queueWithin (leaseVisit plan s i).commitQueue s.commitQueue := by
  unfold leaseVisit
  split
  · exact .refl _
  · split
    · split
      · rw [raiseOwner_frame]; exact .refl _
      · exact .refl _
    · exact visitWindow_within s i

theorem walking_boundaryTask {c : Prop} {run : BoundaryRun} (h : Walking c run) (plan : BoundaryPlan) (t : BoundaryTask) :
    Walking c (boundaryTask plan run t) := by
  cases t with
  | profileNotice =>
    simp only [boundaryTask]
    rw [profileNotice_frame]
    exact walking_of_same h (shownSound_of_fields h.sound rfl rfl rfl rfl) (.refl _)
  | walkUnit =>
    simp only [boundaryTask]
    split
    · exact h
    · next u rest hu =>
      obtain ⟨hn, hg⟩ := h.units u (hu ▸ List.mem_cons_self)
      refine ⟨⟨listSound_walkUnit h.sound.toListSound plan hn hg, False.elim⟩, fun x hx => ?_⟩
      obtain ⟨hxn, hxg⟩ := h.units x (hu ▸ List.mem_cons_of_mem _ hx)
      exact ⟨hxn, groupClosed_of_within hxg (walkUnit_within _ _ _)⟩
  | leaseVisit n =>
    simp only [boundaryTask]
    split
    · exact walking_of_same h (shownSound_leaseVisit h.sound ..) (leaseVisit_within _ _ _)
    · exact h
  | offerCount n =>
    simp only [boundaryTask]
    split
    · exact walking_of_same h (shownSound_countOffer h.sound _) (queueWithin_of_eq (by rw [countOffer_frame]))
    · exact h
  | frameNotice p =>
    simp only [boundaryTask]
    rw [frameNotice_frame]
    exact walking_of_same h (shownSound_of_fields h.sound rfl rfl rfl rfl) (.refl _)

/-- The walk of a sound queue begins with its own units. -/
theorem units_closed {s : State} (h : CommitInv s) : ∀ u ∈ (units s).map unitSlots, u.Nodup ∧ groupClosed s.commitQueue u := by
  intro u hu
  obtain ⟨m, hm, rfl⟩ := List.mem_map.1 hu
  obtain ⟨e, he, rfl⟩ := (mem_units h).1 hm
  refine ⟨h.1.sublist (List.filter_sublist.map _), fun a ha b hb hta hab hin => ?_⟩
  obtain ⟨d, hd, hda⟩ := List.mem_map.1 hin
  obtain ⟨hdq, hde⟩ := List.mem_filter.1 hd
  have hda' : d = a := commitInv_entry_unique h hdq ha hda
  subst hda'
  refine List.mem_map.2 ⟨b, List.mem_filter.2 ⟨hb, decide_eq_true ?_⟩, rfl⟩
  rcases of_decide_eq_true hde with rfl | ⟨ht, hd'⟩
  · exact .inr ⟨hta, hab⟩
  · exact .inr ⟨ht, hab.trans hd'⟩

theorem shownSound_settle {c v : Prop} {s : State} (h : ShownSound c v s) : ShownSound c v (settleEngine s) := by
  rw [settleEngine_frame]
  exact shownSound_of_fields h rfl rfl rfl rfl

theorem shownSound_takeView {c v : Prop} {s : State} (h : ListSound c s) : ShownSound c v (takeView s) :=
  ⟨listSound_of_fields h rfl rfl rfl, fun _ => rfl⟩

theorem shownSound_boundary {c v : Prop} {s : State} (h : ShownSound c v s) (order : BoundaryOrder) :
    ShownSound c v (frameBoundary order s) := by
  have h1 : ListSound c (removeRetiring { s with timing := timingBoundary s.timing }) :=
    listSound_removeRetiring (listSound_of_fields h.toListSound rfl rfl rfl)
  refine shownSound_settle (shownSound_takeView ?_)
  refine (foldl_invariant (Walking c) _ (fun run t hr => walking_boundaryTask hr _ t) _ _ ⟨⟨h1, False.elim⟩, ?_⟩).sound.toListSound
  intro u hu
  rw [show (removeRetiring { s with timing := timingBoundary s.timing }).commitQueue = s.commitQueue from removeRetiring_commitQueue _]
  exact units_closed h.commit u hu

/-! ## Requests -/

theorem shownSound_cancel {c v : Prop} {s : State} (h : ShownSound c v s) (hit : EngineOp → Bool) :
    ShownSound c v (cancelOps s hit) := by
  rw [cancelOps_frame]
  exact shownSound_of_fields h rfl rfl rfl rfl

theorem shownSound_decline {c v : Prop} {s : State} (h : ShownSound c v s) (d : BitVec 16) (i : Slot) :
    ShownSound c v (declineOffer d s i) := by
  rw [declineOffer_frame]
  exact shownSound_of_counts h rfl rfl rfl rfl (.inl rfl) rfl rfl rfl rfl rfl rfl rfl

theorem shownSound_detach {c v : Prop} {s : State} (h : ShownSound c v s) (p : Port) : ShownSound c v (detachPort s p) := by
  have hw : ShownSound c v (detachWindows s p) := by
    refine shownSound_foldl_retire .detach _ (allSlots_nodup.filter _) h fun i hi => ?_
    have := (List.mem_filter.1 hi).2
    rw [Bool.and_eq_true] at this
    exact this.2
  have he : ShownSound c v (detachEngine s p) := shownSound_of_fields (shownSound_cancel hw _) rfl rfl rfl rfl
  have ho : ShownSound c v (detachOffers s p) :=
    foldl_invariant (ShownSound c v) _ (fun t i ht => shownSound_decline ht _ i) _ _ he
  exact shownSound_settle (shownSound_of_fields ho rfl rfl rfl rfl)

/-- The tag of an ARM is in range, and free where it is a group's (R88, R90). -/
theorem armTag_eq_some {s : State} {slots : List Slot} {tag : Nat} (h : armTag s slots = some tag) :
    tag ≤ 15 ∧ (tag ≠ 0 → ∀ x ∈ s.commitQueue, x.tag ≠ tag) := by
  unfold armTag at h
  split at h
  · cases h
    exact ⟨Nat.zero_le _, fun h0 => absurd rfl h0⟩
  · unfold lowestFreeTag at h
    have hm := List.mem_of_find?_eq_some h
    have hf := List.find?_some h
    refine ⟨?_, fun _ x hx ht => ?_⟩
    · simp only [List.mem_cons, List.not_mem_nil, or_false] at hm
      omega
    · simp only [tagInUse, Bool.not_eq_true', List.any_eq_false, beq_iff_eq] at hf
      exact hf x hx ht

theorem commitInv_arm {s : State} (h : CommitInv s) {p : Port} {slots : List Slot} {tag : Nat}
    (hw : ∀ i ∈ slots, (s.win i).owner = some p ∧ live (s.win i))
    (ha : ∀ i ∈ slots, armed s i = false ∧ (s.win i).staging ≠ Staging.empty) (hn : slots.Nodup)
    (ht : tag ≤ 15 ∧ (tag ≠ 0 → ∀ x ∈ s.commitQueue, x.tag ≠ tag)) : CommitInv (armWindows s slots tag) := by
  obtain ⟨hnd, he, hg⟩ := h
  obtain ⟨ht, hfree⟩ := ht
  have mem : ∀ e ∈ (armWindows s slots tag).commitQueue, e ∈ s.commitQueue ∨ ∃ i ∈ slots, e = ⟨s.refOf i, tag, 0⟩ := by
    intro e hm
    refine (List.mem_append.1 hm).imp_right fun hm => ?_
    obtain ⟨i, hi, rfl⟩ := List.mem_map.1 hm
    exact ⟨i, hi, rfl⟩
  refine ⟨?_, fun e hm => ?_, fun e hm x hx h0 hxt => ?_⟩
  · show ((s.commitQueue ++ slots.map (fun i => (⟨s.refOf i, tag, 0⟩ : CommitEntry))).map (fun e : CommitEntry => e.ref.slot)).Nodup
    rw [List.map_append, List.map_map]
    have hid : slots.map ((fun e : CommitEntry => e.ref.slot) ∘ fun i => ⟨s.refOf i, tag, 0⟩) = slots := List.map_id slots
    rw [hid]
    refine List.nodup_append'.2 ⟨hnd, hn, fun i hi hs => ?_⟩
    obtain ⟨e, hes, rfl⟩ := List.mem_map.1 hi
    exact armed_eq_false.1 (ha _ hs).1 e hes rfl
  · rcases mem e hm with hm | ⟨i, hi, rfl⟩
    · exact he e hm
    · exact ⟨rfl, (hw i hi).2, (ha i hi).2, ht, Nat.zero_le _⟩
  · rcases mem e hm with hm | ⟨i, hi, rfl⟩
    · rcases mem x hx with hx | ⟨j, hj, rfl⟩
      · exact hg e hm x hx h0 hxt
      · have hxt : tag = e.tag := hxt
        exact absurd hxt.symm (hfree (hxt ▸ h0) e hm)
    · rcases mem x hx with hx | ⟨j, hj, rfl⟩
      · exact absurd hxt (hfree h0 x hx)
      · exact ⟨(hw j hj).1.trans (hw i hi).1.symm, rfl⟩

theorem shownSound_arm {c v : Prop} {s : State} (h : ShownSound c v s) {p : Port} {slots : List Slot} {tag : Nat}
    (hw : ∀ i ∈ slots, (s.win i).owner = some p ∧ live (s.win i))
    (ha : ∀ i ∈ slots, armed s i = false ∧ (s.win i).staging ≠ Staging.empty) (hn : slots.Nodup)
    (ht : armTag s slots = some tag) : ShownSound c v (armWindows s slots tag) :=
  ⟨⟨commitInv_arm h.commit hw ha hn (armTag_eq_some ht), h.stack, h.fields,
      fun hc => consecutiveInv_append (h.consecutive hc) (by simp) (armTag_eq_some ht).2 rfl⟩, h.view⟩

theorem shownSound_create {c v : Prop} {s : State} (h : ShownSound c v s) {p : Port} {k : CreateParams} {i : Slot} {ps : List Byte}
    (hk : readCreate ps = some k) (hi : lowestFreeSlot s = some i) : ShownSound c v (createWindow s p k i) := by
  obtain ⟨hw, -, hh, -⟩ := readCreate_eq_some hk
  have hfree := lowestFreeSlot_free hi
  have hlive : ¬ live (s.win i) := by rw [live, hfree]; nofun
  rw [createWindow_frame]
  refine shownSound_of_win h rfl rfl rfl rfl ⟨by rw [hfree]; rfl, fun hl => ?_⟩ (fun _ => fieldOk_created _ _ _ _ hw hh)
    (.inl (not_armed_of_not_live h.commit hlive))
  rw [hfree] at hl
  cases hl

theorem shownSound_transfer {c v : Prop} {s : State} (h : ShownSound c v s) (i : Slot) (p : Port) :
    ShownSound c v (transferWindow s i p) := by
  obtain ⟨f, hf⟩ := removeUnit_filter s i
  rw [transferWindow_frame]
  exact shownSound_of_set h rfl hf rfl rfl ⟨rfl, fun _ => ⟨rfl, rfl, rfl, rfl, rfl⟩⟩
    (fun hfo => fieldOk_of_kept hfo id rfl rfl rfl (.inr rfl)) (.inl (removeUnit_not_armed h.commit i))

theorem State.win_of_map {s t : State} {f : Window → Window} (h : t.windows = s.windows.map f) (i : Slot) :
    t.win i = f (s.win i) := by
  simp only [State.win, h, Fin.getElem_fin, Vector.getElem_map]

theorem restartedWindow_free (w : Window) : (restartedWindow w).state = .free := by
  unfold restartedWindow
  split
  · assumption
  · rfl

theorem shownSound_restart (c v : Prop) (s : State) : ShownSound c v (restartDevice s) := by
  rw [restartDevice_eq]
  refine shownSound_settle ⟨⟨⟨List.nodup_nil, nofun, nofun⟩, ⟨List.nodup_nil, nofun, fun i _ hl => ?_, .nil⟩, fun i _ hf => ?_,
    fun _ => nofun⟩, fun _ => rfl⟩
  · rw [State.win_of_map rfl, restartedWindow_free] at hl
    cases hl
  · rw [State.win_of_map rfl, restartedWindow_free] at hf
    exact absurd rfl hf

theorem shownSound_reset (c v : Prop) : ShownSound c v State.reset := by
  obtain ⟨-, -, ⟨hcommit, hconsecutive, hstack, hview, hfields⟩, -⟩ := reset_evaluated
  exact ⟨⟨hcommit, hstack, hfields, fun _ => hconsecutive⟩, fun _ => hview⟩

/-! ## Every step -/

theorem visitDue_iff {s : State} {i : Slot} {o : LeaseOutcome} :
    visitDue s i o = true ↔ leaseOutcome (s.win i) = o ∧ i ∉ readySlots s := by
  simp [visitDue]

/-- Every change a command makes keeps the queue, the list, the view and the fields sound. -/
theorem shownSound_change {c v : Prop} {s u : State} {q : Option Port} (h : ShownSound c v s) (hc : Change s q u) :
    ShownSound c v u := by
  cases hc with
  | reset => exact shownSound_of_fields (shownSound_reset c v) rfl rfl rfl rfl
  | detach p => exact shownSound_detach h p
  | create p k i ps hk _ hi => exact shownSound_create h hk hi
  | retire p i _ hl => exact shownSound_settle (shownSound_retire h hl _)
  | stage p i ps _ _ ha _ hf hd =>
    exact shownSound_of_win h (State.setWin_windows ..) rfl rfl rfl ⟨rfl, fun _ => ⟨rfl, rfl, rfl, rfl, rfl⟩⟩
      (fun hfo => fieldOk_stage hfo hf hd) (.inl (armed_eq_false.1 ha))
  | discard p i _ _ ha =>
    exact shownSound_of_win h (State.setWin_windows ..) rfl rfl rfl ⟨rfl, fun _ => ⟨rfl, rfl, rfl, rfl, rfl⟩⟩
      (fun hfo => fieldOk_of_kept hfo id rfl rfl rfl (.inr rfl)) (.inl (armed_eq_false.1 ha))
  | arm p slots tag hw ha hn ht => exact shownSound_arm h hw ha hn ht
  | disarm p i =>
    obtain ⟨f, hf⟩ := removeUnit_filter s i
    exact shownSound_of_cut h (by rw [removeUnit_frame]) hf (by rw [removeUnit_frame]) (by rw [removeUnit_frame])
  | renew p i | offer p i | withdraw p i | offerExpiry i =>
    exact shownSound_of_counts h (State.setWin_windows ..) rfl rfl rfl (.inl rfl) rfl rfl rfl rfl rfl rfl rfl
  | accept p i => exact shownSound_transfer h i p
  | decline p i => exact shownSound_decline h _ i
  | restart => exact shownSound_restart c v s
  | boundary order => exact shownSound_boundary h order
  | expire i => rw [expireUnit_frame]; exact shownSound_of_cut h rfl rfl rfl rfl
  | lapse i hd =>
    have ho := (visitDue_iff.1 hd).1
    exact shownSound_lapse h (inList_of_visited (.inl (leaseOutcome_lapses ho).1))
  | evict i hd =>
    have ho := (visitDue_iff.1 hd).1
    exact shownSound_settle (shownSound_evict h (live_of_visited (.inr (leaseOutcome_evicted ho).1)))
  | keep | link | collect | subscribe | query | stream | timing | quota | grace => exact shownSound_of_fields h rfl rfl rfl rfl
  | put => rw [acceptOp_frame]; exact shownSound_of_fields h rfl rfl rfl rfl
  | draw => rw [acceptOp_frame]; exact shownSound_of_fields h rfl rfl rfl rfl
  | cancel => exact shownSound_settle (shownSound_cancel h _)
  | complete op => rw [completeOp_frame]; exact shownSound_of_fields h rfl rfl rfl rfl
  | scrub b => exact shownSound_settle (shownSound_of_fields h rfl rfl rfl rfl)

/-- Settles O58: each operation replaces records, takes entries away, or appends a unit; the boundary applies whole units and takes the view
last. -/
theorem listAndCommitQueueStaySound : Obligations.ListAndCommitQueueStaySound := by
  intro s t hc hs hv hf h
  have hsound : ShownSound (ConsecutiveInv s) True s := ⟨⟨hc, hs, hf, id⟩, fun _ => hv⟩
  have ht := step_keeps (I := ShownSound (ConsecutiveInv s) True)
    (fun u _ _ hu => shownSound_of_fields hu rfl rfl rfl rfl) (fun u _ hu => shownSound_of_fields hu rfl rfl rfl rfl)
    (fun _ _ _ hv hc => shownSound_change hv hc) hsound h
  exact ⟨ht.commit, ht.stack, ht.view trivial, ht.fields, ht.consecutive⟩

end Sys2Proof.Machine
end

