-- ==== Sys2Proof/Proofs/ResetAndReports.lean ====
section
/-! The state at hardware reset; the requests whose reference check fails; the requests that only report (R10, R11, R20, R21, R22, R80, R185). -/

namespace Sys2Proof.Machine

open Sys2Proof.Safety

/-! ## Hardware reset (O2, O54) -/

theorem resetValues_reset : resetValues State.reset := reset_evaluated.2.1

/-- Settles O2: the blocks take the values of the reset state, and a transaction that goes on is no longer judged. -/
theorem hardwareResetValues : Obligations.HardwareResetValues := by
  refine ⟨resetValues_reset, fun s => ⟨hardwareReset s, rfl, ?_, fun p => ?_⟩⟩
  · obtain ⟨hwin, hfree, hscrub, hcharge, hquota, hops, hact, hstreams, hcounter, hqueue, hstack, hview, hgrace, htiming, hnotices, hsub, -⟩ :=
      resetValues_reset
    refine ⟨hwin, hfree, hscrub, hcharge, hquota, hops, hact, hstreams, hcounter, hqueue, hstack, hview, hgrace, htiming, hnotices, hsub,
      fun p _ => ?_⟩
    cases p <;> exact ⟨rfl, rfl, rfl⟩
  · have reset_transaction (l : Link) : (resetLink l).transaction =
        if l.transaction = none then none else some { out := [], carriesHeld := false, judged := false } := by
      unfold resetLink
      cases l.transaction <;> rfl
    cases p <;> exact reset_transaction _

/-- A surface without blocks reads 0 (R25). -/
theorem readSurface_nil (f : FrameStore) (o : Nat) : readSurface f [] o = 0 := rfl

theorem reset_surface (i : Slot) (id : SurfaceId) : (State.reset.win i).surface id = [] := by
  obtain ⟨-, -, -, -, -, hsurface⟩ := reset_evaluated
  exact hsurface i id

theorem paddingInv_reset : PaddingInv State.reset := by
  intro i id
  rw [reset_surface]
  exact ⟨fun _ _ => readSurface_nil .., fun _ _ _ _ _ _ => by simp [readSurface_nil]⟩

/-- Settles O54: each invariant is evaluated in the reset state, but for the links, which carry no transaction, and the padding: no surface
has a block. -/
theorem resetIsSound : Obligations.ResetIsSound := by
  obtain ⟨hpool, -, ⟨hcommit, hconsecutive, hstack, hview, hfields⟩, ⟨hnotices, hquota, hstore, hzero, hengine⟩,
    ⟨hshape, hlease, hoffer⟩, -⟩ := reset_evaluated
  exact ⟨hnotices, hpool, hquota, hstore, hzero, hengine, hcommit, hconsecutive, hstack, hview, hfields, hshape, hlease, hoffer,
    ⟨nofun, nofun⟩, paddingInv_reset⟩

/-! ## The completion of a request in processing -/

/-- A request of a defined code and the right length, within the port's authority, is settled as its own evaluation says (R183). -/
theorem complete_taken {s : State} {p : Port} {r : Request} {code : Byte} {taken : List Byte → Verdict} (h : Processing s p r)
    (hcode : r.code = code) (hc : code ∈ definedCodes) (hl : lengthOk code r.params = true)
    (hp : p = .A ∨ portAOnly code r.params = false) : complete s p code taken = (taken r.params).settle s p r.tag := by
  subst hcode
  rw [complete_of_processing taken h, evaluate_taken taken hc hl hp]

/-- The state that answers a request, with the response held. -/
theorem complete_answer {s : State} {p : Port} {r : Request} {code : Byte} {taken : List Byte → Verdict} {t : State} {st : Status}
    {payload : List Byte} (h : Processing s p r) (hcode : r.code = code) (hc : code ∈ definedCodes)
    (hl : lengthOk code r.params = true) (hp : p = .A ∨ portAOnly code r.params = false)
    (ht : taken r.params = .answer t st payload) : complete s p code taken = t.hold p ⟨st, r.tag, payload⟩ := by
  rw [complete_taken h hcode hc hl hp, ht, settle_answer]

theorem complete_refuse {s : State} {p : Port} {r : Request} {code : Byte} {taken : List Byte → Verdict} {st : Status}
    (h : Processing s p r) (hcode : r.code = code) (hc : code ∈ definedCodes) (hl : lengthOk code r.params = true)
    (hp : p = .A ∨ portAOnly code r.params = false) (ht : taken r.params = .refuse st) :
    complete s p code taken = s.hold p ⟨st, r.tag, []⟩ := by
  rw [complete_taken h hcode hc hl hp, ht, settle_refuse]

/-! ## The reference check (O12) -/

theorem withWindow_refuse {s : State} {p : Port} {o : Ownership} {permit : WinState → Bool} {r : RawRef} {st : Status}
    {next : Slot → Verdict} (h : refCheck s p o permit r = .error st) : withWindow s p o permit r next = .refuse st := by
  unfold withWindow
  rw [h]

theorem withWindow_ok {s : State} {p : Port} {o : Ownership} {permit : WinState → Bool} {r : RawRef} {i : Slot}
    {next : Slot → Verdict} (h : refCheck s p o permit r = .ok i) : withWindow s p o permit r next = next i := by
  unfold withWindow
  rw [h]

/-- A handle that names no slot fails step 1 (R11). -/
theorem refCheck_no_slot {s : State} {p : Port} {o : Ownership} {permit : WinState → Bool} {r : RawRef}
    (h : r.handle.toNat = 0 ∨ 24 < r.handle.toNat) : refCheck s p o permit r = .error .badParam := by
  unfold refCheck
  rw [slotOfHandle_eq_none.2 (by omega)]

/-- A handle that names a slot comes to the other three steps (R11). -/
theorem refCheck_slot {s : State} {p : Port} {o : Ownership} {permit : WinState → Bool} {r : RawRef} {i : Slot}
    (h : r.handle.toNat = i.val + 1) : refCheck s p o permit r =
      if (s.win i).state = .free ∨ (s.win i).gen.val ≠ r.gen.toNat then .error .staleRef
      else if ownershipOk o p (s.win i) = false then .error .notOwner
      else if permit (s.win i).state = false then .error .badState
      else .ok i := by
  unfold refCheck
  rw [slotOfHandle_eq_some.2 h]

/-- A reference that names a window comes to the last two steps (R11). -/
theorem refCheck_names {s : State} {p : Port} {o : Ownership} {permit : WinState → Bool} {r : RawRef} {i : Slot} (h : Names s r i) :
    refCheck s p o permit r =
      if ownershipOk o p (s.win i) = false then .error .notOwner
      else if permit (s.win i).state = false then .error .badState
      else .ok i := by
  obtain ⟨hh, hs, hg⟩ := h
  rw [refCheck_slot hh, if_neg (by rintro (h | h); exacts [hs h, h hg.symm])]

theorem not_ownershipOk {o : Ownership} {p : Port} {w : Window}
    (h : (o = .owner ∧ w.owner ≠ some p) ∨ (o = .ownerOrA ∧ w.owner ≠ some p ∧ p = .B)) : ownershipOk o p w = false := by
  rw [← Bool.not_eq_true]
  rcases h with ⟨rfl, h⟩ | ⟨rfl, h, rfl⟩
  · simpa using h
  · simpa using h

theorem ownershipOk_of {o : Ownership} {p : Port} {w : Window}
    (h : o = .any ∨ w.owner = some p ∨ (o = .ownerOrA ∧ p = .A)) : ownershipOk o p w = true := by
  rcases h with rfl | h | ⟨rfl, rfl⟩
  · rfl
  · cases o with
    | any => rfl
    | owner => exact ownershipOk_owner.2 h
    | ownerOrA => exact ownershipOk_ownerOrA.2 (.inl h)
  · exact ownershipOk_ownerOrA.2 (.inr rfl)

/-- The request of each row names its window first: a failed reference check is its refusal (R10, R183). -/
theorem referenceTable_refuses {s : State} {p : Port} {r : Request} {x : Byte × Instr × Ownership × (WinState → Bool)} {st : Status}
    (h : Processing s p r) (hx : x ∈ referenceTable p) (hcode : x.1 = r.code) (hl : lengthOk r.code r.params = true)
    (hr : refCheck s p x.2.2.1 x.2.2.2 (refAt r.params 0) = .error st) :
    exec x.2.1 s = .next (s.hold p ⟨st, r.tag, []⟩) := by
  have row {code : Byte} {taken : List Byte → Verdict} (hc : code = r.code) (hdef : code ∈ definedCodes)
      (hport : portAOnly code r.params = false) (htaken : taken r.params = .refuse st) :
      complete s p code taken = s.hold p ⟨st, r.tag, []⟩ :=
    complete_refuse h hc.symm hdef (hc ▸ hl) (.inr hport) htaken
  simp only [referenceTable, List.mem_cons, List.not_mem_nil, or_false] at hx
  rcases hx with rfl | rfl | rfl | rfl | rfl | rfl | rfl | rfl | rfl | rfl | rfl | rfl <;>
    exact congrArg Host.Outcome.next (row hcode (by decide) rfl (withWindow_refuse hr))

theorem armCheck_refuses {s : State} {p : Port} {st : Status} {f : Nat → RawRef} (m k : Nat) (l : List Nat)
    (hl : l = List.range' m l.length) (hk : k < l.length) (hok : ∀ j < k, ∃ i, refCheck s p .owner permitLive (f (m + j)) = .ok i)
    (hr : refCheck s p .owner permitLive (f (m + k)) = .error st) : armCheck s p (l.map f) = .error st := by
  induction l generalizing m k with
  | nil => cases hk
  | cons a rest ih =>
    rw [List.length_cons, List.range'_succ, List.cons.injEq] at hl
    obtain ⟨rfl, hrest⟩ := hl
    cases k with
    | zero =>
      have hr : refCheck s p .owner permitLive (f a) = .error st := hr
      simp only [List.map_cons, armCheck, hr]
    | succ k =>
      obtain ⟨i, hi⟩ : ∃ i, refCheck s p .owner permitLive (f a) = .ok i := hok 0 (Nat.succ_pos k)
      have hfold : armCheck s p (rest.map f) = .error st := by
        refine ih (a + 1) k hrest (Nat.lt_of_succ_lt_succ hk) (fun j hj => ?_) ?_
        · rw [Nat.add_assoc, Nat.add_comm 1 j]
          exact hok (j + 1) (Nat.succ_lt_succ hj)
        · rw [Nat.add_assoc, Nat.add_comm 1 k]
          exact hr
      simp only [List.map_cons, armCheck, hi, hfold]

/-- Settles O12: the check stops at its first failing step, and a request stops at its first failing reference. -/
theorem failedReferenceRefuses : Obligations.FailedReferenceRefuses := by
  refine ⟨fun s p r x st => referenceTable_refuses, fun s p r st h hc hl hr => ?_, fun s p r k st h hc hl hk hok hr => ?_,
    fun s p o permit r => ⟨refCheck_no_slot, fun i hi => ⟨fun hbad => ?_, fun hn ho => ?_, fun hn ho => ?_⟩⟩⟩
  · refine congrArg Host.Outcome.next (complete_refuse h hc (by decide) (beq_iff_eq.2 hl) (.inr rfl) ?_)
    rcases hr with hr | ⟨⟨i, hi⟩, hr⟩
    · exact withWindow_refuse hr
    · exact (withWindow_ok hi).trans (withWindow_refuse hr)
  · have hl' : lengthOk 0x22 r.params = true := hc ▸ hl
    refine congrArg Host.Outcome.next (complete_refuse h hc (by decide) hl' (.inr rfl) ?_)
    have hcheck : armCheck s p (armRefs r.params) = .error st := by
      refine armCheck_refuses 0 k _ ?_ (by simpa using hk) ?_ ?_
      · rw [List.length_range, List.range_eq_range']
      · simpa using hok
      · simpa using hr
    unfold takeArm
    rw [hcheck]
  · rw [refCheck_slot hi, if_pos (hbad.imp_right Ne.symm)]
  · rw [refCheck_names hn, if_pos (not_ownershipOk ho)]
  · rw [refCheck_names hn, if_neg (by rw [ownershipOk_of ho]; nofun)]
    cases permit (s.win i).state <;> rfl

/-! ## Reports (O13) -/

/-- The bytes of a counter of 32 bits (R185, R189). -/
theorem be32_toNat (n : BitVec 32) :
    be32 n.toNat = [n.extractLsb' 24 8, n.extractLsb' 16 8, n.extractLsb' 8 8, n.extractLsb' 0 8] := by
  have byte (k : Nat) : byteOf (n.toNat / 2 ^ k) = n.extractLsb' k 8 := by
    rw [byteOf, BitVec.extractLsb', Nat.shiftRight_eq_div_pow]
  unfold be32
  rw [← byte 24, ← byte 16, ← byte 8, ← byte 0]
  norm_num

theorem statusPayload_eq (s : State) (p : Port) : statusPayload s p =
    [byteOf s.freeSet.length, byteOf s.scrubList.length, byteOf (s.charge.get p), byteOf (s.quota.get p),
     if s.timing.current = .P0 then 0x00 else 0x01,
     if s.timing.pendingSwitch = none then 0xFF else if s.timing.pendingSwitch = some .P0 then 0x00 else 0x01,
     if s.timing.display then 0x01 else 0x00,
     s.timing.frameCounter.extractLsb' 24 8, s.timing.frameCounter.extractLsb' 16 8,
     s.timing.frameCounter.extractLsb' 8 8, s.timing.frameCounter.extractLsb' 0 8,
     byteOf s.opQueue.length, byteOf s.commitQueue.length, byteOf (s.notices.get p).list.length,
     (s.links.get p).lastRejection.code] := by
  have code (slot : ProfileSlot) : slot.code = if slot = .P0 then 0x00 else 0x01 := by cases slot <;> rfl
  have pending : (match s.timing.pendingSwitch with
      | none => (0xFF : Byte)
      | some slot => slot.code) =
      if s.timing.pendingSwitch = none then 0xFF else if s.timing.pendingSwitch = some .P0 then 0x00 else 0x01 := by
    cases s.timing.pendingSwitch with
    | none => rfl
    | some slot => simp [code]
  unfold statusPayload
  rw [be32_toNat, code]
  simp only [List.cons_append, List.nil_append, List.cons.injEq, true_and, and_true, flagByte]
  exact pending

theorem mem_ownedSlots {s : State} {p : Port} {i : Slot} :
    i ∈ ownedSlots s p ↔ (s.win i).state ≠ .free ∧ (s.win i).owner = some p := by
  simp [ownedSlots, mem_allSlots]

/-- Settles O13: each of the four requests answers the state as it was, and its payload is read off the blocks. -/
theorem readingRequestsReport : Obligations.ReadingRequestsReport := by
  refine ⟨by decide, fun s p tag => ⟨fun h => ?_, fun h => ?_, fun h => ?_, fun h => ?_⟩⟩
  · exact congrArg Host.Outcome.next (complete_answer h rfl (by decide) rfl (.inr rfl) rfl)
  · rw [← statusPayload_eq]
    exact congrArg Host.Outcome.next (complete_answer h rfl (by decide) rfl (.inr rfl) rfl)
  · refine ⟨ownedSlots s p, List.Pairwise.filter _ (List.pairwise_lt_finRange 24), fun i => mem_ownedSlots, ?_⟩
    exact congrArg Host.Outcome.next (complete_answer h rfl (by decide) rfl (.inr rfl) rfl)
  · exact congrArg Host.Outcome.next (complete_answer h rfl (by decide) rfl (.inr rfl) rfl)

end Sys2Proof.Machine
end

