-- ==== Sys2Proof/Proofs/QueryAndCreate.lean ====
section
/-! The record a QUERY reports, piece by piece, and what a CREATE checks and makes (R13, R14, R20, R29, R30, R191, R195). -/

namespace Sys2Proof.Machine

open Sys2Proof.Safety

/-! ## The pieces of a record (R195) -/

/-- The piece of a list that stands at an offset, and the offset of the next. -/
theorem piece_at {α : Type} {l c rest : List α} {n m k : Nat} (h : l.drop n = c ++ rest) (hc : c.length = m) (hk : n + m = k) :
    (l.drop n).take m = c ∧ l.drop k = rest := by
  subst hc hk
  rw [← List.drop_drop, h]
  simp

theorem slotBytes_length {α : Type} {size : Nat} {bytes : α → List Byte} (h : ∀ v, (bytes v).length = size) (o : Option α) :
    (slotBytes size bytes o).length = size := by
  cases o with
  | none => exact List.length_replicate
  | some v => exact h v

theorem slotBytes_getD {α : Type} (size : Nat) (bytes : α → List Byte) (o : Option α) :
    slotBytes size bytes o = (o.map bytes).getD (List.replicate size 0) := by
  cases o <;> rfl

theorem placementBytes_length (n : Nat) (pl : Placement) : (placementBytes n pl).length = 3 := by cases pl <;> rfl

theorem keyBytes_length (n : Nat) (k : StagedKey) : (keyBytes n k).length = 4 := by cases k <;> rfl

theorem entryBytes_length (e : Option CommitEntry) : (entryBytes e).length = 3 := by cases e <;> rfl

theorem offerBytes_length (o : Option Offer) : (offerBytes o).length = 3 := by cases o <;> rfl

/-- The first 15 bytes of a record: what the window is. -/
def queryIdentity (s : State) (i : Slot) : List Byte :=
  [byteOf i.handle, byteOf (s.win i).gen.val, (s.win i).state.code, ownerCode (s.win i).owner, (s.win i).tier.code, (s.win i).format.code]
    ++ be16 (s.win i).width ++ be16 (s.win i).height ++ be16 (s.win i).stride
    ++ [byteOf (s.win i).surfaceCount, byteOf (s.win i).front.val, byteOf (s.win i).surface0.length]

/-- The next 22 bytes: the active fields and the staging mask. -/
def queryActive (w : Window) : List Byte :=
  beSigned w.active.x ++ beSigned w.active.y ++ be16 w.active.sx ++ be16 w.active.sy
    ++ (flagByte w.active.key.isSome :: slotBytes 3 colourBytes w.active.key)
    ++ colourBytes w.active.ink ++ [byteOf w.active.leaseLength, w.active.policy.code]
    ++ colourBytes w.active.fallbackColour ++ be16 (stagingMask w.staging)

/-- The 6 bytes before the block list: the offer, the lease counter, the renewal and the grace counter. -/
def queryCounts (w : Window) : List Byte :=
  offerBytes w.offer ++ [byteOf w.leaseCounter, flagByte w.renewPending, byteOf w.graceCounter]

/-- Associativity in the shape of a record, on lists that are not written out. -/
theorem append_pieces {α : Type} (a b c d e f g h i j k l m n o p q r t u v w x y z : List α) :
    a ++ b ++ c ++ d ++ e ++ f ++ g ++ h ++ i ++ j ++ k ++ l ++ m ++ n ++ (o ++ p ++ q ++ r ++ t ++ u ++ v) ++ w ++ x ++ y ++ z =
      (a ++ b ++ c ++ d ++ e) ++ ((f ++ g ++ h ++ i ++ j ++ k ++ l ++ m ++ n) ++
        (o ++ (p ++ (q ++ (r ++ (t ++ (u ++ (v ++ (w ++ ((x ++ y) ++ z)))))))))) := by
  simp only [List.append_assoc]

/-- A record is its pieces in order. -/
theorem queryRecord_eq (s : State) (n : Nat) (i : Slot) :
    queryRecord s n i = queryIdentity s i ++ (queryActive (s.win i) ++
      (slotBytes 4 (fun p => beSigned p.1 ++ beSigned p.2) (s.win i).staging.position ++
      (slotBytes 4 (fun p => be16 p.1 ++ be16 p.2) (s.win i).staging.scroll ++
      (slotBytes 3 (placementBytes n) (s.win i).staging.placement ++
      (slotBytes 4 (keyBytes (n + 2)) (s.win i).staging.key ++
      (slotBytes 3 colourBytes (s.win i).staging.ink ++
      (slotBytes 1 (fun l => [byteOf l]) (s.win i).staging.leaseLength ++
      (slotBytes 4 (fun f => f.1.code :: colourBytes f.2) (s.win i).staging.fallback ++
      (entryBytes (commitEntry s i) ++ (queryCounts (s.win i) ++ (s.win i).blocks.map (fun b => byteOf b.val))))))))))) :=
  append_pieces ..

theorem queryActive_length (w : Window) : (queryActive w).length = 22 := by
  simp only [queryActive, List.length_append, List.length_cons, slotBytes_length colourBytes_length]
  rfl

/-- The mask of a staging has 8 bits. -/
theorem stagingMask_lt (v : Staging) : stagingMask v < 256 := by
  have bit (b : Bool) : b.toNat ≤ 1 := Bool.toNat_le b
  unfold stagingMask
  have h0 := bit v.position.isSome
  have h1 := bit v.scroll.isSome
  have h2 := bit v.placement.isSome
  have h3 := bit v.key.isSome
  have h4 := bit v.ink.isSome
  have h5 := bit v.leaseLength.isSome
  have h6 := bit v.fallback.isSome
  have h7 := bit v.swap
  omega

theorem be16_stagingMask (v : Staging) : be16 (stagingMask v) = [0x00, byteOf (maskOf v)] := by
  rw [be16, Nat.div_eq_of_lt (stagingMask_lt v)]
  rfl

/-- The identity bytes of a window that a reference names. -/
theorem queryIdentity_of_names {s : State} {h g : Byte} {i : Slot} (hn : Names s ⟨h, g⟩ i) :
    queryIdentity s i = [h, g, (s.win i).state.code, ownerCode (s.win i).owner, (s.win i).tier.code, (s.win i).format.code]
      ++ be16 (s.win i).width ++ be16 (s.win i).height ++ be16 (s.win i).stride
      ++ [if (s.win i).surface1 = none then 1 else 2, byteOf (s.win i).front.val, byteOf (s.win i).surface0.length] := by
  obtain ⟨hh, -, hg⟩ := hn
  have hcount : byteOf (s.win i).surfaceCount = if (s.win i).surface1 = none then 1 else 2 := by
    unfold Window.surfaceCount Window.double
    cases (s.win i).surface1 <;> rfl
  have hh' : byteOf i.handle = h := by
    rw [show i.handle = h.toNat from hh.symm, byteOf_self]
  have hg' : byteOf (s.win i).gen.val = g := by
    rw [show (s.win i).gen.val = g.toNat from hg.symm, byteOf_self]
  rw [queryIdentity, hcount, hh', hg']

theorem queryActive_eq (w : Window) : queryActive w = beSigned w.active.x ++ beSigned w.active.y
    ++ be16 w.active.sx ++ be16 w.active.sy
    ++ (match w.active.key with
        | some c => [0x01, c.red, c.green, c.blue]
        | none => [0x00, 0x00, 0x00, 0x00])
    ++ colourBytes w.active.ink ++ [byteOf w.active.leaseLength, w.active.policy.code]
    ++ colourBytes w.active.fallbackColour ++ [0x00, byteOf (maskOf w.staging)] := by
  rw [queryActive, be16_stagingMask]
  cases w.active.key <;> rfl

theorem entryBytes_commitEntry (s : State) (i : Slot) : entryBytes (commitEntry s i) =
    (match s.commitQueue.find? (fun e => e.ref.slot = i) with
      | some e => [0x01, byteOf e.tag, byteOf e.deferral]
      | none => [0x00, 0x00, 0x00]) := by
  have hp : (fun e : CommitEntry => e.ref.slot == i) = fun e => decide (e.ref.slot = i) := by
    funext e
    exact beq_eq_decide ..
  rw [commitEntry, hp]
  cases s.commitQueue.find? (fun e => e.ref.slot = i) <;> rfl

theorem queryCounts_eq (w : Window) : queryCounts w =
    (match w.offer with
      | some o => [0x01, portCode o.target, byteOf o.frames]
      | none => [0x00, 0x00, 0x00])
    ++ [byteOf w.leaseCounter, if w.renewPending then 0x01 else 0x00, byteOf w.graceCounter] := by
  unfold queryCounts
  cases w.offer <;> rfl

/-- A reference that names a window passes the check of a request that any port may make in any state (R11). -/
theorem refCheck_any {s : State} {p : Port} {r : RawRef} {i : Slot} (h : Names s r i) : refCheck s p .any permitAll r = .ok i := by
  have hpermit : permitAll (s.win i).state = true := by
    unfold permitAll
    split
    · next hfree => exact absurd hfree h.2.1
    · rfl
  rw [refCheck_names h, if_neg (by rw [ownershipOk_of (.inl rfl)]; nofun), if_neg (by rw [hpermit]; nofun)]

/-- Settles O14: the record is cut into its pieces, each found at its offset. -/
theorem queryReportsRecord : Obligations.QueryReportsRecord := by
  refine ⟨⟨rfl, rfl, rfl, fun _ => rfl⟩, fun s p tag h g i hp hn => ⟨queryRecord s s.draws i, ?_, ?_⟩⟩
  · exact congrArg Host.Outcome.next (complete_answer hp rfl (by decide) rfl (.inr rfl) (withWindow_ok (refCheck_any hn)))
  have d0 : (queryRecord s s.draws i).drop 0 = _ := queryRecord_eq s s.draws i
  obtain ⟨hIdentity, d15⟩ := piece_at (m := 15) (k := 15) d0 rfl rfl
  obtain ⟨hActive, d37⟩ := piece_at (m := 22) (k := 37) d15 (queryActive_length _) rfl
  obtain ⟨hPosition, d41⟩ := piece_at (m := 4) (k := 41) d37 (slotBytes_length (fun v => by cases v; rfl) _) rfl
  obtain ⟨hScroll, d45⟩ := piece_at (m := 4) (k := 45) d41 (slotBytes_length (fun v => by cases v; rfl) _) rfl
  obtain ⟨hPlacement, d48⟩ := piece_at (m := 3) (k := 48) d45 (slotBytes_length (placementBytes_length _) _) rfl
  obtain ⟨hKey, d52⟩ := piece_at (m := 4) (k := 52) d48 (slotBytes_length (keyBytes_length _) _) rfl
  obtain ⟨hInk, d55⟩ := piece_at (m := 3) (k := 55) d52 (slotBytes_length colourBytes_length _) rfl
  obtain ⟨hLease, d56⟩ := piece_at (m := 1) (k := 56) d55 (slotBytes_length (fun v => List.length_singleton) _) rfl
  obtain ⟨hFallback, d60⟩ := piece_at (m := 4) (k := 60) d56 (slotBytes_length (fun v => by cases v; rfl) _) rfl
  obtain ⟨hEntry, d63⟩ := piece_at (m := 3) (k := 63) d60 (entryBytes_length _) rfl
  obtain ⟨hCounts, d69⟩ := piece_at (m := 6) (k := 69) d63 (by simp [queryCounts, offerBytes_length]) rfl
  refine ⟨hIdentity.trans (queryIdentity_of_names hn), hActive.trans (queryActive_eq _), hPosition.trans (slotBytes_getD ..),
    hScroll.trans (slotBytes_getD ..), ?_, ?_, hInk.trans (slotBytes_getD ..), ?_, hFallback.trans (slotBytes_getD ..),
    hEntry.trans (entryBytes_commitEntry s i), hCounts.trans (queryCounts_eq _), d69⟩
  · cases hpl : (s.win i).staging.placement with
    | none => rw [hPlacement, hpl]; rfl
    | some pl =>
      rw [hpl] at d45
      cases pl with
      | above r | below r => rw [d45]; rfl
      | top | bottom | out => dsimp only; rw [d45]; rfl
  · cases hk : (s.win i).staging.key with
    | none => rw [hKey, hk]; rfl
    | some k =>
      rw [hk] at d48
      cases k with
      | set c => rw [d48]; rfl
      | remove => rw [d48]; rfl
  · rw [hLease]
    cases (s.win i).staging.leaseLength <;> rfl

/-! ## The parameters of a CREATE (R191) -/

theorem formatOf_code (fmt : Format) : formatOf fmt.code = some fmt := by cases fmt <;> rfl

theorem tierOf_code (tier : Tier) : tierOf tier.code = some tier := by cases tier <;> rfl

theorem formatOf_eq_none {b : Byte} (h : 2 < b.toNat) : formatOf b = none := by
  have hne (k : Byte) (hk : k.toNat ≤ 2) : b ≠ k := by rintro rfl; omega
  rw [formatOf, if_neg (hne _ (by decide)), if_neg (hne _ (by decide)), if_neg (hne _ (by decide))]

theorem tierOf_eq_none {b : Byte} (h0 : b ≠ 0x00) (h1 : b ≠ 0x01) : tierOf b = none := by
  rw [tierOf, if_neg h0, if_neg h1]

/-- What a CREATE reads of its parameters (R13, R191). -/
theorem readCreate_params {f c tier : Byte} {width height : Nat} (hw : width < 65536) (hh : height < 65536) :
    readCreate ([f] ++ be16 width ++ be16 height ++ [c, tier]) =
      match formatOf f, tierOf tier with
      | some fmt, some level =>
        if inRange 1 480 width && inRange 1 320 height && inRange 1 2 c.toNat then some ⟨fmt, width, height, c.toNat, level⟩ else none
      | _, _ => none := by
  have hw' : be16At ([f] ++ be16 width ++ be16 height ++ [c, tier]) 1 = width := be16At_be16 hw (be16 height ++ [c, tier])
  have hh' : be16At ([f] ++ be16 width ++ be16 height ++ [c, tier]) 3 = height := be16At_be16 hh [c, tier]
  unfold readCreate
  simp only [hw', hh']
  rfl

/-- A CREATE of these parameters has the right length, and is within the port's authority where its tier is (R142, R190). -/
theorem create_within {p : Port} {f c tier : Byte} {width height : Nat} (ht : tier = 0x01 → p = .A) :
    p = .A ∨ portAOnly codeCreate ([f] ++ be16 width ++ be16 height ++ [c, tier]) = false := by
  by_cases h : tier = 0x01
  · exact .inl (ht h)
  · exact .inr (decide_eq_false h)

theorem readCreate_inRange {f c tier : Byte} {width height : Nat} {fmt : Format} {level : Tier} (hf : formatOf f = some fmt)
    (ht : tierOf tier = some level) (hw1 : 1 ≤ width) (hw : width ≤ 480) (hh1 : 1 ≤ height) (hh : height ≤ 320)
    (hc : c.toNat = 1 ∨ c.toNat = 2) :
    readCreate ([f] ++ be16 width ++ be16 height ++ [c, tier]) = some ⟨fmt, width, height, c.toNat, level⟩ := by
  rw [readCreate_params (by omega) (by omega), hf, ht]
  refine if_pos ?_
  simp only [inRange, Bool.and_eq_true, decide_eq_true_eq]
  omega

/-! ## CREATE's checks (O18) -/

theorem lowestFreeSlot_eq_none {s : State} (h : ∀ i : Slot, (s.win i).state ≠ .free) : lowestFreeSlot s = none := by
  simpa [lowestFreeSlot] using fun i _ => h i

theorem lowestFreeSlot_isSome {s : State} {i : Slot} (h : (s.win i).state = .free) : ∃ j, lowestFreeSlot s = some j := by
  rw [← Option.isSome_iff_exists]
  simpa [lowestFreeSlot] using ⟨i, mem_allSlots i, h⟩

theorem lowestFreeSlot_eq_some {s : State} {i : Slot} (h : (s.win i).state = .free) (hlow : ∀ j : Slot, j < i → (s.win j).state ≠ .free) :
    lowestFreeSlot s = some i := by
  obtain ⟨j, hj⟩ := lowestFreeSlot_isSome h
  have hbefore : ¬ i < j := fun hij => by
    obtain ⟨-, as, bs, hl, hfirst⟩ := List.find?_eq_some_iff_append.1 hj
    have hi : i ∈ as := by
      have hm := hl ▸ mem_allSlots i
      rcases List.mem_append.1 hm with hm | hm
      · exact hm
      · have hp : (as ++ j :: bs).Pairwise (· < ·) := hl ▸ List.pairwise_lt_finRange 24
        rcases List.mem_cons.1 hm with rfl | hm
        · exact absurd hij (lt_irrefl _)
        · exact absurd hij (lt_asymm (List.rel_of_pairwise_cons (List.pairwise_append.1 hp).2.1 hm))
    simpa [h] using hfirst i hi
  rcases lt_trichotomy i j with hlt | rfl | hlt
  · exact absurd hlt hbefore
  · exact hj
  · exact absurd (lowestFreeSlot_free hj) (hlow j hlt)

section
variable {s : State} {p : Port} {ps : List Byte} {c : CreateParams}

theorem takeCreate_bad (h : readCreate ps = none) : takeCreate s p ps = .refuse .badParam := by
  rw [takeCreate, h]

theorem takeCreate_noHandle (h : readCreate ps = some c) (hi : lowestFreeSlot s = none) : takeCreate s p ps = .refuse .noHandle := by
  rw [takeCreate, h]
  dsimp only
  rw [hi]

theorem takeCreate_slot (h : readCreate ps = some c) {i : Slot} (hi : lowestFreeSlot s = some i) :
    takeCreate s p ps =
      if s.quota.get p < s.charge.get p + c.needed then .refuse .quota
      else if s.freeSet.length < c.needed then .refuse .noSpace
      else .answer (createWindow s p c i) .done (refBytes (s.refOf i)) := by
  rw [takeCreate, h]
  dsimp only
  rw [hi]

end

/-- Settles O18: what the parameters read as decides the first check; the slot, the quota and the free set decide the others in turn. -/
theorem createRefusesInOrder : Obligations.CreateRefusesInOrder := by
  intro s p tag f c tier width height hw hh hp ht
  have refused {st : Status} (h : takeCreate s p ([f] ++ be16 width ++ be16 height ++ [c, tier]) = .refuse st) :
      exec (.create p) s = .next (s.hold p ⟨st, tag, []⟩) :=
    congrArg Host.Outcome.next (complete_refuse hp rfl (by decide) rfl (create_within ht) h)
  refine ⟨fun hbad => refused (takeCreate_bad ?_), fun fmt level hf hl hw1 hw2 hh1 hh2 hc => ?_⟩
  · rw [readCreate_params hw hh]
    rcases hbad with hbad | hbad
    · rw [formatOf_eq_none hbad]
    · cases formatOf f with
      | none => rfl
      | some fmt =>
        by_cases htier : tier ≠ 0x00 ∧ tier ≠ 0x01
        · rw [tierOf_eq_none htier.1 htier.2]
        · cases tierOf tier with
          | none => rfl
          | some level =>
            refine if_neg ?_
            have hcount (h : c.toNat = 1 ∨ c.toNat = 2) : c = 1 ∨ c = 2 :=
              h.imp (fun h => BitVec.eq_of_toNat_eq h) (fun h => BitVec.eq_of_toNat_eq h)
            simp only [inRange, Bool.and_eq_true, decide_eq_true_eq, not_and]
            intro hr h1
            rcases hbad with hbad | hbad | hbad | hbad | hbad | hbad
            · omega
            · omega
            · omega
            · omega
            · exact fun h2 => (hcount (by omega)).elim hbad.1 hbad.2
            · exact absurd hbad htier
  · have hc' : c.toNat = 1 ∨ c.toNat = 2 := hc.imp (congrArg BitVec.toNat) (congrArg BitVec.toNat)
    have hread := readCreate_inRange (hf ▸ formatOf_code fmt) (hl ▸ tierOf_code level) hw1 hw2 hh1 hh2 hc'
    refine ⟨fun hfull => refused (takeCreate_noHandle hread (lowestFreeSlot_eq_none hfull)), fun ⟨i, hi⟩ hq => refused ?_,
      fun ⟨i, hi⟩ hq hs => refused ?_⟩
    · obtain ⟨j, hj⟩ := lowestFreeSlot_isSome hi
      exact (takeCreate_slot hread hj).trans (if_pos hq)
    · obtain ⟨j, hj⟩ := lowestFreeSlot_isSome hi
      exact ((takeCreate_slot hread hj).trans (if_neg (Nat.not_lt.2 hq))).trans (if_pos hs)

/-! ## What a CREATE makes (O17) -/

/-- The first blocks of the free set, then the next, are the new window's surfaces (R30). -/
theorem createdWindow_eq {c : CreateParams} (p : Port) (g : Gen) (l : List Block) (hn : c.surfaces = 1 ∨ c.surfaces = 2) :
    createdWindow c p g (l.take c.needed) =
      { state := .hidden, gen := g, owner := some p, tier := c.tier, format := c.format, width := c.width, height := c.height
        surface0 := l.take c.perSurface
        surface1 := if c.surfaces = 2 then some ((l.drop c.perSurface).take c.perSurface) else none
        front := 0, active := ActiveFields.created, staging := Staging.empty, offer := none, leaseCounter := 0
        renewPending := false, graceCounter := 0 } := by
  unfold createdWindow
  rcases hn with hn | hn
  · simp [CreateParams.needed, hn]
  · simp [CreateParams.needed, hn, List.take_take, List.drop_take, Nat.two_mul]

/-- Settles O17: the parameters read as the values sent, the slot is the lowest that is FREE, and the two checks of space pass. -/
theorem createMakesWindow : Obligations.CreateMakesWindow := by
  rintro s p tag fmt width height count tier i hp ⟨hw1, hw, hh1, hh, hc, htier, hfree, hlow, hq, hf⟩
  have hbyte : (byteOf count).toNat = count := by
    rw [byteOf_toNat]
    omega
  have hread : readCreate (createParams fmt width height count tier) = some ⟨fmt, width, height, count, tier⟩ := by
    have h := readCreate_inRange (c := byteOf count) (formatOf_code fmt) (tierOf_code tier) hw1 hw hh1 hh (by omega)
    rw [hbyte] at h
    exact h
  have htaken : takeCreate s p (createParams fmt width height count tier) =
      .answer (createWindow s p ⟨fmt, width, height, count, tier⟩ i) .done (refBytes (s.refOf i)) := by
    exact (takeCreate_slot hread (lowestFreeSlot_eq_some hfree hlow)).trans
      ((if_neg (Nat.not_lt.2 hq)).trans (if_neg (Nat.not_lt.2 hf)))
  have hdef : codeCreate ∈ definedCodes := by decide
  have hauth : p = .A ∨ portAOnly codeCreate (createParams fmt width height count tier) = false :=
    create_within fun h => htier (by cases tier with
      | normal => cases h
      | overlay => rfl)
  refine congrArg Host.Outcome.next ((complete_answer hp rfl hdef rfl hauth htaken).trans ?_)
  rw [createWindow_frame, createdWindow_eq p _ _ hc]
  rfl

end Sys2Proof.Machine
end

