-- ==== Sys2Proof/Proofs/Pixels.lean ====
section
/-! Pixels of a surface: what a read finds after a write of the same or of another pixel, where the writes of an operation stand, and what an
operation abandoned in flight leaves (R24, R48, R55, R57, R59). -/

namespace Sys2Proof.Machine

open Sys2Proof.Safety

/-! ## Bytes of a surface (R24) -/

/-- Two offsets of a surface without repeated blocks never share an address. -/
theorem surfaceAddress_inj {bl : List Block} (hn : bl.Nodup) {o o' : Nat} {a : Address} (h : surfaceAddress bl o = some a)
    (h' : surfaceAddress bl o' = some a) : o = o' := by
  obtain ⟨b, hb, rfl⟩ := Option.map_eq_some_iff.1 h
  obtain ⟨b', hb', ha⟩ := Option.map_eq_some_iff.1 h'
  have hbb : b' = b := by
    apply Fin.ext
    rw [← byteAddress_block b' o', ha, byteAddress_block]
  subst hbb
  have hlt := (List.getElem?_eq_some_iff.1 hb).1
  have hdiv : o / 2048 = o' / 2048 := (List.getElem?_inj hlt hn).1 (hb.trans hb'.symm)
  have hmod : b'.val * 2048 + o' % 2048 = b'.val * 2048 + o % 2048 := congrArg Fin.val ha
  omega

theorem surfaceAddress_of_lt {bl : List Block} {o : Nat} (h : o / 2048 < bl.length) : ∃ a, surfaceAddress bl o = some a := by
  unfold surfaceAddress
  rw [List.getElem?_eq_getElem h]
  exact ⟨_, rfl⟩

/-- A byte within the block list reads back what was written (R24). -/
theorem readSurface_writeSurface_same (f : FrameStore) {bl : List Block} {o : Nat} (v : Byte) (h : o / 2048 < bl.length) :
    readSurface (writeSurface f bl o v) bl o = v := by
  obtain ⟨a, ha⟩ := surfaceAddress_of_lt h
  simp only [readSurface, writeSurface, ha]
  exact FrameStore.read_write_same f a v

/-- A write leaves every other byte of the surface (R24). -/
theorem readSurface_writeSurface_of_ne (f : FrameStore) {bl : List Block} (hn : bl.Nodup) {o o' : Nat} (v : Byte) (h : o' ≠ o) :
    readSurface (writeSurface f bl o v) bl o' = readSurface f bl o' := by
  unfold readSurface writeSurface
  cases ha : surfaceAddress bl o with
  | none => rfl
  | some a =>
    cases ha' : surfaceAddress bl o' with
    | none => rfl
    | some a' =>
      refine FrameStore.read_write_of_ne f v ?_
      rintro rfl
      exact h (surfaceAddress_inj hn ha' ha)

/-! ## Places of pixels (R24) -/

/-- A place is found from its number along the rows. -/
theorem place_inj {W c r c' r' : Nat} (hc : c < W) (hc' : c' < W) (h : r * W + c = r' * W + c') : r = r' ∧ c = c' := by
  have hW : 0 < W := by omega
  have hdiv (a b : Nat) (hb : b < W) : (a * W + b) / W = a := by
    rw [Nat.mul_comm, Nat.mul_add_div hW, Nat.div_eq_of_lt hb, Nat.add_zero]
  have hr : r = r' := by rw [← hdiv r c hc, h, hdiv r' c' hc']
  subst hr
  exact ⟨rfl, by omega⟩

theorem place_lt {W H c r : Nat} (hc : c < W) (hr : r < H) : r * W + c < H * W := by
  have : (r + 1) * W ≤ H * W := Nat.mul_le_mul_right W hr
  rw [Nat.succ_mul] at this
  omega

theorem pixelOffset_c16 (W c r : Nat) : pixelOffset .c16 (Format.stride .c16 W) c r = 2 * (r * W + c) := by
  simp only [pixelOffset, Format.stride]
  ring

theorem pixelOffset_c24 (W c r : Nat) : pixelOffset .c24 (Format.stride .c24 W) c r = 3 * (r * W + c) := by
  simp only [pixelOffset, Format.stride]
  ring

/-- Every pixel of a window lies within the blocks its surface needs (R4, R24). -/
theorem pixelLastOffset_lt {fmt : Format} {W H c r : Nat} (hc : c < W) (hr : r < H) :
    pixelLastOffset fmt (fmt.stride W) c r / 2048 < surfaceBlocks fmt W H := by
  have hlt : pixelLastOffset fmt (fmt.stride W) c r < fmt.stride W * H := by
    have h := place_lt hc hr
    cases fmt with
    | c16 =>
      rw [show pixelLastOffset .c16 (Format.stride .c16 W) c r = 2 * (r * W + c) + 1 by rw [← pixelOffset_c16]; rfl,
        show Format.stride .c16 W * H = 2 * (H * W) by simp only [Format.stride]; ring]
      omega
    | c24 =>
      rw [show pixelLastOffset .c24 (Format.stride .c24 W) c r = 3 * (r * W + c) + 2 by rw [← pixelOffset_c24]; rfl,
        show Format.stride .c24 W * H = 3 * (H * W) by simp only [Format.stride]; ring]
      omega
    | m1 =>
      have hb : c / 8 < (W + 7) / 8 := by omega
      show r * ((W + 7) / 8) + c / 8 < (W + 7) / 8 * H
      rw [Nat.mul_comm _ H]
      exact place_lt hb hr
  unfold surfaceBlocks
  omega

/-! ## One bit of an M1 byte (R48) -/

/-- The bit of the pixel written takes its value, and every other bit is kept (R48). -/
theorem setPixelBit_getLsbD (b : Byte) (c c' : Nat) (ink : Bool) :
    (setPixelBit b c ink).getLsbD (7 - c' % 8) = if c' % 8 = c % 8 then ink else b.getLsbD (7 - c' % 8) := by
  have hm : (BitVec.ofNat 8 (2 ^ (7 - c % 8)) : Byte).getLsbD (7 - c' % 8) = decide (c' % 8 = c % 8) := by
    rw [BitVec.getLsbD_ofNat, Nat.testBit_two_pow]
    have h1 : 7 - c' % 8 < 8 := by omega
    have h2 : 7 - c % 8 = 7 - c' % 8 ↔ c' % 8 = c % 8 := by omega
    simp [h1, h2]
  have h1 : 7 - c' % 8 < 8 := by omega
  unfold setPixelBit
  dsimp only
  cases ink
  · rw [if_neg (by nofun), BitVec.getLsbD_and, BitVec.getLsbD_not, hm]
    by_cases h : c' % 8 = c % 8 <;> simp [h, h1]
  · rw [if_pos rfl, BitVec.getLsbD_or, hm]
    by_cases h : c' % 8 = c % 8 <;> simp [h]

/-! ## One pixel (R24, R48) -/

theorem pixelFormat_readPixel (f : FrameStore) (fmt : Format) (stride : Nat) (bl : List Block) (c r : Nat) :
    pixelFormat (readPixel f fmt stride bl c r) = fmt := by cases fmt <;> rfl

theorem halves_append (v : BitVec 16) : v.extractLsb' 8 8 ++ v.extractLsb' 0 8 = v := by
  apply BitVec.eq_of_getLsbD_eq
  intro i hi
  rw [BitVec.getLsbD_append]
  by_cases h : i < 8
  · simp [h]
  · have h8 : i - 8 < 8 := by omega
    simp [h, h8]
    congr 1
    omega

/-- A pixel within the block list reads back what was written (R24). -/
theorem readPixel_writePixel_same (f : FrameStore) {fmt : Format} {stride : Nat} {bl : List Block} (hn : bl.Nodup) {c r : Nat} {p : Pixel}
    (hp : pixelFormat p = fmt) (hfit : pixelLastOffset fmt stride c r / 2048 < bl.length) :
    readPixel (writePixel f stride bl c r p) fmt stride bl c r = p := by
  subst hp
  cases p with
  | c16 v =>
    have hfit : (pixelOffset .c16 stride c r + 1) / 2048 < bl.length := hfit
    simp only [readPixel, writePixel, pixelFormat]
    generalize pixelOffset .c16 stride c r = o at *
    rw [readSurface_writeSurface_of_ne _ hn _ (by omega), readSurface_writeSurface_same _ _ (by omega),
      readSurface_writeSurface_same _ _ hfit]
    rw [halves_append]
  | c24 v =>
    have hfit : (pixelOffset .c24 stride c r + 2) / 2048 < bl.length := hfit
    simp only [readPixel, writePixel, pixelFormat]
    generalize pixelOffset .c24 stride c r = o at *
    rw [readSurface_writeSurface_of_ne _ hn _ (by omega), readSurface_writeSurface_of_ne _ hn _ (by omega),
      readSurface_writeSurface_same _ _ (by omega), readSurface_writeSurface_of_ne _ hn _ (by omega),
      readSurface_writeSurface_same _ _ (by omega), readSurface_writeSurface_same _ _ hfit]
  | m1 b =>
    have hfit : pixelOffset .m1 stride c r / 2048 < bl.length := hfit
    simp only [readPixel, writePixel, pixelFormat]
    rw [readSurface_writeSurface_same _ _ hfit, setPixelBit_getLsbD, if_pos rfl]

/-- A write leaves every other pixel of the surface (R24, R48). -/
theorem readPixel_writePixel_of_ne (f : FrameStore) {fmt : Format} {W : Nat} {bl : List Block} (hn : bl.Nodup) {c r c' r' : Nat} {p : Pixel}
    (hp : pixelFormat p = fmt) (hc : c < W) (hc' : c' < W) (hne : ¬ (c' = c ∧ r' = r)) :
    readPixel (writePixel f (fmt.stride W) bl c r p) fmt (fmt.stride W) bl c' r' =
      readPixel f fmt (fmt.stride W) bl c' r' := by
  subst hp
  have hidx : r' * W + c' ≠ r * W + c := fun h => hne ((place_inj hc' hc h).symm)
  cases p with
  | c16 v =>
    simp only [readPixel, writePixel, pixelFormat, pixelOffset_c16]
    rw [readSurface_writeSurface_of_ne _ hn _ (by omega), readSurface_writeSurface_of_ne _ hn _ (by omega),
      readSurface_writeSurface_of_ne _ hn _ (by omega), readSurface_writeSurface_of_ne _ hn _ (by omega)]
  | c24 v =>
    simp only [readPixel, writePixel, pixelFormat, pixelOffset_c24]
    rw [readSurface_writeSurface_of_ne _ hn _ (by omega), readSurface_writeSurface_of_ne _ hn _ (by omega),
      readSurface_writeSurface_of_ne _ hn _ (by omega), readSurface_writeSurface_of_ne _ hn _ (by omega),
      readSurface_writeSurface_of_ne _ hn _ (by omega), readSurface_writeSurface_of_ne _ hn _ (by omega),
      readSurface_writeSurface_of_ne _ hn _ (by omega), readSurface_writeSurface_of_ne _ hn _ (by omega),
      readSurface_writeSurface_of_ne _ hn _ (by omega)]
  | m1 b =>
    simp only [readPixel, writePixel, pixelFormat]
    by_cases ho : pixelOffset .m1 (Format.stride .m1 W) c' r' = pixelOffset .m1 (Format.stride .m1 W) c r
    · rw [ho]
      have hplace := place_inj (W := (W + 7) / 8) (c := c' / 8) (c' := c / 8) (by omega) (by omega) ho
      have hbit : ¬ c' % 8 = c % 8 := by omega
      by_cases hfit : pixelOffset .m1 (Format.stride .m1 W) c r / 2048 < bl.length
      · rw [readSurface_writeSurface_same _ _ hfit, setPixelBit_getLsbD, if_neg hbit]
      · have hnone : surfaceAddress bl (pixelOffset .m1 (Format.stride .m1 W) c r) = none := by
          simp [surfaceAddress, List.getElem?_eq_none (Nat.le_of_not_lt hfit)]
        simp only [writeSurface, hnone]
    · rw [readSurface_writeSurface_of_ne _ hn _ ho]

/-! ## The writes of an operation one after another -/

/-- A write stands within a surface of a window and carries a pixel of its format. -/
structure Writable (w : Window) (id : SurfaceId) (p : PixelWrite) : Prop where
  format : pixelFormat p.value = w.format
  column : p.col < w.width
  fits : pixelLastOffset w.format w.stride p.col p.row / 2048 < (w.surface id).length

/-- A pixel that no write names is as it was. -/
theorem readPixel_writeAll_of_absent {w : Window} {id : SurfaceId} (hn : (w.surface id).Nodup) {ws : List PixelWrite}
    (hw : ∀ p ∈ ws, Writable w id p) {c r : Nat} (hc : c < w.width) (ha : ∀ p ∈ ws, ¬ (c = p.col ∧ r = p.row)) (f : FrameStore) :
    readPixel (writeAll w id ws f) w.format w.stride (w.surface id) c r = readPixel f w.format w.stride (w.surface id) c r := by
  induction ws generalizing f with
  | nil => rfl
  | cons p rest ih =>
    have hp := hw p List.mem_cons_self
    exact (ih (fun q hq => hw q (List.mem_cons_of_mem _ hq)) (fun q hq => ha q (List.mem_cons_of_mem _ hq)) _).trans
      (readPixel_writePixel_of_ne f hn hp.format hp.column hc (ha p List.mem_cons_self))

/-- Among writes of distinct places each place reads what was written there. -/
theorem readPixel_writeAll_of_mem {w : Window} {id : SurfaceId} (hn : (w.surface id).Nodup) {ws : List PixelWrite}
    (hw : ∀ p ∈ ws, Writable w id p) (hd : ws.Pairwise (fun p q => ¬ (p.col = q.col ∧ p.row = q.row))) {p : PixelWrite} (hp : p ∈ ws)
    (f : FrameStore) : readPixel (writeAll w id ws f) w.format w.stride (w.surface id) p.col p.row = p.value := by
  induction ws generalizing f with
  | nil => cases hp
  | cons q rest ih =>
    obtain ⟨hq, hrest⟩ := List.pairwise_cons.1 hd
    have hw' : ∀ x ∈ rest, Writable w id x := fun x hx => hw x (List.mem_cons_of_mem _ hx)
    rcases List.mem_cons.1 hp with rfl | hp
    · have hpw := hw p List.mem_cons_self
      exact (readPixel_writeAll_of_absent hn hw' hpw.column hq _).trans (readPixel_writePixel_same f hn hpw.format hpw.fits)
    · exact ih hw' hrest hp _

/-- Writes into a surface leave alone every address outside its blocks (R23). -/
theorem read_writeAll_outside {w : Window} {id : SurfaceId} {a : Address} (h : ∀ b ∈ w.surface id, a.val / 2048 ≠ b.val)
    (ws : List PixelWrite) (f : FrameStore) : (writeAll w id ws f).read a = f.read a := by
  induction ws generalizing f with
  | nil => rfl
  | cons p rest ih => exact (ih _).trans (read_writePixel_outside f _ _ _ _ _ fun b hb => (h b hb).symm)

end Sys2Proof.Machine
end

