-- ==== Sys2Proof/Proofs/Abandonment.lean ====
section
/-! Where the writes of an operation stand, and so what an operation abandoned in flight leaves in its destination (R55, R57, R59). -/

namespace Sys2Proof.Machine

open Sys2Proof.Safety

/-! ## The writes by their number -/

/-- The places of a rectangle by their number, row by row (R57). -/
theorem rectOffsets_getElem? (W H m : Nat) : (rectOffsets W H)[m]? = if m < W * H then some (m % W, m / W) else none := by
  induction H with
  | zero => simp [rectOffsets]
  | succ H ih =>
    have hlen : (rectOffsets W H).length = W * H := by simp [rectOffsets, Nat.mul_comm]
    have hsucc : rectOffsets W (H + 1) = rectOffsets W H ++ (List.range W).map (fun i => (i, H)) := by
      simp [rectOffsets, List.range_succ]
    rw [hsucc, Nat.mul_succ]
    by_cases hm : m < W * H
    · rw [List.getElem?_append_left (hlen ▸ hm), ih, if_pos hm, if_pos (by omega)]
    · rw [List.getElem?_append_right (hlen ▸ Nat.le_of_not_lt hm), hlen]
      by_cases hm' : m < W * H + W
      · have hi : m - W * H < W := by omega
        have hme : m = (m - W * H) + W * H := by omega
        have hmod : m % W = m - W * H := by
          conv_lhs => rw [hme]
          rw [Nat.add_mul_mod_self_left, Nat.mod_eq_of_lt hi]
        have hdiv : m / W = H := by
          conv_lhs => rw [hme]
          rw [Nat.add_mul_div_left _ _ (by omega), Nat.div_eq_of_lt hi, Nat.zero_add]
        simp [hm', hi, hmod, hdiv]
      · rw [if_neg hm', List.getElem?_eq_none (by simp; omega)]

theorem inside_iff {r : Rect} {w : Window} :
    inside r w = true ↔ 1 ≤ r.width ∧ 1 ≤ r.height ∧ r.x + r.width ≤ w.width ∧ r.y + r.height ≤ w.height := by
  simp [inside, and_assoc]

theorem cursorInside_iff {r : Rect} {c q : Nat} :
    cursorInside r c q = true ↔ r.x ≤ c ∧ c < r.x + r.width ∧ r.y ≤ q ∧ q < r.y + r.height := by
  simp [cursorInside, and_assoc]

/-- The number of a place of a rectangle, and the place of a number (R57). -/
theorem number_of_place {W H i j : Nat} (hi : i < W) (hj : j < H) : j * W + i < W * H ∧ (j * W + i) % W = i ∧ (j * W + i) / W = j := by
  refine ⟨Nat.mul_comm H W ▸ place_lt hi hj, ?_, ?_⟩
  · rw [Nat.mul_comm, Nat.mul_add_mod, Nat.mod_eq_of_lt hi]
  · rw [Nat.mul_comm, Nat.mul_add_div (by omega), Nat.div_eq_of_lt hi, Nat.add_zero]

theorem place_of_number {W H m : Nat} (hm : m < W * H) : m % W < W ∧ m / W < H ∧ m / W * W + m % W = m := by
  have hW : 0 < W := Nat.pos_of_ne_zero (by rintro rfl; simp at hm)
  exact ⟨Nat.mod_lt _ hW, Nat.div_lt_of_lt_mul hm, Nat.div_add_mod' m W⟩

/-- What the `m`-th write of an operation says of its place: it is the pixel that the operation writes there, with `m` before it, within the
destination and of its format. -/
structure WriteAt (s : State) (op : EngineOp) (m : Nat) (p : PixelWrite) : Prop where
  pixel : opPixel s op p.col p.row = some p.value
  before : pixelsBefore op.body p.col p.row = m
  format : pixelFormat p.value = (s.win op.dest.slot).format
  column : p.col < (s.win op.dest.slot).width
  row : p.row < (s.win op.dest.slot).height

/-- A write of a rectangle of pixels, of a FILL or a COPY, stands at the place of its number. -/
theorem rect_write {W H m x y : Nat} {value : Nat × Nat → Pixel} {p : PixelWrite}
    (h : ((rectOffsets W H).map (fun o => PixelWrite.mk (x + o.1) (y + o.2) (value o)))[m]? = some p) :
    m < W * H ∧ p = ⟨x + m % W, y + m / W, value (m % W, m / W)⟩ := by
  rw [List.getElem?_map, rectOffsets_getElem?] at h
  split at h
  · next hm => exact ⟨hm, (Option.some.inj h).symm⟩
  · cases h

theorem rect_write_of_place {W H x y c r : Nat} (value : Nat × Nat → Pixel) (h : x ≤ c ∧ c < x + W ∧ y ≤ r ∧ r < y + H) :
    ((rectOffsets W H).map (fun o => PixelWrite.mk (x + o.1) (y + o.2) (value o)))[(r - y) * W + (c - x)]? =
      some ⟨c, r, value (c - x, r - y)⟩ := by
  obtain ⟨hlt, hmod, hdiv⟩ := number_of_place (W := W) (H := H) (i := c - x) (j := r - y) (by omega) (by omega)
  rw [List.getElem?_map, rectOffsets_getElem?, if_pos hlt, hmod, hdiv]
  simp only [Option.map_some, Nat.add_sub_cancel' h.1, Nat.add_sub_cancel' h.2.2.1]

theorem writeAt_of_getElem? {s : State} {op : EngineOp} (h : bodyInside s (s.win op.dest.slot) op.body = true) {m : Nat} {p : PixelWrite}
    (hm : (opWrites s op)[m]? = some p) : WriteAt s op m p := by
  unfold opWrites at hm
  cases hb : op.body with
  | fill rect value =>
    rw [hb] at h hm
    obtain ⟨hlt, rfl⟩ := rect_write hm
    obtain ⟨hmod, hdiv, hnum⟩ := place_of_number hlt
    rw [bodyInside, Bool.and_eq_true, beq_iff_eq, inside_iff] at h
    obtain ⟨⟨-, -, hx, hy⟩, hfmt⟩ := h
    refine ⟨?_, ?_, hfmt, Nat.lt_of_lt_of_le (Nat.add_lt_add_left hmod _) hx, Nat.lt_of_lt_of_le (Nat.add_lt_add_left hdiv _) hy⟩
    · simp only [opPixel, hb]
      exact if_pos ⟨Nat.le_add_right .., Nat.add_lt_add_left hmod _, Nat.le_add_right .., Nat.add_lt_add_left hdiv _⟩
    · simp only [pixelsBefore, hb, Nat.add_sub_cancel_left]
      exact hnum
  | copy src srcId rect x y =>
    rw [hb] at h hm
    obtain ⟨hlt, rfl⟩ := rect_write (value := fun o => readPixel s.store (s.win src.slot).format (s.win src.slot).stride
      ((s.win src.slot).surface srcId) (rect.x + o.1) (rect.y + o.2)) hm
    obtain ⟨hmod, hdiv, hnum⟩ := place_of_number hlt
    simp only [bodyInside, Bool.and_eq_true, beq_iff_eq, inside_iff] at h
    obtain ⟨⟨-, -, -, hx, hy⟩, hfmt⟩ := h
    refine ⟨?_, ?_, (pixelFormat_readPixel ..).trans hfmt, Nat.lt_of_lt_of_le (Nat.add_lt_add_left hmod _) hx,
      Nat.lt_of_lt_of_le (Nat.add_lt_add_left hdiv _) hy⟩
    · simp only [opPixel, hb, Nat.add_sub_cancel_left]
      exact if_pos ⟨Nat.le_add_right .., Nat.add_lt_add_left hmod _, Nat.le_add_right .., Nat.add_lt_add_left hdiv _⟩
    · simp only [pixelsBefore, hb, Nat.add_sub_cancel_left]
      exact hnum
  | put rect col row pixels =>
    rw [hb] at h hm
    simp only [bodyInside, Bool.and_eq_true, decide_eq_true_eq, inside_iff, cursorInside_iff, List.all_eq_true, beq_iff_eq] at h
    obtain ⟨⟨⟨⟨⟨hW, hH, hx, hy⟩, hx1, hx2, hy1, hy2⟩, -⟩, hlen⟩, hfmt⟩ := h
    rw [putWrites_getElem?] at hm
    obtain ⟨v, hv, rfl⟩ := Option.map_eq_some_iff.1 hm
    obtain ⟨i, rfl⟩ := Nat.exists_eq_add_of_le hx1
    obtain ⟨j, rfl⟩ := Nat.exists_eq_add_of_le hy1
    have hi : i < rect.width := by omega
    have hadv := advanceCursor_eq rect hW m i (rect.y + j) hi
    have hmlt : m < pixels.length := (List.getElem?_eq_some_iff.1 hv).1
    have hbound : i + m < rect.width * (rect.height - j) := by
      have hpix : pixelsFrom rect (rect.x + i) (rect.y + j) = (rect.height - j - 1) * rect.width + (rect.width - i) := by
        have hrows : rect.y + rect.height - 1 - (rect.y + j) = rect.height - j - 1 := by omega
        rw [pixelsFrom, hrows, Nat.add_sub_add_left]
      have hsucc : rect.width * (rect.height - j) = (rect.height - j - 1) * rect.width + rect.width := by
        obtain ⟨k, hk⟩ := Nat.exists_eq_add_of_lt (show j < rect.height by omega)
        rw [hk, show j + k + 1 - j = k + 1 by omega]
        simp only [Nat.add_sub_cancel]
        ring
      omega
    obtain ⟨hmod, hdiv, hnum⟩ := place_of_number hbound
    generalize (i + m) / rect.width = b at *
    generalize (i + m) % rect.width = a at *
    have hidx : (j + b) * rect.width + a = j * rect.width + i + m := by
      rw [Nat.add_mul]
      omega
    rw [hadv]
    have hrow : rect.y + j + b - rect.y = j + b := by omega
    have hsub : j * rect.width + i + m - (j * rect.width + i) = m := by omega
    refine ⟨?_, ?_, hfmt v (List.mem_of_getElem? hv), Nat.lt_of_lt_of_le (Nat.add_lt_add_left hmod _) hx, ?_⟩
    · simp only [opPixel, hb, hrow, Nat.add_sub_cancel_left, hidx, hsub, hv]
      exact if_pos ⟨by omega, by omega, by omega, by omega⟩
    · simp only [pixelsBefore, hb, hrow, Nat.add_sub_cancel_left, hidx, hsub]
    · show rect.y + j + b < _
      omega

theorem getElem?_of_opPixel {s : State} {op : EngineOp} (h : bodyInside s (s.win op.dest.slot) op.body = true) {c r : Nat} {v : Pixel}
    (hv : opPixel s op c r = some v) : (opWrites s op)[pixelsBefore op.body c r]? = some ⟨c, r, v⟩ := by
  unfold opWrites
  unfold opPixel at hv
  cases hb : op.body with
  | fill rect value =>
    rw [hb] at hv
    dsimp only at hv
    split at hv
    · next hin =>
      cases hv
      exact rect_write_of_place (fun _ => v) hin
    · cases hv
  | copy src srcId rect x y =>
    rw [hb] at hv
    dsimp only at hv
    split at hv
    · next hin =>
      cases hv
      exact rect_write_of_place (fun o => readPixel s.store (s.win src.slot).format (s.win src.slot).stride
        ((s.win src.slot).surface srcId) (rect.x + o.1) (rect.y + o.2)) hin
    · cases hv
  | put rect col row pixels =>
    rw [hb] at h hv
    dsimp only at hv
    simp only [bodyInside, Bool.and_eq_true, decide_eq_true_eq, inside_iff, cursorInside_iff] at h
    obtain ⟨⟨⟨⟨⟨hW, -⟩, hx1, hx2, hy1, -⟩, -⟩, -⟩, -⟩ := h
    split at hv
    · next hin =>
      obtain ⟨hc1, hc2, hr, hstart⟩ := hin
      obtain ⟨i, rfl⟩ := Nat.exists_eq_add_of_le hx1
      obtain ⟨j, rfl⟩ := Nat.exists_eq_add_of_le hy1
      obtain ⟨a, rfl⟩ := Nat.exists_eq_add_of_le hc1
      obtain ⟨b, rfl⟩ := Nat.exists_eq_add_of_le hr
      simp only [Nat.add_sub_cancel_left] at hv hstart
      have hjb : j ≤ b := by
        by_contra hlt
        have := Nat.mul_le_mul_right rect.width (show b + 1 ≤ j by omega)
        rw [Nat.succ_mul] at this
        omega
      obtain ⟨d, rfl⟩ := Nat.exists_eq_add_of_le hjb
      have hsum : i + ((j + d) * rect.width + a - (j * rect.width + i)) = d * rect.width + a := by
        rw [Nat.add_mul] at hstart ⊢
        omega
      obtain ⟨-, hmod, hdiv⟩ := number_of_place (W := rect.width) (H := d + 1) (i := a) (j := d) (by omega) (by omega)
      simp only [pixelsBefore, Nat.add_sub_cancel_left]
      rw [putWrites_getElem?, hv, Option.map_some, advanceCursor_eq rect hW _ i _ (by omega), hsum, hmod, hdiv, Nat.add_assoc]
    · cases hv

/-! ## The writes are distinct and stand within the destination -/

section
variable {s : State} {op : EngineOp}

theorem opWrites_pairwise (h : bodyInside s (s.win op.dest.slot) op.body = true) :
    (opWrites s op).Pairwise (fun p q => ¬ (p.col = q.col ∧ p.row = q.row)) := by
  rw [List.pairwise_iff_getElem]
  rintro m k hm hk hlt ⟨hcol, hrow⟩
  have h1 := (writeAt_of_getElem? h (List.getElem?_eq_getElem hm)).before
  have h2 := (writeAt_of_getElem? h (List.getElem?_eq_getElem hk)).before
  rw [hcol, hrow, h2] at h1
  omega

theorem opWrites_nodup (h : bodyInside s (s.win op.dest.slot) op.body = true) : (opWrites s op).Nodup :=
  (opWrites_pairwise h).imp fun hne he => hne ⟨congrArg PixelWrite.col he, congrArg PixelWrite.row he⟩

theorem putWrites_length (rect : Rect) (cur : Nat × Nat) (pixels : List Pixel) : (putWrites rect cur pixels).length = pixels.length := by
  induction pixels generalizing cur with
  | nil => rfl
  | cons p rest ih => simp [putWrites, ih]

theorem rectOffsets_length (W H : Nat) : (rectOffsets W H).length = W * H := by simp [rectOffsets, Nat.mul_comm]

theorem opWrites_length (s : State) (op : EngineOp) : (opWrites s op).length = pixelCount op.body := by
  unfold opWrites
  cases op.body with
  | put rect c r pixels => exact putWrites_length ..
  | fill rect value => simp [fillWrites, rectOffsets_length, pixelCount]
  | copy src srcId rect x y => simp [copyWrites, rectOffsets_length, pixelCount]

/-- An operation inside its destination writes at least one pixel (R50, R51). -/
theorem pixelCount_pos {dest : Window} {body : OpBody} (h : bodyInside s dest body = true) : 0 < pixelCount body := by
  cases body with
  | put rect c r pixels =>
    simp only [bodyInside, Bool.and_eq_true, decide_eq_true_eq] at h
    exact h.1.1.2
  | fill rect value =>
    simp only [bodyInside, Bool.and_eq_true, inside_iff] at h
    exact Nat.mul_pos h.1.1 h.1.2.1
  | copy src srcId rect x y =>
    simp only [bodyInside, Bool.and_eq_true, inside_iff] at h
    exact Nat.mul_pos h.1.2.1 h.1.2.2.1

theorem surface_nodup (h : PoolInv s) (i : Slot) (id : SurfaceId) : ((s.win i).surface id).Nodup := by
  have hall : (windowBlocks s).Nodup :=
    (List.nodup_append.1 ((h.2.1.nodup_iff).2 (List.nodup_finRange _))).2.1
  have hb : (s.win i).blocks.Nodup := (List.nodup_flatMap.1 hall).1 i (mem_allSlots i)
  refine hb.sublist ?_
  unfold Window.surface Window.blocks
  split
  · exact List.sublist_append_left ..
  · exact List.sublist_append_right ..

theorem surface_length (h : ShapeInv s) {r : WinRef} {id : SurfaceId} (hl : surfaceLive s r id = true) :
    ((s.win r.slot).surface id).length = surfaceBlocks (s.win r.slot).format (s.win r.slot).width (s.win r.slot).height := by
  simp only [surfaceLive, Bool.and_eq_true, Bool.or_eq_true, beq_iff_eq] at hl
  obtain ⟨⟨-, hlive⟩, hid⟩ := hl
  have hfree : (s.win r.slot).state ≠ .free := fun e => by rw [e] at hlive; cases hlive
  obtain ⟨-, -, -, -, h0, h1, -⟩ := h.1 r.slot (mem_allSlots _) hfree
  unfold Window.surface
  split
  · exact h0
  · next hne =>
    obtain ⟨l, hl⟩ := Option.isSome_iff_exists.1 (hid.resolve_left hne)
    rw [hl]
    exact h1 l hl

/-- Every write of an operation stands within its destination (R50, R51, R56, R58). -/
theorem opWrites_writable (hs : ShapeInv s) (hop : op ∈ s.opQueue) :
    ∀ p ∈ opWrites s op, Writable (s.win op.dest.slot) op.destId p := by
  obtain ⟨hlive, hbody⟩ := hs.2.2 op hop
  intro p hp
  obtain ⟨m, hm⟩ := List.getElem?_of_mem hp
  have hw := writeAt_of_getElem? hbody hm
  refine ⟨hw.format, hw.column, ?_⟩
  rw [surface_length hs hlive]
  exact pixelLastOffset_lt hw.column hw.row

end

/-! ## An operation abandoned in flight -/

/-- Some of an operation's writes, as an abandonment may leave them: for a COPY any that leave one out, else a leading run that leaves out
the last (R55, R57, R59). -/
def interrupted (body : OpBody) (ws made : List PixelWrite) : Prop :=
  match body with
  | .copy _ _ _ _ _ => made.Sublist ws ∧ ∃ p ∈ ws, p ∉ made
  | _ => ∃ k < ws.length, made = ws.take k

theorem interrupted_sublist {body : OpBody} {ws made : List PixelWrite} (h : interrupted body ws made) : made.Sublist ws := by
  cases body with
  | copy => exact h.1
  | put | fill =>
    obtain ⟨k, -, rfl⟩ := h
    exact List.take_sublist ..

/-- An operation that has written nothing. -/
theorem interrupted_nil {body : OpBody} {ws : List PixelWrite} (h : 0 < ws.length) : interrupted body ws [] := by
  cases body with
  | copy => exact ⟨List.nil_sublist _, ws[0], List.getElem_mem h, nofun⟩
  | put | fill => exact ⟨0, h, rfl⟩

/-- What the part abandons is an interrupted operation. -/
theorem interrupted_abandonedWrites (n : Nat) (op : EngineOp) {ws : List PixelWrite} (hn : ws.Nodup) (h : 0 < ws.length) :
    interrupted op.body ws (abandonedWrites n op ws) := by
  unfold abandonedWrites
  cases op.body with
  | put | fill => exact ⟨_, Nat.mod_lt _ h, rfl⟩
  | copy =>
    have hlt : Config.copyPending n % ws.length < ws.length := Nat.mod_lt _ h
    refine ⟨?_, _, List.getElem_mem hlt, fun hm => ?_⟩
    · have := (List.filter_sublist (p := fun q => q.2 ≠ Config.copyPending n % ws.length && Config.copyWritten n q.2)
        (l := ws.zipIdx)).map Prod.fst
      rwa [List.zipIdx_map_fst] at this
    · obtain ⟨q, hq, he⟩ := List.mem_map.1 hm
      obtain ⟨hq, hne⟩ := List.mem_filter.1 hq
      have hget := List.mem_zipIdx_iff_getElem?.1 hq
      have hne : q.2 ≠ Config.copyPending n % ws.length := by
        rw [Bool.and_eq_true, decide_eq_true_eq] at hne
        exact hne.1
      refine hne ((List.getElem?_inj (List.getElem?_eq_some_iff.1 hget).1 hn).1 ?_)
      rw [hget, he, List.getElem?_eq_getElem hlt]

/-- An operation of the queue that has made some of its writes, as an abandonment may leave them, leaves whole pixels, old or its own (R55,
R57, R59). -/
theorem abandonedPixels_of_interrupted {s t : State} {op : EngineOp} (hp : PoolInv s) (hs : ShapeInv s) (hop : op ∈ s.opQueue)
    {made : List PixelWrite} (hi : interrupted op.body (opWrites s op) made) (ht : t.store = storeAfter s op made) :
    AbandonedPixels s t op := by
  obtain ⟨hlive, hbody⟩ := hs.2.2 op hop
  have hn := surface_nodup hp op.dest.slot op.destId
  have hsub := interrupted_sublist hi
  have hw : ∀ p ∈ made, Writable (s.win op.dest.slot) op.destId p := fun p hp => opWrites_writable hs hop p (hsub.subset hp)
  have written : ∀ p ∈ made, readPixel t.store (s.win op.dest.slot).format (s.win op.dest.slot).stride
      ((s.win op.dest.slot).surface op.destId) p.col p.row = p.value := fun p hp =>
    ht ▸ readPixel_writeAll_of_mem hn hw ((opWrites_pairwise hbody).sublist hsub) hp s.store
  have unwritten : ∀ c r, c < (s.win op.dest.slot).width → (∀ p ∈ made, ¬ (c = p.col ∧ r = p.row)) →
      readPixel t.store (s.win op.dest.slot).format (s.win op.dest.slot).stride ((s.win op.dest.slot).surface op.destId) c r =
        readPixel s.store (s.win op.dest.slot).format (s.win op.dest.slot).stride ((s.win op.dest.slot).surface op.destId) c r :=
    fun c r hc ha => ht ▸ readPixel_writeAll_of_absent hn hw hc ha s.store
  have run (h : ∃ k < (opWrites s op).length, made = (opWrites s op).take k) :
      ∃ k : Nat, k < pixelCount op.body ∧ ∀ c r : Nat, c < (s.win op.dest.slot).width → r < (s.win op.dest.slot).height →
        readPixel t.store (s.win op.dest.slot).format (s.win op.dest.slot).stride ((s.win op.dest.slot).surface op.destId) c r =
          if pixelsBefore op.body c r < k then
            (opPixel s op c r).getD (readPixel s.store (s.win op.dest.slot).format (s.win op.dest.slot).stride
              ((s.win op.dest.slot).surface op.destId) c r)
          else readPixel s.store (s.win op.dest.slot).format (s.win op.dest.slot).stride
            ((s.win op.dest.slot).surface op.destId) c r := by
    obtain ⟨k, hk, rfl⟩ := h
    refine ⟨k, opWrites_length s op ▸ hk, fun c r hc _ => ?_⟩
    have made_at : ∀ p ∈ (opWrites s op).take k, c = p.col ∧ r = p.row →
        opPixel s op c r = some p.value ∧ pixelsBefore op.body c r < k := by
      rintro p hp ⟨rfl, rfl⟩
      obtain ⟨m, hm⟩ := List.getElem?_of_mem hp
      rw [List.getElem?_take] at hm
      split at hm
      · next hmk =>
        have hat := writeAt_of_getElem? hbody hm
        exact ⟨hat.pixel, hat.before ▸ hmk⟩
      · cases hm
    split
    · next hlt =>
      cases hpx : opPixel s op c r with
      | none =>
        refine unwritten c r hc fun p hp hat => ?_
        rw [(made_at p hp hat).1] at hpx
        cases hpx
      | some v =>
        refine written ⟨c, r, v⟩ (List.mem_of_getElem? (i := pixelsBefore op.body c r) ?_)
        rw [List.getElem?_take, if_pos hlt]
        exact getElem?_of_opPixel hbody hpx
    · next hge => exact unwritten c r hc fun p hp hat => hge (made_at p hp hat).2
  unfold AbandonedPixels
  cases hb : op.body with
  | put | fill =>
    rw [hb] at hi run
    exact run hi
  | copy =>
    rw [hb] at hi
    obtain ⟨-, p, hpw, hpm⟩ := hi
    obtain ⟨m, hm⟩ := List.getElem?_of_mem hpw
    have hat := writeAt_of_getElem? hbody hm
    refine ⟨fun c r hc _ => ?_, p.col, p.row, by rw [hat.pixel]; nofun, unwritten _ _ hat.column fun q hq hqp => hpm ?_⟩
    · by_cases h : ∃ q ∈ made, c = q.col ∧ r = q.row
      · obtain ⟨q, hq, rfl, rfl⟩ := h
        obtain ⟨k, hk⟩ := List.getElem?_of_mem (hsub.subset hq)
        exact .inr ((writeAt_of_getElem? hbody hk).pixel.trans (congrArg some (written q hq).symm))
      · exact .inl (unwritten c r hc fun q hq hqp => h ⟨q, hq, hqp⟩)
    · obtain ⟨k, hk⟩ := List.getElem?_of_mem (hsub.subset hq)
      have hkm : k = m := by
        rw [← (writeAt_of_getElem? hbody hk).before, ← hat.before, hqp.1, hqp.2]
      subst hkm
      cases hk.symm.trans hm
      exact hq

end Sys2Proof.Machine
end

