-- ==== Sys2Proof/Proofs/RetireAndRestart.lean ====
section
/-! RETIRE, RESTART and the four countdown outcomes, each as one event with all its effects (R15, R16, R17, R99, R133, R137, R147, R156). -/

namespace Sys2Proof.Machine

open Sys2Proof.Safety

/-! ## The engine put down in an event (R60, R61) -/

theorem mem_opQueue_of_inFlight {s : State} {op : EngineOp} (h : inFlight s = some op) : op ∈ s.opQueue := by
  unfold inFlight at h
  split at h
  · exact List.mem_of_head? h
  · cases h

theorem operating_of_inFlight {s : State} {op : EngineOp} (h : inFlight s = some op) : s.activity = .operating := by
  unfold inFlight at h
  split at h
  · assumption
  · cases h

/-- The references an operation carries: its destination, and the source of a COPY (R42). -/
def opRefs (op : EngineOp) : List WinRef :=
  op.dest :: match op.body with
    | .copy src _ _ _ _ => [src]
    | _ => []

theorem opNames_iff {r : WinRef} {op : EngineOp} : opNames r op = true ↔ r ∈ opRefs op := by
  unfold opNames opRefs
  cases op.body <;> simp [eq_comm (a := r)]

/-- The references of an operation name the windows now in their slots. -/
def opCurrent (s : State) (op : EngineOp) : Prop := ∀ r ∈ opRefs op, s.refOf r.slot = r

theorem refOf_of_surfaceLive {s : State} {r : WinRef} {id : SurfaceId} (h : surfaceLive s r id = true) : s.refOf r.slot = r := by
  simp only [surfaceLive, Bool.and_eq_true, beq_iff_eq] at h
  rw [State.refOf, h.1.1]

theorem opCurrent_of_shapes {s : State} (h : ShapeInv s) {op : EngineOp} (hop : op ∈ s.opQueue) : opCurrent s op := by
  obtain ⟨hlive, hbody⟩ := h.2.2 op hop
  intro r hr
  rcases List.mem_cons.1 hr with rfl | hr
  · exact refOf_of_surfaceLive hlive
  · cases hb : op.body with
    | put | fill => rw [hb] at hr; cases hr
    | copy src =>
      rw [hb] at hr hbody
      cases List.mem_singleton.1 hr
      simp only [bodyInside, Bool.and_eq_true] at hbody
      exact refOf_of_surfaceLive hbody.1.1.1

/-- What an event that abandons the operations meeting a condition has made of the engine: the one in flight is abandoned where it meets the
condition, and otherwise the engine goes on. Where the operation's references are current, its destination's layout is what it was. -/
def EngineStop (s u : State) (hit : EngineOp → Prop) : Prop :=
  ((∀ op, inFlight s = some op → ¬ hit op) ∧ u.store = s.store ∧ u.activity = s.activity) ∨
    ∃ (op : EngineOp) (w : Window) (made : List PixelWrite), inFlight s = some op ∧ hit op ∧ u.activity = .idle ∧
      u.store = writeAll w op.destId made s.store ∧ (∀ b ∈ w.surface op.destId, b ∈ (s.win op.dest.slot).surface op.destId) ∧
      (opCurrent s op → w.layout = (s.win op.dest.slot).layout ∧ ∃ n, made = abandonedWrites n op (opWrites s op))

theorem engineStop_of_stopped {s u : State} {hit : EngineOp → Bool} (hs : u.store = (stopped s hit).store)
    (ha : u.activity = (stopped s hit).activity) : EngineStop s u (fun op => hit op = true) := by
  obtain ⟨op, hf, hh, e⟩ | ⟨hn, e⟩ := stopped_cases s hit
  · rw [e] at hs ha
    exact .inr ⟨op, _, _, hf, hh, ha, hs, fun _ hb => hb, fun _ => ⟨rfl, _, rfl⟩⟩
  · rw [e] at hs ha
    exact .inl ⟨fun op hf hh => Bool.false_ne_true ((hn op hf).symm.trans hh), hs, ha⟩

section
variable {s u : State} {hit : EngineOp → Prop}

/-- Outside the destination of an abandoned operation the store is as it was (R23, R61). -/
theorem EngineStop.read (h : EngineStop s u hit) {a : Address}
    (ha : ∀ op, inFlight s = some op → hit op → ∀ b ∈ (s.win op.dest.slot).surface op.destId, a.val / 2048 ≠ b.val) :
    u.store.read a = s.store.read a := by
  obtain ⟨-, hs, -⟩ | ⟨op, w, made, hf, hh, -, hs, hsub, -⟩ := h
  · rw [hs]
  · rw [hs]
    exact read_writeAll_outside (fun b hb => ha op hf hh b (hsub b hb)) _ _

/-- The operation in flight leaves whole pixels, old or its own (R55, R57, R59). -/
theorem EngineStop.pixels (h : EngineStop s u hit) {t : State} (ht : t.store = u.store) (hp : PoolInv s) (hsh : ShapeInv s) {op : EngineOp}
    (hf : inFlight s = some op) : AbandonedPixels s t op := by
  have hop := mem_opQueue_of_inFlight hf
  have hbody := (hsh.2.2 op hop).2
  have hlen : 0 < (opWrites s op).length := opWrites_length s op ▸ pixelCount_pos hbody
  obtain ⟨-, hs, -⟩ | ⟨x, w, made, hx, -, -, hs, -, hcur⟩ := h
  · exact abandonedPixels_of_interrupted hp hsh hop (interrupted_nil hlen) (ht.trans hs)
  · obtain rfl : x = op := Option.some.inj (hx.symm.trans hf)
    obtain ⟨hl, n, rfl⟩ := hcur (opCurrent_of_shapes hsh hop)
    refine abandonedPixels_of_interrupted hp hsh hop (interrupted_abandonedWrites n x (opWrites_nodup hbody) hlen) (ht.trans (hs.trans ?_))
    simp only [storeAfter, writeAll, Window.stride_of_layout hl, Window.surface_of_layout hl]

theorem EngineStop.scrubbing (h : EngineStop s u hit) : u.activity = .scrubbing ↔ s.activity = .scrubbing := by
  obtain ⟨-, -, ha⟩ | ⟨op, w, made, hf, -, ha, -⟩ := h
  · rw [ha]
  · rw [ha, operating_of_inFlight hf]
    exact ⟨nofun, nofun⟩

/-- The engine's choice at the end of the event (R46). -/
theorem EngineStop.choice (h : EngineStop s u hit) :
    (settleEngine u).activity = choice { u with activity := s.activity } := by
  rw [settleEngine_activity]
  simp only [Safety.choice, ne_eq, ite_not, h.scrubbing]

end

/-- A settled state that holds a response. -/
theorem settled_hold (u : State) (p : Port) (r : Response) :
    (settleEngine u).hold p r =
      { u with activity := (settleEngine u).activity, links := u.links.set p { u.links.get p with phase := .held r } } := by
  rw [settleEngine_frame]
  rfl

/-! ## The notices of a retirement, in the statements' own words (R16) -/

theorem ownerRaising_some (p : Port) (k : NoticeKind) (r : WinRef) (d : BitVec 16) : ownerRaising (some p) k r d = [⟨p, k, r, d⟩] := rfl

theorem retireRaisings_eq {s : State} (h : CommitInv s) {i : Slot} {o : Port} (ho : (s.win i).owner = some o) (c : RetireCause) :
    retireRaisings s i c =
      retireOwnRaisings s i c ++ retirementRaisings s i o (if c.ownAct (some o) then none else some c.streamCause) := by
  have hstream : retireStreamRaisings s i c =
      match (if c.ownAct (some o) then none else some c.streamCause : Option (BitVec 16)) with
      | some cause => if streamInto s .A (s.refOf i) || streamInto s .B (s.refOf i) then [⟨o, .streamClosed, s.refOf i, cause⟩] else []
      | none => [] := by
    unfold retireStreamRaisings
    rw [ho, ownerRaising_some]
    cases c.ownAct (some o) <;> simp
  have habandon : abandonRaisings s i (some o) = (groupMates s i).map (fun r => ⟨o, .commitAbandoned, r, detail i.handle⟩) := by
    unfold abandonRaisings
    simp only [ownerRaising_some, otherMembers_eq_groupMates h]
    exact List.map_eq_flatMap.symm
  unfold retireRaisings retirementRaisings
  rw [ho, habandon, hstream]
  simp only [List.append_assoc]
  rfl

/-- A retirement's own notice at a RETIRE (R15). -/
theorem retireOwnRaisings_request {s : State} {i : Slot} {o p : Port} (ho : (s.win i).owner = some o) :
    retireOwnRaisings s i (.request p) =
      if o = p then [] else [⟨o, .windowRetired, s.refOf i, if (s.win i).state = .hidden then 0x0000 else 0x0004⟩] := by
  have hcode : detail (retiredState (s.win i).state).code.toNat = if (s.win i).state = .hidden then 0x0000 else 0x0004 := by
    unfold retiredState
    split <;> rfl
  simp only [retireOwnRaisings, ho, Option.some.injEq, hcode, ownerRaising_some]

theorem ownerAndARaisings_some (o : Port) (k : NoticeKind) (r : WinRef) (d : BitVec 16) :
    ownerAndARaisings (some o) k r d = ⟨o, k, r, d⟩ :: if o = .B then [⟨.A, k, r, d⟩] else [] := by
  cases o <;> rfl

/-! ## RETIRE (O20) -/

/-- Settles O20: each field of the retired state is read off the lemma that says what a retirement makes of it. -/
theorem retireFreesOrRetires : Obligations.RetireFreesOrRetires := by
  intro s p o tag h g i hc hp hn ho hop hl
  have htaken : takeRetire s p [h, g] = .answer (settleEngine (retireWindow s i (.request p))) .done [] := by
    refine withWindow_ok (i := i) ((refCheck_names hn).trans ?_)
    rw [if_neg (by rw [ownershipOk_ownerOrA.2 (ho ▸ hop.imp_left (congrArg some))]; nofun), if_neg (by rw [hl]; nofun)]
  have hexec : exec (.retire p) s = .next _ :=
    congrArg Host.Outcome.next (complete_answer hp rfl (by decide) rfl (.inr rfl) htaken)
  have hwin := retireWindow_windows s i (.request p)
  have hqueue := (retireWindow_commitQueue s i (.request p)).trans (removeUnit_eq_withoutUnit hc i)
  have hops := retireWindow_opQueue s i (.request p)
  have hstreams := retireWindow_streams s i (.request p)
  have hnotices : (retireWindow s i (.request p)).notices = raiseAll s.notices
      ((if o = p then [] else [⟨o, .windowRetired, s.refOf i, if (s.win i).state = .hidden then 0x0000 else 0x0004⟩])
        ++ retirementRaisings s i o (if o = p then none else some 0x0001)) := by
    rw [retireWindow_notices, retireRaisings_eq hc ho, retireOwnRaisings_request ho]
    simp only [RetireCause.ownAct, beq_iff_eq, Option.some.injEq]
    rfl
  have hpool : if (s.win i).state = .hidden then
      (retireWindow s i (.request p)).scrubList = s.scrubList ++ (s.win i).blocks ∧
        (retireWindow s i (.request p)).charge = s.charge.set o (s.charge.get o - (s.win i).blocks.length)
      else (retireWindow s i (.request p)).scrubList = s.scrubList ∧ (retireWindow s i (.request p)).charge = s.charge := by
    rw [retireWindow_scrubList, retireWindow_charge, ho]
    by_cases hh : (s.win i).state = .hidden
    · simp only [if_pos hh, and_self]
    · simp only [if_neg hh, and_self]
  obtain ⟨hs, -, ha⟩ := retireWindow_engine s i (.request p)
  have hstop := engineStop_of_stopped hs ha
  have hstack := retireWindow_stack s i (.request p)
  obtain ⟨hfree, hquota, hcounter, hview, hgrace, htiming, hsub, hlinks, -⟩ :=
    State.fields_of_steady (retireWindow_steady s i (.request p))
  generalize retireWindow s i (.request p) = u at *
  rw [settled_hold] at hexec
  refine ⟨_, hexec, hwin, hqueue, hops, hstreams, hnotices, hpool, hstop.choice, fun a => hstop.read, fun hpi hsi op => hstop.pixels rfl hpi hsi,
    hstack, hview, hfree, hquota, hcounter, hgrace, htiming, hsub, ?_⟩
  simp only [hlinks]
  rfl

/-! ## RESTART (O37) -/

theorem engineStop_restart (s : State) : EngineStop s (restartEngine s) (fun _ => True) := by
  cases h : inFlight s with
  | none =>
    rw [restartEngine_of_none h]
    exact .inl ⟨fun op hf => by simp [h] at hf, rfl, rfl⟩
  | some op =>
    rw [restartEngine_of_some h]
    exact .inr ⟨op, _, _, h, trivial, rfl, rfl, fun _ hb => hb, fun _ => ⟨rfl, s.draws, rfl⟩⟩

theorem mem_heldBlocks {s : State} {b : Block} : b ∈ heldBlocks s ↔ ∃ i : Slot, b ∈ (s.win i).blocks := by
  simp [heldBlocks, allBlocks, mem_allSlots]

theorem heldBlocks_pairwise (s : State) : (heldBlocks s).Pairwise (· < ·) := List.Pairwise.filter _ (List.pairwise_lt_finRange 192)

/-- The engine put down and the queue emptied are all a RESTART asks of the engine; the rest is one update. -/
theorem engineStop_of_fields {s u v : State} {hit : EngineOp → Prop} (h : EngineStop s u hit) (hs : v.store = u.store)
    (ha : v.activity = u.activity) : EngineStop s v hit := by
  unfold EngineStop
  rw [hs, ha]
  exact h

/-- The state a RESTART makes, before the engine's choice (R156). -/
def restartedState (s : State) : State :=
  { s with
    windows := s.windows.map restartedWindow
    scrubList := s.scrubList ++ heldBlocks s
    charge := ⟨0, 0⟩
    store := (restartEngine s).store
    opQueue := []
    activity := (restartEngine s).activity
    streams := ⟨none, none⟩
    commitQueue := []
    stack := []
    view := []
    notices := ⟨restartedBox (low16 s.timing.frameCounter), restartedBox (low16 s.timing.frameCounter)⟩
    draws := (restartEngine s).draws }

theorem restartDevice_eq_settle (s : State) : restartDevice s = settleEngine (restartedState s) := restartDevice_eq s

/-- Settles O37: the restarted state is one update of the state, its engine put down, and the engine's choice. -/
theorem restartClearsPart : Obligations.RestartClearsPart := by
  intro s tag hp
  have hexec : exec (.restart .A) s = .next ((restartDevice s).hold .A ⟨.done, tag, []⟩) :=
    congrArg Host.Outcome.next (complete_answer hp rfl (by decide) rfl (.inl rfl) rfl)
  rw [restartDevice_eq_settle, settled_hold] at hexec
  have hstop : EngineStop s (restartedState s) (fun _ => True) := engineStop_of_fields (engineStop_restart s) rfl rfl
  refine ⟨_, hexec, fun i => State.win_of_map (f := restartedWindow) rfl i, ⟨heldBlocks s, heldBlocks_pairwise s, fun b => mem_heldBlocks, rfl⟩,
    rfl, rfl, rfl, rfl, rfl, rfl, fun q => ?_, hstop.choice, fun a ha => hstop.read fun op hf _ => ha op hf,
    fun hpi hsi op => hstop.pixels rfl hpi hsi, rfl, rfl, rfl, rfl, rfl, rfl, rfl⟩
  cases q <;> rfl

/-! ## The countdown outcomes (O47) -/

/-- COMMIT_EXPIRED for each window of a unit, and its entries gone (R99). -/
theorem expireUnit_eq (fc : BitVec 16) (s : State) (l : List Slot) :
    expireUnit fc s l = raised { s with commitQueue := s.commitQueue.filter (fun e => e.ref.slot ∉ l) }
      (l.flatMap (fun i => ownerRaising (s.win i).owner .commitExpired (s.refOf i) fc)) := by
  have fold (l : List Slot) (t : State) (ht : ∀ i, t.win i = s.win i) :
      l.foldl (fun t i => raiseOwner t (t.win i).owner .commitExpired (t.refOf i) fc) t =
        raised t (l.flatMap (fun i => ownerRaising (s.win i).owner .commitExpired (s.refOf i) fc)) := by
    induction l generalizing t with
    | nil => rfl
    | cons i rest ih =>
      rw [List.foldl_cons, raiseOwner_eq_raised, ih (raised t _) ht, raised_raised, State.refOf, ht i]
      rfl
  exact fold l _ fun _ => rfl

/-- The entries of a unit's windows are the unit (R88). -/
theorem mem_unitSlots {s : State} (h : CommitInv s) {e x : CommitEntry} (hx : x ∈ s.commitQueue) :
    x.ref.slot ∈ unitSlots (s.commitQueue.filter (fun y => sameGroup e y)) ↔ sameGroup e x := by
  unfold unitSlots
  simp only [List.mem_map, List.mem_filter, decide_eq_true_eq]
  constructor
  · rintro ⟨y, ⟨hy, hg⟩, hs⟩
    exact commitInv_entry_unique h hy hx hs ▸ hg
  · exact fun hg => ⟨x, ⟨hx, hg⟩, rfl⟩

theorem filter_not_unitSlots {s : State} (h : CommitInv s) {e : CommitEntry} (he : e ∈ s.commitQueue) :
    s.commitQueue.filter (fun x => x.ref.slot ∉ unitSlots (s.commitQueue.filter (fun y => sameGroup e y))) =
      withoutUnit s e.ref.slot := by
  unfold withoutUnit
  refine List.filter_congr fun x hx => ?_
  rw [Bool.eq_iff_iff, decide_eq_true_iff, mem_unitSlots h hx, Bool.not_eq_true', ← Bool.not_eq_true, inUnit_iff h he hx]

/-- A unit that is not ready and stands at count 15 expires (R99). -/
theorem commitExpiry_outcome {s : State} {e : CommitEntry} (h : CommitInv s) (he : e ∈ s.commitQueue) (hr : ¬ readyUnit s e)
    (hd : e.deferral = 15) :
    exec (.commitExpiry (e.ref.slot.val + 1)) s = .next (raised { s with commitQueue := withoutUnit s e.ref.slot }
      ((s.commitQueue.filter (fun x => sameGroup e x)).flatMap (fun x =>
        ((s.win x.ref.slot).owner.map (fun o =>
          Raising.mk o .commitExpired x.ref (s.timing.frameCounter.setWidth 16))).toList))) := by
  have hslot : slotOfHandle (e.ref.slot.val + 1) = some e.ref.slot := slotOfHandle_eq_some.2 rfl
  have hentry := commitEntry_of_mem h he
  have hdue : expiryDue s e.ref.slot = true := by
    have hready : unitReady s (s.commitQueue.filter (fun x => sameGroup e x)) = false := by
      rw [← Bool.not_eq_true, unitReady_iff h]
      exact hr
    unfold expiryDue
    rw [hentry]
    dsimp only
    rw [filter_sameUnit h he, hready, hd]
    rfl
  have hunit : unitOf s e.ref.slot = unitSlots (s.commitQueue.filter (fun x => sameGroup e x)) := by
    unfold unitOf
    rw [hentry]
    dsimp only
    rw [filter_sameUnit h he]
  refine congrArg Host.Outcome.next ?_
  rw [hslot]
  dsimp only
  rw [if_pos hdue, hunit, expireUnit_eq, filter_not_unitSlots h he, unitSlots, List.flatMap_map]
  congr 1
  refine List.flatMap_congr fun x hx => ?_
  rw [commitInv_ref h (List.mem_of_mem_filter hx)]
  rfl

theorem visitDue_of {s : State} {i : Slot} (h : CommitInv s) (hc : ¬ commitDue s i) {o : LeaseOutcome}
    (ho : leaseOutcome (s.win i) = o) : visitDue s i o = true :=
  visitDue_iff.2 ⟨ho, fun hm => hc ((mem_readySlots h).1 hm)⟩

theorem leaseOutcome_of_lapse {w : Window} (hs : w.state = .shown) (hL : 0 < w.active.leaseLength) (hr : w.renewPending = false)
    (hc : w.leaseCounter = 1) : leaseOutcome w = .lapses := by
  simp [leaseOutcome, leaseVisited, permitShown, hs, hL, hr, hc]

theorem leaseOutcome_of_eviction {w : Window} (h : evictionDue w) : leaseOutcome w = .evicted := by
  obtain ⟨hs, hL, hr, hg⟩ := h
  simp [leaseOutcome, leaseVisited, permitShown, hs, hL, hr, hg]

/-- A lease counter at 1 lapses the window (R133). -/
theorem lapse_outcome {s : State} {i : Slot} {o : Port} (h : CommitInv s) (hc : ¬ commitDue s i) (ho : (s.win i).owner = some o)
    (hs : (s.win i).state = .shown) (hL : 0 < (s.win i).active.leaseLength) (hr : (s.win i).renewPending = false)
    (h1 : (s.win i).leaseCounter = 1) :
    exec (.lapse (i.val + 1)) s = .next (raised
      (s.setWin i { s.win i with state := .lapsed, leaseCounter := 0, renewPending := false, graceCounter := s.grace })
      (Raising.mk o .leaseLapsed (s.refOf i) (BitVec.ofNat 16 s.grace) ::
        (if o = .B then [Raising.mk .A .leaseLapsed (s.refOf i) (BitVec.ofNat 16 s.grace)] else []))) := by
  have hslot : slotOfHandle (i.val + 1) = some i := slotOfHandle_eq_some.2 rfl
  refine congrArg Host.Outcome.next ?_
  rw [hslot]
  dsimp only
  rw [if_pos (visitDue_of h hc (leaseOutcome_of_lapse hs hL hr h1)), lapseWindow, raiseOwnerAndA_eq_raised, ho, ownerAndARaisings_some]
  rfl

/-- Setting a window's counts leaves a sound commit queue. -/
theorem commitInv_of_counts {s t : State} (h : CommitInv s) {i : Slot} {w : Window} (hw : t.windows = s.windows.set i w)
    (hq : t.commitQueue = s.commitQueue) (hst : w.state = (s.win i).state) (hg : w.gen = (s.win i).gen)
    (hsg : w.staging = (s.win i).staging) (ho : w.owner = (s.win i).owner) : CommitInv t := by
  refine commitInv_filter h (f := fun _ => true) (by rw [hq, List.filter_true]) fun e he => ?_
  have hl := (h.2.1 e (hq ▸ he)).2.1
  rw [State.win_of_set hw]
  split
  · next hi => exact hi ▸ ⟨hg, by rw [live, hst]; exact hi ▸ hl, hsg, ho⟩
  · exact ⟨rfl, hl, rfl, rfl⟩

/-- A grace counter at 1 evicts the window (R137). -/
theorem eviction_outcome {s : State} {i : Slot} {o : Port} (h : CommitInv s) (hc : ¬ commitDue s i) (ho : (s.win i).owner = some o)
    (hdue : evictionDue (s.win i)) :
    ∃ t : State, exec (.eviction (i.val + 1)) s = .next t ∧
      t.windows = s.windows.set i { s.win i with
        state := .retiring, staging := Staging.empty, offer := none, renewPending := false, graceCounter := 0 } ∧
      t.commitQueue = withoutUnit s i ∧ t.opQueue = s.opQueue.filter (fun op => !opNames (s.refOf i) op) ∧
      (∀ q : Port, t.streams.get q = if streamInto s q (s.refOf i) then none else s.streams.get q) ∧
      t.notices = raiseAll s.notices
        (Raising.mk o .windowEvicted (s.refOf i) (s.timing.frameCounter.setWidth 16) ::
          (if o = .B then [Raising.mk .A .windowEvicted (s.refOf i) (s.timing.frameCounter.setWidth 16)] else [])
          ++ retirementRaisings s i o (some 0x0002)) ∧
      t.stack = s.stack ∧ t.view = s.view ∧ t.scrubList = s.scrubList ∧ t.charge = s.charge ∧ t.freeSet = s.freeSet ∧
      t.quota = s.quota ∧ t.opCounter = s.opCounter ∧ t.grace = s.grace ∧ t.subscribed = s.subscribed ∧
      t.timing = s.timing ∧ t.links = s.links ∧ t.activity = choice { t with activity := s.activity } ∧
      (∀ a : Address, (∀ op, inFlight s = some op → opNames (s.refOf i) op = true →
        ∀ b ∈ (s.win op.dest.slot).surface op.destId, a.val / 2048 ≠ b.val) → t.store.read a = s.store.read a) ∧
      (PoolInv s → ShapeInv s → ∀ op, inFlight s = some op → AbandonedPixels s t op) := by
  have hslot : slotOfHandle (i.val + 1) = some i := slotOfHandle_eq_some.2 rfl
  have hexec : exec (.eviction (i.val + 1)) s = .next (settleEngine (evictWindow s i)) := by
    refine congrArg Host.Outcome.next ?_
    rw [hslot]
    exact if_pos (visitDue_of h hc (leaseOutcome_of_eviction hdue))
  have hnh : ¬ (s.win i).state = .hidden := by rw [hdue.1]; nofun
  unfold evictWindow at hexec
  obtain ⟨v, hv⟩ : ∃ v, v = s.setWin i { s.win i with graceCounter := 0 } := ⟨_, rfl⟩
  rw [← hv] at hexec
  have hvi : v.win i = { s.win i with graceCounter := 0 } := by rw [hv, State.win_setWin_same]
  have href : v.refOf i = s.refOf i := by simp only [State.refOf, hvi]
  have hvw : v.windows = s.windows.set i { s.win i with graceCounter := 0 } := hv ▸ State.setWin_windows ..
  have hvc : CommitInv v := commitInv_of_counts h hvw (hv ▸ rfl) rfl rfl rfl rfl
  have hlayout : ∀ j, (v.win j).layout = (s.win j).layout := by
    intro j
    rw [State.win_of_set hvw]
    split
    · next hj => exact hj ▸ rfl
    · rfl
  have hwin : (retireWindow v i .eviction).windows = s.windows.set i { s.win i with
      state := .retiring, staging := Staging.empty, offer := none, renewPending := false, graceCounter := 0 } := by
    rw [retireWindow_windows, hvw, Vector.set_set, hvi, retiredWindow, if_neg hnh]
  have hqueue : (retireWindow v i .eviction).commitQueue = withoutUnit s i := by
    rw [retireWindow_commitQueue, removeUnit_eq_withoutUnit hvc, hv]
    rfl
  have hops : (retireWindow v i .eviction).opQueue = s.opQueue.filter (fun op => !opNames (s.refOf i) op) := by
    rw [retireWindow_opQueue, href, hv]
    rfl
  have hstreams (q : Port) : (retireWindow v i .eviction).streams.get q = if streamInto s q (s.refOf i) then none else s.streams.get q := by
    rw [retireWindow_streams, href, hv]
    rfl
  have hnotices : (retireWindow v i .eviction).notices = raiseAll s.notices
      (Raising.mk o .windowEvicted (s.refOf i) (s.timing.frameCounter.setWidth 16) ::
        (if o = .B then [Raising.mk .A .windowEvicted (s.refOf i) (s.timing.frameCounter.setWidth 16)] else [])
        ++ retirementRaisings s i o (some 0x0002)) := by
    have ho' : (v.win i).owner = some o := by rw [hvi]; exact ho
    have hr : retirementRaisings v i o (some closedByEviction) = retirementRaisings s i o (some 0x0002) := by
      unfold retirementRaisings
      rw [href, hvi, hv]
      rfl
    have hraise : retireRaisings v i .eviction = retireOwnRaisings v i .eviction ++ retirementRaisings v i o (some closedByEviction) :=
      retireRaisings_eq hvc ho' .eviction
    rw [retireWindow_notices, hraise, retireOwnRaisings, ho', href, ownerAndARaisings_some, hr, hv]
    rfl
  have hscrub : (retireWindow v i .eviction).scrubList = s.scrubList := by
    rw [retireWindow_scrubList, hvi, if_neg hnh, hv]
    rfl
  have hcharge : (retireWindow v i .eviction).charge = s.charge := by
    rw [retireWindow_charge, hvi, if_neg hnh, hv]
    rfl
  have hstop : EngineStop s (retireWindow v i .eviction) (fun op => opNames (s.refOf i) op = true) := by
    obtain ⟨hs, -, ha⟩ := retireWindow_engine v i .eviction
    rw [href] at hs ha
    obtain ⟨hs', -, ha'⟩ := stopped_congr (s := s) (t := v) (opNames (s.refOf i)) (hv ▸ rfl) (hv ▸ rfl) (hv ▸ rfl) (hv ▸ rfl) hlayout
    exact engineStop_of_stopped (hs.trans hs') (ha.trans ha')
  have hstack : (retireWindow v i .eviction).stack = s.stack := (retireWindow_stack v i .eviction).trans (hv ▸ rfl)
  have hsteady : (retireWindow v i .eviction).steady = s.steady := (retireWindow_steady v i .eviction).trans (hv ▸ rfl)
  obtain ⟨hfree, hquota, hcounter, hview, hgrace, htiming, hsub, hlinks, -⟩ := State.fields_of_steady hsteady
  generalize retireWindow v i .eviction = u at *
  rw [settleEngine_frame] at hexec
  exact ⟨_, hexec, hwin, hqueue, hops, hstreams, hnotices, hstack, hview, hscrub, hcharge, hfree, hquota, hcounter, hgrace, hsub, htiming,
    hlinks, hstop.choice, fun a => hstop.read, fun hpi hsi op => hstop.pixels rfl hpi hsi⟩

/-- An offer at 1 expires (R147). -/
theorem offerExpiry_outcome {s : State} {i : Slot} {o : Offer} (ho : (s.win i).offer = some o) (h1 : o.frames = 1) :
    exec (.offerExpiry (i.val + 1)) s = .next (raised (s.setWin i { s.win i with offer := none })
      [⟨.A, .offerExpired, s.refOf i, s.timing.frameCounter.setWidth 16⟩,
       ⟨.B, .offerExpired, s.refOf i, s.timing.frameCounter.setWidth 16⟩]) := by
  have hslot : slotOfHandle (i.val + 1) = some i := slotOfHandle_eq_some.2 rfl
  have hdue : offerDue s i = true := by
    unfold offerDue
    rw [ho]
    exact decide_eq_true (Nat.le_of_eq h1)
  refine congrArg Host.Outcome.next ?_
  rw [hslot]
  dsimp only
  rw [if_pos hdue, expireOffer, raise_eq_raised, raise_eq_raised, raised_raised]
  rfl

/-- Settles O47: each of the four events makes its own outcome, due by the state. -/
theorem countdownOutcomes : Obligations.CountdownOutcomes :=
  ⟨fun _ _ h he hr hd => commitExpiry_outcome h he hr hd, fun _ _ _ h hc ho hs hL hr h1 => lapse_outcome h hc ho hs hL hr h1,
    fun _ _ _ h hc ho hd => eviction_outcome h hc ho hd, fun _ _ _ ho h1 => offerExpiry_outcome ho h1⟩

end Sys2Proof.Machine
end

