-- ==== Sys2Proof/Proofs/Detach.lean ====
section
/-! DETACH as one event: the port's windows retired one after another, its operations cancelled, the offers made to it declined (R154); and
what no command of Port B changes (R142, R144). -/

namespace Sys2Proof.Machine

open Sys2Proof.Safety

/-! ## The list of one port after a sequence of raisings -/

/-- A sequence of raisings into one list (R161). -/
def NoticeBox.takeAll (b : NoticeBox) (l : List Raising) : NoticeBox :=
  l.foldl (fun c x => c.take x.kind x.ref.slot.handle x.ref.gen x.detail) b

/-- A port's list takes the raisings to it, in their order, and no other. -/
theorem raiseAll_get (n : PerPort NoticeBox) (l : List Raising) (q : Port) :
    (raiseAll n l).get q = (n.get q).takeAll (l.filter (fun x => x.port == q)) := by
  induction l generalizing n with
  | nil => rfl
  | cons x rest ih =>
    rw [raiseAll_cons, ih]
    by_cases h : x.port = q
    · subst h
      simp [NoticeBox.takeAll]
    · simp [h, PerPort.get_set_of_ne _ _ (Ne.symm h)]

theorem raiseAll_get_congr {m n : PerPort NoticeBox} {q : Port} (h : m.get q = n.get q) {l k : List Raising}
    (hl : l.filter (fun x => x.port == q) = k.filter (fun x => x.port == q)) : (raiseAll m l).get q = (raiseAll n k).get q := by
  rw [raiseAll_get, raiseAll_get, h, hl]

theorem PerPort.ext_get {α : Type} {x y : PerPort α} (h : ∀ q, x.get q = y.get q) : x = y := by
  have ha : x.a = y.a := h .A
  have hb : x.b = y.b := h .B
  cases x
  cases y
  exact congr (congrArg PerPort.mk ha) hb

/-! ## Several retirements -/

/-- Windows retired one after another, as a DETACH does. -/
def retireAll (s : State) (l : List Slot) : State := l.foldl (fun t i => retireWindow t i .detach) s

theorem retireAll_cons (s : State) (i : Slot) (l : List Slot) : retireAll s (i :: l) = retireAll (retireWindow s i .detach) l := rfl

theorem retireWindow_refOf_of_ne (s : State) {i j : Slot} (c : RetireCause) (h : j ≠ i) : (retireWindow s i c).refOf j = s.refOf j := by
  rw [State.refOf, retireWindow_win_of_ne s c h]
  rfl

/-- What depends on the records of later windows is not disturbed by an earlier retirement. -/
theorem forall_win_of_notMem {s : State} {i : Slot} {c : RetireCause} {l : List Slot} (h : i ∉ l) :
    ∀ j ∈ l, (retireWindow s i c).win j = s.win j ∧ (retireWindow s i c).refOf j = s.refOf j := by
  intro j hj
  have hne : j ≠ i := fun e => h (e ▸ hj)
  exact ⟨retireWindow_win_of_ne s c hne, retireWindow_refOf_of_ne s c hne⟩

theorem retireAll_win {l : List Slot} (hn : l.Nodup) (s : State) (j : Slot) :
    (retireAll s l).win j = if j ∈ l then retiredWindow (s.win j) else s.win j := by
  induction l generalizing s with
  | nil => rfl
  | cons i rest ih =>
    obtain ⟨hi, hrest⟩ := List.nodup_cons.1 hn
    rw [retireAll_cons, ih hrest, retireWindow_win]
    by_cases hj : j = i
    · subst hj
      simp [hi]
    · simp [hj]

theorem retireAll_opQueue {l : List Slot} (hn : l.Nodup) (s : State) :
    (retireAll s l).opQueue = s.opQueue.filter (fun op => l.all (fun i => !opNames (s.refOf i) op)) := by
  induction l generalizing s with
  | nil => simp [retireAll]
  | cons i rest ih =>
    obtain ⟨hi, hrest⟩ := List.nodup_cons.1 hn
    have hcongr : ∀ op, rest.all (fun j => !opNames ((retireWindow s i .detach).refOf j) op) = rest.all (fun j => !opNames (s.refOf j) op) :=
      fun op => Bool.eq_iff_iff.2 (by
        rw [List.all_eq_true, List.all_eq_true]
        exact forall₂_congr fun j hj => by rw [(forall_win_of_notMem hi j hj).2])
    rw [retireAll_cons, ih hrest, retireWindow_opQueue, List.filter_filter]
    refine List.filter_congr fun op _ => ?_
    rw [hcongr, List.all_cons, Bool.and_comm]

theorem retireAll_streams {l : List Slot} (hn : l.Nodup) (s : State) (q : Port) :
    (retireAll s l).streams.get q = if l.any (fun i => streamInto s q (s.refOf i)) then none else s.streams.get q := by
  induction l generalizing s with
  | nil => rfl
  | cons i rest ih =>
    obtain ⟨hi, hrest⟩ := List.nodup_cons.1 hn
    have hv := retireWindow_streams s i .detach q
    rw [retireAll_cons, ih hrest, List.any_cons]
    by_cases hs : streamInto s q (s.refOf i) = true
    · rw [if_pos hs] at hv
      rw [hv, hs]
      simp
    · rw [if_neg hs] at hv
      have hcongr : rest.any (fun j => streamInto (retireWindow s i .detach) q ((retireWindow s i .detach).refOf j)) =
          rest.any (fun j => streamInto s q (s.refOf j)) :=
        Bool.eq_iff_iff.2 (by
          rw [List.any_eq_true, List.any_eq_true]
          exact exists_congr fun j => and_congr_right fun hj => by rw [(forall_win_of_notMem hi j hj).2, streamInto_congr hv])
      rw [hcongr, hv, Bool.eq_false_iff.2 hs, Bool.false_or]

theorem retireAll_scrubList {l : List Slot} (hn : l.Nodup) (s : State) :
    (retireAll s l).scrubList = s.scrubList ++ (l.filter (fun i => (s.win i).state = .hidden)).flatMap (fun i => (s.win i).blocks) := by
  induction l generalizing s with
  | nil => simp [retireAll]
  | cons i rest ih =>
    obtain ⟨hi, hrest⟩ := List.nodup_cons.1 hn
    have hwin := fun j hj => (forall_win_of_notMem (s := s) (c := .detach) hi j hj).1
    have hfilter : rest.filter (fun j => ((retireWindow s i .detach).win j).state = .hidden) =
        rest.filter (fun j => (s.win j).state = .hidden) := List.filter_congr fun j hj => by rw [hwin j hj]
    have hblocks : (rest.filter (fun j => (s.win j).state = .hidden)).flatMap (fun j => ((retireWindow s i .detach).win j).blocks) =
        (rest.filter (fun j => (s.win j).state = .hidden)).flatMap (fun j => (s.win j).blocks) :=
      List.flatMap_congr fun j hj => by rw [hwin j (List.mem_of_mem_filter hj)]
    rw [retireAll_cons, ih hrest, hfilter, hblocks, retireWindow_scrubList]
    by_cases hh : (s.win i).state = .hidden
    · simp [hh]
    · simp [hh]

theorem retireAll_charge {l : List Slot} (hn : l.Nodup) {s : State} {p : Port} (ho : ∀ i ∈ l, (s.win i).owner = some p) :
    (retireAll s l).charge = s.charge.set p (s.charge.get p -
      ((l.filter (fun i => (s.win i).state = .hidden)).map (fun i => (s.win i).blocks.length)).sum) := by
  induction l generalizing s with
  | nil => simp [retireAll]
  | cons i rest ih =>
    obtain ⟨hi, hrest⟩ := List.nodup_cons.1 hn
    have hwin := fun j hj => (forall_win_of_notMem (s := s) (c := .detach) hi j hj).1
    have hfilter : rest.filter (fun j => ((retireWindow s i .detach).win j).state = .hidden) =
        rest.filter (fun j => (s.win j).state = .hidden) := List.filter_congr fun j hj => by rw [hwin j hj]
    have hblocks : (rest.filter (fun j => (s.win j).state = .hidden)).map (fun j => ((retireWindow s i .detach).win j).blocks.length) =
        (rest.filter (fun j => (s.win j).state = .hidden)).map (fun j => (s.win j).blocks.length) :=
      List.map_congr_left fun j hj => by rw [hwin j (List.mem_of_mem_filter hj)]
    rw [retireAll_cons, ih hrest (fun j hj => by rw [hwin j hj]; exact ho j (List.mem_cons_of_mem _ hj)), hfilter, hblocks,
      retireWindow_charge, ho i List.mem_cons_self]
    by_cases hh : (s.win i).state = .hidden
    · simp [hh, Nat.sub_sub]
    · simp [hh]

theorem retireAll_steady (s : State) (l : List Slot) : (retireAll s l).steady = s.steady :=
  foldl_keeps State.steady _ (fun t i => retireWindow_steady t i .detach) l s

theorem retireAll_stack (s : State) (l : List Slot) : (retireAll s l).stack = s.stack :=
  foldl_keeps State.stack _ (fun t i => retireWindow_stack t i .detach) l s

/-- A retirement keeps the commit queue sound. -/
theorem commitInv_retire {s : State} (h : CommitInv s) (i : Slot) (c : RetireCause) : CommitInv (retireWindow s i c) := by
  obtain ⟨f, hf⟩ := retireWindow_cut s i c
  refine commitInv_filter h hf fun e he => ?_
  have hl := (h.2.1 e (List.mem_of_mem_filter (hf ▸ he))).2.1
  rw [retireWindow_commitQueue] at he
  rw [retireWindow_win_of_ne s c (removeUnit_not_armed h i e he)]
  exact ⟨rfl, hl, rfl, rfl⟩

/-- The retirement of one of a port's windows takes entries of that port's windows only, and the window's own (R91, R101). -/
theorem retireWindow_cut_owner {s : State} (h : CommitInv s) {i : Slot} {p : Port} (ho : (s.win i).owner = some p) (c : RetireCause) :
    ∃ f, (retireWindow s i c).commitQueue = s.commitQueue.filter f ∧
      ∀ e ∈ s.commitQueue, ((s.win e.ref.slot).owner ≠ some p → f e = true) ∧ (e.ref.slot = i → f e = false) := by
  refine ⟨_, (retireWindow_commitQueue s i c).trans (removeUnit_eq_withoutUnit h i), fun e he => ⟨fun hne => ?_, fun hi => by simp [hi]⟩⟩
  simp only [Bool.not_eq_true', Bool.or_eq_false_iff, beq_eq_false_iff_ne, ne_eq, List.any_eq_false, Bool.and_eq_true, beq_iff_eq,
    bne_iff_ne]
  refine ⟨fun hi => hne (hi ▸ ho), fun x hx ⟨⟨hxi, hxt⟩, hex⟩ => hne ?_⟩
  rw [(h.2.2 x hx e he hxt hex).1, hxi]
  exact ho

theorem retireAll_commitQueue {l : List Slot} (hn : l.Nodup) {s : State} (h : CommitInv s) {p : Port}
    (ho : ∀ i ∈ l, (s.win i).owner = some p) : ∃ f, (retireAll s l).commitQueue = s.commitQueue.filter f ∧
      ∀ e ∈ s.commitQueue, ((s.win e.ref.slot).owner ≠ some p → f e = true) ∧ (e.ref.slot ∈ l → f e = false) := by
  induction l generalizing s with
  | nil => exact ⟨fun _ => true, List.filter_eq_self.2 (fun _ _ => rfl) |>.symm, fun e _ => ⟨fun _ => rfl, nofun⟩⟩
  | cons i rest ih =>
    obtain ⟨hi, hrest⟩ := List.nodup_cons.1 hn
    have howner := ho i List.mem_cons_self
    obtain ⟨f, hf, hfe⟩ := retireWindow_cut_owner h howner .detach
    obtain ⟨g, hg, hge⟩ := ih hrest (commitInv_retire h i .detach) fun j hj => by
      rw [(forall_win_of_notMem hi j hj).1]
      exact ho j (List.mem_cons_of_mem _ hj)
    refine ⟨fun e => f e && g e, by rw [retireAll_cons, hg, hf, List.filter_filter]; simp only [Bool.and_comm],
      fun e he => ⟨fun hne => ?_, fun hl => ?_⟩⟩
    · show (f e && g e) = true
      have hfe' := (hfe e he).1 hne
      have hm : e ∈ (retireWindow s i .detach).commitQueue := hf ▸ List.mem_filter.2 ⟨he, hfe'⟩
      have hslot : e.ref.slot ≠ i := fun hs => hne (hs ▸ howner)
      rw [hfe', (hge e hm).1 (by rw [retireWindow_win_of_ne s _ hslot]; exact hne)]
      rfl
    · show (f e && g e) = false
      rcases List.mem_cons.1 hl with hl | hl
      · rw [(hfe e he).2 hl, Bool.false_and]
      · cases hfe' : f e with
        | false => rfl
        | true =>
          have hm : e ∈ (retireWindow s i .detach).commitQueue := hf ▸ List.mem_filter.2 ⟨he, hfe'⟩
          rw [(hge e hm).2 hl, Bool.true_and]

/-! ## The notices of the other port -/

theorem cancelRaising_eq (op : EngineOp) : cancelRaising op = ⟨op.issuer, .opCancelled, op.dest, op.opNumber.setWidth 16⟩ := by
  rw [cancelRaising, detail, BitVec.ofNat_toNat]

theorem detachRaisings_congr {s t : State} {l : List Slot} (h : ∀ i ∈ l, t.win i = s.win i ∧ t.refOf i = s.refOf i) (ops : List EngineOp) :
    detachRaisings t l ops = detachRaisings s l ops := by
  induction l generalizing ops with
  | nil => rfl
  | cons i rest ih =>
    obtain ⟨hw, hr⟩ := h i List.mem_cons_self
    simp only [detachRaisings, hw, hr, ih fun j hj => h j (List.mem_cons_of_mem _ hj)]

/-- What the retirement of a port's window at its DETACH tells the other port (R16, R19, R61). -/
theorem retireRaisings_detach {s : State} {i : Slot} {p : Port} (ho : (s.win i).owner = some p) :
    (retireRaisings s i .detach).filter (fun x => x.port == p.other) =
      ((s.opQueue.filter (opNames (s.refOf i))).map (fun op => Raising.mk op.issuer .opCancelled op.dest (op.opNumber.setWidth 16))
        ++ retireOfferRaisings s i).filter (fun x => x.port == p.other) := by
  have hstream : retireStreamRaisings s i .detach = [] := by simp [retireStreamRaisings, RetireCause.ownAct]
  have habandon : (abandonRaisings s i (some p)).filter (fun x => x.port == p.other) = [] := by
    refine List.filter_eq_nil_iff.2 fun x hx => ?_
    obtain ⟨r, -, hx⟩ := List.mem_flatMap.1 hx
    obtain rfl := List.mem_singleton.1 hx
    simpa using (Port.other_ne p).symm
  have hown : retireOwnRaisings s i .detach = [] := rfl
  simp only [retireRaisings, ho, hown, hstream, List.filter_append, habandon, List.nil_append, List.append_nil]
  congr 2
  exact List.map_congr_left fun op _ => cancelRaising_eq op

theorem retireAll_notices {l : List Slot} (hn : l.Nodup) {s : State} {p : Port} (ho : ∀ i ∈ l, (s.win i).owner = some p) :
    (retireAll s l).notices.get p.other = (raiseAll s.notices (detachRaisings s l s.opQueue)).get p.other := by
  induction l generalizing s with
  | nil => rfl
  | cons i rest ih =>
    obtain ⟨hi, hrest⟩ := List.nodup_cons.1 hn
    have hwin := forall_win_of_notMem (s := s) (c := .detach) hi
    rw [retireAll_cons, ih hrest fun j hj => by rw [(hwin j hj).1]; exact ho j (List.mem_cons_of_mem _ hj), detachRaisings_congr hwin,
      detachRaisings, raiseAll_append, retireWindow_opQueue, retireWindow_notices]
    exact raiseAll_get_congr (raiseAll_get_congr rfl (retireRaisings_detach (ho i List.mem_cons_self))) rfl

/-! ## The engine over several retirements -/

theorem inFlight_of_idle {s : State} (h : s.activity = .idle) : inFlight s = none := by
  unfold inFlight
  rw [h]

/-- An operation in flight that is not taken from the queue stays in flight. -/
theorem inFlight_of_filter {s v : State} {f : EngineOp → Bool} (ha : v.activity = s.activity) (hq : v.opQueue = s.opQueue.filter f)
    (hf : ∀ op, inFlight s = some op → f op = true) : inFlight v = inFlight s := by
  unfold inFlight at *
  rw [ha, hq]
  cases hs : s.activity with
  | operating =>
    rw [hs] at hf
    cases hl : s.opQueue with
    | nil => rfl
    | cons op rest =>
      rw [List.filter_cons_of_pos (hf op (by rw [hl]; rfl))]
      rfl
  | idle => rfl
  | scrubbing => rfl

/-- What an operation writes depends on the store and the layouts of the windows it names. -/
theorem opWrites_congr_of_refs {s t : State} (hs : t.store = s.store) {op : EngineOp}
    (hw : ∀ r ∈ opRefs op, (t.win r.slot).layout = (s.win r.slot).layout) : opWrites t op = opWrites s op := by
  unfold opWrites
  unfold opRefs at hw
  cases hb : op.body with
  | put | fill => rfl
  | copy src srcId rect dx dy =>
    rw [hb] at hw
    have h := hw src (by simp)
    simp only [copyWrites, hs, (Window.layout_eq h).1, Window.stride_of_layout h, Window.surface_of_layout h]

/-- Two such events one after another, the first of which takes away no more than it cancels, and no window of the operation that goes on. -/
theorem EngineStop.trans {s v u : State} {P Q : EngineOp → Prop} (h : EngineStop s v P) (h' : EngineStop v u Q)
    {f : EngineOp → Bool} (hq : v.opQueue = s.opQueue.filter f) (hf : ∀ op, ¬ P op → f op = true)
    (hsub : ∀ (j : Slot) (id : SurfaceId), ∀ b ∈ (v.win j).surface id, b ∈ (s.win j).surface id)
    (hkept : ∀ op, ¬ P op → opCurrent s op → ∀ r ∈ opRefs op, v.win r.slot = s.win r.slot) :
    EngineStop s u (fun op => P op ∨ Q op) := by
  obtain ⟨hnot, hs, ha⟩ | ⟨op, w, made, hfl, hP, ha, hs, hw, hcur⟩ := h
  · have hfly : inFlight v = inFlight s := inFlight_of_filter ha hq fun op hop => hf op (hnot op hop)
    obtain ⟨hnot', hs', ha'⟩ | ⟨op, w, made, hfl, hQ, ha', hs', hw, hcur⟩ := h'
    · exact .inl ⟨fun op hop => not_or.2 ⟨hnot op hop, hnot' op (hfly ▸ hop)⟩, hs'.trans hs, ha'.trans ha⟩
    · rw [hfly] at hfl
      refine .inr ⟨op, w, made, hfl, .inr hQ, ha', hs'.trans (congrArg _ hs), fun b hb => hsub _ _ b (hw b hb), fun hc => ?_⟩
      have hrec := hkept op (hnot op hfl) hc
      obtain ⟨hl, n, hm⟩ := hcur fun r hr => by rw [State.refOf, hrec r hr]; exact hc r hr
      rw [hrec _ List.mem_cons_self] at hl
      exact ⟨hl, n, hm.trans (congrArg _ (opWrites_congr_of_refs hs fun r hr => by rw [hrec r hr]))⟩
  · obtain ⟨-, hs', ha'⟩ | ⟨x, w', made', hfl', -⟩ := h'
    · exact .inr ⟨op, w, made, hfl, .inl hP, ha'.trans ha, hs'.trans hs, hw, hcur⟩
    · rw [inFlight_of_idle ha] at hfl'
      cases hfl'

theorem EngineStop.congr {s u : State} {P Q : EngineOp → Prop} (h : EngineStop s u P) (hpq : ∀ op, P op ↔ Q op) : EngineStop s u Q := by
  rwa [show Q = P from funext fun op => propext (hpq op).symm]

theorem retiredWindow_surface {w : Window} {id : SurfaceId} {b : Block} (h : b ∈ (retiredWindow w).surface id) : b ∈ w.surface id := by
  unfold retiredWindow at h
  split at h
  · unfold Window.surface at h
    split at h <;> cases h
  · exact h

theorem retireAll_engine {l : List Slot} (hn : l.Nodup) (s : State) :
    EngineStop s (retireAll s l) (fun op => ∃ i ∈ l, opNames (s.refOf i) op = true) := by
  induction l generalizing s with
  | nil => exact .inl ⟨fun _ _ ⟨_, hi, _⟩ => absurd hi List.not_mem_nil, rfl, rfl⟩
  | cons i rest ih =>
    obtain ⟨hi, hrest⟩ := List.nodup_cons.1 hn
    obtain ⟨hs, -, ha⟩ := retireWindow_engine s i .detach
    have hwin := forall_win_of_notMem (s := s) (c := .detach) hi
    refine ((engineStop_of_stopped hs ha).trans (ih hrest _) (retireWindow_opQueue s i .detach) (fun op h => by simpa using h)
      (fun j id b hb => ?_) (fun op h hc r hr => ?_)).congr fun op => ?_
    · rw [retireWindow_win] at hb
      split at hb
      · next hj => exact hj ▸ retiredWindow_surface hb
      · exact hb
    · refine retireWindow_win_of_ne s _ fun he => h ?_
      rw [opNames_iff, ← he, hc r hr]
      exact hr
    · simp only [List.mem_cons, exists_eq_or_imp]
      exact or_congr_right (exists_congr fun j => and_congr_right fun hj => by rw [(hwin j hj).2])

/-! ## The offers declined -/

theorem declineOffer_win (d : BitVec 16) (s : State) (i j : Slot) :
    (declineOffer d s i).win j = if j = i then { s.win i with offer := none } else s.win j :=
  State.win_of_set (by rw [declineOffer_frame]) j

/-- Offers declined one after another: their windows lose their offers, and the owners are told (R150). -/
theorem foldl_declineOffer (d : BitVec 16) (l : List Slot) (s : State) :
    l.foldl (declineOffer d) s =
        { s with windows := (l.foldl (declineOffer d) s).windows, notices := (l.foldl (declineOffer d) s).notices } ∧
      (∀ j, (l.foldl (declineOffer d) s).win j = if j ∈ l then { s.win j with offer := none } else s.win j) ∧
      (l.foldl (declineOffer d) s).notices =
        raiseAll s.notices (l.flatMap (fun i => ownerRaising (s.win i).owner .offerDeclined (s.refOf i) d)) := by
  induction l generalizing s with
  | nil => exact ⟨rfl, fun _ => rfl, rfl⟩
  | cons i rest ih =>
    obtain ⟨hframe, hwin, hnotices⟩ := ih (declineOffer d s i)
    have hsame : ∀ j, ((declineOffer d s i).win j).owner = (s.win j).owner ∧ (declineOffer d s i).refOf j = s.refOf j := by
      intro j
      rw [State.refOf, declineOffer_win]
      split
      · next hj => subst hj; exact ⟨rfl, rfl⟩
      · exact ⟨rfl, rfl⟩
    have hfirst : (declineOffer d s i).notices =
        raiseAll s.notices (ownerRaising (s.win i).owner .offerDeclined (s.refOf i) d) := by
      unfold declineOffer
      rw [raiseOwner_eq_raised]
      rfl
    rw [List.foldl_cons]
    refine ⟨?_, fun j => ?_, ?_⟩
    · rw [hframe, declineOffer_frame]
    · rw [hwin, declineOffer_win]
      by_cases hj : j = i
      · subst hj
        simp
      · simp [hj]
    · rw [hnotices, hfirst, List.flatMap_cons, raiseAll_append]
      simp only [fun j => (hsame j).1, fun j => (hsame j).2]

theorem declineOrder_perm (n : Nat) (l : List Slot) : (declineOrder n l).Perm l := by
  unfold declineOrder
  split
  · exact .nil
  · exact .refl _
  · exact arrange_perm ..

theorem mem_offeredTo {s : State} {p : Port} {i : Slot} : i ∈ offeredTo s p ↔ (s.win i).offer.map Offer.target = some p := by
  unfold offeredTo
  rw [List.mem_filter, and_iff_right (mem_allSlots i)]
  cases (s.win i).offer <;> simp

/-! ## DETACH (O16) -/

theorem mem_detachedSlots {s : State} {p : Port} {i : Slot} : i ∈ detachedSlots s p ↔ (s.win i).owner = some p ∧ live (s.win i) := by
  simp [detachedSlots, mem_allSlots, live]

theorem detachedSlots_nodup (s : State) (p : Port) : (detachedSlots s p).Nodup := allSlots_nodup.filter _

theorem detachedSlots_owner {s : State} {p : Port} : ∀ i ∈ detachedSlots s p, (s.win i).owner = some p :=
  fun _ hi => (mem_detachedSlots.1 hi).1

/-- The other port hears nothing of the operations it did not issue. -/
theorem cancelRaisings_issuer (ops : List EngineOp) (p : Port) :
    ((ops.filter (fun op => op.issuer == p)).map cancelRaising).filter (fun x => x.port == p.other) = [] := by
  refine List.filter_eq_nil_iff.2 fun x hx => ?_
  obtain ⟨op, hop, rfl⟩ := List.mem_map.1 hx
  have hi := beq_iff_eq.1 (List.mem_filter.1 hop).2
  simpa [cancelRaising, hi] using (Port.other_ne p).symm

theorem detachWindows_eq (s : State) (p : Port) : detachWindows s p = retireAll s (detachedSlots s p) := rfl

theorem detachEngine_eq (s : State) (p : Port) :
    detachEngine s p = { cancelOps (detachWindows s p) (fun op => op.issuer == p) with
      streams := (detachWindows s p).streams.set p none } := by
  unfold detachEngine
  rw [cancelOps_frame]
  rfl

theorem detachEngine_win (s : State) (p : Port) (j : Slot) :
    (detachEngine s p).win j = if j ∈ detachedSlots s p then retiredWindow (s.win j) else s.win j := by
  rw [← retireAll_win (detachedSlots_nodup s p) s j, ← detachWindows_eq]
  refine State.win_congr ?_ j
  rw [detachEngine_eq, cancelOps_frame]

theorem detachEngine_opQueue (s : State) (p : Port) :
    (detachEngine s p).opQueue = s.opQueue.filter (fun op =>
      op.issuer != p && (detachedSlots s p).all (fun i => !opNames (s.refOf i) op)) := by
  rw [detachEngine_eq, cancelOps_frame]
  show (detachWindows s p).opQueue.filter _ = _
  rw [detachWindows_eq, retireAll_opQueue (detachedSlots_nodup s p), List.filter_filter]
  rfl

theorem detachEngine_notices (s : State) (p : Port) :
    (detachEngine s p).notices.get p.other =
      (raiseAll s.notices (detachRaisings s (detachedSlots s p) s.opQueue)).get p.other := by
  rw [← retireAll_notices (detachedSlots_nodup s p) detachedSlots_owner, ← detachWindows_eq, detachEngine_eq, cancelOps_eq]
  generalize detachWindows s p = u
  have hstopped : (stopped u (fun op => op.issuer == p)).notices = u.notices := by
    obtain ⟨op, -, -, e⟩ | ⟨-, e⟩ := stopped_cases u (fun op => op.issuer == p) <;> rw [e]
  show (raiseAll (stopped u (fun op => op.issuer == p)).notices _).get p.other = _
  rw [raiseAll_get, cancelRaisings_issuer, hstopped]
  rfl

theorem detachEngine_engine (s : State) (p : Port) : EngineStop s (detachEngine s p)
    (fun op => op.issuer = p ∨ ∃ i ∈ detachedSlots s p, opNames (s.refOf i) op = true) := by
  have hn := detachedSlots_nodup s p
  have hcancel : EngineStop (detachWindows s p) (detachEngine s p) (fun op => (op.issuer == p) = true) := by
    refine engineStop_of_stopped ?_ ?_ <;>
    · rw [detachEngine_eq, cancelOps_eq]
      rfl
  have hwin := retireAll_win hn s
  refine ((retireAll_engine hn s).trans hcancel (retireAll_opQueue hn s) (fun op h => ?_) (fun j id b hb => ?_)
    (fun op h hc r hr => ?_)).congr fun op => by rw [or_comm, beq_iff_eq]
  · simpa using h
  · rw [hwin] at hb
    split at hb
    · exact retiredWindow_surface hb
    · exact hb
  · rw [hwin, if_neg]
    refine fun hm => h ⟨r.slot, hm, ?_⟩
    rw [opNames_iff, hc r hr]
    exact hr

/-- The entries of the detaching port's windows go, and no other (R101, R154). -/
theorem detachEngine_commitQueue {s : State} (h : CommitInv s) (p : Port) :
    (detachEngine s p).commitQueue = s.commitQueue.filter (fun e => (s.win e.ref.slot).owner != some p) := by
  obtain ⟨f, hf, hfe⟩ := retireAll_commitQueue (detachedSlots_nodup s p) h detachedSlots_owner
  rw [detachEngine_eq, cancelOps_frame]
  show (detachWindows s p).commitQueue = _
  rw [detachWindows_eq, hf]
  refine List.filter_congr fun e he => ?_
  by_cases ho : (s.win e.ref.slot).owner = some p
  · rw [(hfe e he).2 (mem_detachedSlots.2 ⟨ho, (h.2.1 e he).2.1⟩)]
    simp [ho]
  · rw [(hfe e he).1 ho]
    simp [ho]

theorem detachEngine_streams (s : State) (p : Port) :
    (detachEngine s p).streams = (s.streams.set p none).set p.other
      (if (detachedSlots s p).any (fun i => streamInto s p.other (s.refOf i)) then none else s.streams.get p.other) := by
  rw [detachEngine_eq]
  refine PerPort.ext_get fun q => ?_
  rcases Port.eq_or_eq_other p q with rfl | rfl
  · rw [PerPort.get_set_same, PerPort.get_set_of_ne _ _ (Port.other_ne q).symm, PerPort.get_set_same]
  · rw [PerPort.get_set_other, PerPort.get_set_same, detachWindows_eq, retireAll_streams (detachedSlots_nodup s p)]

theorem retiredWindow_offer (w : Window) : (retiredWindow w).offer = none := by
  unfold retiredWindow
  split <;> rfl

/-- The offers a DETACH declines are those to the port on windows that are not its own (R154). -/
theorem offeredTo_detachEngine (s : State) (p : Port) :
    offeredTo (detachEngine s p) p =
      (List.finRange 24).filter (fun i => i ∉ detachedSlots s p ∧ (s.win i).offer.map Offer.target = some p) := by
  have hall : allSlots = List.finRange 24 := rfl
  rw [← hall]
  refine List.filter_congr fun i hi => ?_
  have hm := mem_offeredTo (s := detachEngine s p) (p := p) (i := i)
  unfold offeredTo at hm
  rw [List.mem_filter, and_iff_right hi, detachEngine_win] at hm
  rw [Bool.eq_iff_iff, detachEngine_win, hm, decide_eq_true_iff]
  by_cases hd : i ∈ detachedSlots s p
  · rw [if_pos hd, retiredWindow_offer]
    simp [hd]
  · rw [if_neg hd]
    simp [hd]

/-- The slots whose offers a DETACH declines, in the order in which it does (R154). -/
def declinedSlots (s : State) (p : Port) : List Slot := declineOrder (detachEngine s p).draws (offeredTo (detachEngine s p) p)

theorem mem_declinedSlots {s : State} {p : Port} {i : Slot} :
    i ∈ declinedSlots s p ↔ i ∉ detachedSlots s p ∧ (s.win i).offer.map Offer.target = some p := by
  rw [declinedSlots, (declineOrder_perm _ _).mem_iff, offeredTo_detachEngine]
  simp

theorem detachOffers_eq (s : State) (p : Port) :
    detachOffers s p = (declinedSlots s p).foldl (declineOffer declinedByDetach) (detachEngine s p) := rfl

/-- The state of a DETACH before the engine's choice. -/
def detachedState (s : State) (p : Port) : State :=
  { detachOffers s p with
    notices := (detachOffers s p).notices.set p NoticeBox.empty
    subscribed := (detachOffers s p).subscribed.set p false
    draws := (detachOffers s p).draws + 1 }

theorem detachPort_eq_settle (s : State) (p : Port) : detachPort s p = settleEngine (detachedState s p) := rfl

/-- The records after a DETACH. -/
theorem detachedState_win (s : State) (p : Port) (i : Slot) :
    (detachedState s p).win i = if i ∈ detachedSlots s p then retiredWindow (s.win i)
      else { s.win i with offer := if (s.win i).offer.map Offer.target = some p then none else (s.win i).offer } := by
  have hwin : (detachedState s p).win i = (detachOffers s p).win i := State.win_congr rfl i
  rw [hwin, detachOffers_eq, (foldl_declineOffer ..).2.1, detachEngine_win]
  simp only [mem_declinedSlots]
  by_cases hd : i ∈ detachedSlots s p
  · simp [hd]
  · by_cases ho : (s.win i).offer.map Offer.target = some p
    · simp only [hd, ho, if_false, if_true, not_false_eq_true, and_self]
    · simp only [hd, ho, if_false, and_false]

theorem detachPort_win (s : State) (p : Port) (i : Slot) : (detachPort s p).win i = (detachedState s p).win i :=
  State.win_congr (by rw [detachPort_eq_settle, settleEngine_frame]) i

theorem detachEngine_steady (s : State) (p : Port) : (detachEngine s p).steady = s.steady := by
  rw [detachEngine_eq, cancelOps_frame]
  exact retireAll_steady s _

theorem detachEngine_pool (s : State) (p : Port) :
    (detachEngine s p).scrubList = s.scrubList ++
        ((detachedSlots s p).filter (fun i => (s.win i).state = .hidden)).flatMap (fun i => (s.win i).blocks) ∧
      (detachEngine s p).charge = s.charge.set p (s.charge.get p -
        (((detachedSlots s p).filter (fun i => (s.win i).state = .hidden)).map (fun i => (s.win i).blocks.length)).sum) ∧
      (detachEngine s p).stack = s.stack := by
  rw [detachEngine_eq, cancelOps_frame]
  exact ⟨retireAll_scrubList (detachedSlots_nodup s p) s, retireAll_charge (detachedSlots_nodup s p) detachedSlots_owner,
    retireAll_stack s _⟩

/-- What the other port is told of a DETACH (R154). -/
theorem detachOffers_notices (s : State) (p : Port) :
    (detachOffers s p).notices.get p.other = (raiseAll s.notices (detachRaisings s (detachedSlots s p) s.opQueue
      ++ (declinedSlots s p).flatMap (fun i => ((s.win i).owner.map (fun o =>
        Raising.mk o .offerDeclined (s.refOf i) 0x0002)).toList))).get p.other := by
  have hsame : (declinedSlots s p).flatMap (fun i =>
      ownerRaising ((detachEngine s p).win i).owner .offerDeclined ((detachEngine s p).refOf i) declinedByDetach) =
      (declinedSlots s p).flatMap (fun i => ((s.win i).owner.map (fun o => Raising.mk o .offerDeclined (s.refOf i) 0x0002)).toList) := by
    refine List.flatMap_congr fun i hi => ?_
    have hw : (detachEngine s p).win i = s.win i := by rw [detachEngine_win, if_neg (mem_declinedSlots.1 hi).1]
    rw [State.refOf, hw]
    rfl
  rw [detachOffers_eq, (foldl_declineOffer ..).2.2, hsame, raiseAll_append]
  exact raiseAll_get_congr (detachEngine_notices s p) rfl

/-- What the declined offers, the emptied list and the subscription leave as the engine's part of the DETACH made it. -/
theorem detachedState_rest (s : State) (p : Port) :
    ((detachedState s p).opQueue = (detachEngine s p).opQueue ∧ (detachedState s p).commitQueue = (detachEngine s p).commitQueue ∧
      (detachedState s p).streams = (detachEngine s p).streams ∧ (detachedState s p).scrubList = (detachEngine s p).scrubList ∧
      (detachedState s p).charge = (detachEngine s p).charge ∧ (detachedState s p).stack = (detachEngine s p).stack) ∧
    ((detachedState s p).store = (detachEngine s p).store ∧ (detachedState s p).activity = (detachEngine s p).activity) ∧
    (detachedState s p).freeSet = (detachEngine s p).freeSet ∧ (detachedState s p).quota = (detachEngine s p).quota ∧
    (detachedState s p).opCounter = (detachEngine s p).opCounter ∧ (detachedState s p).view = (detachEngine s p).view ∧
    (detachedState s p).grace = (detachEngine s p).grace ∧ (detachedState s p).timing = (detachEngine s p).timing ∧
    (detachedState s p).subscribed = (detachEngine s p).subscribed.set p false ∧ (detachedState s p).links = (detachEngine s p).links := by
  have hframe := (foldl_declineOffer declinedByDetach (declinedSlots s p) (detachEngine s p)).1
  rw [← detachOffers_eq] at hframe
  unfold detachedState
  rw [hframe]
  exact ⟨⟨rfl, rfl, rfl, rfl, rfl, rfl⟩, ⟨rfl, rfl⟩, rfl, rfl, rfl, rfl, rfl, rfl, rfl, rfl⟩

theorem detachedState_notices (s : State) (p : Port) :
    (detachedState s p).notices.get p = ⟨[], false⟩ ∧
      (detachedState s p).notices.get p.other = (detachOffers s p).notices.get p.other :=
  ⟨PerPort.get_set_same .., PerPort.get_set_other ..⟩

/-- Settles O16: each field of the detached state follows the parts of the event, and the other port hears of each in turn. -/
theorem detachClearsPort : Obligations.DetachClearsPort := by
  intro s p tag hc hp
  have hexec : exec (.detach p) s = .next ((detachPort s p).hold p ⟨.done, tag, []⟩) :=
    congrArg Host.Outcome.next (complete_answer hp rfl (by decide) rfl (.inr rfl) rfl)
  have hwin := detachedState_win s p
  obtain ⟨hown, hother⟩ := detachedState_notices s p
  rw [detachOffers_notices] at hother
  have hops := detachEngine_opQueue s p
  have hqueue := detachEngine_commitQueue hc p
  have hstreams := detachEngine_streams s p
  have hengine := detachEngine_engine s p
  obtain ⟨hscrub, hcharge, hstack⟩ := detachEngine_pool s p
  obtain ⟨hfree, hquota, hcounter, hview, hgrace, htiming, hsub, hlinks, -⟩ := State.fields_of_steady (detachEngine_steady s p)
  obtain ⟨⟨eops, equeue, estreams, escrub, echarge, estack⟩, ⟨estore, eactivity⟩, efree, equota, ecounter, eview, egrace, etiming, esub,
    elinks⟩ := detachedState_rest s p
  have hperm : (declinedSlots s p).Perm
      ((List.finRange 24).filter (fun i => i ∉ detachedSlots s p ∧ (s.win i).offer.map Offer.target = some p)) :=
    offeredTo_detachEngine s p ▸ declineOrder_perm _ _
  have hstop := engineStop_of_fields hengine estore eactivity
  rw [detachPort_eq_settle, settled_hold] at hexec
  have hlink : (detachedState s p).links = s.links := elinks.trans hlinks
  generalize detachedState s p = u at *
  refine ⟨_, hexec, hwin, eops.trans hops, equeue.trans hqueue, estreams.trans hstreams, hown,
    esub.trans (congrArg (PerPort.set · p false) hsub), ⟨_, hperm, hother⟩, escrub.trans hscrub, echarge.trans hcharge, hstop.choice,
    fun a => hstop.read, fun hpi hsi op => hstop.pixels rfl hpi hsi, estack.trans hstack, eview.trans hview, efree.trans hfree,
    equota.trans hquota, ecounter.trans hcounter, egrace.trans hgrace, etiming.trans htiming, ?_⟩
  simp only [hlink]
  rfl

end Sys2Proof.Machine
end

