-- ==== Sys2Proof/Proofs/PortB.lean ====
section
/-! What no command of Port B changes: the device settings, the timing values, and the windows of Port A that are not offered to it (R10,
R142, R144). -/

namespace Sys2Proof.Machine

open Sys2Proof.Safety

/-- What every command of Port B leaves: the settings, and of each slot its FREE record, but for a NORMAL window of its own, and Port A's
window where no offer opens it. -/
structure LeavesPortA (s t : State) : Prop where
  settings : t.timing = s.timing ∧ t.quota = s.quota ∧ t.grace = s.grace
  created : ∀ i, (s.win i).state = .free → (t.win i).state ≠ .free → (t.win i).tier = .normal ∧ (t.win i).owner = some .B
  kept : ∀ i, (s.win i).owner = some .A → (s.win i).state ≠ .free → (s.win i).offer = none → t.win i = s.win i

/-- A window on which Port B has a say: it owns it, or an offer stands on it. -/
def OpenToB (w : Window) : Prop := live w ∧ (w.owner = some .B ∨ w.offer ≠ none)

theorem not_openToB_of_free {w : Window} (h : w.state = .free) : ¬ OpenToB w := fun ⟨hl, _⟩ => by
  rw [live, h] at hl
  cases hl

theorem not_openToB_of_unoffered {w : Window} (ho : w.owner = some .A) (hv : w.offer = none) : ¬ OpenToB w := by
  rintro ⟨-, h | h⟩
  · rw [ho] at h
    cases h
  · exact h hv

/-- A change of records on which Port B has a say, and of no other. -/
theorem leavesPortA_of_open {s t : State} (hs : t.timing = s.timing ∧ t.quota = s.quota ∧ t.grace = s.grace)
    (hw : ∀ i, ¬ OpenToB (s.win i) → t.win i = s.win i) : LeavesPortA s t where
  settings := hs
  created i hf hn := absurd ((congrArg Window.state (hw i (not_openToB_of_free hf))).trans hf) hn
  kept i ho _ hv := hw i (not_openToB_of_unoffered ho hv)

theorem leavesPortA_of_windows {s t : State} (hs : t.timing = s.timing ∧ t.quota = s.quota ∧ t.grace = s.grace)
    (hw : t.windows = s.windows) : LeavesPortA s t :=
  leavesPortA_of_open hs fun i _ => State.win_congr hw i

theorem leavesPortA_of_set {s t : State} {i : Slot} {w : Window} (hs : t.timing = s.timing ∧ t.quota = s.quota ∧ t.grace = s.grace)
    (hw : t.windows = s.windows.set i w) (ho : OpenToB (s.win i)) : LeavesPortA s t :=
  leavesPortA_of_open hs fun j hj => (State.win_of_set hw j).trans (if_neg (by rintro rfl; exact hj ho))

/-- The engine's choice changes neither records nor settings. -/
theorem leavesPortA_settle {s u : State} (h : LeavesPortA s u) : LeavesPortA s (settleEngine u) := by
  rw [settleEngine_frame]
  exact ⟨h.settings, h.created, h.kept⟩

theorem openToB_of_offersTo {w : Window} {p : Port} (hl : live w) (h : offersTo w p = true) : OpenToB w := by
  obtain ⟨v, hv, -⟩ := offersTo_iff.1 h
  exact ⟨hl, .inr (by rw [hv]; nofun)⟩

theorem leavesPortA_create {s : State} {c : CreateParams} {i : Slot} (hi : lowestFreeSlot s = some i) (ht : c.tier = .normal) :
    LeavesPortA s (createWindow s .B c i) := by
  have hfree := lowestFreeSlot_free hi
  have hwin := fun j => State.win_of_set (s := s) (show (createWindow s .B c i).windows = _ from rfl) j
  refine ⟨⟨rfl, rfl, rfl⟩, fun j hf hn => ?_, fun j _ hn _ => ?_⟩
  · rw [hwin] at hn ⊢
    split at hn
    · next hj =>
      rw [if_pos hj]
      exact ⟨ht, rfl⟩
    · exact absurd hf hn
  · rw [hwin, if_neg (by rintro rfl; exact hn hfree)]

theorem leavesPortA_retire {s : State} {i : Slot} (ho : (s.win i).owner = some .B) (hl : live (s.win i)) :
    LeavesPortA s (settleEngine (retireWindow s i (.request .B))) := by
  obtain ⟨-, hquota, -, -, hgrace, htiming, -⟩ := State.fields_of_steady (retireWindow_steady s i (.request .B))
  exact leavesPortA_settle (leavesPortA_of_set ⟨htiming, hquota, hgrace⟩ (retireWindow_windows s i _) ⟨hl, .inl ho⟩)

theorem leavesPortA_detach (s : State) : LeavesPortA s (detachPort s .B) := by
  have hsteady := (detachPort_kept s .B).1
  simp only [State.steady, Steady.mk.injEq] at hsteady
  obtain ⟨-, hquota, -, -, hgrace, htiming, -⟩ := hsteady
  have hwin := fun i => (detachPort_win s .B i).trans (detachedState_win s .B i)
  refine ⟨⟨htiming, hquota, hgrace⟩, fun i hf hn => absurd ?_ hn, fun i ho _ hv => ?_⟩
  · have hm : i ∉ detachedSlots s .B := fun h => not_openToB_of_free hf ⟨(mem_detachedSlots.1 h).2, .inl (mem_detachedSlots.1 h).1⟩
    rw [hwin, if_neg hm]
    exact hf
  · have hm : i ∉ detachedSlots s .B := fun h => nomatch ho.symm.trans (mem_detachedSlots.1 h).1
    rw [hwin, if_neg hm, hv, Option.map_none, if_neg nofun, ← hv]

theorem live_of_permitShown {w : Window} (h : permitShown w.state = true) : live w := by
  unfold live
  cases hs : w.state with
  | shown | lapsed => rfl
  | free | hidden | retiring =>
    rw [hs] at h
    cases h

theorem leavesPortA_change {s u : State} (hc : Change s (some .B) u) : LeavesPortA s u := by
  cases hc with
  | detach => exact leavesPortA_detach s
  | create _ c i _ _ ht hi => exact leavesPortA_create hi (ht rfl)
  | retire _ i ho hl => exact leavesPortA_retire (ho.resolve_right nofun) hl
  | stage _ i _ ho hl | discard _ i ho hl | offer _ i ho hl | withdraw _ i _ ho hl =>
    exact leavesPortA_of_set ⟨rfl, rfl, rfl⟩ rfl ⟨hl, .inl ho⟩
  | renew _ i ho hl => exact leavesPortA_of_set ⟨rfl, rfl, rfl⟩ rfl ⟨live_of_permitShown hl, .inl ho⟩
  | accept _ i hl ho => rw [transferWindow_frame]; exact leavesPortA_of_set ⟨rfl, rfl, rfl⟩ rfl (openToB_of_offersTo hl ho)
  | decline _ i hl ho => rw [declineOffer_frame]; exact leavesPortA_of_set ⟨rfl, rfl, rfl⟩ rfl (openToB_of_offersTo hl ho)
  | keep | link | collect | subscribe | query | arm | stream => exact leavesPortA_of_windows ⟨rfl, rfl, rfl⟩ rfl
  | disarm _ i => rw [removeUnit_frame]; exact leavesPortA_of_windows ⟨rfl, rfl, rfl⟩ rfl
  | put => rw [acceptOp_frame]; exact leavesPortA_of_windows ⟨rfl, rfl, rfl⟩ rfl
  | draw => rw [acceptOp_frame]; exact leavesPortA_of_windows ⟨rfl, rfl, rfl⟩ rfl
  | cancel => refine leavesPortA_settle ?_; rw [cancelOps_frame]; exact leavesPortA_of_windows ⟨rfl, rfl, rfl⟩ rfl

/-- Settles O51: each change that a command of Port B makes leaves what is Port A's, and a held response changes neither records nor
settings. -/
theorem portBCannotTouchWhatIsPortAs : Obligations.PortBCannotTouchWhatIsPortAs := by
  intro c s t h hp
  obtain ⟨u, hc, ht⟩ := exec_change h
  rw [hp] at hc
  obtain ⟨⟨htiming, hquota, hgrace⟩, hcreated, hkept⟩ := leavesPortA_change hc
  obtain rfl | ⟨q, a, rfl⟩ := ht
  · exact ⟨htiming, hquota, hgrace, fun i => ⟨hcreated i, hkept i⟩⟩
  · exact ⟨htiming, hquota, hgrace, fun i => ⟨hcreated i, hkept i⟩⟩

end Sys2Proof.Machine
end

