-- ==== Sys2Proof/Proofs/BoundaryWork.lean ====
section
/-! What the pieces of a boundary's work do to the records and the pool, and what removal does (R18, R33, R70, R129, R147). -/

namespace Sys2Proof.Machine

open Sys2Proof.Safety

/-! ## One lease visit and one offer count -/

/-- The record that a lease visit leaves (R129). -/
def visitedWindow (grace : Nat) (w : Window) : Window :=
  match leaseOutcome w with
  | .renewed => { w with state := .shown, leaseCounter := w.active.leaseLength, renewPending := false, graceCounter := 0 }
  | .countDown => { w with leaseCounter := w.leaseCounter - 1 }
  | .lapses => { w with state := .lapsed, leaseCounter := 0, renewPending := false, graceCounter := grace }
  | .graceDown => { w with graceCounter := w.graceCounter - 1 }
  | .evicted => retiredWindow { w with graceCounter := 0 }
  | .unchanged => w

theorem visitWindow_windows (s : State) (i : Slot) :
    (visitWindow s i).windows = s.windows.set i (visitedWindow s.grace (s.win i)) := by
  unfold visitWindow visitedWindow
  dsimp only
  cases leaseOutcome (s.win i) with
  | renewed => exact congrArg State.windows (renewWindow_frame s i)
  | countDown | graceDown => rfl
  | lapses => exact congrArg State.windows (lapseWindow_frame s i)
  | evicted =>
    show (evictWindow s i).windows = _
    rw [evictWindow, retireWindow_windows, State.setWin_windows, State.win_setWin, if_pos rfl, Vector.set_set]
  | unchanged => exact (congrArg State.windows (State.setWin_self s i)).symm

theorem visitWindow_win (s : State) (i j : Slot) :
    (visitWindow s i).win j = if j = i then visitedWindow s.grace (s.win i) else s.win j :=
  State.win_of_set (visitWindow_windows s i) j

/-- An evicted window was LAPSED, so its blocks stay with it until the next boundary (R16, R137). -/
theorem visitWindow_pool (s : State) (i : Slot) :
    (visitWindow s i).scrubList = s.scrubList ∧ (visitWindow s i).charge = s.charge := by
  unfold visitWindow
  dsimp only
  split
  · rw [renewWindow_frame]; exact ⟨rfl, rfl⟩
  · exact ⟨rfl, rfl⟩
  · rw [lapseWindow_frame]; exact ⟨rfl, rfl⟩
  · exact ⟨rfl, rfl⟩
  · next ho =>
    have hs : (s.win i).state ≠ .hidden := by rw [(leaseOutcome_evicted ho).1]; nofun
    have hn : ((s.setWin i { s.win i with graceCounter := 0 }).win i).state ≠ .hidden := by rw [State.win_setWin, if_pos rfl]; exact hs
    rw [evictWindow, retireWindow_scrubList, retireWindow_charge, if_neg hn, if_neg hn]
    exact ⟨rfl, rfl⟩
  · exact ⟨rfl, rfl⟩

theorem visitedWindow_not_free {grace : Nat} {w : Window} (h : w.state ≠ .free) : (visitedWindow grace w).state ≠ .free := by
  unfold visitedWindow
  split
  · nofun
  · exact h
  · nofun
  · exact h
  · next ho =>
    have hs : ¬ ({ w with graceCounter := 0 } : Window).state = .hidden := by rw [(leaseOutcome_evicted ho).1]; nofun
    rw [retiredWindow, if_neg hs]
    nofun
  · exact h

theorem countOffer_windows (s : State) (i : Slot) :
    (countOffer s i).windows = s.windows.set i { s.win i with offer := countedOffer (s.win i).offer } := by
  unfold countOffer countedOffer
  dsimp only
  cases hv : (s.win i).offer with
  | none =>
    have : ({ s.win i with offer := none } : Window) = s.win i := by rw [← hv]
    dsimp only
    rw [this]
    exact (congrArg State.windows (State.setWin_self s i)).symm
  | some v =>
    dsimp only
    split <;> rfl

theorem countOffer_win (s : State) (i j : Slot) :
    (countOffer s i).win j = if j = i then { s.win i with offer := countedOffer (s.win i).offer } else s.win j :=
  State.win_of_set (countOffer_windows s i) j

/-! ## One application -/

theorem mem_insertAbove {named x r : WinRef} {l : List WinRef} (h : r ∈ insertAbove named x l) : r = x ∨ r ∈ l := by
  induction l with
  | nil => exact .inl (List.mem_singleton.1 h)
  | cons a rest ih =>
    unfold insertAbove at h
    split at h
    · simp only [List.mem_cons] at h ⊢
      tauto
    · rcases List.mem_cons.1 h with rfl | h
      · exact .inr List.mem_cons_self
      · exact (ih h).imp_right (List.mem_cons_of_mem _)

theorem mem_insertBelow {named x r : WinRef} {l : List WinRef} (h : r ∈ insertBelow named x l) : r = x ∨ r ∈ l := by
  induction l with
  | nil => exact .inl (List.mem_singleton.1 h)
  | cons a rest ih =>
    unfold insertBelow at h
    split at h
    · exact List.mem_cons.1 h
    · rcases List.mem_cons.1 h with rfl | h
      · exact .inr List.mem_cons_self
      · exact (ih h).imp_right (List.mem_cons_of_mem _)

theorem mem_atTierBoundary {s : State} {x r : WinRef} {l : List WinRef} (h : r ∈ atTierBoundary s l x) : r = x ∨ r ∈ l := by
  rcases List.mem_append.1 h with h | h
  · exact .inr ((List.takeWhile_sublist _).subset h)
  · exact (List.mem_cons.1 h).imp_right fun h => (List.dropWhile_sublist _).subset h

theorem mem_atTop {s : State} {tier : Tier} {x r : WinRef} {l : List WinRef} (h : r ∈ atTop s tier l x) : r = x ∨ r ∈ l := by
  cases tier with
  | normal => exact mem_atTierBoundary h
  | overlay => exact (List.mem_append.1 h).symm.imp_left List.mem_singleton.1

theorem mem_placeBeside {s : State} {tier : Tier} {x named r : WinRef} {l : List WinRef} {put : WinRef → WinRef → List WinRef → List WinRef}
    (hput : r ∈ put named x l → r = x ∨ r ∈ l) (h : r ∈ (placeBeside s tier l x named put).list) : r = x ∨ r ∈ l := by
  unfold placeBeside at h
  split at h
  · exact mem_atTop h
  · split at h
    · exact mem_atTierBoundary h
    · exact hput h

/-- A placement puts no other window into the list than the placed one (R72 to R77). -/
theorem mem_place {s : State} {tier : Tier} {x r : WinRef} {pl : Placement} (h : r ∈ (place s tier x pl).list) : r = x ∨ r ∈ s.stack := by
  suffices r = x ∨ r ∈ s.stack.filter (fun r => r ≠ x) from this.imp_right List.mem_of_mem_filter
  cases pl with
  | top => exact mem_atTop h
  | bottom =>
    cases tier with
    | normal => exact List.mem_cons.1 h
    | overlay => exact mem_atTierBoundary h
  | above named => exact mem_placeBeside mem_insertAbove h
  | below named => exact mem_placeBeside mem_insertBelow h
  | out => exact .inr h

theorem mem_applied_stack {s : State} {i : Slot} {r : WinRef} (h : r ∈ (appliedPlacement s i).list) : r.slot = i ∨ r ∈ s.stack := by
  unfold appliedPlacement at h
  split at h
  · exact (mem_place h).imp_left fun e => by rw [e]; rfl
  · exact .inr h

/-! ## Removal -/

theorem foldl_releaseWindow_pool {l : List Slot} (hn : l.Nodup) (s : State) :
    (l.foldl releaseWindow s).scrubList = s.scrubList ++ l.flatMap (fun i => (s.win i).blocks) ∧
      ∀ q, (l.foldl releaseWindow s).charge.get q =
        s.charge.get q - ((l.filter (fun i => (s.win i).owner = some q)).map (fun i => (s.win i).blocks.length)).sum := by
  induction l generalizing s with
  | nil => exact ⟨by simp, fun _ => rfl⟩
  | cons i rest ih =>
    obtain ⟨hi, hrest⟩ := List.nodup_cons.1 hn
    obtain ⟨hscrub, hcharge⟩ := ih hrest (releaseWindow s i)
    have hwin : ∀ j ∈ rest, (releaseWindow s i).win j = s.win j := fun j hj => by
      rw [releaseWindow_win, if_neg (by rintro rfl; exact hi hj)]
    have hblocks : rest.flatMap (fun j => ((releaseWindow s i).win j).blocks) = rest.flatMap (fun j => (s.win j).blocks) :=
      List.flatMap_congr fun j hj => by rw [hwin j hj]
    refine ⟨?_, fun q => ?_⟩
    · rw [List.foldl_cons, hscrub, hblocks, releaseWindow_frame, List.flatMap_cons, List.append_assoc]
    · have hfilter : rest.filter (fun j => ((releaseWindow s i).win j).owner = some q) = rest.filter (fun j => (s.win j).owner = some q) :=
        List.filter_congr fun j hj => by rw [hwin j hj]
      have hmap : (rest.filter (fun j => (s.win j).owner = some q)).map (fun j => ((releaseWindow s i).win j).blocks.length) =
          (rest.filter (fun j => (s.win j).owner = some q)).map (fun j => (s.win j).blocks.length) :=
        List.map_congr_left fun j hj => by rw [hwin j (List.mem_of_mem_filter hj)]
      rw [List.foldl_cons, hcharge, hfilter, hmap, releaseWindow_charge, List.filter_cons]
      cases ho : (s.win i).owner with
      | none => simp
      | some p =>
        by_cases hp : p = q
        · subst hp
          simp [Nat.sub_sub]
        · simp [hp, PerPort.get_set_of_ne _ _ (Ne.symm hp)]

theorem goneSlots_eq (s : State) : goneSlots s = (List.finRange 24).filter (fun i => (s.win i).state = .retiring) :=
  List.filter_congr fun _ _ => beq_eq_decide _ _

theorem removeRetiring_pool (s : State) :
    (removeRetiring s).scrubList = s.scrubList ++ (goneSlots s).flatMap (fun i => (s.win i).blocks) ∧
      ∀ q, (removeRetiring s).charge.get q =
        s.charge.get q - (((goneSlots s).filter (fun i => (s.win i).owner = some q)).map (fun i => (s.win i).blocks.length)).sum :=
  foldl_releaseWindow_pool (goneSlots_nodup s) _

/-! ## The boundary as its start and its work -/

/-- The state in which the pieces of work begin (R69, R111). -/
def boundaryStart (s : State) : State := removeRetiring { s with timing := timingBoundary s.timing }

/-- The pieces of work of a boundary in their order. -/
def boundaryTasks (order : BoundaryOrder) (s : State) : List BoundaryTask :=
  arrange order.tasks (allTasks ((units s).map unitSlots).length)

/-- The state after the pieces of work. -/
def boundaryEnd (order : BoundaryOrder) (s : State) : State :=
  ((boundaryTasks order s).foldl (boundaryTask (boundaryPlan order s)) ⟨boundaryStart s, (units s).map unitSlots⟩).state

theorem frameBoundary_eq (order : BoundaryOrder) (s : State) : frameBoundary order s = settleEngine (takeView (boundaryEnd order s)) := rfl

theorem boundaryStart_win (s : State) (i : Slot) :
    (boundaryStart s).win i = if (s.win i).state = .retiring then Window.free ((s.win i).gen + 1) else s.win i :=
  removeRetiring_win _ i

theorem mem_applied {order : BoundaryOrder} {s : State} (h : CommitInv s) {i : Slot} :
    i ∈ (boundaryPlan order s).applied ↔ commitDue s i := mem_readySlots h

theorem live_of_commitDue {s : State} (h : CommitInv s) {i : Slot} (hd : commitDue s i) : live (s.win i) := by
  obtain ⟨e, he, rfl, -⟩ := hd
  exact (h.2.1 e he).2.1

theorem mem_visited {order : BoundaryOrder} {s : State} {i : Slot} :
    i ∈ (boundaryPlan order s).visited ↔ leaseVisited (s.win i) = true := by
  simp [boundaryPlan, mem_allSlots]

theorem leaseVisited_iff {w : Window} : leaseVisited w = true ↔ (w.state = .shown ∨ w.state = .lapsed) ∧ 0 < w.active.leaseLength := by
  simp only [leaseVisited, Bool.and_eq_true, decide_eq_true_eq]
  cases w.state <;> simp [permitShown]

/-! ## Removal completed (O43) -/

/-- What the boundary's work keeps of removal, `s` being the state in which the boundary occurs and `b` the one in which the work begins: the
pool, the records freed and their absence from the list, and that no other record is FREE. -/
structure Cleared (s b t : State) : Prop where
  scrubList : t.scrubList = b.scrubList
  charge : t.charge = b.charge
  gone : ∀ i, (s.win i).state = .retiring → t.win i = Window.free ((s.win i).gen + 1) ∧ ∀ r ∈ t.stack, r.slot ≠ i
  kept : ∀ i, (s.win i).state ≠ .retiring → (s.win i).state ≠ .free → (t.win i).state ≠ .free

section
variable {s b t u : State}

theorem cleared_of_fields (h : Cleared s b t) (hs : u.scrubList = t.scrubList) (hc : u.charge = t.charge) (hw : u.windows = t.windows)
    (hst : u.stack = t.stack) : Cleared s b u where
  scrubList := hs.trans h.scrubList
  charge := hc.trans h.charge
  gone i hi := by rw [State.win_congr hw, hst]; exact h.gone i hi
  kept i hr hf := by rw [State.win_congr hw]; exact h.kept i hr hf

/-- One record of a window that was not RETIRING replaced, and no other put into the list. -/
theorem cleared_of_set (h : Cleared s b t) {i : Slot} {w : Window} (hi : (s.win i).state ≠ .retiring) (hs : u.scrubList = t.scrubList)
    (hc : u.charge = t.charge) (hw : u.windows = t.windows.set i w) (hf : (t.win i).state ≠ .free → w.state ≠ .free)
    (hst : ∀ r ∈ u.stack, r.slot = i ∨ r ∈ t.stack) : Cleared s b u where
  scrubList := hs.trans h.scrubList
  charge := hc.trans h.charge
  gone j hj := by
    have hne : j ≠ i := by rintro rfl; exact hi hj
    obtain ⟨hrec, hno⟩ := h.gone j hj
    rw [State.win_of_set hw, if_neg hne]
    exact ⟨hrec, fun r hr => (hst r hr).elim (fun e => e ▸ hne.symm) (hno r)⟩
  kept j hr hn := by
    rw [State.win_of_set hw]
    split
    · next e => exact hf (e ▸ h.kept j hr hn)
    · exact h.kept j hr hn

theorem cleared_countOffer (h : Cleared s b t) (i : Slot) : Cleared s b (countOffer t i) := by
  by_cases hi : (s.win i).state = .retiring
  · have hoff : (t.win i).offer = none := by rw [(h.gone i hi).1]; rfl
    have : countOffer t i = t := by simp only [countOffer, hoff]
    rw [this]
    exact h
  · rw [countOffer_frame]
    exact cleared_of_set h hi rfl rfl (countOffer_windows t i) id fun r hr => .inr hr

theorem cleared_apply (h : Cleared s b t) (fc : BitVec 16) (adj : List Nat) {i : Slot} (hi : (s.win i).state ≠ .retiring) :
    Cleared s b (applyWindow fc adj t i) := by
  rw [applyWindow_frame]
  refine cleared_of_set h hi rfl rfl rfl (fun _ hf => ?_) fun r hr => mem_applied_stack hr
  have hlive := appliedState_live (t.win i).state (t.win i).staging.placement
  rw [show appliedState (t.win i).state (t.win i).staging.placement = .free from hf] at hlive
  cases hlive

theorem cleared_leaseVisit (h : Cleared s b t) {plan : BoundaryPlan} (hv : ∀ i ∈ plan.visited, (s.win i).state ≠ .retiring) (i : Slot) :
    Cleared s b (leaseVisit plan t i) := by
  unfold leaseVisit
  split
  · exact h
  · next hm =>
    split
    · split
      · rw [raiseOwner_frame]
        exact cleared_of_fields h rfl rfl rfl rfl
      · exact h
    · obtain ⟨hscrub, hcharge⟩ := visitWindow_pool t i
      exact cleared_of_set h (hv i (by simpa using hm)) hscrub hcharge (visitWindow_windows t i) visitedWindow_not_free
        fun r hr => .inr ((visitWindow_kept t i).2 ▸ hr)

theorem cleared_foldl_apply (h : Cleared s b t) (fc : BitVec 16) (adj : List Nat) {l : List Slot} (hl : ∀ i ∈ l, (s.win i).state ≠ .retiring) :
    Cleared s b (l.foldl (applyWindow fc adj) t) := by
  induction l generalizing t with
  | nil => exact h
  | cons i rest ih => exact ih (cleared_apply h _ _ (hl i List.mem_cons_self)) fun j hj => hl j (List.mem_cons_of_mem _ hj)

theorem cleared_walkUnit (h : Cleared s b t) {plan : BoundaryPlan} (ha : ∀ i ∈ plan.applied, (s.win i).state ≠ .retiring) (l : List Slot) :
    Cleared s b (walkUnit plan t l) := by
  unfold walkUnit
  split
  · exact h
  · split
    · next hall => exact cleared_foldl_apply h _ _ fun i hi => ha i (by simpa using List.all_eq_true.1 hall i hi)
    · rw [holdBack_frame]
      exact cleared_of_fields h rfl rfl rfl rfl

theorem cleared_task {run : BoundaryRun} (h : Cleared s b run.state) {plan : BoundaryPlan}
    (hv : ∀ i ∈ plan.visited, (s.win i).state ≠ .retiring) (ha : ∀ i ∈ plan.applied, (s.win i).state ≠ .retiring) (x : BoundaryTask) :
    Cleared s b (boundaryTask plan run x).state := by
  cases x with
  | profileNotice =>
    simp only [boundaryTask]
    rw [profileNotice_frame]
    exact cleared_of_fields h rfl rfl rfl rfl
  | walkUnit =>
    simp only [boundaryTask]
    split
    · exact h
    · exact cleared_walkUnit h ha _
  | leaseVisit n =>
    simp only [boundaryTask]
    split
    · exact cleared_leaseVisit h hv _
    · exact h
  | offerCount n =>
    simp only [boundaryTask]
    split
    · exact cleared_countOffer h _
    · exact h
  | frameNotice p =>
    simp only [boundaryTask]
    rw [frameNotice_frame]
    exact cleared_of_fields h rfl rfl rfl rfl

end

theorem cleared_start (s : State) : Cleared s (boundaryStart s) (boundaryStart s) where
  scrubList := rfl
  charge := rfl
  gone i hi := by
    refine ⟨by rw [boundaryStart_win, if_pos hi], fun r hr hri => ?_⟩
    rw [boundaryStart, removeRetiring_stack, List.mem_filter] at hr
    simp only [Bool.not_eq_true', List.contains_eq_mem, decide_eq_false_iff_not, mem_goneSlots] at hr
    exact hr.2 (hri ▸ hi)
  kept i hr hf := by
    rw [boundaryStart_win, if_neg hr]
    exact hf

theorem cleared_boundary {s : State} (h : CommitInv s) (order : BoundaryOrder) : Cleared s (boundaryStart s) (frameBoundary order s) := by
  have hv : ∀ i ∈ (boundaryPlan order s).visited, (s.win i).state ≠ .retiring := fun i hi hr => by
    have := (leaseVisited_iff.1 (mem_visited.1 hi)).1
    rw [hr] at this
    simp at this
  have ha : ∀ i ∈ (boundaryPlan order s).applied, (s.win i).state ≠ .retiring := fun i hi hr => by
    have := live_of_commitDue h ((mem_applied h).1 hi)
    rw [live, hr] at this
    cases this
  have hend : Cleared s (boundaryStart s) (boundaryEnd order s) :=
    foldl_invariant (fun run : BoundaryRun => Cleared s (boundaryStart s) run.state) _ (fun run x hr => cleared_task hr hv ha x) _ _
      (cleared_start s)
  rw [frameBoundary_eq, settleEngine_frame]
  exact cleared_of_fields hend rfl rfl rfl rfl

/-- Settles O43: removal frees and releases, and the work after it keeps what it made. -/
theorem boundaryRemovesRetiring : Obligations.BoundaryRemovesRetiring := by
  intro order s t hc h
  have ht : frameBoundary order s = t := Host.Outcome.next.inj h
  have hcleared := ht ▸ cleared_boundary hc order
  obtain ⟨hscrub, hcharge⟩ := removeRetiring_pool { s with timing := timingBoundary s.timing }
  refine ⟨hcleared.gone, hcleared.kept, hcleared.scrubList.trans ?_, fun q => (congrArg (PerPort.get · q) hcleared.charge).trans ?_⟩
  · exact hscrub.trans (congrArg (fun l : List Slot => s.scrubList ++ l.flatMap fun i => (s.win i).blocks) (goneSlots_eq s))
  · refine (hcharge q).trans (congrArg (fun l : List Slot => s.charge.get q - (l.map fun i => (s.win i).blocks.length).sum) ?_)
    show (goneSlots s).filter (fun i => (s.win i).owner = some q) = _
    rw [goneSlots_eq, List.filter_filter]
    exact List.filter_congr fun i _ => by rw [Bool.eq_iff_iff]; simp [and_comm]

end Sys2Proof.Machine
end

