-- ==== Sys2Proof/Proofs/HeardRaisings.lean ====
section
/-! What a port hears under one key between two states: the raisings of the key in their order, through any sequence of work, and that they
give what the statements call told (R161, R163). -/

namespace Sys2Proof.Machine

open Sys2Proof.Safety

/-! ## One port and one key -/

/-- Between two states a port's list has had exactly these raisings of a key, in this order: the list has not shrunk, a key without a notice in
a full list has none after it, and the notice of the key is the old one or is told of them. -/
structure Heard (q : Port) (k : NoticeKind) (h : Nat) (s t : State) (m : List (Gen × BitVec 16)) : Prop where
  length : (s.notices.get q).list.length ≤ (t.notices.get q).list.length
  overflow : (s.notices.get q).overflow = true → (t.notices.get q).overflow = true
  shut : noticeOf s q k h = none → 32 ≤ (s.notices.get q).list.length → noticeOf t q k h = none
  quiet : m = [] → noticeOf t q k h = noticeOf s q k h
  told : ∀ g d, m.getLast? = some (g, d) → toldKey s t q k h m.length g d

section
variable {q : Port} {k : NoticeKind} {h : Nat} {s t u : State} {m n : List (Gen × BitVec 16)}

theorem noticeOf_congr (ht : t.notices.get q = s.notices.get q) (k : NoticeKind) (h : Nat) : noticeOf t q k h = noticeOf s q k h := by
  rw [noticeOf, ht, noticeOf]

theorem heard_of_notices (ht : t.notices.get q = s.notices.get q) : Heard q k h s t [] :=
  ⟨by rw [ht], by rw [ht]; exact id, fun hb _ => (noticeOf_congr ht k h).trans hb, fun _ => noticeOf_congr ht k h, nofun⟩

/-- One sequence of raisings after another. -/
theorem Heard.append (hm : Heard q k h s t m) (hn : Heard q k h t u n) : Heard q k h s u (m ++ n) where
  length := hm.length.trans hn.length
  overflow ho := hn.overflow (hm.overflow ho)
  shut hb hl := hn.shut (hm.shut hb hl) (hl.trans hm.length)
  quiet he := by
    obtain ⟨hm', hn'⟩ := List.append_eq_nil_iff.1 he
    rw [hn.quiet hn', hm.quiet hm']
  told g d hl := by
    cases n with
    | nil =>
      rw [List.append_nil] at hl ⊢
      unfold toldKey
      rw [hn.quiet rfl]
      exact (hm.told g d hl).imp_right fun ⟨hb, hc, ho, hlen⟩ => ⟨hb, hc, hn.overflow ho, hlen.trans hn.length⟩
    | cons y rest =>
      rw [List.getLast?_append_of_ne_nil _ (by simp)] at hl
      have hlast := hn.told g d hl
      cases m with
      | nil =>
        unfold toldKey at hlast
        rwa [hm.quiet rfl] at hlast
      | cons x more =>
        obtain ⟨⟨g', d'⟩, hx⟩ := Option.isSome_iff_exists.1 (show ((x :: more).getLast?).isSome by simp)
        rcases hm.told g' d' hx with hc | ⟨hb, hc, -, hfull⟩
        · rcases hlast with he | ⟨hc', -⟩
          · refine .inl (he.trans ?_)
            simp only [hc, Option.map_some, Option.getD_some, List.length_append]
            congr 2
            omega
          · rw [hc] at hc'
            cases hc'
        · rcases hlast with he | ⟨-, he, ho, hlen⟩
          · rw [hn.shut hc hfull] at he
            cases he
          · exact .inr ⟨hb, he, ho, hlen⟩

/-- Silence on either side adds nothing. -/
theorem Heard.silent (hm : Heard q k h s t m) (hn : Heard q k h t u []) : Heard q k h s u m := List.append_nil m ▸ hm.append hn

theorem length_take (b : NoticeBox) (k : NoticeKind) (h : Nat) (g : Gen) (d : BitVec 16) : b.list.length ≤ (b.take k h g d).list.length := by
  obtain ⟨-, e⟩ | ⟨-, -, e⟩ | ⟨-, -, e⟩ := b.take_cases k h g d <;> rw [e] <;> simp

theorem overflow_take {b : NoticeBox} (k : NoticeKind) (h : Nat) (g : Gen) (d : BitVec 16) (ho : b.overflow = true) :
    (b.take k h g d).overflow = true := by
  obtain ⟨-, e⟩ | ⟨-, -, e⟩ | ⟨-, -, e⟩ := b.take_cases k h g d
  · rw [e]; exact ho
  · rw [e]; exact ho
  · rw [e]

/-- The notice of another key is not touched by a raising (R161). -/
theorem find_take_of_ne {k' : NoticeKind} {h' : Nat} (hne : ¬ (k' = k ∧ h' = h)) (b : NoticeBox) (g : Gen) (d : BitVec 16) :
    (b.take k' h' g d).list.find? (fun n => n.hasKey k h) = b.list.find? (fun n => n.hasKey k h) := by
  obtain ⟨-, e⟩ | ⟨-, -, e⟩ | ⟨-, -, e⟩ := b.take_cases k' h' g d
  · rw [e]
    induction b.list with
    | nil => rfl
    | cons n rest ih =>
      by_cases hn : n.hasKey k h = true
      · have hn' : n.hasKey k' h' = false := by
          rw [← Bool.not_eq_true, Notice.hasKey_iff]
          rintro ⟨rfl, rfl⟩
          exact hne (Notice.hasKey_iff.1 hn)
        simp [hn, hn']
      · have hg : (if n.hasKey k' h' = true then n.gather g d else n).hasKey k h = false := by
          rw [Bool.not_eq_true] at hn
          split
          · exact hn
          · exact hn
        simp only [List.map_cons, List.find?_cons, hg, hn]
        exact ih
  · have hnew : (⟨k', h', g, 1, d⟩ : Notice).hasKey k h = false := by
      rw [← Bool.not_eq_true, Notice.hasKey_iff]
      exact hne
    rw [e]
    simp [List.find?_append, hnew]
  · rw [e]

/-- A raising to another port, or of another key, is not heard. -/
theorem heard_raiseKey_other {p : Port} {k' : NoticeKind} {h' : Nat} (hne : ¬ (p = q ∧ k' = k ∧ h' = h)) (s : State) (g : Gen) (d : BitVec 16) :
    Heard q k h s (raiseKey s p k' h' g d) [] := by
  by_cases hp : p = q
  · subst hp
    have hb : (raiseKey s p k' h' g d).notices.get p = (s.notices.get p).take k' h' g d := PerPort.get_set_same ..
    have hfind : noticeOf (raiseKey s p k' h' g d) p k h = noticeOf s p k h := by
      rw [noticeOf_eq, noticeOf_eq, hb]
      exact find_take_of_ne (fun e => hne ⟨rfl, e⟩) _ _ _
    refine ⟨?_, fun ho => ?_, fun hn _ => hfind.trans hn, fun _ => hfind, nofun⟩
    · rw [hb]
      exact length_take ..
    · rw [hb]
      exact overflow_take _ _ _ _ ho
  · exact heard_of_notices (PerPort.get_set_of_ne _ _ (Ne.symm hp))

/-- A raising of the key is heard once. -/
theorem heard_raiseKey_same (s : State) (q : Port) (k : NoticeKind) (h : Nat) (g : Gen) (d : BitVec 16) :
    Heard q k h s (raiseKey s q k h g d) [(g, d)] := by
  have hb : (raiseKey s q k h g d).notices.get q = (s.notices.get q).take k h g d := PerPort.get_set_same ..
  have htold := raiseKey_toldKey s q k h g d
  refine ⟨?_, fun ho => ?_, fun hn hl => ?_, nofun, fun g' d' hl => ?_⟩
  · rw [hb]
    exact length_take ..
  · rw [hb]
    exact overflow_take _ _ _ _ ho
  · rw [noticeOf_eq, List.find?_eq_none] at hn
    obtain ⟨⟨n, hm, hk⟩, -⟩ | ⟨-, hlt, -⟩ | ⟨-, -, e⟩ := (s.notices.get q).take_cases k h g d
    · exact absurd (Notice.hasKey_iff.2 hk) (hn n hm)
    · exact absurd hlt (Nat.not_lt.2 hl)
    · rw [noticeOf_eq, hb, e]
      exact List.find?_eq_none.2 hn
  · obtain ⟨rfl, rfl⟩ := Prod.mk.inj (Option.some.inj hl)
    exact htold

/-- A single raising is told once. -/
theorem Heard.tells {r : WinRef} {d : BitVec 16} (hm : Heard q k r.slot.handle s t [(r.gen, d)]) : tells s t q k r d := hm.told _ _ rfl

end

/-! ## Sequences of raisings -/

theorem slot_eq_of_handle {i j : Slot} (h : i.handle = j.handle) : i = j := Fin.ext (Nat.succ.inj h)

/-- What a port hears of a sequence of raisings under the key of a kind and a slot. -/
def heardOf (q : Port) (k : NoticeKind) (i : Slot) (l : List Raising) : List (Gen × BitVec 16) :=
  (l.filter (fun x => x.port = q ∧ x.kind = k ∧ x.ref.slot = i)).map (fun x => (x.ref.gen, x.detail))

theorem heardOf_append (q : Port) (k : NoticeKind) (i : Slot) (l m : List Raising) :
    heardOf q k i (l ++ m) = heardOf q k i l ++ heardOf q k i m := by
  simp [heardOf, List.filter_append]

theorem heardOf_eq_nil {q : Port} {k : NoticeKind} {i : Slot} {l : List Raising} (h : ∀ x ∈ l, x.kind = k → x.ref.slot ≠ i) :
    heardOf q k i l = [] := by
  unfold heardOf
  rw [List.filter_eq_nil_iff.2 fun x hx e => h x hx (of_decide_eq_true e).2.1 (of_decide_eq_true e).2.2]
  rfl

theorem heard_raised (s : State) (q : Port) (k : NoticeKind) (i : Slot) (l : List Raising) :
    Heard q k i.handle s (raised s l) (heardOf q k i l) := by
  induction l generalizing s with
  | nil => exact heard_of_notices rfl
  | cons x rest ih =>
    have hrest := ih (raise s x.port x.kind x.ref x.detail)
    rw [raise_eq_raised, raised_raised, List.singleton_append, ← raise_eq_raised] at hrest
    unfold heardOf at hrest ⊢
    by_cases hx : x.port = q ∧ x.kind = k ∧ x.ref.slot = i
    · rw [List.filter_cons_of_pos (by simpa using hx), List.map_cons, ← List.singleton_append]
      obtain ⟨rfl, rfl, rfl⟩ := hx
      exact (heard_raiseKey_same s x.port x.kind x.ref.slot.handle _ _).append hrest
    · rw [List.filter_cons_of_neg (by simpa using hx)]
      refine (heard_raiseKey_other ?_ s _ _).append hrest
      rintro ⟨hp, hk, hh⟩
      exact hx ⟨hp, hk, slot_eq_of_handle hh⟩

/-- What is heard of work that raises this sequence. -/
theorem heard_of_raiseAll {s t : State} {l : List Raising} (ht : t.notices = raiseAll s.notices l) (q : Port) (k : NoticeKind) (i : Slot) :
    Heard q k i.handle s t (heardOf q k i l) :=
  (heard_raised s q k i l).silent (heard_of_notices (congrArg (PerPort.get · q) ht))

end Sys2Proof.Machine
end

