-- ==== Sys2Proof/Proofs/BoundaryCounts.lean ====
section
/-! What a boundary makes of one window that it does not apply: its lease visit and its offer count, in either order, among the work on the
other windows, and what its parties are told (R129, R133, R134, R137, R147). -/

namespace Sys2Proof.Machine

open Sys2Proof.Safety

/-! ## The raisings of each piece of work -/

/-- The raisings of a lease visit (R129). -/
def visitRaisings (s : State) (i : Slot) : List Raising :=
  match leaseOutcome (s.win i) with
  | .renewed => if (s.win i).state = .lapsed then ownerRaising (s.win i).owner .leaseRestored (s.refOf i) restoredByRenewal else []
  | .lapses => ownerAndARaisings (s.win i).owner .leaseLapsed (s.refOf i) (detail s.grace)
  | .evicted => retireRaisings s i .eviction
  | _ => []

/-- The raisings of an offer count (R147). -/
def offerRaisings (s : State) (i : Slot) : List Raising :=
  match (s.win i).offer with
  | some v =>
    if v.frames ≤ 1 then
      [⟨.A, .offerExpired, s.refOf i, low16 s.timing.frameCounter⟩, ⟨.B, .offerExpired, s.refOf i, low16 s.timing.frameCounter⟩]
    else []
  | none => []

/-- The raisings of a retirement do not look at the window's counters. -/
theorem retireRaisings_setGrace (s : State) (i : Slot) (c : RetireCause) (n : Nat) :
    retireRaisings (s.setWin i { s.win i with graceCounter := n }) i c = retireRaisings s i c := by
  have hwin : (s.setWin i { s.win i with graceCounter := n }).win i = { s.win i with graceCounter := n } := State.win_setWin_same ..
  have href : (s.setWin i { s.win i with graceCounter := n }).refOf i = s.refOf i := by rw [State.refOf, hwin]; rfl
  have hown : retireOwnRaisings (s.setWin i { s.win i with graceCounter := n }) i c = retireOwnRaisings s i c := by
    cases c with
    | request p => simp only [retireOwnRaisings, hwin, href]
    | detach => rfl
    | eviction =>
      simp only [retireOwnRaisings, hwin, href]
      rfl
  simp only [retireRaisings, hown, retireStreamRaisings, retireOfferRaisings, href, hwin]
  rfl

theorem visitWindow_notices (s : State) (i : Slot) : (visitWindow s i).notices = raiseAll s.notices (visitRaisings s i) := by
  unfold visitWindow visitRaisings
  dsimp only
  cases leaseOutcome (s.win i) with
  | renewed =>
    dsimp only [renewWindow]
    split
    · rw [raiseOwner_eq_raised]
      rfl
    · rfl
  | countDown | graceDown | unchanged => rfl
  | lapses =>
    dsimp only [lapseWindow]
    rw [raiseOwnerAndA_eq_raised]
    rfl
  | evicted =>
    dsimp only [evictWindow]
    rw [retireWindow_notices, retireRaisings_setGrace]
    rfl

theorem countOffer_notices (s : State) (i : Slot) : (countOffer s i).notices = raiseAll s.notices (offerRaisings s i) := by
  unfold countOffer offerRaisings
  dsimp only
  cases (s.win i).offer with
  | none => rfl
  | some v =>
    dsimp only
    split
    · dsimp only [expireOffer]
      rw [raise_eq_raised, raise_eq_raised, raised_raised]
      rfl
    · rfl

/-- The kinds of notice that the commit walk raises (R79, R97, R99). -/
def walkKinds : List NoticeKind := [.committed, .placementAdjusted, .commitExpired]

/-- A sequence of raisings of the walk's kinds alone. -/
def WalkRaises (s t : State) : Prop := ∃ l : List Raising, t.notices = raiseAll s.notices l ∧ ∀ x ∈ l, x.kind ∈ walkKinds

theorem WalkRaises.trans {s t u : State} : WalkRaises s t → WalkRaises t u → WalkRaises s u := by
  rintro ⟨l, ht, hl⟩ ⟨m, hu, hm⟩
  exact ⟨l ++ m, by rw [hu, ht, raiseAll_append], fun x hx => (List.mem_append.1 hx).elim (hl x) (hm x)⟩

theorem walkRaises_refl (s : State) : WalkRaises s s := ⟨[], rfl, nofun⟩

theorem kind_of_mem_ownerRaising {o : Option Port} {k : NoticeKind} {r : WinRef} {d : BitVec 16} {x : Raising} (h : x ∈ ownerRaising o k r d) :
    x.kind = k ∧ x.ref = r := by
  cases o with
  | none => cases h
  | some p =>
    obtain rfl := List.mem_singleton.1 h
    exact ⟨rfl, rfl⟩

theorem walkRaises_raiseOwner {s t : State} (o : Option Port) {k : NoticeKind} (hk : k ∈ walkKinds) (r : WinRef) (d : BitVec 16)
    (h : WalkRaises s t) : WalkRaises s (raiseOwner t o k r d) :=
  h.trans ⟨ownerRaising o k r d, by rw [raiseOwner_eq_raised]; rfl, fun x hx => (kind_of_mem_ownerRaising hx).1 ▸ hk⟩

theorem walkRaises_of_notices {s t : State} (h : t.notices = s.notices) : WalkRaises s t := ⟨[], h, nofun⟩

theorem walkRaises_apply (fc : BitVec 16) (adj : List Nat) (s : State) (i : Slot) : WalkRaises s (applyWindow fc adj s i) := by
  have hc : NoticeKind.committed ∈ walkKinds := by decide
  have hp : NoticeKind.placementAdjusted ∈ walkKinds := by decide
  unfold applyWindow raiseApplied
  dsimp only
  split
  · exact walkRaises_raiseOwner _ hc _ _ (walkRaises_of_notices rfl)
  · split
    · exact walkRaises_raiseOwner _ hc _ _ (walkRaises_raiseOwner _ hp _ _ (walkRaises_of_notices rfl))
    · exact walkRaises_raiseOwner _ hp _ _ (walkRaises_raiseOwner _ hc _ _ (walkRaises_of_notices rfl))

theorem walkRaises_holdBack (fc : BitVec 16) (s : State) (l : List Slot) : WalkRaises s (holdBack fc s l) := by
  unfold holdBack
  split
  · exact walkRaises_of_notices rfl
  · refine ⟨_, by rw [expireUnit_eq]; rfl, fun x hx => ?_⟩
    obtain ⟨i, -, hx⟩ := List.mem_flatMap.1 hx
    rw [(kind_of_mem_ownerRaising hx).1]
    decide

theorem walkRaises_walkUnit (plan : BoundaryPlan) (s : State) (l : List Slot) : WalkRaises s (walkUnit plan s l) := by
  unfold walkUnit
  split
  · exact walkRaises_refl s
  · split
    · exact foldl_invariant (WalkRaises s) _ (fun t i ht => ht.trans (walkRaises_apply _ _ t i)) l s (walkRaises_refl s)
    · exact walkRaises_holdBack _ _ _

/-- The walk is not heard under a key of another kind. -/
theorem WalkRaises.silent {s t : State} (h : WalkRaises s t) {k : NoticeKind} (hk : k ∉ walkKinds) (q : Port) (i : Slot) :
    Heard q k i.handle s t [] := by
  obtain ⟨l, ht, hl⟩ := h
  have := heard_of_raiseAll ht q k i
  rwa [heardOf_eq_nil fun x hx (e : x.kind = k) => absurd (e ▸ hl x hx) hk] at this

/-- A device notice has handle 0, which no window has (R159). -/
theorem heard_raiseDevice (s : State) (p : Port) (k' : NoticeKind) (d : BitVec 16) (q : Port) (k : NoticeKind) (i : Slot) :
    Heard q k i.handle s (raiseDevice s p k' d) [] :=
  heard_raiseKey_other (fun h => absurd h.2.2 (Nat.succ_ne_zero _).symm) s _ _

theorem heard_profileNotice (plan : BoundaryPlan) (s : State) (q : Port) (k : NoticeKind) (i : Slot) :
    Heard q k i.handle s (profileNotice plan s) [] := by
  unfold profileNotice
  split
  · exact (heard_raiseDevice ..).append (heard_raiseDevice ..)
  · exact heard_of_notices rfl

theorem heard_frameNotice (s : State) (p : Port) (q : Port) (k : NoticeKind) (i : Slot) : Heard q k i.handle s (frameNotice s p) [] := by
  unfold frameNotice
  split
  · exact heard_raiseDevice ..
  · exact heard_of_notices rfl

/-! ## The visit of one window, as the parties to it hear of it -/

/-- The kinds of notice that lease visits and offer counts raise of the visited window alone. -/
def visitKinds : List NoticeKind := [.leaseLapsed, .leaseRestored, .windowEvicted, .streamClosed, .offerWithdrawn, .offerExpired]

theorem not_walkKind {k : NoticeKind} (h : k ∈ visitKinds) : k ∉ walkKinds := by
  revert k
  decide

theorem slot_of_mem_ownerAndARaisings {o : Option Port} {k : NoticeKind} {r : WinRef} {d : BitVec 16} {x : Raising}
    (h : x ∈ ownerAndARaisings o k r d) : x.kind = k ∧ x.ref = r := by
  rcases List.mem_append.1 h with h | h
  · exact kind_of_mem_ownerRaising h
  · split at h
    · cases h
    · obtain rfl := List.mem_singleton.1 h
      exact ⟨rfl, rfl⟩

section
variable (s : State) (i : Slot)

theorem kind_of_mem_own {x : Raising} (h : x ∈ retireOwnRaisings s i .eviction) : x.kind = .windowEvicted := (slot_of_mem_ownerAndARaisings h).1

theorem kind_of_mem_abandon {o : Option Port} {x : Raising} (h : x ∈ abandonRaisings s i o) : x.kind = .commitAbandoned := by
  obtain ⟨r, -, h⟩ := List.mem_flatMap.1 h
  exact (kind_of_mem_ownerRaising h).1

theorem kind_of_mem_cancel {ops : List EngineOp} {x : Raising} (h : x ∈ ops.map cancelRaising) : x.kind = .opCancelled := by
  obtain ⟨op, -, rfl⟩ := List.mem_map.1 h
  rfl

theorem kind_of_mem_stream {c : RetireCause} {x : Raising} (h : x ∈ retireStreamRaisings s i c) : x.kind = .streamClosed := by
  unfold retireStreamRaisings at h
  split at h
  · exact (kind_of_mem_ownerRaising h).1
  · cases h

theorem kind_of_mem_offer {x : Raising} (h : x ∈ retireOfferRaisings s i) : x.kind = .offerWithdrawn := by
  unfold retireOfferRaisings at h
  split at h
  · obtain rfl := List.mem_singleton.1 h
    rfl
  · cases h

end

/-- The raisings of an eviction but for COMMIT_ABANDONED and OP_CANCELLED are of the evicted window (R16). -/
theorem slot_of_mem_retireRaisings {s : State} {i : Slot} {x : Raising} (h : x ∈ retireRaisings s i .eviction) (hk : x.kind ∈ visitKinds) :
    x.ref.slot = i := by
  simp only [retireRaisings, List.mem_append] at h
  obtain (((h | h) | h) | h) | h := h
  · exact congrArg WinRef.slot (slot_of_mem_ownerAndARaisings h).2
  · rw [kind_of_mem_abandon s i h] at hk
    exact absurd hk (by decide)
  · rw [kind_of_mem_cancel h] at hk
    exact absurd hk (by decide)
  · unfold retireStreamRaisings at h
    split at h
    · exact congrArg WinRef.slot (kind_of_mem_ownerRaising h).2
    · cases h
  · unfold retireOfferRaisings at h
    split at h
    · obtain rfl := List.mem_singleton.1 h
      rfl
    · cases h

theorem slot_of_mem_visitRaisings {s : State} {i : Slot} {x : Raising} (h : x ∈ visitRaisings s i) (hk : x.kind ∈ visitKinds) :
    x.ref.slot = i := by
  unfold visitRaisings at h
  split at h
  · split at h
    · exact congrArg WinRef.slot (kind_of_mem_ownerRaising h).2
    · cases h
  · exact congrArg WinRef.slot (slot_of_mem_ownerAndARaisings h).2
  · exact slot_of_mem_retireRaisings h hk
  · cases h

theorem mem_offerRaisings {s : State} {i : Slot} {x : Raising} (h : x ∈ offerRaisings s i) : x.kind = .offerExpired ∧ x.ref.slot = i := by
  unfold offerRaisings at h
  split at h
  · split at h
    · simp only [List.mem_cons, List.not_mem_nil, or_false] at h
      rcases h with rfl | rfl <;> exact ⟨rfl, rfl⟩
    · cases h
  · cases h

theorem heard_visitWindow (s : State) (j : Slot) (q : Port) (k : NoticeKind) (i : Slot) :
    Heard q k i.handle s (visitWindow s j) (heardOf q k i (visitRaisings s j)) := heard_of_raiseAll (visitWindow_notices s j) q k i

theorem heard_countOffer (s : State) (j : Slot) (q : Port) (k : NoticeKind) (i : Slot) :
    Heard q k i.handle s (countOffer s j) (heardOf q k i (offerRaisings s j)) := heard_of_raiseAll (countOffer_notices s j) q k i

/-- A retirement closes no stream into another window (R54). -/
theorem retireWindow_streamInto (s : State) {i : Slot} {r : WinRef} (hr : r.slot ≠ i) (c : RetireCause) (q : Port) :
    streamInto (retireWindow s i c) q r = streamInto s q r := by
  have h := retireWindow_streams s i c q
  by_cases hs : streamInto s q (s.refOf i) = true
  · rw [if_pos hs] at h
    unfold streamInto at hs ⊢
    rw [h]
    cases hv : s.streams.get q with
    | none => rfl
    | some v =>
      rw [hv] at hs
      have hne : v.ref ≠ r := by
        rw [beq_iff_eq.1 hs]
        rintro rfl
        exact hr rfl
      exact (beq_eq_false_iff_ne.2 hne).symm
  · rw [if_neg hs] at h
    exact streamInto_congr h r

theorem visitWindow_streamInto (s : State) {i : Slot} {r : WinRef} (hr : r.slot ≠ i) (q : Port) :
    streamInto (visitWindow s i) q r = streamInto s q r := by
  unfold visitWindow
  dsimp only
  cases leaseOutcome (s.win i) with
  | renewed => dsimp only; rw [renewWindow_frame]; rfl
  | lapses => dsimp only; rw [lapseWindow_frame]; rfl
  | countDown | graceDown | unchanged => rfl
  | evicted => exact retireWindow_streamInto _ hr .eviction q

/-! ## Work that does not concern a window -/

/-- Work that leaves a window's record and the streams into it, and tells no one of it by the notices of visits. -/
structure Untouched (i : Slot) (s t : State) : Prop where
  record : t.win i = s.win i
  streams : ∀ q, streamInto t q (s.refOf i) = streamInto s q (s.refOf i)
  steady : t.steady = s.steady
  heard : ∀ q, ∀ k ∈ visitKinds, Heard q k i.handle s t []

section
variable {i : Slot} {s t u : State}

theorem Untouched.refl (i : Slot) (s : State) : Untouched i s s := ⟨rfl, fun _ => rfl, rfl, fun _ _ _ => heard_of_notices rfl⟩

theorem Untouched.refOf (h : Untouched i s t) : t.refOf i = s.refOf i := by rw [State.refOf, h.record]; rfl

theorem Untouched.trans (h : Untouched i s t) (h' : Untouched i t u) : Untouched i s u where
  record := h'.record.trans h.record
  streams q := by
    rw [← h.streams, ← h.refOf]
    exact h'.streams q
  steady := h'.steady.trans h.steady
  heard q k hk := (h.heard q k hk).append (h'.heard q k hk)

theorem untouched_of_fields (hw : t.win i = s.win i) (hst : t.streams = s.streams) (hs : t.steady = s.steady)
    (hh : ∀ q, ∀ k ∈ visitKinds, Heard q k i.handle s t []) : Untouched i s t :=
  ⟨hw, fun _ => streamInto_congr (by rw [hst]) _, hs, hh⟩

theorem untouched_of_notices (ht : t = { s with notices := t.notices }) (hh : ∀ q, ∀ k ∈ visitKinds, Heard q k i.handle s t []) :
    Untouched i s t :=
  untouched_of_fields (by rw [ht]; rfl) (by rw [ht]) (by rw [ht]; rfl) hh

theorem untouched_visitWindow {j : Slot} (hj : j ≠ i) (s : State) : Untouched i s (visitWindow s j) where
  record := by rw [visitWindow_win, if_neg hj.symm]
  streams q := visitWindow_streamInto s (r := s.refOf i) hj.symm q
  steady := (visitWindow_kept s j).1
  heard q k hk := by
    have := heard_visitWindow s j q k i
    rwa [heardOf_eq_nil fun x hx (e : x.kind = k) => by rw [slot_of_mem_visitRaisings hx (e ▸ hk)]; exact hj] at this

theorem untouched_raiseOwner {j : Slot} (hj : j ≠ i) (s : State) (o : Option Port) (k' : NoticeKind) (d : BitVec 16) :
    Untouched i s (raiseOwner s o k' (s.refOf j) d) := by
  rw [raiseOwner_eq_raised]
  refine untouched_of_fields rfl rfl rfl fun q k _ => ?_
  have := heard_raised s q k i (ownerRaising o k' (s.refOf j) d)
  rwa [heardOf_eq_nil fun x hx _ => by rw [(kind_of_mem_ownerRaising hx).2]; exact hj] at this

theorem untouched_leaseVisit {j : Slot} (hj : j ≠ i) (plan : BoundaryPlan) (s : State) : Untouched i s (leaseVisit plan s j) := by
  unfold leaseVisit
  split
  · exact .refl i s
  · split
    · split
      · exact untouched_raiseOwner hj ..
      · exact .refl i s
    · exact untouched_visitWindow hj s

theorem untouched_countOffer {j : Slot} (hj : j ≠ i) (s : State) : Untouched i s (countOffer s j) := by
  refine untouched_of_fields (by rw [countOffer_win, if_neg hj.symm]) (by rw [countOffer_frame]) (by rw [countOffer_frame]; rfl) fun q k _ => ?_
  have := heard_countOffer s j q k i
  rwa [heardOf_eq_nil fun x hx _ => by rw [(mem_offerRaisings hx).2]; exact hj] at this

theorem foldl_applyWindow_win (fc : BitVec 16) (adj : List Nat) {l : List Slot} (hi : i ∉ l) (s : State) :
    (l.foldl (applyWindow fc adj) s).win i = s.win i := by
  induction l generalizing s with
  | nil => rfl
  | cons j rest ih =>
    rw [List.foldl_cons, ih (fun h => hi (List.mem_cons_of_mem _ h))]
    refine (State.win_of_set (by rw [applyWindow_frame]) i).trans (if_neg ?_)
    rintro rfl
    exact hi List.mem_cons_self

theorem walkUnit_win {plan : BoundaryPlan} (hi : i ∉ plan.applied) (s : State) (l : List Slot) : (walkUnit plan s l).win i = s.win i := by
  unfold walkUnit
  split
  · rfl
  · split
    · next hall => exact foldl_applyWindow_win _ _ (fun hm => hi (by simpa using List.all_eq_true.1 hall i hm)) s
    · rw [holdBack_frame]
      rfl

theorem untouched_walkUnit {plan : BoundaryPlan} (hi : i ∉ plan.applied) (s : State) (l : List Slot) : Untouched i s (walkUnit plan s l) :=
  untouched_of_fields (walkUnit_win hi s l) (by rw [walkUnit_frame]) (by rw [walkUnit_frame]; rfl)
    fun q _ hk => (walkRaises_walkUnit plan s l).silent (not_walkKind hk) q i

/-- The pieces of work that concern a window which the boundary does not apply: its lease visit and its offer count. -/
theorem untouched_task {plan : BoundaryPlan} (hi : i ∉ plan.applied) {x : BoundaryTask} (hv : x ≠ .leaseVisit i.handle)
    (ho : x ≠ .offerCount i.handle) (run : BoundaryRun) : Untouched i run.state (boundaryTask plan run x).state := by
  cases x with
  | profileNotice =>
    simp only [boundaryTask]
    exact untouched_of_notices (profileNotice_frame ..) fun q k _ => heard_profileNotice plan run.state q k i
  | walkUnit =>
    simp only [boundaryTask]
    split
    · exact .refl i _
    · exact untouched_walkUnit hi ..
  | leaseVisit n =>
    simp only [boundaryTask]
    split
    · next j hj => exact untouched_leaseVisit (fun e => hv (by rw [slotOfHandle_eq_some.1 hj, e])) plan _
    · exact .refl i _
  | offerCount n =>
    simp only [boundaryTask]
    split
    · next j hj => exact untouched_countOffer (fun e => ho (by rw [slotOfHandle_eq_some.1 hj, e])) _
    · exact .refl i _
  | frameNotice p =>
    simp only [boundaryTask]
    exact untouched_of_notices (frameNotice_frame ..) fun q k _ => heard_frameNotice run.state p q k i

theorem untouched_tasks {plan : BoundaryPlan} (hi : i ∉ plan.applied) {l : List BoundaryTask}
    (hl : ∀ x ∈ l, x ≠ .leaseVisit i.handle ∧ x ≠ .offerCount i.handle) (run : BoundaryRun) :
    Untouched i run.state (l.foldl (boundaryTask plan) run).state := by
  induction l generalizing run with
  | nil => exact .refl i _
  | cons x rest ih =>
    obtain ⟨hv, ho⟩ := hl x List.mem_cons_self
    exact (untouched_task hi hv ho run).trans (ih (fun y hy => hl y (List.mem_cons_of_mem _ hy)) _)

end

end Sys2Proof.Machine
end

