-- ==== Sys2Proof/Proofs/BoundaryVisits.lean ====
section
/-! The lease visit and the offer count of one window at a boundary, in the two orders in which they can come (R69, R129, R147). -/

namespace Sys2Proof.Machine

open Sys2Proof.Safety

/-! ## The places of two pieces of work in a boundary -/

theorem place_of_count_one {α : Type} [DecidableEq α] {l : List α} {x : α} (h : l.count x = 1) :
    ∃ a b, l = a ++ x :: b ∧ x ∉ a ∧ x ∉ b := by
  obtain ⟨a, b, rfl⟩ := List.append_of_mem (List.count_pos_iff.1 (by omega : 0 < l.count x))
  rw [List.count_append, List.count_cons_self] at h
  exact ⟨a, b, rfl, List.count_eq_zero.1 (by omega), List.count_eq_zero.1 (by omega)⟩

/-- Two things that stand once each in a list stand in one order or the other. -/
theorem places_of_count_one {α : Type} [DecidableEq α] {l : List α} {x y : α} (hx : l.count x = 1) (hy : l.count y = 1) (hne : x ≠ y) :
    ∃ a b c, (l = a ++ x :: (b ++ y :: c) ∨ l = a ++ y :: (b ++ x :: c)) ∧
      (∀ z ∈ a, z ≠ x ∧ z ≠ y) ∧ (∀ z ∈ b, z ≠ x ∧ z ≠ y) ∧ ∀ z ∈ c, z ≠ x ∧ z ≠ y := by
  have apart {m : List α} (hx : x ∉ m) (hy : y ∉ m) : ∀ z ∈ m, z ≠ x ∧ z ≠ y :=
    fun z hz => ⟨fun e => hx (e ▸ hz), fun e => hy (e ▸ hz)⟩
  obtain ⟨a, b, rfl, ha, hb⟩ := place_of_count_one hx
  rw [List.count_append, List.count_cons_of_ne hne] at hy
  rcases Nat.eq_zero_or_pos (a.count y) with h0 | h0
  · obtain ⟨c, d, rfl, hc, hd⟩ := place_of_count_one (by omega : b.count y = 1)
    simp only [List.mem_append, List.mem_cons, not_or] at hb
    exact ⟨a, c, d, .inl rfl, apart ha (List.count_eq_zero.1 h0), apart hb.1 hc, apart hb.2.2 hd⟩
  · obtain ⟨c, d, rfl, hc, hd⟩ := place_of_count_one (by omega : a.count y = 1)
    simp only [List.mem_append, List.mem_cons, not_or] at ha
    exact ⟨c, d, b, .inr (by simp), apart ha.1 hc, apart ha.2.2 hd, apart hb (List.count_eq_zero.1 (by omega))⟩

theorem handle_injective : Function.Injective Slot.handle := fun _ _ => slot_eq_of_handle

/-- A boundary visits each window's lease once and counts its offer once (R69). -/
theorem count_allTasks (n : Nat) (i : Slot) :
    (allTasks n).count (.leaseVisit i.handle) = 1 ∧ (allTasks n).count (.offerCount i.handle) = 1 := by
  have hlease : (allSlots.map (fun i => BoundaryTask.leaseVisit i.handle)).count (.leaseVisit i.handle) = 1 :=
    List.count_eq_one_of_mem (allSlots_nodup.map fun a b h => handle_injective (BoundaryTask.leaseVisit.inj h))
      (List.mem_map_of_mem (mem_allSlots i))
  have hoffer : (allSlots.map (fun i => BoundaryTask.offerCount i.handle)).count (.offerCount i.handle) = 1 :=
    List.count_eq_one_of_mem (allSlots_nodup.map fun a b h => handle_injective (BoundaryTask.offerCount.inj h))
      (List.mem_map_of_mem (mem_allSlots i))
  have hlease0 : (allSlots.map (fun i => BoundaryTask.offerCount i.handle)).count (.leaseVisit i.handle) = 0 :=
    List.count_eq_zero.2 (by simp)
  have hoffer0 : (allSlots.map (fun i => BoundaryTask.leaseVisit i.handle)).count (.offerCount i.handle) = 0 :=
    List.count_eq_zero.2 (by simp)
  unfold allTasks
  simp only [List.count_append, List.count_cons, List.count_replicate, hlease, hoffer, hlease0, hoffer0]
  exact ⟨rfl, rfl⟩

theorem boundaryTasks_places (order : BoundaryOrder) (s : State) (i : Slot) :
    ∃ a b c : List BoundaryTask, (boundaryTasks order s = a ++ .leaseVisit i.handle :: (b ++ .offerCount i.handle :: c) ∨
        boundaryTasks order s = a ++ .offerCount i.handle :: (b ++ .leaseVisit i.handle :: c)) ∧
      (∀ x ∈ a, x ≠ .leaseVisit i.handle ∧ x ≠ .offerCount i.handle) ∧
      (∀ x ∈ b, x ≠ .leaseVisit i.handle ∧ x ≠ .offerCount i.handle) ∧
      ∀ x ∈ c, x ≠ .leaseVisit i.handle ∧ x ≠ .offerCount i.handle := by
  have hperm : (boundaryTasks order s).Perm (allTasks ((units s).map unitSlots).length) := arrange_perm ..
  obtain ⟨hl, ho⟩ := count_allTasks ((units s).map unitSlots).length i
  exact places_of_count_one ((hperm.count_eq _).trans hl) ((hperm.count_eq _).trans ho) nofun

/-! ## The two records that the visit and the count make -/

theorem leaseOutcome_setOffer (w : Window) (v : Option Offer) : leaseOutcome { w with offer := v } = leaseOutcome w := rfl

theorem leaseOutcome_of_not_visited {w : Window} (h : leaseVisited w = false) : leaseOutcome w = .unchanged := by
  simp [leaseOutcome, h]

/-- What a visit makes of a window that it visits, by R129's table. -/
theorem leaseOutcome_of_visited {w : Window} (hv : ¬ (w.state = .hidden ∨ w.active.leaseLength = 0)) (hl : live w) :
    (w.renewPending = true ∧ leaseOutcome w = .renewed) ∨
    (w.renewPending = false ∧ w.state = .shown ∧
      ((w.leaseCounter = 0 ∧ leaseOutcome w = .unchanged) ∨ (w.leaseCounter = 1 ∧ leaseOutcome w = .lapses) ∨
        (1 < w.leaseCounter ∧ leaseOutcome w = .countDown))) ∨
    (w.renewPending = false ∧ w.state = .lapsed ∧
      ((w.graceCounter = 0 ∧ leaseOutcome w = .unchanged) ∨ (w.graceCounter = 1 ∧ leaseOutcome w = .evicted) ∨
        (1 < w.graceCounter ∧ leaseOutcome w = .graceDown))) := by
  obtain ⟨hh, hL⟩ := not_or.1 hv
  have hstate : w.state = .shown ∨ w.state = .lapsed := by
    unfold live at hl
    cases hs : w.state <;> simp_all [permitLive]
  have hvis : leaseVisited w = true := leaseVisited_iff.2 ⟨hstate, Nat.pos_of_ne_zero hL⟩
  unfold leaseOutcome
  rw [if_neg (by rw [hvis]; nofun)]
  cases w.renewPending with
  | true => exact .inl ⟨rfl, rfl⟩
  | false =>
    rcases hstate with hs | hs
    · refine .inr (.inl ⟨rfl, hs, ?_⟩)
      rcases (by omega : w.leaseCounter = 0 ∨ w.leaseCounter = 1 ∨ 1 < w.leaseCounter) with h | h | h
      · exact .inl ⟨h, by simp [hs, h]⟩
      · exact .inr (.inl ⟨h, by simp [hs, h]⟩)
      · exact .inr (.inr ⟨h, by simp [hs, Nat.ne_of_gt h, Nat.ne_of_gt (Nat.zero_lt_of_lt h)]⟩)
    · refine .inr (.inr ⟨rfl, hs, ?_⟩)
      rcases (by omega : w.graceCounter = 0 ∨ w.graceCounter = 1 ∨ 1 < w.graceCounter) with h | h | h
      · exact .inl ⟨h, by simp [hs, h]⟩
      · exact .inr (.inl ⟨h, by simp [hs, h]⟩)
      · exact .inr (.inr ⟨h, by simp [hs, Nat.ne_of_gt h, Nat.ne_of_gt (Nat.zero_lt_of_lt h)]⟩)

theorem leaseOutcome_of_unvisited {w : Window} (h : w.state = .hidden ∨ w.active.leaseLength = 0) : leaseOutcome w = .unchanged := by
  refine leaseOutcome_of_not_visited ?_
  rw [← Bool.not_eq_true, leaseVisited_iff]
  rintro ⟨hs, hL⟩
  rcases h with h | h
  · rw [h] at hs
    simp at hs
  · omega

/-- The record after a boundary, by the outcome of the visit. -/
theorem countedWindow_eq {grace : Nat} {w : Window} (hl : live w) :
    countedWindow grace w =
      match leaseOutcome w with
      | .evicted => retiredWindow { w with graceCounter := 0 }
      | _ => { visitedWindow grace w with offer := countedOffer w.offer } := by
  by_cases hv : w.state = .hidden ∨ w.active.leaseLength = 0
  · rw [visitedWindow, leaseOutcome_of_unvisited hv, countedWindow, if_pos hv]
  · obtain ⟨hr, ho⟩ | ⟨hr, hs, ⟨h0, ho⟩ | ⟨h1, ho⟩ | ⟨h2, ho⟩⟩ | ⟨hr, hs, ⟨h0, ho⟩ | ⟨h1, ho⟩ | ⟨h2, ho⟩⟩ :=
      leaseOutcome_of_visited hv hl <;>
      rw [visitedWindow, ho, countedWindow, if_neg hv]
    · rw [if_pos hr]
    · have hsub : w.leaseCounter - 1 = w.leaseCounter := by omega
      rw [if_neg (by rw [hr]; nofun), if_pos hs, if_neg (by omega), hsub]
    · rw [if_neg (by rw [hr]; nofun), if_pos hs, if_pos h1]
    · rw [if_neg (by rw [hr]; nofun), if_pos hs, if_neg (by omega)]
    · have hsub : w.graceCounter - 1 = w.graceCounter := by omega
      rw [if_neg (by rw [hr]; nofun), if_neg (by rw [hs]; nofun), if_neg (by omega), hsub]
    · have hn : ¬ ({ w with graceCounter := 0 } : Window).state = .hidden := by
        show ¬ w.state = .hidden
        rw [hs]
        nofun
      rw [if_neg (by rw [hr]; nofun), if_neg (by rw [hs]; nofun), if_pos h1]
      dsimp only
      rw [retiredWindow, if_neg hn]
    · rw [if_neg (by rw [hr]; nofun), if_neg (by rw [hs]; nofun), if_neg (by omega)]

theorem visitedWindow_offer (grace : Nat) (w : Window) (h : leaseOutcome w ≠ .evicted) : (visitedWindow grace w).offer = w.offer := by
  unfold visitedWindow
  split
  case h_5 ho => exact absurd ho h
  all_goals rfl

theorem Window.setOffer_self {w : Window} {v : Option Offer} (h : w.offer = v) : { w with offer := v } = w := by rw [← h]

/-- The lease visited first. -/
theorem counted_visitedWindow {grace : Nat} {w : Window} (hl : live w) :
    { visitedWindow grace w with offer := countedOffer (visitedWindow grace w).offer } = countedWindow grace w := by
  rw [countedWindow_eq hl]
  split
  · next ho =>
    have hr : visitedWindow grace w = retiredWindow { w with graceCounter := 0 } := by rw [visitedWindow, ho]
    rw [hr]
    exact Window.setOffer_self (by rw [retiredWindow_offer]; rfl)
  · next ho => rw [visitedWindow_offer grace w ho]

/-- The offer counted first. -/
theorem visitedWindow_counted {grace : Nat} {w : Window} (hl : live w) :
    visitedWindow grace { w with offer := countedOffer w.offer } = countedWindow grace w := by
  rw [countedWindow_eq hl, visitedWindow, leaseOutcome_setOffer, visitedWindow]
  cases leaseOutcome w <;> rfl

/-! ## The window through the boundary -/

theorem leaseVisit_eq_visitWindow {plan : BoundaryPlan} {t : State} {i : Slot} (ha : i ∉ plan.applied)
    (hv : i ∈ plan.visited ↔ leaseVisited (t.win i) = true) : leaseVisit plan t i = visitWindow t i := by
  unfold leaseVisit
  by_cases hm : i ∈ plan.visited
  · rw [if_neg (by simpa using hm), if_neg (by simpa using ha)]
  · rw [if_pos (by simpa using hm), visitWindow, leaseOutcome_of_not_visited (by simpa using fun h => hm (hv.2 h))]

/-- What a boundary makes of a window whose commit it does not apply and what is heard of it: `b` and `e` are the states in which
the boundary's work begins and ends, `t` the one at the window's lease visit and `u` the one at its offer count. -/
structure Counts (s b e : State) (i : Slot) (t u : State) : Prop where
  streams : ∀ q, streamInto t q (s.refOf i) = streamInto b q (s.refOf i)
  steadyVisit : t.steady = b.steady
  steadyCount : u.steady = b.steady
  records : (t.win i = s.win i ∧ u.win i = visitedWindow s.grace (s.win i)) ∨
    (u.win i = s.win i ∧ t.win i = { s.win i with offer := countedOffer (s.win i).offer })
  record : e.win i = countedWindow s.grace (s.win i)
  heardVisit : ∀ q, ∀ k ∈ visitKinds, k ≠ .offerExpired →
    Heard q k i.handle b e (heardOf q k i (visitRaisings t i))
  heardCount : ∀ q, Heard q .offerExpired i.handle b e (heardOf q .offerExpired i (offerRaisings u i))

theorem kind_of_mem_visitRaisings {s : State} {i : Slot} {x : Raising} (h : x ∈ visitRaisings s i) : x.kind ≠ .offerExpired := by
  unfold visitRaisings at h
  split at h
  · split at h
    · exact (kind_of_mem_ownerRaising h).1.trans_ne (by decide)
    · cases h
  · exact (slot_of_mem_ownerAndARaisings h).1.trans_ne (by decide)
  · simp only [retireRaisings, List.mem_append] at h
    obtain (((h | h) | h) | h) | h := h
    · exact (kind_of_mem_own s i h).trans_ne (by decide)
    · exact (kind_of_mem_abandon s i h).trans_ne (by decide)
    · exact (kind_of_mem_cancel h).trans_ne (by decide)
    · exact (kind_of_mem_stream s i h).trans_ne (by decide)
    · exact (kind_of_mem_offer s i h).trans_ne (by decide)
  · cases h

/-- An offer count is heard by OFFER_EXPIRED alone, a lease visit by the other kinds. -/
theorem heard_countOffer_other (s : State) (i : Slot) (q : Port) {k : NoticeKind} (hk : k ≠ .offerExpired) :
    Heard q k i.handle s (countOffer s i) [] := by
  have := heard_countOffer s i q k i
  rwa [heardOf_eq_nil fun x hx (e : x.kind = k) => absurd ((mem_offerRaisings hx).1.symm.trans e).symm hk] at this

theorem heard_visitWindow_offerExpired (s : State) (i : Slot) (q : Port) : Heard q .offerExpired i.handle s (visitWindow s i) [] := by
  have := heard_visitWindow s i q .offerExpired i
  rwa [heardOf_eq_nil fun x hx (e : x.kind = .offerExpired) => absurd e (kind_of_mem_visitRaisings hx)] at this

theorem visitedWindow_gen (grace : Nat) (w : Window) : (visitedWindow grace w).gen = w.gen := by
  unfold visitedWindow
  split
  case h_5 ho =>
    have hn : ¬ ({ w with graceCounter := 0 } : Window).state = .hidden := by
      show ¬ w.state = .hidden
      rw [(leaseOutcome_evicted ho).1]
      nofun
    rw [retiredWindow, if_neg hn]
  all_goals rfl

theorem boundaryStart_win_live {s : State} {i : Slot} (hl : live (s.win i)) : (boundaryStart s).win i = s.win i := by
  rw [boundaryStart_win, if_neg]
  intro hr
  rw [live, hr] at hl
  cases hl

theorem boundaryStart_grace (s : State) : (boundaryStart s).grace = s.grace := by
  rw [boundaryStart, removeRetiring_frame]

theorem boundary_counts {order : BoundaryOrder} {s : State} {i : Slot} (hc : CommitInv s) (hl : live (s.win i)) (hd : ¬ commitDue s i) :
    ∃ t u, Counts s (boundaryStart s) (boundaryEnd order s) i t u := by
  have ha : i ∉ (boundaryPlan order s).applied := fun h => hd ((mem_applied hc).1 h)
  have hv : i ∈ (boundaryPlan order s).visited ↔ leaseVisited (s.win i) = true := mem_visited
  have hstart := boundaryStart_win_live hl
  have href : (boundaryStart s).refOf i = s.refOf i := by rw [State.refOf, hstart]; rfl
  have hgrace : ∀ t : State, t.steady = (boundaryStart s).steady → t.grace = s.grace := fun t ht => by
    obtain ⟨-, -, -, -, hg, -⟩ := State.fields_of_steady ht
    exact hg.trans (boundaryStart_grace s)
  obtain ⟨l₁, l₂, l₃, horder, h₁, h₂, h₃⟩ := boundaryTasks_places order s i
  have hend : boundaryEnd order s =
    ((boundaryTasks order s).foldl (boundaryTask (boundaryPlan order s)) ⟨boundaryStart s, (units s).map unitSlots⟩).state := rfl
  have hkeep {l : List BoundaryTask} (h : ∀ x ∈ l, x ≠ .leaseVisit i.handle ∧ x ≠ .offerCount i.handle) (run : BoundaryRun) :
      Untouched i run.state (l.foldl (boundaryTask (boundaryPlan order s)) run).state := untouched_tasks ha h run
  generalize boundaryPlan order s = plan at *
  generalize boundaryStart s = b at *
  have hlease (run : BoundaryRun) (h : leaseVisited (run.state.win i) = leaseVisited (s.win i)) :
      boundaryTask plan run (.leaseVisit i.handle) = { run with state := visitWindow run.state i } := by
    simp only [boundaryTask, slotOfHandle_handle, leaseVisit_eq_visitWindow ha (h ▸ hv)]
  have hcount (run : BoundaryRun) : boundaryTask plan run (.offerCount i.handle) = { run with state := countOffer run.state i } := by
    simp only [boundaryTask, slotOfHandle_handle]
  generalize (units s).map unitSlots = walk at *
  have hfirst := hkeep h₁ ⟨b, walk⟩
  generalize hr₁ : l₁.foldl (boundaryTask plan) ⟨b, walk⟩ = r₁ at *
  have hwin₁ : r₁.state.win i = s.win i := hfirst.record.trans hstart
  rcases horder with horder | horder
  · rw [horder, List.foldl_append, hr₁, List.foldl_cons, hlease r₁ (by rw [hwin₁]), List.foldl_append] at hend
    have hmid := hkeep h₂ { r₁ with state := visitWindow r₁.state i }
    generalize l₂.foldl (boundaryTask plan) { r₁ with state := visitWindow r₁.state i } = r₂ at *
    rw [List.foldl_cons, hcount] at hend
    have hlast := hkeep h₃ { r₂ with state := countOffer r₂.state i }
    rw [← hend] at hlast
    have hvisited : (visitWindow r₁.state i).win i = visitedWindow s.grace (s.win i) := by
      rw [visitWindow_win, if_pos rfl, hwin₁, hgrace _ hfirst.steady]
    have hwin₂ : r₂.state.win i = visitedWindow s.grace (s.win i) := hmid.record.trans hvisited
    refine ⟨r₁.state, r₂.state, fun q => href ▸ hfirst.streams q, hfirst.steady,
      hmid.steady.trans ((visitWindow_kept _ _).1.trans hfirst.steady), .inl ⟨hwin₁, hwin₂⟩, ?_, fun q k hk hne => ?_, fun q => ?_⟩
    · rw [hlast.record]
      show (countOffer r₂.state i).win i = _
      rw [countOffer_win, if_pos rfl, hwin₂]
      exact counted_visitedWindow hl
    · exact ((((hfirst.heard q k hk).append (heard_visitWindow ..)).silent (hmid.heard q k hk)).silent
        (heard_countOffer_other _ i q hne)).silent (hlast.heard q k hk)
    · have hk : NoticeKind.offerExpired ∈ visitKinds := by decide
      exact ((((hfirst.heard q _ hk).append (heard_visitWindow_offerExpired ..)).append (hmid.heard q _ hk)).append
        (heard_countOffer ..)).silent (hlast.heard q _ hk)
  · rw [horder, List.foldl_append, hr₁, List.foldl_cons, hcount, List.foldl_append] at hend
    have hmid := hkeep h₂ { r₁ with state := countOffer r₁.state i }
    generalize l₂.foldl (boundaryTask plan) { r₁ with state := countOffer r₁.state i } = r₂ at *
    have hcounted : (countOffer r₁.state i).win i = { s.win i with offer := countedOffer (s.win i).offer } := by
      rw [countOffer_win, if_pos rfl, hwin₁]
    have hwin₂ : r₂.state.win i = { s.win i with offer := countedOffer (s.win i).offer } := hmid.record.trans hcounted
    rw [List.foldl_cons, hlease r₂ (by rw [hwin₂]; rfl)] at hend
    have hlast := hkeep h₃ { r₂ with state := visitWindow r₂.state i }
    rw [← hend] at hlast
    have hsteady : (countOffer r₁.state i).steady = b.steady := by
      rw [countOffer_frame]
      exact hfirst.steady
    have hsteady₂ : r₂.state.steady = b.steady := hmid.steady.trans hsteady
    have href₂ : (countOffer r₁.state i).refOf i = s.refOf i := by rw [State.refOf, hcounted]; rfl
    refine ⟨r₂.state, r₁.state, fun q => ?_, hsteady₂, hfirst.steady, .inr ⟨hwin₁, hwin₂⟩, ?_, fun q k hk hne => ?_, fun q => ?_⟩
    · rw [← href₂, hmid.streams q]
      show streamInto (countOffer r₁.state i) q _ = _
      rw [href₂, countOffer_frame, ← href]
      exact hfirst.streams q
    · rw [hlast.record]
      show (visitWindow r₂.state i).win i = _
      rw [visitWindow_win, if_pos rfl, hwin₂, hgrace _ hsteady₂]
      exact visitedWindow_counted hl
    · exact ((((hfirst.heard q k hk).append (heard_countOffer_other _ i q hne)).append (hmid.heard q k hk)).append
        (heard_visitWindow ..)).silent (hlast.heard q k hk)
    · have hk : NoticeKind.offerExpired ∈ visitKinds := by decide
      exact ((((hfirst.heard q _ hk).append (heard_countOffer ..)).silent (hmid.heard q _ hk)).silent
        (heard_visitWindow_offerExpired ..)).silent (hlast.heard q _ hk)

end Sys2Proof.Machine
end

