-- ==== Sys2Proof/Proofs/BoundaryCancels.lean ====
section
/-! The operations that a boundary cancels: each eviction takes those that name its window out of the queue, in the order of the visits, and
tells their issuers (R61, R137); and the counts of O46. -/

namespace Sys2Proof.Machine

open Sys2Proof.Safety

/-! ## Chunks of a queue -/

/-- What successive removals take out of a queue: for each key in turn, what it names of what is left. -/
def cancelChunks {κ α : Type} (names : κ → α → Bool) : List κ → List α → List α
  | [], _ => []
  | j :: js, l => l.filter (names j) ++ cancelChunks names js (l.filter (fun x => !names j x))

section
variable {κ α : Type} (names : κ → α → Bool)

theorem cancelChunks_filter (f : α → Bool) (js : List κ) (l : List α) :
    (cancelChunks names js l).filter f = cancelChunks names js (l.filter f) := by
  induction js generalizing l with
  | nil => rfl
  | cons j js ih =>
    rw [cancelChunks, cancelChunks, List.filter_append, ih, List.filter_comm, List.filter_comm (p := f)]

theorem length_cancelChunks (js : List κ) (l : List α) :
    (cancelChunks names js l).length = (l.filter (fun x => js.any (names · x))).length := by
  induction js generalizing l with
  | nil => simp [cancelChunks]
  | cons j js ih =>
    have hnamed : (l.filter (fun x => (j :: js).any (names · x))).filter (names j) = l.filter (names j) := by
      rw [List.filter_filter]
      exact List.filter_congr fun x _ => by cases h : names j x <;> simp [h]
    have hrest : (l.filter (fun x => (j :: js).any (names · x))).filter (fun x => !names j x) =
        (l.filter (fun x => !names j x)).filter (fun x => js.any (names · x)) := by
      rw [List.filter_filter, List.filter_filter]
      exact List.filter_congr fun x _ => by cases h : names j x <;> simp [h]
    rw [cancelChunks, List.length_append, ih, ← hnamed, ← hrest]
    exact (List.length_eq_length_filter_add _).symm

/-- The last thing taken out stands in the queue with only such behind it as were taken out by a key that does not name it. -/
theorem last_cancelChunks {js : List κ} {l : List α} (h : ∃ x ∈ l, js.any (names · x) = true) :
    ∃ before after last, l.filter (fun x => js.any (names · x)) = before ++ last :: after ∧
      (∀ x ∈ after, ∃ j ∈ js, names j x = true ∧ names j last = false) ∧ (cancelChunks names js l).getLast? = some last := by
  induction js generalizing l with
  | nil =>
    obtain ⟨x, -, hx⟩ := h
    cases hx
  | cons j js ih =>
    by_cases hmore : ∃ x ∈ l.filter (fun x => !names j x), js.any (names · x) = true
    · obtain ⟨before, after, last, hsplit, hafter, hlast⟩ := ih hmore
      have hrest : (l.filter (fun x => (j :: js).any (names · x))).filter (fun x => !names j x) = before ++ last :: after := by
        rw [← hsplit, List.filter_filter, List.filter_filter]
        exact List.filter_congr fun x _ => by cases h : names j x <;> simp [h]
      obtain ⟨l₁, l₂, hl, -, h₂⟩ := List.filter_eq_append_iff.1 hrest
      obtain ⟨a, c, rfl, -, hp, hc⟩ := List.filter_eq_cons_iff.1 h₂
      have hkeep : names j last = false := by simpa using hp
      refine ⟨l₁ ++ a, c, last, by rw [hl, List.append_assoc], fun x hx => ?_, ?_⟩
      · cases hn : names j x with
        | true => exact ⟨j, List.mem_cons_self, hn, hkeep⟩
        | false =>
          obtain ⟨k, hk, hkx⟩ := hafter x (hc ▸ List.mem_filter.2 ⟨hx, by rw [hn]; rfl⟩)
          exact ⟨k, List.mem_cons_of_mem _ hk, hkx⟩
      · rw [cancelChunks, List.getLast?_append_of_ne_nil _ (by rintro e; rw [e] at hlast; cases hlast), hlast]
    · have hnil : cancelChunks names js (l.filter (fun x => !names j x)) = [] := by
        rw [← List.length_eq_zero_iff, length_cancelChunks, List.length_eq_zero_iff, List.filter_eq_nil_iff]
        exact fun x hx e => hmore ⟨x, hx, e⟩
      have hall : l.filter (fun x => (j :: js).any (names · x)) = l.filter (names j) := by
        refine List.filter_congr fun x hx => ?_
        cases hn : names j x with
        | true => simp [hn]
        | false =>
          have : js.any (names · x) = false := by
            rw [← Bool.not_eq_true]
            exact fun e => hmore ⟨x, List.mem_filter.2 ⟨hx, by rw [hn]; rfl⟩, e⟩
          rw [List.any_cons, hn, this]
          rfl
      obtain ⟨x, hx, hn⟩ := h
      have hne : l.filter (names j) ≠ [] := hall ▸ List.ne_nil_of_mem (List.mem_filter.2 ⟨hx, hn⟩)
      refine ⟨(l.filter (names j)).dropLast, [], (l.filter (names j)).getLast hne, ?_, nofun, ?_⟩
      · rw [hall, List.dropLast_append_getLast]
      · rw [cancelChunks, hnil, List.append_nil, List.getLast?_eq_some_getLast hne]

end

/-! ## The cancellations of one eviction -/

theorem heardOf_of_kind {q : Port} {k k' : NoticeKind} {i : Slot} {l : List Raising} (hl : ∀ x ∈ l, x.kind = k') (hne : k' ≠ k) :
    heardOf q k i l = [] :=
  heardOf_eq_nil fun x hx e => absurd ((hl x hx).symm.trans e) hne

/-- The notice of a cancelled operation, as its issuer's list takes it. -/
def cancelEntry (op : EngineOp) : Gen × BitVec 16 := (op.dest.gen, op.opNumber.setWidth 16)

/-- The operation is one of this issuer into this slot: its OP_CANCELLED has their key (R61). -/
def intoSlot (q : Port) (d : Slot) (op : EngineOp) : Bool := decide (op.issuer = q ∧ op.dest.slot = d)

theorem heardOf_cancelRaisings (ops : List EngineOp) (q : Port) (d : Slot) :
    heardOf q .opCancelled d (ops.map cancelRaising) = (ops.filter (intoSlot q d)).map cancelEntry := by
  unfold heardOf
  rw [List.filter_map, List.map_map]
  have hf : (fun x : Raising => decide (x.port = q ∧ x.kind = .opCancelled ∧ x.ref.slot = d)) ∘ cancelRaising = intoSlot q d := by
    funext op
    rw [Bool.eq_iff_iff, Function.comp_apply, intoSlot, decide_eq_true_iff, decide_eq_true_iff]
    exact and_congr_right fun _ => and_iff_right rfl
  rw [hf]
  refine List.map_congr_left fun op _ => ?_
  rw [Function.comp_apply, cancelRaising_eq]
  rfl

/-- What is heard of an eviction, one part of it under each kind. -/
theorem heardOf_eviction (s : State) (i : Slot) (q : Port) (d : Slot) :
    heardOf q .windowEvicted d (retireRaisings s i .eviction) = heardOf q .windowEvicted d (retireOwnRaisings s i .eviction) ∧
    heardOf q .opCancelled d (retireRaisings s i .eviction) =
      ((s.opQueue.filter (opNames (s.refOf i))).filter (intoSlot q d)).map cancelEntry ∧
    heardOf q .streamClosed d (retireRaisings s i .eviction) = heardOf q .streamClosed d (retireStreamRaisings s i .eviction) ∧
    heardOf q .offerWithdrawn d (retireRaisings s i .eviction) = heardOf q .offerWithdrawn d (retireOfferRaisings s i) := by
  have own {k} (h : NoticeKind.windowEvicted ≠ k) : heardOf q k d (retireOwnRaisings s i .eviction) = [] :=
    heardOf_of_kind (fun _ => kind_of_mem_own s i) h
  have abandon {k} (h : NoticeKind.commitAbandoned ≠ k) : heardOf q k d (abandonRaisings s i (s.win i).owner) = [] :=
    heardOf_of_kind (fun _ => kind_of_mem_abandon s i) h
  have cancel {k} (h : NoticeKind.opCancelled ≠ k) : heardOf q k d ((s.opQueue.filter (opNames (s.refOf i))).map cancelRaising) = [] :=
    heardOf_of_kind (fun _ => kind_of_mem_cancel) h
  have stream {k} (h : NoticeKind.streamClosed ≠ k) : heardOf q k d (retireStreamRaisings s i .eviction) = [] :=
    heardOf_of_kind (fun _ => kind_of_mem_stream s i) h
  have offer {k} (h : NoticeKind.offerWithdrawn ≠ k) : heardOf q k d (retireOfferRaisings s i) = [] :=
    heardOf_of_kind (fun _ => kind_of_mem_offer s i) h
  simp only [retireRaisings, heardOf_append]
  refine ⟨?_, ?_, ?_, ?_⟩
  · simp [abandon, cancel, stream, offer]
  · simp [own, abandon, stream, offer, heardOf_cancelRaisings]
  · simp [own, abandon, cancel, offer]
  · simp [own, abandon, cancel, stream]

/-! ## The cancellations of a boundary -/

theorem visitWindow_evicts {s : State} {j : Slot} (h : leaseOutcome (s.win j) = .evicted) :
    (visitWindow s j).opQueue = s.opQueue.filter (fun op => !opNames (s.refOf j) op) ∧
      ∀ q d, Heard q .opCancelled d.handle s (visitWindow s j)
        (((s.opQueue.filter (opNames (s.refOf j))).filter (intoSlot q d)).map cancelEntry) := by
  refine ⟨?_, fun q d => ?_⟩
  · rw [visitWindow, h]
    show (evictWindow s j).opQueue = _
    rw [evictWindow, retireWindow_opQueue, State.refOf, State.win_setWin_same]
    rfl
  · have := heard_visitWindow s j q .opCancelled d
    rwa [visitRaisings, h, (heardOf_eviction s j q d).2.1] at this

/-- Work that cancels nothing. -/
def KeepsOps (s t : State) : Prop := t.opQueue = s.opQueue ∧ ∀ q (d : Slot), Heard q .opCancelled d.handle s t []

theorem keepsOps_visitWindow {s : State} {j : Slot} (h : leaseOutcome (s.win j) ≠ .evicted) : KeepsOps s (visitWindow s j) := by
  refine ⟨?_, fun q d => ?_⟩
  · unfold visitWindow
    dsimp only
    split
    case h_5 ho => exact absurd ho h
    case h_1 => rw [renewWindow_frame]
    case h_3 => rw [lapseWindow_frame]
    all_goals rfl
  · have := heard_visitWindow s j q .opCancelled d
    have hnil : heardOf q .opCancelled d (visitRaisings s j) = [] := by
      unfold visitRaisings
      split
      · split
        · exact heardOf_of_kind (fun _ hx => (kind_of_mem_ownerRaising hx).1) nofun
        · rfl
      · exact heardOf_of_kind (fun _ hx => (slot_of_mem_ownerAndARaisings hx).1) nofun
      · next ho => exact absurd ho h
      · rfl
    rwa [hnil] at this

theorem keepsOps_raiseOwner (s : State) (o : Option Port) {k : NoticeKind} (hk : k ≠ .opCancelled) (r : WinRef) (d : BitVec 16) :
    KeepsOps s (raiseOwner s o k r d) := by
  rw [raiseOwner_eq_raised]
  refine ⟨rfl, fun q j => ?_⟩
  have := heard_raised s q .opCancelled j (ownerRaising o k r d)
  rwa [heardOf_of_kind (fun _ hx => (kind_of_mem_ownerRaising hx).1) hk] at this

theorem keepsOps_countOffer (s : State) (j : Slot) : KeepsOps s (countOffer s j) :=
  ⟨by rw [countOffer_frame], fun q d => by
    have := heard_countOffer s j q .opCancelled d
    rwa [heardOf_of_kind (fun _ hx => (mem_offerRaisings hx).1) (by decide : NoticeKind.offerExpired ≠ .opCancelled)] at this⟩

theorem keepsOps_walkUnit (plan : BoundaryPlan) (s : State) (l : List Slot) : KeepsOps s (walkUnit plan s l) :=
  ⟨by rw [walkUnit_frame], fun q d => (walkRaises_walkUnit plan s l).silent (by decide) q d⟩

theorem keepsOps_refl (s : State) : KeepsOps s s := ⟨rfl, fun _ _ => heard_of_notices rfl⟩

/-- What is still known of a window at its lease visit: whether it is due for eviction, and its reference if it is. -/
def DueKept (s t : State) (j : Slot) : Prop :=
  (leaseOutcome (t.win j) = .evicted ↔ evictionDue (s.win j)) ∧ (evictionDue (s.win j) → t.refOf j = s.refOf j)

theorem leaseOutcome_evicted_iff {w : Window} : leaseOutcome w = .evicted ↔ evictionDue w := ⟨leaseOutcome_evicted, leaseOutcome_of_eviction⟩

theorem dueKept_of_win {s t u : State} {j : Slot} (h : DueKept s t j) (hw : u.win j = t.win j) : DueKept s u j := by
  unfold DueKept State.refOf
  rw [hw]
  exact h

theorem dueKept_countOffer {s t : State} {j : Slot} (h : DueKept s t j) (i : Slot) : DueKept s (countOffer t i) j := by
  unfold DueKept State.refOf
  rw [countOffer_win]
  split
  · next hj => exact hj ▸ h
  · exact h

theorem dueKept_start (s : State) (j : Slot) : DueKept s (boundaryStart s) j := by
  unfold DueKept State.refOf
  rw [boundaryStart_win]
  split
  · next hr =>
    have hn : ¬ evictionDue (s.win j) := fun h => nomatch hr.symm.trans h.1
    exact ⟨iff_of_false (by rw [leaseOutcome_evicted_iff]; exact fun h => nomatch h.1) hn, fun h => absurd h hn⟩
  · exact ⟨leaseOutcome_evicted_iff, fun _ => rfl⟩

/-- The window that a piece of work evicts. -/
def evictionOf (s : State) : BoundaryTask → Option Slot
  | .leaseVisit n => (slotOfHandle n).filter (fun j => evicted s j)
  | _ => none

/-- The evictions that pieces of work make, in their order. -/
def evictions (s : State) (l : List BoundaryTask) : List Slot := l.filterMap (evictionOf s)

theorem evictionOf_leaseVisit (s : State) (j : Slot) : evictionOf s (.leaseVisit j.handle) = if evicted s j then some j else none := by
  rw [evictionOf, slotOfHandle_handle, Option.filter_some]
  by_cases he : evicted s j
  · rw [if_pos he, if_pos (decide_eq_true he)]
  · rw [if_neg he, if_neg (by rw [decide_eq_true_iff]; exact he)]

section
variable {s : State} {plan : BoundaryPlan} (ha : ∀ j, j ∈ plan.applied ↔ commitDue s j)
  (hv : ∀ j, evictionDue (s.win j) → j ∈ plan.visited)

include ha hv

theorem leaseVisit_evicts (t : State) {j : Slot} (he : evicted s j) : leaseVisit plan t j = visitWindow t j := by
  unfold leaseVisit
  rw [if_neg (by simpa using hv j he.1), if_neg (by simpa using fun h => he.2 ((ha j).1 h))]

omit hv in
theorem leaseVisit_keepsOps {t : State} {j : Slot} (hd : ¬ commitDue s j → DueKept s t j) (he : ¬ evicted s j) :
    KeepsOps t (leaseVisit plan t j) := by
  unfold leaseVisit
  split
  · exact keepsOps_refl t
  · split
    · split
      · exact keepsOps_raiseOwner t _ (by decide) _ _
      · exact keepsOps_refl t
    · next hm =>
      have hnd : ¬ commitDue s j := fun h => by simp [(ha j).2 h] at hm
      exact keepsOps_visitWindow fun ho => he ⟨(hd hnd).1.1 ho, hnd⟩

omit ha hv in
theorem dueKept_task {run : BoundaryRun} {j : Slot} (hd : DueKept s run.state j) (hj : j ∉ plan.applied) {x : BoundaryTask}
    (hx : x ≠ .leaseVisit j.handle) : DueKept s (boundaryTask plan run x).state j := by
  by_cases ho : x = .offerCount j.handle
  · subst ho
    simp only [boundaryTask, slotOfHandle_handle]
    exact dueKept_countOffer hd j
  · exact dueKept_of_win hd (untouched_task hj hx ho run).record

omit ha hv in
theorem keepsOps_task (run : BoundaryRun) {x : BoundaryTask} (hx : ∀ n, x ≠ .leaseVisit n) :
    KeepsOps run.state (boundaryTask plan run x).state := by
  cases x with
  | leaseVisit n => exact absurd rfl (hx n)
  | profileNotice =>
    simp only [boundaryTask]
    exact ⟨by rw [profileNotice_frame], fun q d => heard_profileNotice plan run.state q _ d⟩
  | walkUnit =>
    simp only [boundaryTask]
    split
    · exact keepsOps_refl _
    · exact keepsOps_walkUnit ..
  | offerCount n =>
    simp only [boundaryTask]
    split
    · exact keepsOps_countOffer ..
    · exact keepsOps_refl _
  | frameNotice p =>
    simp only [boundaryTask]
    exact ⟨by rw [frameNotice_frame], fun q d => heard_frameNotice run.state p q _ d⟩

/-- What the first piece of work adds to the cancellations. -/
theorem cancels_of_task {x : BoundaryTask} {run : BoundaryRun}
    (hd : ∀ j : Slot, x = .leaseVisit j.handle → ¬ commitDue s j → DueKept s run.state j) :
    (KeepsOps run.state (boundaryTask plan run x).state ∧ ∀ rest, evictions s (x :: rest) = evictions s rest) ∨
    ∃ j, (∀ rest, evictions s (x :: rest) = j :: evictions s rest) ∧
      (boundaryTask plan run x).state.opQueue = run.state.opQueue.filter (fun op => !opNames (s.refOf j) op) ∧
      ∀ q d, Heard q .opCancelled d.handle run.state (boundaryTask plan run x).state
        (((run.state.opQueue.filter (opNames (s.refOf j))).filter (intoSlot q d)).map cancelEntry) := by
  cases x with
  | profileNotice | walkUnit | offerCount | frameNotice => exact .inl ⟨keepsOps_task run nofun, fun _ => rfl⟩
  | leaseVisit n =>
    simp only [boundaryTask]
    cases hslot : slotOfHandle n with
    | none => exact .inl ⟨keepsOps_refl _, fun rest => List.filterMap_cons_none (by rw [evictionOf, hslot]; rfl)⟩
    | some j =>
      obtain rfl := slotOfHandle_eq_some.1 hslot
      by_cases he : evicted s j
      · have hkept := hd j rfl he.2
        obtain ⟨hq, hheard⟩ := visitWindow_evicts (hkept.1.2 he.1)
        rw [hkept.2 he.1] at hq hheard
        refine .inr ⟨j, fun rest => List.filterMap_cons_some ((evictionOf_leaseVisit s j).trans (if_pos he)), ?_⟩
        dsimp only
        rw [leaseVisit_evicts ha hv _ he]
        exact ⟨hq, hheard⟩
      · exact .inl ⟨leaseVisit_keepsOps ha (hd j rfl) he, fun rest => List.filterMap_cons_none ((evictionOf_leaseVisit s j).trans (if_neg he))⟩

/-- What pieces of work cancel: each eviction in its turn, and nothing else. -/
theorem cancels_of_tasks (l : List BoundaryTask) (run : BoundaryRun) (hn : ∀ j : Slot, l.count (.leaseVisit j.handle) ≤ 1)
    (hd : ∀ j : Slot, .leaseVisit j.handle ∈ l → ¬ commitDue s j → DueKept s run.state j) (q : Port) (d : Slot) :
    Heard q .opCancelled d.handle run.state (l.foldl (boundaryTask plan) run).state
      (((cancelChunks (fun j => opNames (s.refOf j)) (evictions s l) run.state.opQueue).filter (intoSlot q d)).map cancelEntry) := by
  induction l generalizing run with
  | nil => exact heard_of_notices rfl
  | cons x rest ih =>
    have hn' : ∀ j : Slot, rest.count (.leaseVisit j.handle) ≤ 1 := fun j => List.count_le_count_cons.trans (hn j)
    have hd' : ∀ j : Slot, .leaseVisit j.handle ∈ rest → ¬ commitDue s j → DueKept s (boundaryTask plan run x).state j := by
      intro j hj hnd
      refine dueKept_task (hd j (List.mem_cons_of_mem _ hj) hnd) (fun h => hnd ((ha j).1 h)) ?_
      rintro rfl
      have h1 := hn j
      have h2 := List.count_pos_iff.2 hj
      rw [List.count_cons_self] at h1
      omega
    have hrest := ih (boundaryTask plan run x) hn' hd'
    rw [List.foldl_cons]
    obtain ⟨⟨hq, hheard⟩, he⟩ | ⟨j, he, hq, hheard⟩ := cancels_of_task ha hv fun j hx => hd j (hx ▸ List.mem_cons_self)
    · rw [hq] at hrest
      rw [he]
      exact (hheard q d).append hrest
    · rw [hq] at hrest
      rw [he, cancelChunks, List.filter_append, List.map_append]
      exact (hheard q d).append hrest

end

end Sys2Proof.Machine
end

