-- ==== Sys2Proof/Proofs/BoundaryTells.lean ====
section
/-! What a boundary tells of a window whose commit it does not apply (R129 to R137, R147). -/

namespace Sys2Proof.Machine

open Sys2Proof.Safety

/-! ## The cancelled operations (R61) -/

theorem evicted_of_evictionOf {s : State} {x : BoundaryTask} {j : Slot} (h : evictionOf s x = some j) : evicted s j := by
  unfold evictionOf at h
  split at h
  · exact of_decide_eq_true (Option.filter_eq_some_iff.1 h).2
  · cases h

theorem mem_evictions {order : BoundaryOrder} {s : State} {j : Slot} : j ∈ evictions s (boundaryTasks order s) ↔ evicted s j := by
  refine List.mem_filterMap.trans ⟨fun ⟨x, _, hx⟩ => evicted_of_evictionOf hx, fun he => ?_⟩
  have hperm : (boundaryTasks order s).Perm (allTasks ((units s).map unitSlots).length) := arrange_perm ..
  refine ⟨.leaseVisit j.handle, hperm.mem_iff.2 (List.count_pos_iff.1 ?_), (evictionOf_leaseVisit s j).trans (if_pos he)⟩
  rw [(count_allTasks _ j).1]
  exact Nat.one_pos

theorem cancelledInto_eq (order : BoundaryOrder) (s : State) (q : Port) (d : Slot) :
    cancelledInto s q d = (s.opQueue.filter (intoSlot q d)).filter
      (fun op => (evictions s (boundaryTasks order s)).any (fun j => opNames (s.refOf j) op)) := by
  unfold cancelledInto
  rw [List.filter_filter]
  refine List.filter_congr fun op _ => ?_
  rw [Bool.eq_iff_iff, decide_eq_true_iff, Bool.and_eq_true, List.any_eq_true, intoSlot, decide_eq_true_iff]
  simp only [mem_evictions]

theorem boundaryStart_opQueue (s : State) : (boundaryStart s).opQueue = s.opQueue := by rw [boundaryStart, removeRetiring_frame]

theorem boundaryStart_notices (s : State) : (boundaryStart s).notices = s.notices := by rw [boundaryStart, removeRetiring_frame]

theorem boundaryStart_streams (s : State) : (boundaryStart s).streams = s.streams := by rw [boundaryStart, removeRetiring_frame]

theorem boundaryStart_timing (s : State) : (boundaryStart s).timing = timingBoundary s.timing := by rw [boundaryStart, removeRetiring_frame]

theorem frameBoundary_notices (order : BoundaryOrder) (s : State) : (frameBoundary order s).notices = (boundaryEnd order s).notices := by
  rw [frameBoundary_eq, settleEngine_frame]
  rfl

/-- What is heard of the boundary's work is heard of the boundary. -/
theorem Heard.boundary {order : BoundaryOrder} {s : State} {q : Port} {k : NoticeKind} {h : Nat} {m : List (Gen × BitVec 16)}
    (hm : Heard q k h (boundaryStart s) (boundaryEnd order s) m) : Heard q k h s (frameBoundary order s) m :=
  ((heard_of_notices (by rw [boundaryStart_notices])).append hm).silent (heard_of_notices (by rw [frameBoundary_notices]))

/-- An operation that names an evicted window: its issuer is told of every operation cancelled under its key, last of the one that the visits
came to last. -/
theorem boundary_tells_cancelled {order : BoundaryOrder} {s : State} (hc : CommitInv s) {q : Port} {d : Slot}
    (h : ∃ op ∈ s.opQueue, cancelledAt s op ∧ op.issuer = q ∧ op.dest.slot = d) :
    ∃ (before after : List EngineOp) (last : EngineOp), cancelledInto s q d = before ++ last :: after ∧
      (∀ x ∈ after, ∃ j : Slot, evicted s j ∧ opNames (s.refOf j) x = true ∧ opNames (s.refOf j) last = false) ∧
      toldKey s (frameBoundary order s) q .opCancelled (d.val + 1) (cancelledInto s q d).length last.dest.gen (last.opNumber.setWidth 16) := by
  have hperm : (boundaryTasks order s).Perm (allTasks ((units s).map unitSlots).length) := arrange_perm ..
  have hheard := (cancels_of_tasks (s := s) (plan := boundaryPlan order s) (fun j => mem_applied hc)
    (fun j hj => mem_visited.2 (leaseVisited_iff.2 ⟨.inr hj.1, hj.2.1⟩)) (boundaryTasks order s) ⟨boundaryStart s, (units s).map unitSlots⟩
    (fun j => (hperm.count_eq _).trans (count_allTasks _ j).1 |>.le) (fun j _ _ => dueKept_start s j) q d)
  rw [cancelChunks_filter, boundaryStart_opQueue] at hheard
  have hheard : Heard q .opCancelled d.handle s (frameBoundary order s) _ := Heard.boundary hheard
  obtain ⟨op, hop, ⟨j, hj, hnames⟩, hi, hd⟩ := h
  obtain ⟨before, after, last, hsplit, hafter, hlast⟩ := last_cancelChunks (fun j => opNames (s.refOf j))
    (js := evictions s (boundaryTasks order s)) (l := s.opQueue.filter (intoSlot q d))
    ⟨op, List.mem_filter.2 ⟨hop, decide_eq_true ⟨hi, hd⟩⟩, List.any_eq_true.2 ⟨j, mem_evictions.2 hj, hnames⟩⟩
  rw [← cancelledInto_eq] at hsplit
  refine ⟨before, after, last, hsplit, fun x hx => ?_, ?_⟩
  · obtain ⟨k, hk, hkx⟩ := hafter x hx
    exact ⟨k, mem_evictions.1 hk, hkx⟩
  · have htold := hheard.told last.dest.gen (last.opNumber.setWidth 16) (by rw [List.getLast?_map, hlast]; rfl)
    rwa [List.length_map, length_cancelChunks, ← cancelledInto_eq] at htold

/-! ## What is heard of each outcome -/

theorem heardOf_ownerAndA (o : Port) (k : NoticeKind) (i : Slot) (g : Gen) (d : BitVec 16) :
    heardOf o k i (ownerAndARaisings (some o) k ⟨i, g⟩ d) = [(g, d)] ∧
      heardOf .A k i (ownerAndARaisings (some o) k ⟨i, g⟩ d) = [(g, d)] := by
  rw [ownerAndARaisings_some]
  cases o <;> simp [heardOf]

theorem heardOf_owner (o : Port) (k : NoticeKind) (i : Slot) (g : Gen) (d : BitVec 16) :
    heardOf o k i (ownerRaising (some o) k ⟨i, g⟩ d) = [(g, d)] := by
  simp [heardOf, ownerRaising_some]

section
variable {t : State} {i : Slot} {o : Port}

theorem heardOf_lapse (ho : (t.win i).owner = some o) (h : leaseOutcome (t.win i) = .lapses) :
    heardOf o .leaseLapsed i (visitRaisings t i) = [((t.win i).gen, detail t.grace)] ∧
      heardOf .A .leaseLapsed i (visitRaisings t i) = [((t.win i).gen, detail t.grace)] := by
  rw [visitRaisings, h, ho]
  exact heardOf_ownerAndA ..

theorem heardOf_renewal (ho : (t.win i).owner = some o) (h : leaseOutcome (t.win i) = .renewed) (hs : (t.win i).state = .lapsed) :
    heardOf o .leaseRestored i (visitRaisings t i) = [((t.win i).gen, restoredByRenewal)] := by
  rw [visitRaisings, h, ho]
  dsimp only
  rw [if_pos hs]
  exact heardOf_owner ..

theorem heardOf_evicted (ho : (t.win i).owner = some o) (h : leaseOutcome (t.win i) = .evicted) :
    heardOf o .windowEvicted i (visitRaisings t i) = [((t.win i).gen, low16 t.timing.frameCounter)] ∧
      heardOf .A .windowEvicted i (visitRaisings t i) = [((t.win i).gen, low16 t.timing.frameCounter)] := by
  rw [visitRaisings, h]
  dsimp only
  rw [(heardOf_eviction t i o i).1, (heardOf_eviction t i .A i).1, retireOwnRaisings, ho]
  exact heardOf_ownerAndA ..

theorem heardOf_closed (ho : (t.win i).owner = some o) (h : leaseOutcome (t.win i) = .evicted)
    (hs : streamInto t .A (t.refOf i) = true ∨ streamInto t .B (t.refOf i) = true) :
    heardOf o .streamClosed i (visitRaisings t i) = [((t.win i).gen, 0x0002)] := by
  rw [visitRaisings, h]
  dsimp only
  rw [(heardOf_eviction t i o i).2.2.1, retireStreamRaisings, ho, if_pos (by simpa [RetireCause.ownAct] using hs)]
  exact heardOf_owner ..

theorem heardOf_withdrawn {v : Offer} (hv : (t.win i).offer = some v) (h : leaseOutcome (t.win i) = .evicted) :
    heardOf v.target .offerWithdrawn i (visitRaisings t i) = [((t.win i).gen, 0x0002)] := by
  rw [visitRaisings, h]
  dsimp only
  rw [(heardOf_eviction t i v.target i).2.2.2, retireOfferRaisings, hv]
  simp [heardOf, withdrawnByRetirement]

theorem heardOf_expired {v : Offer} (hv : (t.win i).offer = some v) (h1 : v.frames ≤ 1) (q : Port) :
    heardOf q .offerExpired i (offerRaisings t i) = [((t.win i).gen, low16 t.timing.frameCounter)] := by
  rw [offerRaisings, hv]
  dsimp only
  rw [if_pos h1]
  cases q <;> simp [heardOf]

end

/-! ## The counts of a boundary (O46) -/

section
variable {order : BoundaryOrder} {s t u : State} {i : Slot} (h : Counts s (boundaryStart s) (boundaryEnd order s) i t u)

include h

/-- At the visit the record is the old one but for its offer. -/
theorem Counts.visitWin : ∃ v, t.win i = { s.win i with offer := v } := by
  obtain ⟨ht, -⟩ | ⟨-, ht⟩ := h.records
  · exact ⟨(s.win i).offer, ht⟩
  · exact ⟨_, ht⟩

theorem Counts.visitRef : t.refOf i = s.refOf i := by
  obtain ⟨v, hv⟩ := h.visitWin
  rw [State.refOf, hv]
  rfl

theorem Counts.visitTiming : t.grace = s.grace ∧ low16 t.timing.frameCounter = (s.timing.frameCounter + 1).setWidth 16 := by
  obtain ⟨-, -, -, -, hgrace, htiming, -⟩ := State.fields_of_steady h.steadyVisit
  rw [hgrace, htiming, boundaryStart_grace, boundaryStart_timing]
  exact ⟨rfl, rfl⟩

theorem Counts.countTiming : low16 u.timing.frameCounter = (s.timing.frameCounter + 1).setWidth 16 := by
  obtain ⟨-, -, -, -, -, htiming, -⟩ := State.fields_of_steady h.steadyCount
  rw [htiming, boundaryStart_timing]
  rfl

theorem Counts.countGen : (u.win i).gen = (s.win i).gen := by
  obtain ⟨-, hu⟩ | ⟨hu, -⟩ := h.records
  · rw [hu, visitedWindow_gen]
  · rw [hu]

/-- What the visit raises is told. -/
theorem Counts.tellsVisit {q : Port} {k : NoticeKind} {d : BitVec 16} (hk : k ∈ visitKinds) (hne : k ≠ .offerExpired)
    (hd : heardOf q k i (visitRaisings t i) = [((t.win i).gen, d)]) : tells s (frameBoundary order s) q k (s.refOf i) d := by
  have := h.heardVisit q k hk hne
  rw [hd] at this
  rw [← h.visitRef]
  exact (Heard.boundary this).tells (r := t.refOf i)

/-- What the count raises is told. -/
theorem Counts.tellsExpired {q : Port} {v : Offer} (hv : (u.win i).offer = some v) (h1 : v.frames ≤ 1) :
    tells s (frameBoundary order s) q .offerExpired (s.refOf i) ((s.timing.frameCounter + 1).setWidth 16) := by
  have := h.heardCount q
  rw [heardOf_expired hv h1, h.countTiming, h.countGen] at this
  exact (Heard.boundary this).tells (r := s.refOf i)

/-- A window due for eviction tells the target of its offer, or both ports where the count came first (R16, R147). -/
theorem Counts.offer_of_evicted (he : leaseOutcome (s.win i) = .evicted) {v : Offer} (hv : (s.win i).offer = some v) :
    tells s (frameBoundary order s) v.target .offerWithdrawn (s.refOf i) 0x0002 ∨
      (v.frames ≤ 1 ∧ ∀ q : Port, tells s (frameBoundary order s) q .offerExpired (s.refOf i) ((s.timing.frameCounter + 1).setWidth 16)) := by
  have withdrawn {x : Offer} (hx : (t.win i).offer = some x) (ho : leaseOutcome (t.win i) = .evicted) :
      tells s (frameBoundary order s) x.target .offerWithdrawn (s.refOf i) 0x0002 :=
    h.tellsVisit (by decide) (by decide) (heardOf_withdrawn hx ho)
  obtain ⟨ht, -⟩ | ⟨hu, ht⟩ := h.records
  · exact .inl (withdrawn (by rw [ht]; exact hv) (by rw [ht]; exact he))
  · by_cases h1 : v.frames ≤ 1
    · exact .inr ⟨h1, fun q => h.tellsExpired (by rw [hu]; exact hv) h1⟩
    · have hx : (t.win i).offer = some { v with frames := v.frames - 1 } := by
        rw [ht, hv]
        exact if_neg h1
      exact .inl (withdrawn (x := { v with frames := v.frames - 1 }) hx (by rw [ht]; exact he))

theorem Counts.offer_of_expired (he : leaseOutcome (s.win i) ≠ .evicted) {v : Offer} (hv : (s.win i).offer = some v) (h1 : v.frames = 1)
    (q : Port) : tells s (frameBoundary order s) q .offerExpired (s.refOf i) ((s.timing.frameCounter + 1).setWidth 16) := by
  have hu : (u.win i).offer = some v := by
    obtain ⟨-, hu⟩ | ⟨hu, -⟩ := h.records
    · rw [hu, visitedWindow_offer _ _ he, hv]
    · rw [hu, hv]
  exact h.tellsExpired hu h1.le

end

theorem leaseOutcome_of_renewal {w : Window} (hs : w.state = .lapsed) (hL : 0 < w.active.leaseLength) (hr : w.renewPending = true) :
    leaseOutcome w = .renewed := by
  simp [leaseOutcome, leaseVisited, permitShown, hs, hL, hr]

/-- Settles O46: the window is visited once and its offer counted once, in one order or the other, and the rest of the boundary's work does not
touch it; the operations that evictions cancel are told of chunk by chunk. -/
theorem boundaryCountsLeasesAndOffers : Obligations.BoundaryCountsLeasesAndOffers := by
  intro order s i hc hl hd
  obtain ⟨t, u, h⟩ := boundary_counts (order := order) hc hl hd
  obtain ⟨v, hv⟩ := h.visitWin
  have hout : leaseOutcome (t.win i) = leaseOutcome (s.win i) := by rw [hv, leaseOutcome_setOffer]
  have howner : (t.win i).owner = (s.win i).owner := by rw [hv]
  have hstate : (t.win i).state = (s.win i).state := by rw [hv]
  obtain ⟨hgrace, htime⟩ := h.visitTiming
  have hstream (q : Port) : streamInto t q (t.refOf i) = streamInto s q (s.refOf i) := by
    rw [h.visitRef, h.streams, streamInto, boundaryStart_streams, streamInto]
  have hwin : (frameBoundary order s).win i = countedWindow s.grace (s.win i) := by
    refine Eq.trans (State.win_congr ?_ i) h.record
    rw [frameBoundary_eq, settleEngine_frame]
    rfl
  refine ⟨frameBoundary order s, rfl, hwin, fun o ho hL => ⟨fun hs hr h1 => ?_, fun hs hr => ?_, fun he => ?_⟩, fun he => ⟨?_, ?_⟩, ?_⟩
  · have hlapse := hout.trans (leaseOutcome_of_lapse hs hL hr h1)
    obtain ⟨hown, hA⟩ := heardOf_lapse (howner.trans ho) hlapse
    rw [hgrace] at hown hA
    exact ⟨h.tellsVisit (by decide) (by decide) hown, h.tellsVisit (by decide) (by decide) hA⟩
  · exact h.tellsVisit (by decide) (by decide)
      (heardOf_renewal (howner.trans ho) (hout.trans (leaseOutcome_of_renewal hs hL hr)) (hstate.trans hs))
  · have hevicted := hout.trans (leaseOutcome_of_eviction he)
    obtain ⟨hown, hA⟩ := heardOf_evicted (howner.trans ho) hevicted
    rw [htime] at hown hA
    refine ⟨h.tellsVisit (by decide) (by decide) hown, h.tellsVisit (by decide) (by decide) hA, fun hs => ?_⟩
    exact h.tellsVisit (by decide) (by decide) (heardOf_closed (howner.trans ho) hevicted (by rw [hstream, hstream]; exact hs))
  · intro op hop hnames
    exact boundary_tells_cancelled hc ⟨op, hop, ⟨i, ⟨he, hd⟩, hnames⟩, rfl, rfl⟩
  · exact fun v hv => h.offer_of_evicted (leaseOutcome_of_eviction he) hv
  · exact fun v hv h1 he q => h.offer_of_expired (fun ho => he (leaseOutcome_evicted ho)) hv h1 q

end Sys2Proof.Machine
end

