-- ==== Sys2Proof/Proofs/SurfaceWrites.lean ====
section
/-! What writes into a surface make of the frame store: which bytes they list, that the surfaces of the windows share no block, and that pixels
inside a surface leave its padding alone (R23, R24, R25). -/

namespace Sys2Proof.Machine

open Sys2Proof.Safety

/-! ## The bytes listed after a write -/

theorem FrameStore.undefinedBlocks_write (f : FrameStore) (a : Address) (v : Byte) :
    (f.write a v).undefinedBlocks = f.undefinedBlocks := by
  unfold FrameStore.write
  split <;> rfl

/-- A write lists no byte but its own. -/
theorem FrameStore.mem_cells_write {f : FrameStore} {a : Address} {v : Byte} {c : Host.Cell} (h : c ∈ (f.write a v).cells) :
    c ∈ f.cells ∨ c.1 = a.val := by
  unfold FrameStore.write at h
  split at h
  · exact .inl (List.mem_filter.1 h).1
  · exact (mem_insertCell h).symm.imp id (congrArg Prod.fst)

/-- A frame store comes from another by writes within these blocks: nothing else is newly listed, and no block is scrubbed. -/
structure WrittenWithin (bl : List Block) (f g : FrameStore) : Prop where
  undefinedBlocks : g.undefinedBlocks = f.undefinedBlocks
  cells : ∀ c ∈ g.cells, c ∈ f.cells ∨ ∃ b ∈ bl, c.1 / 2048 = b.val

theorem WrittenWithin.refl (bl : List Block) (f : FrameStore) : WrittenWithin bl f f := ⟨rfl, fun _ hc => .inl hc⟩

theorem WrittenWithin.trans {bl : List Block} {f g k : FrameStore} (h : WrittenWithin bl f g) (h' : WrittenWithin bl g k) :
    WrittenWithin bl f k :=
  ⟨h'.undefinedBlocks.trans h.undefinedBlocks, fun c hc => (h'.cells c hc).elim (h.cells c) .inr⟩

theorem writtenWithin_writeSurface (f : FrameStore) (bl : List Block) (o : Nat) (v : Byte) :
    WrittenWithin bl f (writeSurface f bl o v) := by
  unfold writeSurface surfaceAddress
  cases hb : bl[o / 2048]? with
  | none => exact .refl bl f
  | some b =>
    refine ⟨f.undefinedBlocks_write _ v, fun c hc => (FrameStore.mem_cells_write hc).imp_right fun ha => ?_⟩
    exact ⟨b, List.mem_of_getElem? hb, by rw [ha, byteAddress_block]⟩

theorem writtenWithin_writePixel (f : FrameStore) (stride : Nat) (bl : List Block) (c r : Nat) (p : Pixel) :
    WrittenWithin bl f (writePixel f stride bl c r p) := by
  cases p with
  | c16 v => exact (writtenWithin_writeSurface ..).trans (writtenWithin_writeSurface ..)
  | c24 v => exact ((writtenWithin_writeSurface ..).trans (writtenWithin_writeSurface ..)).trans (writtenWithin_writeSurface ..)
  | m1 b => exact writtenWithin_writeSurface ..

theorem writtenWithin_writeAll (w : Window) (id : SurfaceId) (ws : List PixelWrite) (f : FrameStore) :
    WrittenWithin (w.surface id) f (writeAll w id ws f) :=
  foldl_invariant (WrittenWithin (w.surface id) f) _ (fun _ _ h => h.trans (writtenWithin_writePixel ..)) ws f (.refl _ f)

/-- A block outside the blocks written stays zero (R26). -/
theorem WrittenWithin.blockZero {bl : List Block} {f g : FrameStore} (h : WrittenWithin bl f g) {b : Block} (hb : b ∉ bl)
    (hz : blockZero f b) : blockZero g b := by
  obtain ⟨hu, hc⟩ := hz
  refine ⟨h.undefinedBlocks ▸ hu, fun c hmem he => ?_⟩
  obtain hmem | ⟨x, hx, hxe⟩ := h.cells c hmem
  · exact hc c hmem he
  · exact hb (Fin.ext (hxe.symm.trans he) ▸ hx)

/-- Every byte of a zero block reads 0 (R26). -/
theorem read_of_blockZero {f : FrameStore} {b : Block} (h : blockZero f b) {a : Address} (ha : a.val / 2048 = b.val) : f.read a = 0 := by
  obtain ⟨hu, hc⟩ := h
  have hdef : f.isUndefined a.val = false := by
    rw [FrameStore.isUndefined, List.any_eq_false]
    intro x hx he
    exact hu (Fin.ext ((beq_iff_eq.1 he).trans ha) ▸ hx)
  have hlook : lookupCell a.val f.cells = none := by
    have hall : f.cells.filter (fun c => decide (c.1 ≠ a.val)) = f.cells :=
      List.filter_eq_self.2 fun c hmem => decide_eq_true fun he => hc c hmem (he ▸ ha)
    have hf := lookupCell_filter (fun x => decide (x ≠ a.val)) a.val f.cells
    simp only [ne_eq, not_true_eq_false, decide_false, Bool.false_eq_true, if_false] at hf
    rwa [show f.cells.filter (fun c => decide (¬ c.1 = a.val)) = f.cells from hall] at hf
  rw [FrameStore.read, hlook, Option.getD_none, FrameStore.unlisted, hdef]
  rfl

/-! ## Two stores that agree on a surface -/

theorem readSurface_congr {f g : FrameStore} {bl : List Block} (h : ∀ a : Address, ∀ b ∈ bl, a.val / 2048 = b.val → g.read a = f.read a)
    (o : Nat) : readSurface g bl o = readSurface f bl o := by
  unfold readSurface surfaceAddress
  cases hb : bl[o / 2048]? with
  | none => rfl
  | some b => exact h _ b (List.mem_of_getElem? hb) (byteAddress_block b o)

theorem readPixel_congr {f g : FrameStore} {bl : List Block} (h : ∀ o, readSurface g bl o = readSurface f bl o) (fmt : Format)
    (stride c r : Nat) : readPixel g fmt stride bl c r = readPixel f fmt stride bl c r := by
  cases fmt <;> simp only [readPixel, h]

/-- A surface of zero blocks reads 0 throughout. -/
theorem readSurface_of_zero {f : FrameStore} {bl : List Block} (h : ∀ b ∈ bl, blockZero f b) (o : Nat) : readSurface f bl o = 0 := by
  unfold readSurface surfaceAddress
  cases hb : bl[o / 2048]? with
  | none => rfl
  | some b => exact read_of_blockZero (h b (List.mem_of_getElem? hb)) (byteAddress_block b o)

theorem mem_blocks_of_surface {w : Window} {id : SurfaceId} {b : Block} (h : b ∈ w.surface id) : b ∈ w.blocks := by
  unfold Window.surface at h
  unfold Window.blocks
  split at h
  · exact List.mem_append_left _ h
  · exact List.mem_append_right _ h

theorem mem_windowBlocks {s : State} {b : Block} : b ∈ windowBlocks s ↔ ∃ i : Slot, b ∈ (s.win i).blocks := by
  simp [windowBlocks, mem_allSlots]

/-- In a sound pool no block is in two places (R23). -/
theorem poolInv_nodup {s : State} (h : PoolInv s) : (s.freeSet ++ s.scrubList ++ windowBlocks s).Nodup :=
  h.2.1.nodup_iff.2 (List.nodup_finRange 192)

theorem not_mem_windowBlocks_of_free {s : State} (h : PoolInv s) {b : Block} (hb : b ∈ s.freeSet) : b ∉ windowBlocks s := fun hw =>
  (List.nodup_append.1 (poolInv_nodup h)).2.2 b (List.mem_append_left _ hb) b hw rfl

/-- Two surfaces share no block (R23). -/
theorem surface_disjoint {s : State} (h : PoolInv s) {i j : Slot} {id id' : SurfaceId} (hne : ¬ (i = j ∧ id = id')) {b : Block}
    (hb : b ∈ (s.win i).surface id) : b ∉ (s.win j).surface id' := by
  intro hb'
  obtain ⟨hself, hpair⟩ := List.nodup_flatMap.1 (List.nodup_append.1 (poolInv_nodup h)).2.1
  by_cases hij : i = j
  · subst hij
    have hapart : ∀ x ∈ (s.win i).surface0, ∀ y ∈ (s.win i).surface1.getD [], x ≠ y := (List.nodup_append.1 (hself i (mem_allSlots i))).2.2
    have hid : id ≠ id' := fun e => hne ⟨rfl, e⟩
    have other : ∀ x y : SurfaceId, x ≠ y → x ≠ 0 → y = 0 := by decide
    unfold Window.surface at hb hb'
    split at hb
    · next h0 => exact hapart b hb b (by rwa [if_neg fun e => hid (h0.trans e.symm)] at hb') rfl
    · next h0 => exact hapart b (by rwa [if_pos (other id id' hid h0)] at hb') b hb rfl
  · have : Std.Symm (Function.onFun List.Disjoint fun k => (s.win k).blocks) := ⟨fun _ _ hd => hd.symm⟩
    exact hpair.forall (mem_allSlots i) (mem_allSlots j) hij (mem_blocks_of_surface hb) (mem_blocks_of_surface hb')

/-- Writes into one surface leave every other surface (R23). -/
theorem readSurface_writeAll_elsewhere {s : State} (h : PoolInv s) {i j : Slot} {id id' : SurfaceId} (hne : ¬ (i = j ∧ id = id'))
    (ws : List PixelWrite) (f : FrameStore) (o : Nat) :
    readSurface (writeAll (s.win j) id' ws f) ((s.win i).surface id) o = readSurface f ((s.win i).surface id) o :=
  readSurface_congr (fun _ _ hb ha => read_writeAll_outside
    (fun _ hb' he => surface_disjoint h hne hb (Fin.ext (ha.symm.trans he) ▸ hb')) ws f) o

/-! ## Padding (R25) -/

/-- The bytes of one surface past its end and the unused bits of an M1 row are zero (R25). -/
def PaddingZero (f : FrameStore) (w : Window) (id : SurfaceId) : Prop :=
  (∀ o : Nat, w.stride * w.height ≤ o → readSurface f (w.surface id) o = 0) ∧
    (w.format = .m1 → ∀ r c : Nat, r < w.height → w.width ≤ c → c < 8 * w.stride →
      (readSurface f (w.surface id) (r * w.stride + c / 8)).getLsbD (7 - c % 8) = false)

theorem paddingInv_iff {s : State} : PaddingInv s ↔ ∀ i id, PaddingZero s.store (s.win i) id := Iff.rfl

theorem paddingZero_of_zero {f : FrameStore} {w : Window} {id : SurfaceId} (h : ∀ o, readSurface f (w.surface id) o = 0) :
    PaddingZero f w id := by
  refine ⟨fun o _ => h o, fun _ r c _ _ _ => ?_⟩
  rw [h]
  exact BitVec.getLsbD_zero

/-- The padding is told by the layout and by what the surface reads. -/
theorem paddingZero_congr {f g : FrameStore} {w v : Window} {id : SurfaceId} (hl : v.layout = w.layout)
    (h : ∀ o, readSurface g (w.surface id) o = readSurface f (w.surface id) o) (hp : PaddingZero f w id) : PaddingZero g v id := by
  obtain ⟨hfmt, hwidth, hheight, -, -⟩ := Window.layout_eq hl
  unfold PaddingZero
  simp only [hfmt, hwidth, hheight, Window.stride_of_layout hl, Window.surface_of_layout hl, h]
  exact hp

/-- Every byte of a pixel of a window stands before the surface's end (R24). -/
theorem pixelLastOffset_lt_size {fmt : Format} {W H c r : Nat} (hc : c < W) (hr : r < H) :
    pixelLastOffset fmt (fmt.stride W) c r < fmt.stride W * H := by
  cases fmt with
  | c16 =>
    calc r * (W * 2) + 2 * c + 1 < 2 * (r * W + c + 1) := by ring_nf; omega
      _ ≤ 2 * (H * W) := Nat.mul_le_mul_left 2 (place_lt hc hr)
      _ = W * 2 * H := by ring
  | c24 =>
    calc r * (W * 3) + 3 * c + 2 < 3 * (r * W + c + 1) := by ring_nf; omega
      _ ≤ 3 * (H * W) := Nat.mul_le_mul_left 3 (place_lt hc hr)
      _ = W * 3 * H := by ring
  | m1 =>
    calc r * ((W + 7) / 8) + c / 8 < H * ((W + 7) / 8) := place_lt (by omega) hr
      _ = (W + 7) / 8 * H := Nat.mul_comm ..

/-- A pixel's write leaves every byte behind the pixel (R24). -/
theorem readSurface_writePixel_past (f : FrameStore) {stride : Nat} {bl : List Block} (hn : bl.Nodup) {c r o : Nat} {p : Pixel}
    (h : pixelLastOffset (pixelFormat p) stride c r < o) : readSurface (writePixel f stride bl c r p) bl o = readSurface f bl o := by
  cases p with
  | c16 v =>
    have h : pixelOffset .c16 stride c r + 1 < o := h
    simp only [writePixel]
    rw [readSurface_writeSurface_of_ne _ hn _ (by omega), readSurface_writeSurface_of_ne _ hn _ (by omega)]
  | c24 v =>
    have h : pixelOffset .c24 stride c r + 2 < o := h
    simp only [writePixel]
    rw [readSurface_writeSurface_of_ne _ hn _ (by omega), readSurface_writeSurface_of_ne _ hn _ (by omega),
      readSurface_writeSurface_of_ne _ hn _ (by omega)]
  | m1 b =>
    have h : pixelOffset .m1 stride c r < o := h
    exact readSurface_writeSurface_of_ne _ hn _ (by omega)

/-- An M1 pixel's write leaves every other bit of its row (R48). -/
theorem rowBit_writePixel_of_ne (f : FrameStore) {stride : Nat} {bl : List Block} (hn : bl.Nodup) {c r c' r' : Nat} (b : Bool)
    (hc : c < 8 * stride) (hc' : c' < 8 * stride) (hne : c' ≠ c) :
    (readSurface (writePixel f stride bl c r (.m1 b)) bl (r' * stride + c' / 8)).getLsbD (7 - c' % 8) =
      (readSurface f bl (r' * stride + c' / 8)).getLsbD (7 - c' % 8) := by
  simp only [writePixel, pixelOffset]
  by_cases ho : r' * stride + c' / 8 = r * stride + c / 8
  · have hplace := place_inj (W := stride) (c := c' / 8) (c' := c / 8) (by omega) (by omega) ho
    have hbit : ¬ c' % 8 = c % 8 := by omega
    rw [ho]
    by_cases hfit : (r * stride + c / 8) / 2048 < bl.length
    · rw [readSurface_writeSurface_same _ _ hfit, setPixelBit_getLsbD, if_neg hbit]
    · have hnone : surfaceAddress bl (r * stride + c / 8) = none := by
        simp [surfaceAddress, List.getElem?_eq_none (Nat.le_of_not_lt hfit)]
      simp only [writeSurface, hnone]
  · rw [readSurface_writeSurface_of_ne _ hn _ ho]

/-- A pixel written inside a surface leaves the surface's padding zero (R25, R48). -/
theorem paddingZero_writePixel {f : FrameStore} {w : Window} {id : SurfaceId} (hn : (w.surface id).Nodup) {c r : Nat} {p : Pixel}
    (hp : pixelFormat p = w.format) (hc : c < w.width) (hr : r < w.height) (h : PaddingZero f w id) :
    PaddingZero (writePixel f w.stride (w.surface id) c r p) w id := by
  obtain ⟨hend, hbits⟩ := h
  refine ⟨fun o ho => ?_, fun hm r' c' hr' hc' hc8 => ?_⟩
  · rw [readSurface_writePixel_past f hn (Nat.lt_of_lt_of_le (hp ▸ pixelLastOffset_lt_size hc hr) ho)]
    exact hend o ho
  · obtain ⟨b, rfl⟩ : ∃ b, p = .m1 b := by
      cases p with
      | m1 b => exact ⟨b, rfl⟩
      | c16 | c24 => rw [hm] at hp; cases hp
    rw [rowBit_writePixel_of_ne f hn b (by omega) hc8 (by omega)]
    exact hbits hm r' c' hr' hc' hc8

/-- A write carries a pixel of a window's format to a place of the window. -/
def InPlace (w : Window) (p : PixelWrite) : Prop := pixelFormat p.value = w.format ∧ p.col < w.width ∧ p.row < w.height

theorem paddingZero_writeAll {w : Window} {id : SurfaceId} (hn : (w.surface id).Nodup) {ws : List PixelWrite}
    (hw : ∀ p ∈ ws, InPlace w p) {f : FrameStore} (h : PaddingZero f w id) : PaddingZero (writeAll w id ws f) w id := by
  induction ws generalizing f with
  | nil => exact h
  | cons p rest ih =>
    obtain ⟨hfmt, hcol, hrow⟩ := hw p List.mem_cons_self
    exact ih (fun q hq => hw q (List.mem_cons_of_mem _ hq)) (paddingZero_writePixel hn hfmt hcol hrow h)

end Sys2Proof.Machine
end

