-- ==== Sys2Proof/Proofs/FrameStoreSound.lean ====
section
/-! The frame store over a step: what an event leaves of the free blocks and of the padding of surfaces, whether it draws, allocates, scrubs or
resets (R25, R26, R28, R32). -/

namespace Sys2Proof.Machine

open Sys2Proof.Safety

/-! ## Events that neither allocate nor scrub -/

/-- The frame store is as it was, or the operation in flight has made writes into its destination. With sound shapes these are writes of the
operation, under the destination's layout (R55, R57, R59, R61). -/
def Drawn (s u : State) : Prop :=
  u.store = s.store ∨ ∃ (op : EngineOp) (w : Window) (made : List PixelWrite), inFlight s = some op ∧
    u.store = writeAll w op.destId made s.store ∧ (∀ b ∈ w.surface op.destId, b ∈ (s.win op.dest.slot).surface op.destId) ∧
    (ShapeInv s → w.layout = (s.win op.dest.slot).layout ∧ ∀ p ∈ made, p ∈ opWrites s op)

/-- An event keeps the free set, each window's layout or takes its blocks, and draws at most (R25, R26, R32). -/
structure MemoryKept (s u : State) : Prop where
  freeSet : u.freeSet = s.freeSet
  layout : ∀ j, (u.win j).layout = (s.win j).layout ∨ (u.win j).blocks = []
  drawn : Drawn s u

theorem Window.blocks_of_layout {v w : Window} (h : v.layout = w.layout) : v.blocks = w.blocks := by
  obtain ⟨-, -, -, h0, h1⟩ := Window.layout_eq h
  simp [Window.blocks, h0, h1]

theorem surface_of_blocks_nil {w : Window} (h : w.blocks = []) (id : SurfaceId) : w.surface id = [] :=
  List.eq_nil_iff_forall_not_mem.2 fun _ hb => List.not_mem_nil (h ▸ mem_blocks_of_surface hb)

/-- What an operation abandoned in flight has written are writes of the operation (R55, R57, R59). -/
theorem mem_opWrites_of_abandoned {s : State} (h : ShapeInv s) {op : EngineOp} (hop : op ∈ s.opQueue) (n : Nat) :
    ∀ p ∈ abandonedWrites n op (opWrites s op), p ∈ opWrites s op := fun _ hp =>
  have hbody := (h.2.2 op hop).2
  (interrupted_sublist (interrupted_abandonedWrites n op (opWrites_nodup hbody) (opWrites_length s op ▸ pixelCount_pos hbody))).subset hp

theorem EngineStop.drawn {s u : State} {hit : EngineOp → Prop} (h : EngineStop s u hit) : Drawn s u := by
  obtain ⟨-, hs, -⟩ | ⟨op, w, made, hf, -, -, hs, hsub, hcur⟩ := h
  · exact .inl hs
  · refine .inr ⟨op, w, made, hf, hs, hsub, fun hshape => ?_⟩
    have hop := mem_opQueue_of_inFlight hf
    obtain ⟨hl, n, rfl⟩ := hcur (opCurrent_of_shapes hshape hop)
    exact ⟨hl, mem_opWrites_of_abandoned hshape hop n⟩

section
variable {s u v : State}

theorem MemoryKept.congr (h : MemoryKept s u) (hf : v.freeSet = u.freeSet) (hw : v.windows = u.windows) (hs : v.store = u.store) :
    MemoryKept s v where
  freeSet := hf.trans h.freeSet
  layout j := State.win_congr hw j ▸ h.layout j
  drawn := by
    unfold Drawn
    rw [hs]
    exact h.drawn

theorem MemoryKept.settle (h : MemoryKept s u) : MemoryKept s (settleEngine u) := by
  rw [settleEngine_frame]
  exact h.congr rfl rfl rfl

theorem memoryKept_of_windows (hw : u.windows = s.windows) (hf : u.freeSet = s.freeSet) (hs : u.store = s.store) : MemoryKept s u :=
  ⟨hf, fun j => .inl (by rw [State.win_congr hw]), .inl hs⟩

theorem memoryKept_of_set {i : Slot} {w : Window} (hw : u.windows = s.windows.set i w) (hl : w.layout = (s.win i).layout ∨ w.blocks = [])
    (hf : u.freeSet = s.freeSet) (hd : Drawn s u) : MemoryKept s u where
  freeSet := hf
  layout j := by
    rw [State.win_of_set hw]
    split
    · next hj => exact hj ▸ hl
    · exact .inl rfl
  drawn := hd

end

theorem retiredWindow_layout (w : Window) : (retiredWindow w).layout = w.layout ∨ (retiredWindow w).blocks = [] := by
  unfold retiredWindow
  split
  · exact .inr rfl
  · exact .inl rfl

theorem memoryKept_retire (s : State) (i : Slot) (c : RetireCause) : MemoryKept s (retireWindow s i c) := by
  obtain ⟨hs, -, ha⟩ := retireWindow_engine s i c
  exact memoryKept_of_set (retireWindow_windows s i c) (retiredWindow_layout _) (State.fields_of_steady (retireWindow_steady s i c)).1
    (engineStop_of_stopped hs ha).drawn

theorem memoryKept_cancel (s : State) (hit : EngineOp → Bool) : MemoryKept s (cancelOps s hit) where
  freeSet := by rw [cancelOps_frame]
  layout j := .inl (by rw [cancelOps_frame]; rfl)
  drawn := (engineStop_of_stopped (hit := hit) (by rw [cancelOps_eq]; rfl) (by rw [cancelOps_eq]; rfl)).drawn

theorem memoryKept_detach (s : State) (p : Port) : MemoryKept s (detachPort s p) := by
  obtain ⟨-, ⟨hs, ha⟩, hf, -⟩ := detachedState_rest s p
  rw [detachPort_eq_settle]
  refine MemoryKept.settle ⟨hf.trans (State.fields_of_steady (detachEngine_steady s p)).1, fun j => ?_,
    (engineStop_of_fields (detachEngine_engine s p) hs ha).drawn⟩
  rw [detachedState_win]
  split
  · exact retiredWindow_layout _
  · exact .inl rfl

theorem memoryKept_restart {s : State} (h : PoolInv s) : MemoryKept s (restartDevice s) := by
  rw [restartDevice_eq_settle]
  refine MemoryKept.settle ⟨rfl, fun j => .inr ?_, (engineStop_of_fields (engineStop_restart s) rfl rfl).drawn⟩
  obtain ⟨-, -, hfree, hnone, -⟩ := h
  rw [State.win_of_map (f := restartedWindow) rfl, restartedWindow]
  split
  · next hs => exact hnone j (mem_allSlots j) (hfree j (mem_allSlots j) hs)
  · rfl

theorem memoryKept_complete {s : State} {op : EngineOp} (h : inFlight s = some op) : MemoryKept s (completeOp s op) := by
  rw [completeOp_frame]
  exact ⟨rfl, fun _ => .inl rfl, .inr ⟨op, _, _, h, rfl, fun _ hb => hb, fun _ => ⟨rfl, fun _ hp => hp⟩⟩⟩

/-! ## The work of a boundary -/

/-- The work of a boundary keeps every layout, and it abandons the operation in flight or leaves the store (R104, R137). -/
structure WorkKept (b u : State) : Prop where
  layout : ∀ j, (u.win j).layout = (b.win j).layout
  engine : (u.store = b.store ∧ ∀ op, inFlight u = some op → inFlight b = some op) ∨
    (inFlight u = none ∧ ∃ op n, inFlight b = some op ∧ u.store = storeAfter b op (abandonedWrites n op (opWrites b op)))

section
variable {b u v : State}

theorem WorkKept.trans (h : WorkKept b u) (h' : WorkKept u v) : WorkKept b v where
  layout j := (h'.layout j).trans (h.layout j)
  engine := by
    obtain ⟨hs, hf⟩ | ⟨hn, op, n, hop, hs⟩ := h.engine
    · obtain ⟨hs', hf'⟩ | ⟨hn', op, n, hop, hs'⟩ := h'.engine
      · exact .inl ⟨hs'.trans hs, fun op hop => hf op (hf' op hop)⟩
      · rw [opWrites_congr hs h.layout, storeAfter_congr hs op (h.layout _)] at hs'
        exact .inr ⟨hn', op, n, hf op hop, hs'⟩
    · obtain ⟨hs', hf'⟩ | ⟨-, x, -, hx, -⟩ := h'.engine
      · exact .inr ⟨Option.eq_none_iff_forall_ne_some.2 fun x hx => (nomatch hn.symm.trans (hf' x hx)), op, n, hop, hs'.trans hs⟩
      · exact nomatch hn.symm.trans hx

theorem workKept_of_fields (hl : ∀ j, (u.win j).layout = (b.win j).layout) (hs : u.store = b.store) (ha : u.activity = b.activity)
    (hq : u.opQueue = b.opQueue) : WorkKept b u :=
  ⟨hl, .inl ⟨hs, fun _ hop => inFlight_congr ha hq ▸ hop⟩⟩

theorem workKept_of_windows (hw : u.windows = b.windows) (hs : u.store = b.store) (ha : u.activity = b.activity)
    (hq : u.opQueue = b.opQueue) : WorkKept b u :=
  workKept_of_fields (fun j => by rw [State.win_congr hw]) hs ha hq

theorem workKept_of_set {i : Slot} {w : Window} (hw : u.windows = b.windows.set i w) (hl : w.layout = (b.win i).layout)
    (hs : u.store = b.store) (ha : u.activity = b.activity) (hq : u.opQueue = b.opQueue) : WorkKept b u := by
  refine workKept_of_fields (fun j => ?_) hs ha hq
  rw [State.win_of_set hw]
  split
  · next hj => exact hj ▸ hl
  · rfl

/-- A window that is retired, but not HIDDEN, keeps its surfaces (R17). -/
theorem workKept_retire {i : Slot} (hh : (b.win i).state ≠ .hidden) (c : RetireCause) : WorkKept b (retireWindow b i c) := by
  obtain ⟨hs, -, ha⟩ := retireWindow_engine b i c
  refine ⟨fun j => ?_, ?_⟩
  · rw [retireWindow_win]
    split
    · next hj => rw [hj, retiredWindow, if_neg hh]; rfl
    · rfl
  · obtain ⟨op, hop, -, e⟩ | ⟨hn, e⟩ := stopped_cases b (opNames (b.refOf i))
    · rw [e] at hs ha
      exact .inr ⟨inFlight_of_idle ha, op, b.draws, hop, hs⟩
    · rw [e] at hs ha
      refine .inl ⟨hs, fun op hop => ?_⟩
      rwa [inFlight_of_filter ha (retireWindow_opQueue b i c) fun x hx => by simp [hn x hx]] at hop

theorem workKept_visitWindow (b : State) (i : Slot) : WorkKept b (visitWindow b i) := by
  unfold visitWindow
  dsimp only
  split
  · rw [renewWindow_frame]; exact workKept_of_set rfl rfl rfl rfl rfl
  · exact workKept_of_set rfl rfl rfl rfl rfl
  · rw [lapseWindow_frame]; exact workKept_of_set rfl rfl rfl rfl rfl
  · exact workKept_of_set rfl rfl rfl rfl rfl
  · next ho =>
    have hset : WorkKept b (b.setWin i { b.win i with graceCounter := 0 }) := workKept_of_set rfl rfl rfl rfl rfl
    refine hset.trans (workKept_retire ?_ .eviction)
    rw [State.win_setWin_same]
    show (b.win i).state ≠ .hidden
    rw [(leaseOutcome_evicted ho).1]
    nofun
  · exact workKept_of_windows rfl rfl rfl rfl

theorem workKept_leaseVisit (plan : BoundaryPlan) (b : State) (i : Slot) : WorkKept b (leaseVisit plan b i) := by
  unfold leaseVisit
  split
  · exact workKept_of_windows rfl rfl rfl rfl
  · split
    · split
      · rw [raiseOwner_frame]; exact workKept_of_windows rfl rfl rfl rfl
      · exact workKept_of_windows rfl rfl rfl rfl
    · exact workKept_visitWindow b i

theorem workKept_countOffer (b : State) (i : Slot) : WorkKept b (countOffer b i) :=
  workKept_of_set (countOffer_windows b i) rfl (by rw [countOffer_frame]) (by rw [countOffer_frame]) (by rw [countOffer_frame])

theorem workKept_walkUnit (plan : BoundaryPlan) (b : State) (l : List Slot) : WorkKept b (walkUnit plan b l) := by
  unfold walkUnit
  split
  · exact workKept_of_windows rfl rfl rfl rfl
  · split
    · refine foldl_invariant (WorkKept b) _ (fun t i ht => ht.trans ?_) l b (workKept_of_windows rfl rfl rfl rfl)
      rw [applyWindow_frame]
      exact workKept_of_set rfl rfl rfl rfl rfl
    · rw [holdBack_frame]; exact workKept_of_windows rfl rfl rfl rfl

theorem workKept_task (plan : BoundaryPlan) (run : BoundaryRun) (x : BoundaryTask) :
    WorkKept run.state (boundaryTask plan run x).state := by
  cases x with
  | profileNotice => simp only [boundaryTask]; rw [profileNotice_frame]; exact workKept_of_windows rfl rfl rfl rfl
  | walkUnit =>
    simp only [boundaryTask]
    split
    · exact workKept_of_windows rfl rfl rfl rfl
    · exact workKept_walkUnit ..
  | leaseVisit h =>
    simp only [boundaryTask]
    split
    · exact workKept_leaseVisit ..
    · exact workKept_of_windows rfl rfl rfl rfl
  | offerCount h =>
    simp only [boundaryTask]
    split
    · exact workKept_countOffer ..
    · exact workKept_of_windows rfl rfl rfl rfl
  | frameNotice p => simp only [boundaryTask]; rw [frameNotice_frame]; exact workKept_of_windows rfl rfl rfl rfl

end

theorem workKept_boundary (order : BoundaryOrder) (s : State) : WorkKept (boundaryStart s) (boundaryEnd order s) :=
  foldl_invariant (fun run : BoundaryRun => WorkKept (boundaryStart s) run.state) _ (fun run x hr => hr.trans (workKept_task _ run x)) _ _
    (workKept_of_windows rfl rfl rfl rfl)

theorem WorkKept.memory {s u : State} (h : WorkKept s u) (hf : u.freeSet = s.freeSet) : MemoryKept s u where
  freeSet := hf
  layout j := .inl (h.layout j)
  drawn := h.engine.imp And.left fun ⟨_, op, n, hop, hs⟩ => ⟨op, _, _, hop, hs, fun _ hb => hb,
    fun hshape => ⟨rfl, mem_opWrites_of_abandoned hshape (mem_opQueue_of_inFlight hop) n⟩⟩

theorem memoryKept_evict {s : State} {i : Slot} (h : visitDue s i .evicted = true) : MemoryKept s (evictWindow s i) := by
  rw [visitDue, Bool.and_eq_true, beq_iff_eq] at h
  have hv : visitWindow s i = evictWindow s i := by
    simp only [visitWindow, h.1]
  rw [← hv]
  exact (workKept_visitWindow s i).memory (State.fields_of_steady (visitWindow_kept s i).1).1

/-- Every window that an operation of a sound queue names is HIDDEN, SHOWN or LAPSED (R42, R61). -/
theorem live_of_opRefs {s : State} (h : ShapeInv s) {op : EngineOp} (hop : op ∈ s.opQueue) : ∀ r ∈ opRefs op, live (s.win r.slot) := by
  obtain ⟨hlive, hbody⟩ := h.2.2 op hop
  have live_of {r : WinRef} {id : SurfaceId} (hl : surfaceLive s r id = true) : live (s.win r.slot) := by
    simp only [surfaceLive, Bool.and_eq_true] at hl
    exact hl.1.2
  intro r hr
  rcases List.mem_cons.1 hr with rfl | hr
  · exact live_of hlive
  · cases hb : op.body with
    | put | fill => rw [hb] at hr; cases hr
    | copy src =>
      rw [hb] at hr hbody
      cases List.mem_singleton.1 hr
      simp only [bodyInside, Bool.and_eq_true] at hbody
      exact live_of hbody.1.1.1

/-- Removal takes blocks from windows, and leaves the engine and the windows that operations name (R33, R70). -/
theorem boundaryStart_kept (s : State) :
    (boundaryStart s).store = s.store ∧ inFlight (boundaryStart s) = inFlight s ∧
      (∀ j, (boundaryStart s).win j = s.win j ∨ ((boundaryStart s).win j).blocks = []) ∧
      (ShapeInv s → ∀ op ∈ s.opQueue, ∀ r ∈ opRefs op, (boundaryStart s).win r.slot = s.win r.slot) := by
  have hframe : (boundaryStart s).store = s.store ∧ (boundaryStart s).activity = s.activity ∧ (boundaryStart s).opQueue = s.opQueue := by
    unfold boundaryStart
    rw [removeRetiring_frame]
    exact ⟨rfl, rfl, rfl⟩
  obtain ⟨hs, ha, hq⟩ := hframe
  refine ⟨hs, inFlight_congr ha hq, fun j => ?_, fun h op hop r hr => ?_⟩
  · rw [boundaryStart_win]
    split
    · exact .inr rfl
    · exact .inl rfl
  · rw [boundaryStart_win, if_neg]
    intro he
    have hl := live_of_opRefs h hop r hr
    rw [live, he] at hl
    cases hl

theorem memoryKept_boundary (order : BoundaryOrder) (s : State) : MemoryKept s (frameBoundary order s) := by
  obtain ⟨hlayout, hengine⟩ := workKept_boundary order s
  obtain ⟨hs, hf, hwin, hnamed⟩ := boundaryStart_kept s
  have hfree : (frameBoundary order s).freeSet = s.freeSet := congrArg Steady.freeSet (frameBoundary_kept order s).1
  rw [frameBoundary_eq, settleEngine_frame] at hfree ⊢
  refine ⟨hfree, fun j => ?_, ?_⟩
  · show ((boundaryEnd order s).win j).layout = _ ∨ ((boundaryEnd order s).win j).blocks = []
    rw [hlayout, Window.blocks_of_layout (hlayout j)]
    exact (hwin j).imp_left (congrArg Window.layout)
  · show (boundaryEnd order s).store = s.store ∨ _
    obtain ⟨he, -⟩ | ⟨-, op, n, hop, he⟩ := hengine
    · exact .inl (he.trans hs)
    · rw [hf] at hop
      have hmem := mem_opQueue_of_inFlight hop
      refine .inr ⟨op, (boundaryStart s).win op.dest.slot, _, hop, he.trans (congrArg _ hs), fun b hb => ?_, fun hshape => ?_⟩
      · obtain h | h := hwin op.dest.slot
        · rwa [h] at hb
        · rw [surface_of_blocks_nil h] at hb
          cases hb
      · have hrefs := hnamed hshape op hmem
        rw [hrefs op.dest List.mem_cons_self, opWrites_congr_of_refs hs fun r hr => by rw [hrefs r hr]]
        exact ⟨rfl, mem_opWrites_of_abandoned hshape hmem n⟩

/-! ## The frame store and the padding over an event -/

/-- What is kept sound of the frame store over an event. -/
def StoreSound (s u : State) : Prop := StoreInv u ∧ ZeroInv u ∧ (ShapeInv s → PaddingInv s → PaddingInv u)

section
variable {s u : State}

/-- Drawing writes into blocks of windows alone, so no free block is touched and no block becomes undefined (R26, R32). -/
theorem MemoryKept.zeroInv (h : MemoryKept s u) (hp : PoolInv s) (hst : StoreInv s) (hz : ZeroInv s) : StoreInv u ∧ ZeroInv u := by
  obtain ⟨hfree, hdefined⟩ := hz
  have hwritten : ∃ bl : List Block, (∀ b ∈ bl, b ∈ windowBlocks s) ∧ WrittenWithin bl s.store u.store ∧ u.store.wf = true := by
    obtain hs | ⟨op, w, made, -, hs, hsub, -⟩ := h.drawn
    · exact ⟨[], nofun, hs ▸ .refl _ _, hs ▸ hst⟩
    · refine ⟨w.surface op.destId, fun b hb => mem_windowBlocks.2 ⟨op.dest.slot, mem_blocks_of_surface (hsub b hb)⟩, ?_, ?_⟩
      · exact hs ▸ writtenWithin_writeAll ..
      · exact hs ▸ writeAll_wf hst ..
  obtain ⟨bl, hbl, hw, hwf⟩ := hwritten
  refine ⟨hwf, fun b hb => ?_, fun b hb => ?_⟩
  · rw [h.freeSet] at hb
    exact hw.blockZero (fun hmem => not_mem_windowBlocks_of_free hp hb (hbl b hmem)) (hfree b hb)
  · obtain ⟨i, hi⟩ := mem_windowBlocks.1 hb
    rw [hw.undefinedBlocks]
    obtain hl | hl := h.layout i
    · exact hdefined b (mem_windowBlocks.2 ⟨i, Window.blocks_of_layout hl ▸ hi⟩)
    · rw [hl] at hi
      cases hi

/-- A write of an operation of a sound queue carries a pixel of the destination's format to a place of the destination (R42). -/
theorem inPlace_of_mem_opWrites (h : ShapeInv s) {op : EngineOp} (hop : op ∈ s.opQueue) :
    ∀ p ∈ opWrites s op, InPlace (s.win op.dest.slot) p := fun p hp => by
  obtain ⟨m, hm⟩ := List.getElem?_of_mem hp
  have hat := writeAt_of_getElem? (h.2.2 op hop).2 hm
  exact ⟨hat.format, hat.column, hat.row⟩

/-- Drawing writes pixels inside one surface and touches no other (R25, R48). -/
theorem MemoryKept.padding (h : MemoryKept s u) (hp : PoolInv s) (hshape : ShapeInv s) (hpad : PaddingInv s) : PaddingInv u := by
  rw [paddingInv_iff] at hpad ⊢
  intro i id
  obtain hl | hl := h.layout i
  · refine paddingZero_congr (f := u.store) hl (fun _ => rfl) ?_
    obtain hs | ⟨op, w, made, hf, hs, -, hown⟩ := h.drawn
    · rw [hs]
      exact hpad i id
    · obtain ⟨hwl, hmade⟩ := hown hshape
      have hs : u.store = storeAfter s op made := by
        rw [hs, storeAfter, writeAll, writeAll, Window.stride_of_layout hwl, Window.surface_of_layout hwl]
      by_cases hdest : i = op.dest.slot ∧ id = op.destId
      · obtain ⟨rfl, rfl⟩ := hdest
        rw [hs]
        exact paddingZero_writeAll (surface_nodup hp ..)
          (fun p hp => inPlace_of_mem_opWrites hshape (mem_opQueue_of_inFlight hf) p (hmade p hp)) (hpad _ _)
      · exact paddingZero_congr rfl (hs ▸ readSurface_writeAll_elsewhere hp hdest made s.store) (hpad i id)
  · exact paddingZero_of_zero fun o => by rw [surface_of_blocks_nil hl, readSurface_nil]

theorem MemoryKept.sound (h : MemoryKept s u) (hp : PoolInv s) (hst : StoreInv s) (hz : ZeroInv s) : StoreSound s u :=
  ⟨(h.zeroInv hp hst hz).1, (h.zeroInv hp hst hz).2, h.padding hp⟩

/-- A new window's blocks come from the free set, and so are zero (R26, R30). -/
theorem storeSound_create (hst : StoreInv s) (hz : ZeroInv s) {p : Port} {c : CreateParams} {i : Slot}
    (hn : c.surfaces = 1 ∨ c.surfaces = 2) (hf : c.needed ≤ s.freeSet.length) : StoreSound s (createWindow s p c i) := by
  obtain ⟨hfree, hdefined⟩ := hz
  have hblocks : (createdWindow c p (s.win i).gen (s.freeSet.take c.needed)).blocks = s.freeSet.take c.needed :=
    createdWindow_blocks p _ hn (by simpa using hf)
  have hwin := fun j => State.win_of_set (s := s) (show (createWindow s p c i).windows = _ from rfl) j
  refine ⟨hst, ⟨fun b hb => hfree b (List.mem_of_mem_drop hb), fun b hb => ?_⟩, fun _ hpad j id => ?_⟩
  · obtain ⟨j, hj⟩ := mem_windowBlocks.1 hb
    rw [hwin] at hj
    split at hj
    · rw [hblocks] at hj
      exact (hfree b (List.mem_of_mem_take hj)).1
    · exact hdefined b (mem_windowBlocks.2 ⟨j, hj⟩)
  · show PaddingZero s.store _ id
    rw [hwin]
    split
    · refine paddingZero_of_zero (readSurface_of_zero fun b hb => hfree b (List.mem_of_mem_take (hblocks ▸ mem_blocks_of_surface hb)))
    · exact hpad j id

/-- After a scrub the block is zero in all its bytes (R28). -/
theorem blockZero_scrub (f : FrameStore) (b : Block) : blockZero (f.scrub b) b := by
  refine ⟨fun hb => ?_, fun c hc => ?_⟩
  · exact of_decide_eq_true (List.mem_filter.1 hb).2 rfl
  · exact of_decide_eq_true (List.mem_filter.1 hc).2

theorem scrub_subset (f : FrameStore) (b : Block) :
    (∀ x ∈ (f.scrub b).undefinedBlocks, x ∈ f.undefinedBlocks) ∧ ∀ c ∈ (f.scrub b).cells, c ∈ f.cells :=
  ⟨fun _ hx => (List.mem_filter.1 hx).1, fun _ hc => (List.mem_filter.1 hc).1⟩

/-- A byte of a surface reads after a scrub as it did, or 0 (R28). -/
theorem readSurface_scrub (f : FrameStore) (b : Block) (bl : List Block) (o : Nat) :
    readSurface (f.scrub b) bl o = readSurface f bl o ∨ readSurface (f.scrub b) bl o = 0 := by
  unfold readSurface
  cases surfaceAddress bl o with
  | none => exact .inl rfl
  | some a =>
    by_cases ha : a.val / 2048 = b.val
    · exact .inr (f.read_scrub_same b ha)
    · exact .inl (f.read_scrub_other b ha)

theorem storeSound_scrub (hst : StoreInv s) (hz : ZeroInv s) (b : Block) : StoreSound s (completeScrub s b) := by
  obtain ⟨hfree, hdefined⟩ := hz
  obtain ⟨hundefined, hcells⟩ := scrub_subset s.store b
  rw [completeScrub_frame]
  refine ⟨FrameStore.scrub_wf hst b, ⟨fun c hc => ?_, fun c hc hu => hdefined c hc (hundefined c hu)⟩, fun _ hpad i id => ?_⟩
  · obtain rfl | hc := mem_insertBlock.1 hc
    · exact blockZero_scrub s.store c
    · obtain ⟨hu, hl⟩ := hfree c hc
      exact ⟨fun h => hu (hundefined c h), fun x hx => hl x (hcells x hx)⟩
  · obtain ⟨hend, hbits⟩ := hpad i id
    refine ⟨fun o ho => ?_, fun hm r c hr hc hc8 => ?_⟩
    · obtain h | h := readSurface_scrub s.store b ((s.win i).surface id) o
      · exact h.trans (hend o ho)
      · exact h
    · obtain h | h := readSurface_scrub s.store b ((s.win i).surface id) (r * (s.win i).stride + c / 8)
      · exact (congrArg (fun x : Byte => x.getLsbD (7 - c % 8)) h).trans (hbits hm r c hr hc hc8)
      · exact (congrArg (fun x : Byte => x.getLsbD (7 - c % 8)) h).trans BitVec.getLsbD_zero

/-- After a hardware reset no block is free and no window has a surface (R22, R38). -/
theorem storeSound_reset (s : State) : StoreSound s (hardwareReset s) := by
  have hwin : ∀ i id, ((hardwareReset s).win i).surface id = [] := reset_surface
  have hblocks : windowBlocks (hardwareReset s) = [] := List.flatMap_eq_nil_iff.2 fun i _ =>
    List.append_eq_nil_iff.2 ⟨hwin i 0, hwin i 1⟩
  refine ⟨FrameStore.undefinedAll_wf _, ⟨nofun, fun b hb => ?_⟩, fun _ _ i id => ?_⟩
  · rw [hblocks] at hb
    cases hb
  · exact paddingZero_of_zero fun o => by rw [hwin, readSurface_nil]

/-- Every change a command makes keeps the store sound: it draws at most, or allocates, scrubs or resets. -/
theorem storeSound_change (hp : PoolInv s) (hst : StoreInv s) (hz : ZeroInv s) {q : Option Port} (hc : Change s q u) : StoreSound s u := by
  have kept (h : MemoryKept s u) : StoreSound s u := h.sound hp hst hz
  cases hc with
  | reset => exact storeSound_reset s
  | create p c i ps hc _ _ _ hf =>
    obtain ⟨-, -, -, -, hn, -⟩ := readCreate_eq_some hc
    exact storeSound_create hst hz hn hf
  | scrub b => exact storeSound_scrub hst hz b
  | detach p => exact kept (memoryKept_detach s p)
  | retire p i => exact kept (memoryKept_retire s i _).settle
  | cancel p hit => exact kept (memoryKept_cancel s hit).settle
  | restart => exact kept (memoryKept_restart hp)
  | complete op h => exact kept (memoryKept_complete h)
  | boundary order => exact kept (memoryKept_boundary order s)
  | evict i h => exact kept (memoryKept_evict h).settle
  | accept p i => rw [transferWindow_frame] at kept ⊢; exact kept (memoryKept_of_set rfl (.inl rfl) rfl (.inl rfl))
  | stage | discard | renew | offer | withdraw | offerExpiry => exact kept (memoryKept_of_set rfl (.inl rfl) rfl (.inl rfl))
  | decline => rw [declineOffer_frame] at kept ⊢; exact kept (memoryKept_of_set rfl (.inl rfl) rfl (.inl rfl))
  | lapse => rw [lapseWindow_frame] at kept ⊢; exact kept (memoryKept_of_set rfl (.inl rfl) rfl (.inl rfl))
  | keep | link | collect | subscribe | query | arm | stream | timing | quota | grace => exact kept (memoryKept_of_windows rfl rfl rfl)
  | disarm => rw [removeUnit_frame] at kept ⊢; exact kept (memoryKept_of_windows rfl rfl rfl)
  | put => rw [acceptOp_frame] at kept ⊢; exact kept (memoryKept_of_windows rfl rfl rfl)
  | draw => rw [acceptOp_frame] at kept ⊢; exact kept (memoryKept_of_windows rfl rfl rfl)
  | expire => rw [expireUnit_frame] at kept ⊢; exact kept (memoryKept_of_windows rfl rfl rfl)

end

/-- A step idles, or makes one of the changes, whatever commands wait, and may hold a response after it. -/
theorem step_change {s t : State} (h : step s = .next t) :
    t = s ∨ ∃ (l : List Instr) (q : Option Port) (u : State), Change { s with pending := l } q u ∧ (t = u ∨ ∃ p a, t = u.hold p a) := by
  unfold step at h
  split at h
  · cases h
    exact .inl rfl
  · next c rest _ =>
    obtain ⟨u, hc, ht⟩ := exec_change h
    exact .inr ⟨rest, commandPort c, u, hc, ht⟩

/-- Settles O57: drawing stays inside surfaces of windows, an allocation takes zero blocks, a scrub makes its block zero, and a reset leaves
nothing to keep. -/
theorem freeBlocksStayZero : Obligations.FreeBlocksStayZero := by
  refine ⟨fun s t hp hst hz h => ?_, fun s hz b hb a ha => read_of_blockZero (hz.1 b hb) ha⟩
  obtain rfl | ⟨l, q, u, hc, ht⟩ := step_change h
  · exact ⟨hst, hz, fun _ hpad => hpad⟩
  · have hu : StoreSound { s with pending := l } u := storeSound_change hp hst hz hc
    obtain rfl | ⟨p, a, rfl⟩ := ht
    · exact hu
    · exact hu

end Sys2Proof.Machine
end

