-- ==== Sys2Proof/Proofs/EngineEvents.lean ====
section
/-! The two completions of the Surface Engine: what a completed operation has written, pixel by pixel, and what a completed scrub leaves (R28,
R47, R48, R55, R57, R59). -/

namespace Sys2Proof.Machine

open Sys2Proof.Safety

/-! ## OPERATION_COMPLETION (O39) -/

/-- An operation that has made all its writes has left each pixel of its destination as its kind says (R55, R57, R59). -/
theorem readPixel_storeAfter {s : State} (hp : PoolInv s) (hs : ShapeInv s) {op : EngineOp} (hop : op ∈ s.opQueue) {c r : Nat}
    (hc : c < (s.win op.dest.slot).width) :
    readPixel (storeAfter s op (opWrites s op)) (s.win op.dest.slot).format (s.win op.dest.slot).stride
        ((s.win op.dest.slot).surface op.destId) c r =
      (opPixel s op c r).getD (readPixel s.store (s.win op.dest.slot).format (s.win op.dest.slot).stride
        ((s.win op.dest.slot).surface op.destId) c r) := by
  have hbody := (hs.2.2 op hop).2
  have hn := surface_nodup hp op.dest.slot op.destId
  have hw := opWrites_writable hs hop
  cases hv : opPixel s op c r with
  | some v =>
    exact readPixel_writeAll_of_mem hn hw (opWrites_pairwise hbody) (List.mem_of_getElem? (getElem?_of_opPixel hbody hv)) s.store
  | none =>
    refine readPixel_writeAll_of_absent hn hw hc (fun p hmem hat => ?_) s.store
    obtain ⟨m, hm⟩ := List.getElem?_of_mem hmem
    have hpixel := (writeAt_of_getElem? hbody hm).pixel
    rw [← hat.1, ← hat.2, hv] at hpixel
    cases hpixel

theorem inFlight_of_operating {s : State} {op : EngineOp} {rest : List EngineOp} (ha : s.activity = .operating)
    (hq : s.opQueue = op :: rest) : inFlight s = some op := by
  simp [inFlight, ha, hq]

/-- A completion that answers has made all the writes of the operation in flight (R47). -/
theorem store_of_operationCompletion {s t : State} {op : EngineOp} (hf : inFlight s = some op)
    (h : exec .operationCompletion s = .next t) : t.store = storeAfter s op (opWrites s op) := by
  simp only [exec, execOperationCompletion, hf] at h
  split at h
  · cases h
    rw [completeOp_frame]
  · cases h

/-- Settles O39: in the destination each pixel is found among the writes or is not, and no other surface shares a block with it. -/
theorem operationWritesItsPixels : Obligations.OperationWritesItsPixels := by
  intro s t op rest hp hs ha hq h i id c r _ _ hc _
  rw [store_of_operationCompletion (inFlight_of_operating ha hq) h]
  split
  · next hdest =>
    obtain ⟨rfl, rfl⟩ := hdest
    exact readPixel_storeAfter hp hs (hq ▸ List.mem_cons_self) hc
  · next hdest => exact readPixel_congr (readSurface_writeAll_elsewhere hp hdest _ _) ..

/-! ## SCRUB_COMPLETION (O40) -/

theorem read_scrub (f : FrameStore) (b : Block) (a : Address) :
    (f.scrub b).read a = if a.val / 2048 = b.val then 0 else f.read a := by
  split
  · next h => exact f.read_scrub_same b h
  · next h => exact f.read_scrub_other b h

/-- After a scrub the engine operates, scrubs on, or goes idle (R46). -/
theorem completeScrub_activity {s : State} {b : Block} {rest : List Block} (h : s.scrubList = b :: rest) :
    (completeScrub s b).activity = if s.opQueue ≠ [] then .operating else if rest ≠ [] then .scrubbing else .idle := by
  unfold completeScrub
  rw [settleEngine_activity]
  simp [h]

/-- Settles O40: the completion is one update of the state, read off the laws of the store and of the free set. -/
theorem scrubZeroesBlock : Obligations.ScrubZeroesBlock := by
  intro s b rest hp ha h
  have hexec : exec .scrubCompletion s = .next (completeScrub s b) := by
    simp only [exec, execScrubCompletion, ha, h]
  have hactivity := completeScrub_activity h
  refine ⟨_, hexec, ?_⟩
  rw [completeScrub_frame, hactivity, h]
  exact ⟨rfl, insertBlock_pairwise hp.1, fun _ => mem_insertBlock, read_scrub s.store b⟩

end Sys2Proof.Machine
end

