-- ==== Sys2Proof/Proofs/AllocationAndTransfer.lean ====
section
/-! Which blocks a CREATE allocates, what an ACCEPT transfers, and the quotas (R30, R36, R37, R148, R149). -/

namespace Sys2Proof.Machine

open Sys2Proof.Safety

/-! ## The lowest blocks of the free set (O19) -/

/-- In an ascending list what is taken from the front lies below what is left (R30). -/
theorem lt_of_mem_take_of_mem_drop {l : List Block} (h : l.Pairwise (· < ·)) {n : Nat} {b c : Block} (hb : b ∈ l.take n)
    (hc : c ∈ l.drop n) : b < c := by
  rw [← List.take_append_drop n l] at h
  exact (List.pairwise_append.1 h).2.2 b hb c hc

theorem mem_iff_mem_take_or_mem_drop (l : List Block) (n : Nat) (b : Block) : b ∈ l ↔ b ∈ l.take n ∨ b ∈ l.drop n := by
  rw [← List.mem_append, List.take_append_drop]

/-- The two surfaces of a new window are cut from an ascending list: each ascends and the second lies above the first (R30). -/
theorem createdWindow_ascends {c : CreateParams} (p : Port) (g : Gen) {l : List Block} (hl : l.Pairwise (· < ·))
    (hn : c.surfaces = 1 ∨ c.surfaces = 2) (hlen : l.length = c.needed) :
    let w := createdWindow c p g l
    w.surface0.length = c.perSurface ∧ w.surface0.Pairwise (· < ·) ∧ (w.surface1 = none ↔ c.surfaces = 1) ∧
      ∀ m ∈ w.surface1, m.length = c.perSurface ∧ m.Pairwise (· < ·) ∧ ∀ b ∈ w.surface0, ∀ x ∈ m, b < x := by
  rw [CreateParams.needed] at hlen
  refine ⟨?_, hl.sublist (List.take_sublist ..), ?_, fun m hm => ?_⟩
  · rcases hn with hn | hn <;>
    · simp only [createdWindow, List.length_take, hlen, hn]
      omega
  · rcases hn with hn | hn <;> simp [createdWindow, hn]
  · simp only [createdWindow] at hm
    split at hm
    · next h2 =>
      cases hm
      refine ⟨?_, hl.sublist (List.drop_sublist ..), fun b hb x hx => lt_of_mem_take_of_mem_drop hl hb hx⟩
      rw [List.length_drop, hlen, h2]
      omega
    · cases hm

/-- A CREATE that fits makes its window (R13, R14). -/
theorem exec_create_of_fits {s : State} {p : Port} {tag : Byte} {fmt : Format} {width height count : Nat} {tier : Tier} {i : Slot}
    (hp : Processing s p ⟨0x10, tag, createParams fmt width height count tier⟩) (h : CreateFits s p fmt width height count tier i) :
    exec (.create p) s = .next ((createWindow s p ⟨fmt, width, height, count, tier⟩ i).hold p ⟨.done, tag, refBytes (s.refOf i)⟩) := by
  refine (createMakesWindow s p tag fmt width height count tier i hp h).trans ?_
  obtain ⟨-, -, -, -, hcount, -⟩ := h
  rw [createWindow_frame, createdWindow_eq p _ _ hcount]
  rfl

/-- Settles O19: the new window's blocks are the front of the free set, cut once for the second surface. -/
theorem allocationTakesLowestBlocks : Obligations.AllocationTakesLowestBlocks := by
  intro s p tag fmt width height count tier i hpool hp hfit
  have hexec := exec_create_of_fits hp hfit
  obtain ⟨-, -, -, -, hcount, -, -, -, -, hlen⟩ := hfit
  have hasc := hpool.1
  have hneeded : (s.freeSet.take (count * surfaceBlocks fmt width height)).length = count * surfaceBlocks fmt width height := by
    simpa using hlen
  obtain ⟨h0, hasc0, h1, hasc1⟩ := createdWindow_ascends (c := ⟨fmt, width, height, count, tier⟩) p (s.win i).gen
    (hasc.sublist (List.take_sublist ..)) hcount hneeded
  have hblocks := createdWindow_blocks (c := ⟨fmt, width, height, count, tier⟩) p (s.win i).gen hcount hneeded
  refine ⟨_, hexec, ?_⟩
  have hwin (a : Response) : ((createWindow s p ⟨fmt, width, height, count, tier⟩ i).hold p a).win i =
      createdWindow ⟨fmt, width, height, count, tier⟩ p (s.win i).gen (s.freeSet.take (count * surfaceBlocks fmt width height)) :=
    State.win_setWin_same ..
  rw [hwin, hblocks]
  exact ⟨hneeded, mem_iff_mem_take_or_mem_drop s.freeSet _, fun b hb c hc => lt_of_mem_take_of_mem_drop hasc hb hc, h0, hasc0, h1, hasc1, rfl⟩

/-! ## ACCEPT (O34) -/

theorem transferStream_eq (s : State) (i : Slot) (o : Port) :
    transferStream s i (some o) =
      raised (s.setStream o (if streamInto s o (s.refOf i) then none else s.streams.get o))
        (if streamInto s o (s.refOf i) then [⟨o, .streamClosed, s.refOf i, closedByTransfer⟩] else []) := by
  unfold transferStream
  dsimp only
  split
  · rfl
  · simp [State.setStream, raised]

theorem moveCharge_eq {w : Window} {o : Port} (ho : w.owner = some o) (s : State) (p : Port) :
    moveCharge s w p = { s with
      charge := (s.charge.set o (s.charge.get o - w.blocks.length)).set p
        ((s.charge.set o (s.charge.get o - w.blocks.length)).get p + w.blocks.length) } := by
  unfold moveCharge
  rw [ho]
  rfl

/-- The unit of a window leaves the queue, and the owner hears of its other members (R101, R102). -/
theorem abandonUnit_of_commitInv {s : State} (h : CommitInv s) (i : Slot) (o : Port) :
    abandonUnit s i (some o) = raised { s with commitQueue := withoutUnit s i }
      ((groupMates s i).map (fun r => ⟨o, .commitAbandoned, r, detail (i.val + 1)⟩)) := by
  have hmates : abandonRaisings s i (some o) = (groupMates s i).map (fun r => ⟨o, .commitAbandoned, r, detail (i.val + 1)⟩) := by
    rw [abandonRaisings, otherMembers_eq_groupMates h]
    exact List.map_eq_flatMap.symm
  rw [abandonUnit_eq, hmates, removeUnit_frame, removeUnit_eq_withoutUnit h]

/-- A transfer, said as one update and the notices to the old owner in their order (R149). -/
theorem transferWindow_eq {s : State} (h : CommitInv s) {i : Slot} {p : Port} (ho : (s.win i).owner = some p.other) :
    transferWindow s i p = raised { s with
        windows := s.windows.set i { s.win i with owner := some p, offer := none, staging := Staging.empty }
        charge := (s.charge.set p.other (s.charge.get p.other - (s.win i).blocks.length)).set p
          (s.charge.get p + (s.win i).blocks.length)
        streams := s.streams.set p.other (if streamInto s p.other (s.refOf i) then none else s.streams.get p.other)
        commitQueue := withoutUnit s i }
      ((if streamInto s p.other (s.refOf i) then [⟨p.other, .streamClosed, s.refOf i, closedByTransfer⟩] else [])
        ++ (groupMates s i).map (fun r => ⟨p.other, .commitAbandoned, r, detail (i.val + 1)⟩)
        ++ [⟨p.other, .offerAccepted, s.refOf i, detail (s.win i).blocks.length⟩]) := by
  have hcharge (n : Nat) : (s.charge.set p.other n).get p = s.charge.get p := PerPort.get_set_of_ne _ _ (Port.other_ne p).symm
  unfold transferWindow
  dsimp only
  rw [ho, transferStream_eq, abandonUnit_of_commitInv (by exact h), raiseOwner_eq_raised, moveCharge_eq ho]
  simp only [raised, State.setWin, State.setStream, raiseAll_append, hcharge]
  rfl

/-- A reference that names a window is the one the part answers (R189). -/
theorem refBytes_of_names {s : State} {h g : Byte} {i : Slot} (hn : Names s ⟨h, g⟩ i) : refBytes (s.refOf i) = [h, g] := by
  obtain ⟨hh, -, hg⟩ := hn
  rw [refBytes, Slot.handle, State.refOf_slot, State.refOf_gen, ← hh, ← hg, byteOf_self, byteOf_self]

/-- Settles O34: the offer and the quota decide, and the transfer is one update with its notices. -/
theorem acceptTransfersWindow : Obligations.AcceptTransfersWindow := by
  intro s p tag h g i hc hp hn hl
  have htaken : takeAccept s p [h, g] =
      if offersTo (s.win i) p = false then .refuse .noOffer
      else if s.quota.get p < s.charge.get p + (s.win i).blocks.length then .refuse .quota
      else .answer (transferWindow s i p) .done (refBytes (s.refOf i)) := by
    refine withWindow_ok (i := i) ((refCheck_names hn).trans ?_)
    rw [if_neg (by nofun), if_neg (by rw [hl]; nofun)]
  have hoffer : offersTo (s.win i) p = true ↔ (s.win i).offer.map Offer.target = some p := by
    rw [offersTo_iff, Option.map_eq_some_iff]
  have hcode : codeAccept ∈ definedCodes := by decide
  have refused {st : Status} (ht : takeAccept s p [h, g] = .refuse st) : exec (.accept p) s = .next (s.hold p ⟨st, tag, []⟩) :=
    congrArg Host.Outcome.next (complete_refuse hp rfl hcode rfl (.inr rfl) ht)
  refine ⟨fun hno => refused ?_, fun hto => ?_⟩
  · rw [htaken, if_pos (by rwa [← Bool.not_eq_true, hoffer])]
  · rw [if_neg (by rw [hoffer.2 hto]; nofun)] at htaken
    refine ⟨fun hover => refused (htaken.trans (if_pos hover)), fun hwithin ho => ?_⟩
    have hanswer := htaken.trans (if_neg (Nat.not_lt.2 hwithin))
    refine congrArg Host.Outcome.next ((complete_answer hp rfl hcode rfl (.inr rfl) hanswer).trans ?_)
    rw [transferWindow_eq hc ho, refBytes_of_names hn]
    rfl

/-! ## SET_QUOTA (O36) -/

/-- A request of Port A's alone is refused from Port B (R142, R183). -/
theorem complete_notPermitted {s : State} {r : Request} {code : Byte} {taken : List Byte → Verdict} (h : Processing s .B r)
    (hcode : r.code = code) (hc : code ∈ definedCodes) (hl : lengthOk code r.params = true) (ha : portAOnly code r.params = true) :
    complete s .B code taken = s.hold .B ⟨.notPermitted, r.tag, []⟩ := by
  subst hcode
  rw [complete_of_processing taken h, evaluate, if_neg (not_not.2 hc), if_neg (by rw [hl]; nofun), if_pos ⟨rfl, ha⟩, settle_refuse]

/-- Settles O36: from Port A the one check decides; from Port B the request is not permitted. -/
theorem setQuotaSetsBoth : Obligations.SetQuotaSetsBoth := by
  intro s tag a b
  have htaken : takeSetQuota s [a, b] =
      if 192 < a.toNat ∨ 192 < b.toNat ∨ 192 < a.toNat + b.toNat then .refuse .badParam
      else .answer { s with quota := ⟨a.toNat, b.toNat⟩ } .done [] := rfl
  refine ⟨fun hp => ⟨fun hbad => ?_, fun hsum => ?_⟩, fun hp => ?_⟩
  · exact congrArg Host.Outcome.next (complete_refuse hp rfl (by decide) rfl (.inl rfl) (htaken.trans (if_pos hbad)))
  · exact congrArg Host.Outcome.next (complete_answer hp rfl (by decide) rfl (.inl rfl) (htaken.trans (if_neg (by omega))))
  · exact congrArg Host.Outcome.next (complete_notPermitted hp rfl (by decide) rfl rfl)

end Sys2Proof.Machine
end

