-- ==== Sys2Proof/Proofs/NoticesAndLinks.lean ====
section
/-! The notice lists, the quotas and the links over a step (R36, R159, R160, R163, R175, R178). -/

namespace Sys2Proof.Machine

open Sys2Proof.Safety

/-! ## The notice lists (R159 to R164) -/

/-- The notice list of each port is sound. -/
def BoxesOk (n : PerPort NoticeBox) : Prop := ∀ p, boxOk (n.get p)

theorem noticesInv_iff {s : State} : NoticesInv s ↔ BoxesOk s.notices :=
  ⟨fun h p => by cases p; exacts [h.1, h.2], fun h => ⟨h .A, h .B⟩⟩

theorem BoxesOk.set {n : PerPort NoticeBox} (h : BoxesOk n) (p : Port) {b : NoticeBox} (hb : boxOk b) : BoxesOk (n.set p b) := by
  intro q
  by_cases hq : q = p
  · rw [hq, PerPort.get_set_same]
    exact hb
  · rw [PerPort.get_set_of_ne _ _ hq]
    exact h q

theorem BoxesOk.raiseAll {n : PerPort NoticeBox} (h : BoxesOk n) (l : List Raising) : BoxesOk (raiseAll n l) :=
  foldl_invariant BoxesOk _ (fun _ x hm => hm.set x.port (NoticeBox.take_boxOk (hm x.port) ..)) l n h

section
variable {s t : State}

theorem noticesInv_of_notices (h : NoticesInv s) (ht : t.notices = s.notices) : NoticesInv t := by
  rw [noticesInv_iff] at *
  rwa [ht]

theorem noticesInv_of_raiseAll (h : NoticesInv s) {l : List Raising} (ht : t.notices = raiseAll s.notices l) : NoticesInv t := by
  rw [noticesInv_iff] at *
  exact ht ▸ h.raiseAll l

theorem noticesInv_setNotices (h : NoticesInv s) (p : Port) {b : NoticeBox} (hb : boxOk b) : NoticesInv (s.setNotices p b) :=
  noticesInv_iff.2 ((noticesInv_iff.1 h).set p hb)

theorem noticesInv_raise (h : NoticesInv s) (p : Port) (k : NoticeKind) (r : WinRef) (d : BitVec 16) : NoticesInv (raise s p k r d) :=
  noticesInv_setNotices h p (NoticeBox.take_boxOk (noticesInv_iff.1 h p) ..)

theorem noticesInv_raiseDevice (h : NoticesInv s) (p : Port) (k : NoticeKind) (d : BitVec 16) : NoticesInv (raiseDevice s p k d) :=
  noticesInv_setNotices h p (NoticeBox.take_boxOk (noticesInv_iff.1 h p) ..)

theorem noticesInv_settle (h : NoticesInv s) : NoticesInv (settleEngine s) := by
  rw [settleEngine_frame]
  exact h

theorem noticesInv_raiseOwner (h : NoticesInv s) (o : Option Port) (k : NoticeKind) (r : WinRef) (d : BitVec 16) :
    NoticesInv (raiseOwner s o k r d) :=
  noticesInv_of_raiseAll h (by rw [raiseOwner_eq_raised]; rfl)

theorem noticesInv_raiseOwnerAndA (h : NoticesInv s) (o : Option Port) (k : NoticeKind) (r : WinRef) (d : BitVec 16) :
    NoticesInv (raiseOwnerAndA s o k r d) :=
  noticesInv_of_raiseAll h (by rw [raiseOwnerAndA_eq_raised]; rfl)

theorem noticesInv_expire (h : NoticesInv s) (fc : BitVec 16) (l : List Slot) : NoticesInv (expireUnit fc s l) :=
  noticesInv_of_raiseAll h (by rw [expireUnit_eq]; rfl)

theorem noticesInv_retire (h : NoticesInv s) (i : Slot) (c : RetireCause) : NoticesInv (retireWindow s i c) :=
  noticesInv_of_raiseAll h (retireWindow_notices s i c)

theorem stopped_notices (s : State) (hit : EngineOp → Bool) : (stopped s hit).notices = s.notices := by
  obtain ⟨op, -, -, e⟩ | ⟨-, e⟩ := stopped_cases s hit <;> rw [e]

theorem noticesInv_cancel (h : NoticesInv s) (hit : EngineOp → Bool) : NoticesInv (cancelOps s hit) := by
  refine noticesInv_of_raiseAll (l := (s.opQueue.filter hit).map cancelRaising) h ?_
  rw [cancelOps_eq]
  exact congrArg (raiseAll · _) (stopped_notices s hit)

theorem noticesInv_decline (h : NoticesInv s) (d : BitVec 16) (i : Slot) : NoticesInv (declineOffer d s i) :=
  noticesInv_raiseOwner (s := s.setWin i _) h ..

/-- A DETACH raises, then empties the port's own list (R154). -/
theorem noticesInv_detach (h : NoticesInv s) (p : Port) : NoticesInv (detachPort s p) := by
  have hwindows : NoticesInv (detachWindows s p) :=
    foldl_invariant NoticesInv _ (fun t i ht => noticesInv_retire ht i .detach) _ s h
  have hengine : NoticesInv (detachEngine s p) := noticesInv_cancel hwindows _
  have hoffers : NoticesInv (detachOffers s p) :=
    foldl_invariant NoticesInv _ (fun t i ht => noticesInv_decline ht _ i) _ _ hengine
  exact noticesInv_settle (noticesInv_iff.2 ((noticesInv_iff.1 hoffers).set p NoticeBox.empty_boxOk))

theorem noticesInv_transfer (h : NoticesInv s) (i : Slot) (p : Port) : NoticesInv (transferWindow s i p) := by
  have hstream : ∀ o, NoticesInv (transferStream s i o) := by
    intro o
    cases o with
    | none => exact h
    | some o => exact noticesInv_of_raiseAll h (by rw [transferStream_eq]; rfl)
  have hunit : ∀ o, NoticesInv (abandonUnit (transferStream s i o) i o) := by
    intro o
    rw [abandonUnit_eq, removeUnit_frame]
    exact noticesInv_of_raiseAll (hstream o) rfl
  have hcharge : ∀ (t : State) (w : Window), (moveCharge t w p).notices = t.notices := by
    intro t w
    unfold moveCharge
    cases w.owner <;> rfl
  exact noticesInv_of_notices (noticesInv_raiseOwner (hunit _) ..) (hcharge ..)

theorem noticesInv_complete (h : NoticesInv s) (op : EngineOp) : NoticesInv (completeOp s op) := by
  unfold completeOp
  exact noticesInv_settle (noticesInv_raise (noticesInv_of_notices h rfl) ..)

theorem noticesInv_evict (h : NoticesInv s) (i : Slot) : NoticesInv (evictWindow s i) := by
  unfold evictWindow
  refine noticesInv_retire ?_ i .eviction
  exact h

theorem noticesInv_restart (s : State) : NoticesInv (restartDevice s) := by
  have hbox : boxOk (restartedBox (low16 s.timing.frameCounter)) := NoticeBox.take_boxOk NoticeBox.empty_boxOk ..
  rw [restartDevice_eq_settle]
  exact noticesInv_settle ⟨hbox, hbox⟩

theorem noticesInv_leaseVisit (h : NoticesInv s) (plan : BoundaryPlan) (i : Slot) : NoticesInv (leaseVisit plan s i) := by
  unfold leaseVisit
  split
  · exact h
  · split
    · split
      · exact noticesInv_raiseOwner h ..
      · exact h
    · exact noticesInv_of_raiseAll h (visitWindow_notices s i)

theorem noticesInv_profileNotice (h : NoticesInv s) (plan : BoundaryPlan) : NoticesInv (profileNotice plan s) := by
  unfold profileNotice
  split
  · exact noticesInv_raiseDevice (noticesInv_raiseDevice h ..) ..
  · exact h

theorem noticesInv_frameNotice (h : NoticesInv s) (p : Port) : NoticesInv (frameNotice s p) := by
  unfold frameNotice
  split
  · exact noticesInv_raiseDevice h ..
  · exact h

end

theorem noticesInv_task {run : BoundaryRun} (h : NoticesInv run.state) (plan : BoundaryPlan) (x : BoundaryTask) :
    NoticesInv (boundaryTask plan run x).state := by
  cases x with
  | profileNotice => exact noticesInv_profileNotice h plan
  | walkUnit =>
    simp only [boundaryTask]
    split
    · exact h
    · obtain ⟨l, hl, -⟩ := walkRaises_walkUnit plan run.state _
      exact noticesInv_of_raiseAll h hl
  | leaseVisit n =>
    simp only [boundaryTask]
    split
    · exact noticesInv_leaseVisit h ..
    · exact h
  | offerCount n =>
    simp only [boundaryTask]
    split
    · exact noticesInv_of_raiseAll h (countOffer_notices ..)
    · exact h
  | frameNotice p => exact noticesInv_frameNotice h p

theorem noticesInv_boundary {s : State} (h : NoticesInv s) (order : BoundaryOrder) : NoticesInv (frameBoundary order s) := by
  have hstart : NoticesInv (boundaryStart s) := noticesInv_of_notices h (boundaryStart_notices s)
  exact noticesInv_settle (foldl_invariant (fun run : BoundaryRun => NoticesInv run.state) _
    (fun run x hr => noticesInv_task hr _ x) (boundaryTasks order s) ⟨boundaryStart s, _⟩ hstart)

/-- Every change a command makes raises notices, drops the oldest, or empties lists. -/
theorem noticesInv_change {s u : State} {q : Option Port} (h : NoticesInv s) (hc : Change s q u) : NoticesInv u := by
  cases hc with
  | reset => exact ⟨NoticeBox.empty_boxOk, NoticeBox.empty_boxOk⟩
  | collect p => exact noticesInv_setNotices h p (NoticeBox.dropOldest_boxOk (noticesInv_iff.1 h p) _)
  | detach p => exact noticesInv_detach h p
  | retire p i => exact noticesInv_settle (noticesInv_retire h i _)
  | cancel p hit => exact noticesInv_settle (noticesInv_cancel h hit)
  | accept p i => exact noticesInv_transfer h i p
  | decline p i => exact noticesInv_decline h _ i
  | offer p i => exact noticesInv_raise (s := s.setWin i _) h ..
  | withdraw p i => exact noticesInv_raise (s := s.setWin i _) h ..
  | restart => exact noticesInv_restart s
  | complete op => exact noticesInv_complete h op
  | boundary order => exact noticesInv_boundary h order
  | expire i => exact noticesInv_expire h ..
  | lapse i => exact noticesInv_raiseOwnerAndA (s := s.setWin i _) h ..
  | evict i => exact noticesInv_settle (noticesInv_evict h i)
  | offerExpiry i => exact noticesInv_raise (noticesInv_raise (s := s.setWin i _) h ..) ..
  | disarm p i => rw [removeUnit_frame]; exact h
  | put => rw [acceptOp_frame]; exact h
  | draw => rw [acceptOp_frame]; exact h
  | scrub => rw [completeScrub_frame]; exact h
  | keep | link | subscribe | create | query | stage | discard | arm | renew | stream | timing | quota | grace => exact h

/-! ## The quotas (R36) -/

theorem quotaInv_of_quota {s t : State} (h : QuotaInv s) (ht : t.quota = s.quota) : QuotaInv t := by
  rw [QuotaInv, ht]
  exact h

theorem quotaInv_of_steady {s t : State} (h : QuotaInv s) (ht : t.steady = s.steady) : QuotaInv t :=
  quotaInv_of_quota h (State.fields_of_steady ht).2.1

theorem quotaInv_settle {s : State} (h : QuotaInv s) : QuotaInv (settleEngine s) := by
  rw [settleEngine_frame]
  exact h

/-- Only a SET_QUOTA and a reset set the quotas (R36, R38). -/
theorem quotaInv_change {s u : State} {q : Option Port} (h : QuotaInv s) (hc : Change s q u) : QuotaInv u := by
  cases hc with
  | reset => exact Nat.le_refl 192
  | quota a b hab => exact hab
  | detach p => exact quotaInv_of_quota h (congrArg Steady.quota (detachPort_kept s p).1)
  | retire p i => exact quotaInv_settle (quotaInv_of_steady h (retireWindow_steady s i _))
  | evict i => exact quotaInv_settle (quotaInv_of_steady h (retireWindow_steady _ i .eviction))
  | boundary order => exact quotaInv_of_quota h (congrArg Steady.quota (frameBoundary_kept order s).1)
  | cancel p hit => rw [settleEngine_frame, cancelOps_frame]; exact h
  | restart => rw [restartDevice_eq_settle, settleEngine_frame]; exact h
  | accept p i => rw [transferWindow_frame]; exact h
  | decline p i => rw [declineOffer_frame]; exact h
  | lapse i => rw [lapseWindow_frame]; exact h
  | expire i => rw [expireUnit_frame]; exact h
  | disarm p i => rw [removeUnit_frame]; exact h
  | put => rw [acceptOp_frame]; exact h
  | draw => rw [acceptOp_frame]; exact h
  | complete op => rw [completeOp_frame]; exact h
  | scrub => rw [completeScrub_frame]; exact h
  | keep | link | collect | subscribe | create | query | stage | discard | arm | renew | stream | offer | withdraw | timing | grace
  | offerExpiry => exact h

/-! ## The links (R175, R178) -/

theorem linkInv_iff {s : State} : LinkInv s ↔ ∀ p, linkOk (s.links.get p) :=
  ⟨fun h p => by cases p; exacts [h.1, h.2], fun h => ⟨h .A, h .B⟩⟩

theorem linkInv_of_links {s t : State} (h : LinkInv s) (ht : t.links = s.links) : LinkInv t := by
  rw [LinkInv, ht]
  exact h

theorem linkInv_setLink {s : State} (h : LinkInv s) (p : Port) {l : Link} (hl : linkOk l) : LinkInv (s.setLink p l) := by
  rw [linkInv_iff] at *
  intro q
  by_cases hq : q = p
  · rw [hq, State.setLink, PerPort.get_set_same]
    exact hl
  · rw [State.setLink, PerPort.get_set_of_ne _ _ hq]
    exact h q

theorem linkOk_of_released {l : Link} (h : l.transaction = none) : linkOk l := fun t ht => by
  rw [h] at ht
  cases ht

/-- A response that comes to be held while select is asserted is not the one the transaction sends (R175, R176). -/
theorem linkInv_hold {s : State} (h : LinkInv s) {p : Port} {r : Request} (hp : Processing s p r) (a : Response) : LinkInv (s.hold p a) := by
  refine linkInv_setLink h p fun t ht hc => ?_
  have hno := linkInv_iff.1 h p t ht hc
  rw [hp] at hno
  exact hno.elim

/-- The evaluation of a request leaves the links as they were. -/
def KeepsLinks (s : State) : Verdict → Prop
  | .refuse _ => True
  | .answer t _ _ => t.links = s.links

section
variable {s : State}

theorem KeepsLinks.refuse {st : Status} : KeepsLinks s (.refuse st) := trivial

theorem KeepsLinks.answer {t : State} {st : Status} {payload : List Byte} (h : t.links = s.links) : KeepsLinks s (.answer t st payload) := h

theorem KeepsLinks.ite {c : Prop} [Decidable c] {v w : Verdict} (hv : KeepsLinks s v) (hw : KeepsLinks s w) :
    KeepsLinks s (if c then v else w) := by
  split
  · exact hv
  · exact hw

theorem KeepsLinks.withWindow {p : Port} {o : Ownership} {permit : WinState → Bool} {r : RawRef} {next : Slot → Verdict}
    (h : ∀ i, KeepsLinks s (next i)) : KeepsLinks s (withWindow s p o permit r next) := by
  unfold Machine.withWindow
  split
  · exact .refuse
  · exact h _

theorem KeepsLinks.evaluate {p : Port} {r : Request} {taken : List Byte → Verdict} (h : ∀ ps, KeepsLinks s (taken ps)) :
    KeepsLinks s (evaluate p r taken) := by
  cases hv : Machine.evaluate p r taken with
  | refuse st => exact .refuse
  | answer t st payload => exact (evaluate_eq_answer hv).2.2 ▸ h r.params

/-- The port of a request that is being processed holds the response of a verdict that leaves the links (R182, R183). -/
theorem linkInv_settle (h : LinkInv s) {p : Port} {r : Request} (hr : Processing s p r) {v : Verdict} (hv : KeepsLinks s v) (tag : Byte) :
    LinkInv (v.settle s p tag) := by
  cases v with
  | refuse st => exact linkInv_hold h hr _
  | answer t st payload => exact linkInv_hold (linkInv_of_links h hv) ((congrArg (fun n => (n.get p).phase) hv).trans hr) _

theorem linkInv_complete (h : LinkInv s) {p : Port} {code : Byte} {taken : List Byte → Verdict} (ht : ∀ ps, KeepsLinks s (taken ps)) :
    LinkInv (complete s p code taken) := by
  unfold complete
  split
  · next r hr =>
    split
    · exact linkInv_settle h hr (.evaluate ht) _
    · exact h
  · exact h

/-! Each request's own evaluation. -/

section
variable {p : Port} {ps : List Byte}

theorem links_settle (t : State) : (settleEngine t).links = t.links := by rw [settleEngine_frame]

theorem links_retire (s : State) (i : Slot) (c : RetireCause) : (retireWindow s i c).links = s.links :=
  congrArg Steady.links (retireWindow_steady s i c)

theorem takeSubscribe_links : KeepsLinks s (takeSubscribe s p ps) := by
  unfold takeSubscribe
  split
  · exact .refuse
  · exact .answer rfl

theorem takeDetach_links : KeepsLinks s (takeDetach s p ps) := .answer (congrArg Steady.links (detachPort_kept s p).1)

theorem takeCreate_links : KeepsLinks s (takeCreate s p ps) := by
  unfold takeCreate
  split
  · exact .refuse
  · split
    · exact .refuse
    · exact .ite .refuse (.ite .refuse (.answer rfl))

theorem takeRetire_links : KeepsLinks s (takeRetire s p ps) :=
  .withWindow fun i => .answer ((links_settle _).trans (links_retire s i _))

theorem takeStage_links : KeepsLinks s (takeStage s p ps) :=
  .withWindow fun _ => .ite .refuse (.ite .refuse (.ite .refuse (.ite .refuse (.answer rfl))))

theorem takeDiscard_links : KeepsLinks s (takeDiscard s p ps) := .withWindow fun _ => .ite .refuse (.answer rfl)

theorem takeArm_links : KeepsLinks s (takeArm s p ps) := by
  unfold takeArm
  split
  · exact .refuse
  · refine .ite .refuse ?_
    split
    · exact .refuse
    · split
      · exact .refuse
      · exact .answer rfl

theorem takeDisarm_links : KeepsLinks s (takeDisarm s p ps) := .withWindow fun i => by
  split
  · exact .refuse
  · exact .answer (by rw [removeUnit_frame])

theorem takeRenew_links : KeepsLinks s (takeRenew s p ps) := .withWindow fun i => .answer (by split <;> rfl)

theorem takeOpenStream_links : KeepsLinks s (takeOpenStream s p ps) := .withWindow fun i => by
  dsimp only
  split
  · exact .refuse
  · refine .ite .refuse ?_
    split
    · exact .refuse
    · exact .ite .refuse (.answer rfl)

theorem takePut_links : KeepsLinks s (takePut s p ps) := by
  unfold takePut
  split
  · exact .refuse
  · exact .ite .refuse (.ite .refuse (.answer (by rw [acceptOp_frame]; rfl)))

theorem takeCloseStream_links : KeepsLinks s (takeCloseStream s p ps) := by
  unfold takeCloseStream
  split
  · exact .refuse
  · exact .answer rfl

theorem takeFill_links : KeepsLinks s (takeFill s p ps) := .withWindow fun i => by
  dsimp only
  split
  · exact .refuse
  · split
    · exact .refuse
    · refine .ite .refuse ?_
      split
      · exact .refuse
      · exact .ite .refuse (.answer (by rw [acceptOp_frame]))

theorem takeCopy_links : KeepsLinks s (takeCopy s p ps) := .withWindow fun i => .withWindow fun j => by
  dsimp only
  split
  · split
    · exact .ite .refuse (.ite .refuse (.ite .refuse (.answer (by rw [acceptOp_frame]))))
    · exact .refuse
  · exact .refuse

theorem takeCancelOp_links : KeepsLinks s (takeCancelOp s p ps) :=
  .ite (.answer ((links_settle _).trans (by rw [cancelOps_frame]))) .refuse

theorem takeOffer_links : KeepsLinks s (takeOffer s p ps) := .withWindow fun _ => .ite .refuse (.ite .refuse (.answer rfl))

theorem takeAccept_links : KeepsLinks s (takeAccept s p ps) :=
  .withWindow fun _ => .ite .refuse (.ite .refuse (.answer (by rw [transferWindow_frame])))

theorem takeDecline_links : KeepsLinks s (takeDecline s p ps) :=
  .withWindow fun _ => .ite .refuse (.answer (by rw [declineOffer_frame]))

theorem takeWithdraw_links : KeepsLinks s (takeWithdraw s p ps) := .withWindow fun i => by
  dsimp only
  split
  · exact .refuse
  · exact .answer rfl

theorem takeSetProfile_links : KeepsLinks s (takeSetProfile s ps) := by
  unfold takeSetProfile
  split
  · exact .refuse
  · refine .ite .refuse ?_
    split
    · exact .refuse
    · exact .answer rfl

theorem takeSwitchProfile_links : KeepsLinks s (takeSwitchProfile s ps) := by
  unfold takeSwitchProfile
  split
  · exact .refuse
  · exact .ite .refuse (.ite (.answer rfl) (.answer rfl))

theorem takeDisplay_links : KeepsLinks s (takeDisplay s ps) := by
  unfold takeDisplay
  split
  · exact .refuse
  · exact .answer rfl

theorem takeSetQuota_links : KeepsLinks s (takeSetQuota s ps) := .ite .refuse (.answer rfl)

theorem takeSetGrace_links : KeepsLinks s (takeSetGrace s ps) := .ite .refuse (.answer rfl)

theorem takeRestart_links : KeepsLinks s (takeRestart s ps) := .answer (by rw [restartDevice_eq_settle, settleEngine_frame]; rfl)

end

end

/-! The device's events. -/

/-- An event a command names by a handle, which leaves the links where it is due (log entry 3). -/
theorem linkInv_of_due {s t : State} (hs : LinkInv s) {n : Nat} {due : Slot → Bool} {event : Slot → State}
    (h : (match slotOfHandle n with | some i => if due i then event i else s | none => s) = t)
    (hev : ∀ i, (event i).links = s.links) : LinkInv t := by
  subst h
  split
  · split
    · exact linkInv_of_links hs (hev _)
    · exact hs
  · exact hs

/-! The pins. -/

theorem linkOk_beginTransaction (s : State) (p : Port) :
    linkOk { s.links.get p with transaction := some (beginTransaction s p) } := by
  rintro t ⟨⟩ hc
  unfold beginTransaction at hc ⊢
  cases hp : (s.links.get p).phase with
  | idle | processing r => simp [hp] at hc
  | held r => exact ⟨flagsAt s p, by simp⟩

theorem linkInv_selectAssert {s : State} (h : LinkInv s) (p : Port) : LinkInv (selectAssert s p) := by
  unfold selectAssert
  dsimp only
  split
  · exact h
  · exact linkInv_setLink h p (linkOk_beginTransaction s p)

/-- After a release of select no transaction is in progress (R178). -/
theorem releaseLink_transaction (l : Link) (bits : List Bool) : (releaseLink l bits).transaction = none := by
  have hconsume : ∀ (t : Transaction) (n : Nat) (m : Link), (consumePhase t n m).transaction = m.transaction := by
    intro t n m
    unfold consumePhase
    split
    · split <;> rfl
    · rfl
  have hjudge : ∀ (c : Carried) (m : Link), (judgePhase c m).transaction = m.transaction := by
    intro c m
    unfold judgePhase
    split
    · rfl
    · rfl
    · split <;> rfl
  unfold releaseLink
  split
  · assumption
  · dsimp only
    split
    · rw [hjudge, hconsume]
    · rfl

/-- A transaction that goes on over a hardware reset carries nothing (R187). -/
theorem linkOk_resetLink (l : Link) : linkOk (resetLink l) := by
  intro t ht hc
  obtain ⟨-, -, rfl⟩ := Option.map_eq_some_iff.1 ht
  cases hc

/-- Every command keeps the links sound: the pins by their own rules, the completion of a request by holding its response, and no other event
touches a link. -/
theorem linkInv_exec {c : Instr} {s t : State} (hs : LinkInv s) (h : exec c s = .next t) : LinkInv t := by
  cases c <;> try replace h := Host.Outcome.next.inj h
  case hardwareReset => exact h ▸ ⟨linkOk_resetLink _, linkOk_resetLink _⟩
  case selectAssert p => exact h ▸ linkInv_selectAssert hs p
  case selectRelease p bits => exact h ▸ linkInv_setLink hs p (linkOk_of_released (releaseLink_transaction ..))
  case nop | status | collect | listOwned | listStack => exact h ▸ linkInv_complete hs fun _ => .answer rfl
  case query => exact h ▸ linkInv_complete hs fun _ => .withWindow fun _ => .answer rfl
  case subscribe => exact h ▸ linkInv_complete hs fun _ => takeSubscribe_links
  case detach => exact h ▸ linkInv_complete hs fun _ => takeDetach_links
  case create => exact h ▸ linkInv_complete hs fun _ => takeCreate_links
  case retire => exact h ▸ linkInv_complete hs fun _ => takeRetire_links
  case stage => exact h ▸ linkInv_complete hs fun _ => takeStage_links
  case discard => exact h ▸ linkInv_complete hs fun _ => takeDiscard_links
  case arm => exact h ▸ linkInv_complete hs fun _ => takeArm_links
  case disarm => exact h ▸ linkInv_complete hs fun _ => takeDisarm_links
  case renew => exact h ▸ linkInv_complete hs fun _ => takeRenew_links
  case openStream => exact h ▸ linkInv_complete hs fun _ => takeOpenStream_links
  case put => exact h ▸ linkInv_complete hs fun _ => takePut_links
  case closeStream => exact h ▸ linkInv_complete hs fun _ => takeCloseStream_links
  case fill => exact h ▸ linkInv_complete hs fun _ => takeFill_links
  case copy => exact h ▸ linkInv_complete hs fun _ => takeCopy_links
  case cancelOp => exact h ▸ linkInv_complete hs fun _ => takeCancelOp_links
  case offer => exact h ▸ linkInv_complete hs fun _ => takeOffer_links
  case accept => exact h ▸ linkInv_complete hs fun _ => takeAccept_links
  case decline => exact h ▸ linkInv_complete hs fun _ => takeDecline_links
  case withdraw => exact h ▸ linkInv_complete hs fun _ => takeWithdraw_links
  case setProfile => exact h ▸ linkInv_complete hs fun _ => takeSetProfile_links
  case switchProfile => exact h ▸ linkInv_complete hs fun _ => takeSwitchProfile_links
  case display => exact h ▸ linkInv_complete hs fun _ => takeDisplay_links
  case setBackground => exact h ▸ linkInv_complete hs fun _ => .answer rfl
  case setQuota => exact h ▸ linkInv_complete hs fun _ => takeSetQuota_links
  case setGrace => exact h ▸ linkInv_complete hs fun _ => takeSetGrace_links
  case restart => exact h ▸ linkInv_complete hs fun _ => takeRestart_links
  case undefinedRequest p =>
    subst h
    split
    · next r hr =>
      split
      · exact hs
      · exact linkInv_settle hs hr (.evaluate fun _ => .refuse) _
    · exact hs
  case operationCompletion =>
    simp only [exec, execOperationCompletion] at h
    split at h
    · split at h
      · exact linkInv_of_links hs (by rw [← Host.Outcome.next.inj h, completeOp_frame])
      · cases h
    · exact Host.Outcome.next.inj h ▸ hs
  case scrubCompletion =>
    simp only [exec, execScrubCompletion] at h
    split at h
    · exact linkInv_of_links hs (by rw [← Host.Outcome.next.inj h, completeScrub_frame])
    · exact Host.Outcome.next.inj h ▸ hs
  case frameBoundary order => exact linkInv_of_links hs (h ▸ congrArg Steady.links (frameBoundary_kept order s).1)
  case commitExpiry n => exact linkInv_of_due hs h fun _ => by rw [expireUnit_frame]
  case lapse n => exact linkInv_of_due hs h fun _ => by rw [lapseWindow_frame]
  case eviction n => exact linkInv_of_due hs h fun i => (links_settle _).trans (links_retire _ i .eviction)
  case offerExpiry n => exact linkInv_of_due hs h fun _ => rfl

/-- Settles O55: the notices and the quotas by the change a command makes, which a held response leaves alone; the links by the command, since
a transaction that sends is bound to the response its own port holds. -/
theorem noticesQuotasAndLinksStaySound : Obligations.NoticesQuotasAndLinksStaySound := by
  intro s t hn hq hl h
  have hkeeps : NoticesInv t ∧ QuotaInv t :=
    step_keeps (I := fun s => NoticesInv s ∧ QuotaInv s) (fun _ _ _ hu => hu) (fun _ _ hu => hu)
      (fun _ _ _ hv hc => ⟨noticesInv_change hv.1 hc, quotaInv_change hv.2 hc⟩) ⟨hn, hq⟩ h
  refine ⟨hkeeps.1, hkeeps.2, ?_⟩
  unfold step at h
  split at h
  · exact Host.Outcome.next.inj h ▸ hl
  · next c rest _ => exact linkInv_exec (s := { s with pending := rest }) hl h

end Sys2Proof.Machine
end

