-- ==== Sys2Proof/Proofs/DrawingRequests.lean ====
section
/-! What OPEN_STREAM, PUT, CLOSE_STREAM, FILL and COPY read from their parameters, check and accept (R43, R44, R45, R50 to R54, R56 to R58, R189,
R194). -/

namespace Sys2Proof.Machine

open Sys2Proof.Safety

/-! ## Parameters, roles and rectangles -/

@[simp] theorem rectAt_cons_succ (b : Byte) (ps : List Byte) (k : Nat) : rectAt (b :: ps) (k + 1) = rectAt ps k := rfl

@[simp] theorem colourAt_cons_succ (b : Byte) (ps : List Byte) (k : Nat) : colourAt (b :: ps) (k + 1) = colourAt ps k := rfl

@[simp] theorem refAt_cons_succ (b : Byte) (ps : List Byte) (k : Nat) : refAt (b :: ps) (k + 1) = refAt ps k := rfl

/-- Every field of a rectangle fits the two bytes it is sent in (R189). -/
def Rect.sendable (r : Rect) : Prop := r.x < 65536 ∧ r.y < 65536 ∧ r.width < 65536 ∧ r.height < 65536

/-- A rectangle that is sent is read back (R189). -/
theorem rectAt_rectParam {r : Rect} (h : r.sendable) (ps : List Byte) : rectAt (rectParam r ++ ps) 0 = r := by
  obtain ⟨hx, hy, hw, hh⟩ := h
  have hread : rectAt (rectParam r ++ ps) 0 =
      ⟨be16At (be16 r.x ++ []) 0, be16At (be16 r.y ++ []) 0, be16At (be16 r.width ++ []) 0, be16At (be16 r.height ++ []) 0⟩ := rfl
  rw [hread, be16At_be16 hx, be16At_be16 hy, be16At_be16 hw, be16At_be16 hh]

/-- A rectangle inside a window of the greatest size or less can be sent (R3, R189). -/
theorem sendable_of_inside {r : Rect} {w : Window} (h : inside r w = true) (hw : w.width ≤ 480) (hh : w.height ≤ 320) : r.sendable := by
  obtain ⟨-, -, hx, hy⟩ := inside_iff.1 h
  unfold Rect.sendable
  omega

/-- The part refuses exactly the rectangles that do not lie inside (R50). -/
theorem rectBad_eq (r : Rect) (w : Window) : rectBad r w = !inside r w := by
  rw [Bool.eq_iff_iff, Bool.not_eq_true', ← Bool.not_eq_true, inside_iff]
  simp only [rectBad, Bool.or_eq_true, decide_eq_true_eq]
  omega

theorem roleOf_eq_none {b : Byte} : roleOf b = none ↔ b ≠ 0x00 ∧ b ≠ 0x01 := by
  unfold roleOf
  constructor
  · intro h
    split at h
    · cases h
    · next h0 =>
      split at h
      · cases h
      · next h1 => exact ⟨h0, h1⟩
  · rintro ⟨h0, h1⟩
    rw [if_neg h0, if_neg h1]

theorem resolveRole_back (w : Window) : resolveRole w .back = if w.double then some (otherId w.front) else none := rfl

theorem double_eq_false {w : Window} : w.double = false ↔ w.surface1 = none := by
  simp [Window.double]

/-- A role byte that names an identity is a role that resolves to it (R44). -/
theorem roleNames_iff {w : Window} {b : Byte} {id : SurfaceId} :
    RoleNames w b id ↔ ∃ role, roleOf b = some role ∧ resolveRole w role = some id := by
  constructor
  · rintro (⟨rfl, rfl⟩ | ⟨rfl, hd, hne⟩)
    · exact ⟨.front, rfl, rfl⟩
    · refine ⟨.back, rfl, ?_⟩
      rw [resolveRole_back, if_pos hd, other_eq_iff.2 hne]
  · rintro ⟨role, hb, hr⟩
    unfold roleOf at hb
    split at hb
    · next h0 =>
      cases hb
      cases hr
      exact .inl ⟨h0, rfl⟩
    · split at hb
      · next h1 =>
        cases hb
        rw [resolveRole_back] at hr
        split at hr
        · next hd =>
          cases hr
          exact .inr ⟨h1, hd, other_eq_iff.1 rfl⟩
        · cases hr
      · cases hb

/-- A reference to a window of the port's own passes the check with ownership (R10, R11). -/
theorem refCheck_own {s : State} {p : Port} {r : RawRef} {i : Slot} (h : NamesOwn s p r i) : refCheck s p .owner permitLive r = .ok i := by
  obtain ⟨hh, hg, ho, hl⟩ := h
  refine refCheck_eq_ok.2 ⟨hh, fun hfree => ?_, hg.symm, ownershipOk_owner.2 ho, hl⟩
  simp [live, hfree, permitLive] at hl

/-! ## Accepted operations (R43, R45, R46) -/

/-- An accepted operation stands at the queue's tail under the port's next op number, and the engine is at work (R43, R45, R46). -/
theorem acceptOp_eq (s : State) (p : Port) (dest : WinRef) (id : SurfaceId) (body : OpBody) :
    acceptOp s p dest id body =
      { s with
        opQueue := s.opQueue ++ [⟨p, s.opCounter.get p, dest, id, body⟩]
        opCounter := s.opCounter.set p (s.opCounter.get p + 1)
        activity := acceptedActivity s } := by
  have hact : (acceptOp s p dest id body).activity = acceptedActivity s := by
    simp only [acceptOp, settleEngine_activity, acceptedActivity]
    simp
  rw [acceptOp_frame, hact]

theorem queueFull_iff {s : State} : queueFull s = true ↔ 8 ≤ s.opQueue.length := decide_eq_true_iff

/-! ## Pixel values (R52, R57) -/

/-- A colour packed by fields is the colour packed by arithmetic (R57, R123). -/
theorem to565_eq (c : Colour) : to565 c = packed565 c := by
  have hr := c.red.isLt
  have hg := c.green.isLt
  have hb := c.blue.isLt
  apply BitVec.eq_of_toNat_eq
  simp only [to565, packed565, BitVec.toNat_append, BitVec.extractLsb'_toNat, BitVec.toNat_ofNat, Nat.shiftRight_eq_div_pow]
  rw [← Nat.shiftLeft_add_eq_or_of_lt (by omega), ← Nat.shiftLeft_add_eq_or_of_lt (by omega)]
  simp only [Nat.shiftLeft_eq]
  omega

/-- The value of a FILL is taken exactly where it suits the format, and is the pixel the FILL writes (R56, R57). -/
theorem fillValue_eq (fmt : Format) (c : Colour) : fillValue fmt c = if fillOk fmt c then some (fillPixel fmt c) else none := by
  cases fmt with
  | c16 => simp [fillValue, fillPixel, to565_eq]
  | c24 => simp [fillValue, fillPixel]
  | m1 =>
    unfold fillValue fillPixel
    by_cases h0 : c = ⟨0, 0, 0⟩
    · subst h0
      rfl
    · by_cases h1 : c = ⟨0, 0, 1⟩
      · subst h1
        rfl
      · exact (if_neg h0).trans ((if_neg h1).trans (if_neg fun h => (h rfl).elim h0 h1).symm)

/-! ## The requests that name a window by a role, equation by case -/

section
variable {s : State} {p : Port} {h g role h' g' role' : Byte} {i j : Slot} {id id' : SurfaceId} {r : Rect} {c : Colour} {x y : Nat}

theorem takeOpenStream_badParam (hown : NamesOwn s p ⟨h, g⟩ i) (hrole : roleOf role = none) (ps : List Byte) :
    takeOpenStream s p ([h, g, role] ++ ps) = .refuse .badParam :=
  (withWindow_ok (refCheck_own hown)).trans (by simp [hrole])

theorem takeOpenStream_streamOpen (hown : NamesOwn s p ⟨h, g⟩ i) (hrole : roleOf role ≠ none) (hopen : s.streams.get p ≠ none)
    (ps : List Byte) : takeOpenStream s p ([h, g, role] ++ ps) = .refuse .streamOpen := by
  obtain ⟨a, ha⟩ := Option.ne_none_iff_exists'.1 hrole
  obtain ⟨v, hv⟩ := Option.ne_none_iff_exists'.1 hopen
  exact (withWindow_ok (refCheck_own hown)).trans (by simp [ha, hv])

theorem takeOpenStream_badTarget (hown : NamesOwn s p ⟨h, g⟩ i) (hrole : roleOf role = some .back) (hclosed : s.streams.get p = none)
    (hs : (s.win i).surface1 = none) (ps : List Byte) : takeOpenStream s p ([h, g, role] ++ ps) = .refuse .badTarget :=
  (withWindow_ok (refCheck_own hown)).trans (by simp [hrole, hclosed, resolveRole_back, double_eq_false.2 hs])

/-- OPEN_STREAM with a role that names an identity, on a port without a stream (R50). -/
theorem takeOpenStream_named (hown : NamesOwn s p ⟨h, g⟩ i) (hrole : RoleNames (s.win i) role id) (hclosed : s.streams.get p = none)
    (hr : r.sendable) :
    takeOpenStream s p ([h, g, role] ++ rectParam r) =
      if inside r (s.win i) = true then
        .answer (s.setStream p (some ⟨s.refOf i, id, r, r.x, r.y, r.width * r.height⟩)) .done []
      else .refuse .badRect := by
  obtain ⟨a, ha, hid⟩ := roleNames_iff.1 hrole
  have hrect : rectAt ([h, g, role] ++ rectParam r) 3 = r := by simpa using rectAt_rectParam hr []
  refine (withWindow_ok (refCheck_own hown)).trans ?_
  simp only [hrect]
  cases hin : inside r (s.win i) <;> simp [ha, hclosed, hid, rectBad_eq, hin]

theorem takeFill_badParam (hown : NamesOwn s p ⟨h, g⟩ i) (hrole : roleOf role = none) (ps : List Byte) :
    takeFill s p ([h, g, role] ++ ps) = .refuse .badParam :=
  (withWindow_ok (refCheck_own hown)).trans (by simp [hrole])

theorem takeFill_badTarget (hown : NamesOwn s p ⟨h, g⟩ i) (hrole : roleOf role = some .back) (hs : (s.win i).surface1 = none)
    (ps : List Byte) : takeFill s p ([h, g, role] ++ ps) = .refuse .badTarget :=
  (withWindow_ok (refCheck_own hown)).trans (by simp [hrole, resolveRole_back, double_eq_false.2 hs])

/-- FILL with a role that names an identity (R56, R57). -/
theorem takeFill_named (hown : NamesOwn s p ⟨h, g⟩ i) (hrole : RoleNames (s.win i) role id) (hr : r.sendable) :
    takeFill s p ([h, g, role] ++ rectParam r ++ [c.red, c.green, c.blue]) =
      if inside r (s.win i) = false then .refuse .badRect
      else if ¬ fillOk (s.win i).format c then .refuse .badParam
      else if 8 ≤ s.opQueue.length then .refuse .busy
      else .answer (acceptOp s p (s.refOf i) id (.fill r (fillPixel (s.win i).format c))) .accepted [s.opCounter.get p] := by
  obtain ⟨a, ha, hid⟩ := roleNames_iff.1 hrole
  have hrect : rectAt ([h, g, role] ++ rectParam r ++ [c.red, c.green, c.blue]) 3 = r := by
    simpa using rectAt_rectParam hr [c.red, c.green, c.blue]
  have hcolour : colourAt ([h, g, role] ++ rectParam r ++ [c.red, c.green, c.blue]) 11 = c := rfl
  have hbyte : byteAt ([h, g, role] ++ rectParam r ++ [c.red, c.green, c.blue]) 2 = role := rfl
  refine (withWindow_ok (refCheck_own hown)).trans ?_
  simp only [hrect, hcolour, hbyte, ha, hid, fillValue_eq, rectBad_eq, queueFull_iff, Bool.not_eq_true']
  by_cases hc : fillOk (s.win i).format c
  · rw [if_pos hc, if_neg (not_not.2 hc)]
  · rw [if_neg hc, if_pos hc]

/-- The parameters of a COPY are read back (R191). -/
theorem copyParams_read (hr : r.sendable) (hx : x < 65536) (hy : y < 65536) (ps : List Byte)
    (hps : ps = [h, g, role] ++ rectParam r ++ [h', g', role'] ++ be16 x ++ be16 y) :
    refAt ps 0 = ⟨h, g⟩ ∧ refAt ps 11 = ⟨h', g'⟩ ∧ byteAt ps 2 = role ∧ byteAt ps 13 = role' ∧ rectAt ps 3 = r ∧
      be16At ps 14 = x ∧ be16At ps 16 = y := by
  subst hps
  refine ⟨rfl, rfl, rfl, rfl, ?_, (be16At_be16 hx (be16 y) :), (be16At_be16 hy [] :)⟩
  simpa using rectAt_rectParam hr ([h', g', role'] ++ be16 x ++ be16 y)

section
variable {ps : List Byte} (hps : ps = [h, g, role] ++ rectParam r ++ [h', g', role'] ++ be16 x ++ be16 y) (hr : r.sendable)
  (hx : x < 65536) (hy : y < 65536) (hown : NamesOwn s p ⟨h, g⟩ i) (hown' : NamesOwn s p ⟨h', g'⟩ j)
include hps hr hx hy hown hown'

theorem takeCopy_badParam (hrole : roleOf role = none ∨ roleOf role' = none) : takeCopy s p ps = .refuse .badParam := by
  obtain ⟨hsrc, hdst, hb, hb', -, -, -⟩ := copyParams_read hr hx hy ps hps
  rw [← hsrc] at hown
  rw [← hdst] at hown'
  refine (withWindow_ok (refCheck_own hown)).trans ((withWindow_ok (refCheck_own hown')).trans ?_)
  simp only [hb, hb']
  obtain h0 | h0 := hrole
  · simp [h0]
  · cases h1 : roleOf role <;> simp [h0]

theorem takeCopy_badTarget {a a' : Role} (ha : roleOf role = some a) (ha' : roleOf role' = some a')
    (hres : resolveRole (s.win i) a = none ∨ resolveRole (s.win j) a' = none) : takeCopy s p ps = .refuse .badTarget := by
  obtain ⟨hsrc, hdst, hb, hb', -, -, -⟩ := copyParams_read hr hx hy ps hps
  rw [← hsrc] at hown
  rw [← hdst] at hown'
  refine (withWindow_ok (refCheck_own hown)).trans ((withWindow_ok (refCheck_own hown')).trans ?_)
  simp only [hb, hb', ha, ha']
  obtain h0 | h0 := hres
  · simp [h0]
  · cases h1 : resolveRole (s.win i) a <;> simp [h0]

/-- COPY with roles that name identities (R58). -/
theorem takeCopy_named (hrole : RoleNames (s.win i) role id) (hrole' : RoleNames (s.win j) role' id') :
    takeCopy s p ps =
      if (s.win i).format ≠ (s.win j).format then .refuse .badFormat
      else if inside r (s.win i) = false ∨ inside ⟨x, y, r.width, r.height⟩ (s.win j) = false then .refuse .badRect
      else if 8 ≤ s.opQueue.length then .refuse .busy
      else .answer (acceptOp s p (s.refOf j) id' (.copy (s.refOf i) id r x y)) .accepted [s.opCounter.get p] := by
  obtain ⟨a, ha, hid⟩ := roleNames_iff.1 hrole
  obtain ⟨a', ha', hid'⟩ := roleNames_iff.1 hrole'
  obtain ⟨hsrc, hdst, hb, hb', hrect, hx', hy'⟩ := copyParams_read hr hx hy ps hps
  rw [← hsrc] at hown
  rw [← hdst] at hown'
  refine (withWindow_ok (refCheck_own hown)).trans ((withWindow_ok (refCheck_own hown')).trans ?_)
  simp only [hb, hb', ha, ha', hid, hid', hrect, hx', hy', rectBad_eq, queueFull_iff, Bool.or_eq_true, Bool.not_eq_true']

end

end

/-! ## Streams (O28) -/

/-- Settles O28: the rectangle is read back, the role resolves, and no check of OPEN_STREAM fails. -/
theorem streamsOpenAndClose : Obligations.StreamsOpenAndClose := by
  constructor
  · intro s p tag h g role i id r hp hown hrole hclosed hin hw hh
    have htaken := (takeOpenStream_named hown hrole hclosed (sendable_of_inside hin hw hh)).trans (if_pos hin)
    exact congrArg Host.Outcome.next (complete_answer hp rfl (by decide) rfl (.inr rfl) htaken)
  · intro s p tag hp
    constructor
    · intro hopen
      obtain ⟨v, hv⟩ := Option.ne_none_iff_exists'.1 hopen
      exact congrArg Host.Outcome.next (complete_answer hp rfl (by decide) rfl (.inr rfl) (by simp [takeCloseStream, hv]))
    · intro hclosed
      exact congrArg Host.Outcome.next (complete_refuse hp rfl (by decide) rfl (.inr rfl) (by simp [takeCloseStream, hclosed]))

/-! ## Accepted FILL and COPY (O30) -/

/-- Settles O30: with the queue not full no check fails, and the operation that is accepted is the one the parameters give. -/
theorem fillAndCopyAccepted : Obligations.FillAndCopyAccepted := by
  intro s p tag h g role i id r hown hrole hin hw hh hroom
  have hr := sendable_of_inside hin hw hh
  constructor
  · intro c hc hp
    have htaken := takeFill_named (c := c) hown hrole hr
    rw [if_neg (by simp [hin]), if_neg (not_not.2 hc), if_neg (by omega), acceptOp_eq] at htaken
    exact congrArg Host.Outcome.next (complete_answer hp rfl (by decide) rfl (.inr rfl) htaken)
  · intro h' g' role' j id' x y hown' hrole' hfmt hin' hw' hh' hp
    obtain ⟨hx, hy, -, -⟩ := sendable_of_inside hin' hw' hh'
    have htaken := takeCopy_named rfl hr hx hy hown hown' hrole hrole'
    rw [if_neg (not_not.2 hfmt.symm), if_neg (by simp [hin, hin']), if_neg (by omega), acceptOp_eq] at htaken
    exact congrArg Host.Outcome.next (complete_answer hp rfl (by decide) rfl (.inr rfl) htaken)

/-! ## Refusals in order (O31) -/

section
variable {p : Port} {h g role : Byte} {i : Slot} {r : Rect}

theorem roleOf_back {b : Byte} (h : b = 0x01) : roleOf b = some .back := by
  subst h
  rfl

theorem roleOf_ne_none {b : Byte} (h : b = 0x00 ∨ b = 0x01) : roleOf b ≠ none := by
  rw [Ne, roleOf_eq_none]
  rintro ⟨h0, h1⟩
  exact h.elim h0 h1

theorem roleOf_none_of_lt {b : Byte} (h : 1 < b.toNat) : roleOf b = none := by
  refine roleOf_eq_none.2 ⟨?_, ?_⟩ <;>
  · rintro rfl
    simp at h

theorem roleOf_some_of_le {b : Byte} (h : b.toNat ≤ 1) : ∃ a, roleOf b = some a := by
  refine Option.ne_none_iff_exists'.1 (roleOf_ne_none ?_)
  obtain h | h : b.toNat = 0 ∨ b.toNat = 1 := by omega
  · exact .inl (BitVec.eq_of_toNat_eq h)
  · exact .inr (BitVec.eq_of_toNat_eq h)

/-- A role byte that names BACK of a single-surfaced window resolves to nothing (R44). -/
theorem resolveRole_single {w : Window} {b : Byte} {a : Role} (ha : roleOf b = some a) (h : b = 0x01 ∧ w.surface1 = none) :
    resolveRole w a = none := by
  obtain ⟨hb, hs⟩ := h
  rw [roleOf_back hb] at ha
  cases ha
  rw [resolveRole_back, double_eq_false.2 hs]
  rfl

theorem openStream_refusals {s : State} {tag : Byte} (hown : NamesOwn s p ⟨h, g⟩ i) (hr : r.sendable)
    (hp : Processing s p ⟨0x30, tag, [h, g, role] ++ rectParam r⟩) :
    (role ≠ 0x00 → role ≠ 0x01 → exec (.openStream p) s = .next (s.hold p ⟨.badParam, tag, []⟩)) ∧
    (role = 0x00 ∨ role = 0x01 → s.streams.get p ≠ none → exec (.openStream p) s = .next (s.hold p ⟨.streamOpen, tag, []⟩)) ∧
    (role = 0x01 → s.streams.get p = none → (s.win i).surface1 = none →
      exec (.openStream p) s = .next (s.hold p ⟨.badTarget, tag, []⟩)) ∧
    (∀ id, RoleNames (s.win i) role id → s.streams.get p = none → inside r (s.win i) = false →
      exec (.openStream p) s = .next (s.hold p ⟨.badRect, tag, []⟩)) := by
  have refuses {st : Status} (ht : takeOpenStream s p ([h, g, role] ++ rectParam r) = .refuse st) :
      exec (.openStream p) s = .next (s.hold p ⟨st, tag, []⟩) :=
    congrArg Host.Outcome.next (complete_refuse hp rfl (by decide) rfl (.inr rfl) ht)
  refine ⟨fun h0 h1 => refuses (takeOpenStream_badParam hown (roleOf_eq_none.2 ⟨h0, h1⟩) _),
    fun hrole hopen => refuses (takeOpenStream_streamOpen hown (roleOf_ne_none hrole) hopen _),
    fun hrole hclosed hs => refuses (takeOpenStream_badTarget hown (roleOf_back hrole) hclosed hs _),
    fun id hrole hclosed hin => refuses ((takeOpenStream_named hown hrole hclosed hr).trans (if_neg (by simp [hin])))⟩

theorem fill_refusals {s : State} {tag : Byte} {c : Colour} (hown : NamesOwn s p ⟨h, g⟩ i) (hr : r.sendable)
    (hp : Processing s p ⟨0x33, tag, [h, g, role] ++ rectParam r ++ [c.red, c.green, c.blue]⟩) :
    (role ≠ 0x00 → role ≠ 0x01 → exec (.fill p) s = .next (s.hold p ⟨.badParam, tag, []⟩)) ∧
    (role = 0x01 → (s.win i).surface1 = none → exec (.fill p) s = .next (s.hold p ⟨.badTarget, tag, []⟩)) ∧
    (∀ id, RoleNames (s.win i) role id →
      (inside r (s.win i) = false → exec (.fill p) s = .next (s.hold p ⟨.badRect, tag, []⟩)) ∧
      (inside r (s.win i) = true → ¬ fillOk (s.win i).format c → exec (.fill p) s = .next (s.hold p ⟨.badParam, tag, []⟩)) ∧
      (inside r (s.win i) = true → fillOk (s.win i).format c → 8 ≤ s.opQueue.length →
        exec (.fill p) s = .next (s.hold p ⟨.busy, tag, []⟩))) := by
  have refuses {st : Status} (ht : takeFill s p ([h, g, role] ++ rectParam r ++ [c.red, c.green, c.blue]) = .refuse st) :
      exec (.fill p) s = .next (s.hold p ⟨st, tag, []⟩) :=
    congrArg Host.Outcome.next (complete_refuse hp rfl (by decide) rfl (.inr rfl) ht)
  rw [List.append_assoc] at refuses
  refine ⟨fun h0 h1 => refuses (takeFill_badParam hown (roleOf_eq_none.2 ⟨h0, h1⟩) _),
    fun hrole hs => refuses (takeFill_badTarget hown (roleOf_back hrole) hs _), fun id hrole => ?_⟩
  have htaken := takeFill_named (c := c) hown hrole hr
  rw [List.append_assoc] at htaken
  refine ⟨fun hin => refuses (htaken.trans (if_pos hin)), fun hin hc => refuses (htaken.trans ?_),
    fun hin hc hfull => refuses (htaken.trans ?_)⟩
  · rw [if_neg (by simp [hin]), if_pos hc]
  · rw [if_neg (by simp [hin]), if_neg (not_not.2 hc), if_pos hfull]

theorem copy_refusals {s : State} {tag h' g' role' : Byte} {j : Slot} {x y : Nat} (hown : NamesOwn s p ⟨h, g⟩ i) (hr : r.sendable)
    (hown' : NamesOwn s p ⟨h', g'⟩ j) (hx : x < 65536) (hy : y < 65536)
    (hp : Processing s p ⟨0x34, tag, [h, g, role] ++ rectParam r ++ [h', g', role'] ++ be16 x ++ be16 y⟩) :
    (1 < role.toNat ∨ 1 < role'.toNat → exec (.copy p) s = .next (s.hold p ⟨.badParam, tag, []⟩)) ∧
    (role.toNat ≤ 1 → role'.toNat ≤ 1 →
      (role = 0x01 ∧ (s.win i).surface1 = none) ∨ (role' = 0x01 ∧ (s.win j).surface1 = none) →
      exec (.copy p) s = .next (s.hold p ⟨.badTarget, tag, []⟩)) ∧
    (∀ id id', RoleNames (s.win i) role id → RoleNames (s.win j) role' id' →
      ((s.win i).format ≠ (s.win j).format → exec (.copy p) s = .next (s.hold p ⟨.badFormat, tag, []⟩)) ∧
      ((s.win i).format = (s.win j).format →
        (inside r (s.win i) = false ∨ inside ⟨x, y, r.width, r.height⟩ (s.win j) = false →
          exec (.copy p) s = .next (s.hold p ⟨.badRect, tag, []⟩)) ∧
        (inside r (s.win i) = true → inside ⟨x, y, r.width, r.height⟩ (s.win j) = true → 8 ≤ s.opQueue.length →
          exec (.copy p) s = .next (s.hold p ⟨.busy, tag, []⟩)))) := by
  have refuses {st : Status}
      (ht : takeCopy s p ([h, g, role] ++ rectParam r ++ [h', g', role'] ++ be16 x ++ be16 y) = .refuse st) :
      exec (.copy p) s = .next (s.hold p ⟨st, tag, []⟩) :=
    congrArg Host.Outcome.next (complete_refuse hp rfl (by decide) rfl (.inr rfl) ht)
  refine ⟨fun hbad => refuses (takeCopy_badParam rfl hr hx hy hown hown' (hbad.imp roleOf_none_of_lt roleOf_none_of_lt)),
    fun hle hle' hs => ?_, fun id id' hrole hrole' => ?_⟩
  · obtain ⟨a, ha⟩ := roleOf_some_of_le hle
    obtain ⟨a', ha'⟩ := roleOf_some_of_le hle'
    exact refuses (takeCopy_badTarget rfl hr hx hy hown hown' ha ha' (hs.imp (resolveRole_single ha) (resolveRole_single ha')))
  · have htaken := takeCopy_named rfl hr hx hy hown hown' hrole hrole'
    refine ⟨fun hne => refuses (htaken.trans (if_pos hne)), fun heq => ⟨fun hbad => refuses (htaken.trans ?_),
      fun hin hin' hfull => refuses (htaken.trans ?_)⟩⟩
    · rw [if_neg (not_not.2 heq), if_pos hbad]
    · rw [if_neg (not_not.2 heq), if_neg (by simp [hin, hin']), if_pos hfull]

end

/-! PUT. -/

/-- The part refuses exactly the byte counts that do not fill whole pixels (R51). -/
theorem putLengthBad_iff {fmt : Format} {n : Nat} : putLengthBad fmt n = true ↔ ¬ wholePixels fmt n := by
  cases fmt <;> simp [putLengthBad]

/-- The byte count that the common evaluation asks of a PUT (R191). -/
theorem lengthOk_put {data : List Byte} (h1 : 1 ≤ data.length) (h2 : data.length ≤ 512) : lengthOk codePut data = true := by
  refine Eq.trans (b := decide (1 ≤ data.length) && decide (data.length ≤ 512)) rfl ?_
  rw [decide_eq_true h1, decide_eq_true h2]
  rfl

theorem put_refusals {s : State} {p : Port} {tag : Byte} {data : List Byte} (hp : Processing s p ⟨0x31, tag, data⟩)
    (h1 : 1 ≤ data.length) (h2 : data.length ≤ 512) :
    (s.streams.get p = none → exec (.put p) s = .next (s.hold p ⟨.noStream, tag, []⟩)) ∧
    (∀ v : Stream, s.streams.get p = some v →
      (¬ wholePixels (s.win v.ref.slot).format data.length → exec (.put p) s = .next (s.hold p ⟨.badLength, tag, []⟩)) ∧
      (wholePixels (s.win v.ref.slot).format data.length → 8 ≤ s.opQueue.length →
        exec (.put p) s = .next (s.hold p ⟨.busy, tag, []⟩))) := by
  have refuses {st : Status} (ht : takePut s p data = .refuse st) : exec (.put p) s = .next (s.hold p ⟨st, tag, []⟩) :=
    congrArg Host.Outcome.next (complete_refuse hp rfl (by decide) (lengthOk_put h1 h2) (.inr rfl) ht)
  refine ⟨fun hnone => refuses ?_, fun v hv => ⟨fun hbad => refuses ?_, fun hok hfull => refuses ?_⟩⟩
  · simp [takePut, hnone]
  · simp [takePut, hv, putLengthBad_iff.2 hbad]
  · have hlen : ¬ putLengthBad (s.win v.ref.slot).format data.length = true := fun h => putLengthBad_iff.1 h hok
    simp [takePut, hv, hlen, queueFull_iff.2 hfull]

/-- Settles O31: each request's refusals, branch by branch of its checks. -/
theorem drawingRefusesInOrder : Obligations.DrawingRefusesInOrder :=
  ⟨fun _ _ _ _ _ _ _ _ hown hx hy hw hh =>
    ⟨openStream_refusals hown ⟨hx, hy, hw, hh⟩, fun _ => fill_refusals hown ⟨hx, hy, hw, hh⟩,
      fun _ _ _ _ _ _ hown' hx' hy' => copy_refusals hown ⟨hx, hy, hw, hh⟩ hown' hx' hy'⟩,
    fun _ _ _ _ => put_refusals⟩

/-! ## The pixels of a PUT (O29) -/

/-- Each C16 pixel is the two bytes at its place, the first the more significant (R52). -/
theorem pixelsOf_c16 (data : List Byte) (k : Nat) (h : 2 * k + 1 < data.length) :
    (pixelsOf .c16 data)[k]? = some (.c16 (data.getD (2 * k) 0 ++ data.getD (2 * k + 1) 0)) := by
  match data, k with
  | hi :: lo :: rest, 0 => simp [pixelsOf]
  | hi :: lo :: rest, k + 1 =>
    have ih := pixelsOf_c16 rest k (by simp only [List.length_cons] at h; omega)
    simpa [pixelsOf, Nat.mul_add, Nat.add_right_comm _ 2] using ih
  | [], k => simp at h
  | [_], k => simp only [List.length_cons, List.length_nil] at h; omega

/-- Each C24 pixel is the three bytes at its place (R52). -/
theorem pixelsOf_c24 (data : List Byte) (k : Nat) (h : 3 * k + 2 < data.length) :
    (pixelsOf .c24 data)[k]? = some (.c24 ⟨data.getD (3 * k) 0, data.getD (3 * k + 1) 0, data.getD (3 * k + 2) 0⟩) := by
  match data, k with
  | r :: g :: b :: rest, 0 => simp [pixelsOf]
  | r :: g :: b :: rest, k + 1 =>
    have ih := pixelsOf_c24 rest k (by simp only [List.length_cons] at h; omega)
    simpa [pixelsOf, Nat.mul_add, Nat.add_right_comm _ 3] using ih
  | [], k => simp at h
  | [_], k | [_, _], k => simp only [List.length_cons, List.length_nil] at h; omega

/-- The eight M1 pixels of a byte, the first in the most significant bit (R52). -/
theorem bitsOfByte_getElem? (b : Byte) {k : Nat} (h : k < 8) : (bitsOfByte b)[k]? = some (b.getLsbD (7 - k)) := by
  interval_cases k <;> rfl

/-- Each M1 pixel is the bit at its place (R52). -/
theorem pixelsOf_m1 (data : List Byte) (k : Nat) (h : k < 8 * data.length) :
    (pixelsOf .m1 data)[k]? = some (.m1 ((data.getD (k / 8) 0).getLsbD (7 - k % 8))) := by
  induction data generalizing k with
  | nil => simp at h
  | cons b rest ih =>
    by_cases hk : k < 8
    · rw [pixelsOf, List.getElem?_append_left (by simpa [bitsOfByte] using hk), List.getElem?_map, bitsOfByte_getElem? b hk,
        Nat.div_eq_of_lt hk, Nat.mod_eq_of_lt hk]
      rfl
    · obtain ⟨m, rfl⟩ := Nat.exists_eq_add_of_le (Nat.le_of_not_lt hk)
      have hrest := ih m (by simp only [List.length_cons] at h; omega)
      rw [pixelsOf, List.getElem?_append_right (by simp [bitsOfByte]), show (8 + m) / 8 = m / 8 + 1 by omega,
        show (8 + m) % 8 = m % 8 by omega]
      simpa [bitsOfByte] using hrest

/-- PUT data carries as many pixels as its bytes hold (R52). -/
theorem pixelsOf_length (fmt : Format) (data : List Byte) : (pixelsOf fmt data).length = pixelsCarried fmt data.length := by
  match fmt, data with
  | .c16, hi :: lo :: rest =>
    simp only [pixelsOf, List.length_cons, pixelsOf_length .c16 rest, pixelsCarried]
    omega
  | .c16, [] | .c16, [_] => simp [pixelsOf, pixelsCarried]
  | .c24, r :: g :: b :: rest =>
    simp only [pixelsOf, List.length_cons, pixelsOf_length .c24 rest, pixelsCarried]
    omega
  | .c24, [] | .c24, [_] | .c24, [_, _] => simp [pixelsOf, pixelsCarried]
  | .m1, [] => rfl
  | .m1, b :: rest =>
    simp only [pixelsOf, List.length_append, List.length_map, pixelsOf_length .m1 rest, pixelsCarried, bitsOfByte, List.length_cons,
      List.length_nil]
    omega

/-! ## Accepted PUTs (O29) -/

/-- From a cursor inside its rectangle the cursor moves on in stream order (R51). -/
theorem advanceCursor_eq_placeAfter {r : Rect} {col row : Nat} (h : cursorInside r col row = true) (n : Nat) :
    advanceCursor r n (col, row) = placeAfter r col row n := by
  obtain ⟨hx, hxw, hy, hyh⟩ := cursorInside_iff.1 h
  obtain ⟨i, rfl⟩ := Nat.exists_eq_add_of_le hx
  obtain ⟨j, rfl⟩ := Nat.exists_eq_add_of_le hy
  have hi : i < r.width := by omega
  rw [advanceCursor_eq r (by omega) n i _ hi]
  simp only [placeAfter, Nat.add_sub_cancel_left]
  rw [Nat.add_assoc (j * r.width), Nat.mul_comm j, Nat.mul_add_mod, Nat.mul_add_div (by omega), Nat.add_assoc r.y]

/-- The stream after a PUT (R51, R53). -/
theorem streamAfter_eq {v : Stream} (h : cursorInside v.rect v.col v.row = true) {n : Nat} (hn : n ≤ v.remaining) :
    streamAfter v n = streamLeft v n := by
  unfold streamAfter streamLeft
  by_cases he : n = v.remaining
  · rw [if_pos (by omega), if_pos he]
  · rw [if_neg (by omega), if_neg he, advanceCursor_eq_placeAfter h]

theorem putStatus_eq (fmt : Format) (n : Nat) : putStatus fmt n = putAnswer fmt n := by
  cases fmt with
  | c16 | c24 => simp [putStatus, putAnswer]
  | m1 =>
    have hiff : (n < 8) ↔ (n = 0 ∨ (Format.m1 = .m1 ∧ n < 8)) := ⟨fun h => .inr ⟨rfl, h⟩, by rintro (h | ⟨-, h⟩) <;> omega⟩
    exact if_congr hiff rfl rfl

/-- A PUT that no check refuses (R51 to R53). -/
theorem takePut_of_room {s : State} {p : Port} {data : List Byte} {v : Stream} (hv : s.streams.get p = some v)
    (hok : wholePixels (s.win v.ref.slot).format data.length) (hroom : s.opQueue.length < 8) {n : Nat}
    (hn : n = min (pixelsOf (s.win v.ref.slot).format data).length v.remaining) :
    takePut s p data =
      .answer ((acceptOp s p v.ref v.id
          (.put v.rect v.col v.row ((pixelsOf (s.win v.ref.slot).format data).take n))).setStream p (streamAfter v n))
        (putStatus (s.win v.ref.slot).format ((pixelsOf (s.win v.ref.slot).format data).length - n))
        (putPayload (s.opCounter.get p) n (streamAfter v n)) := by
  have hlen : ¬ putLengthBad (s.win v.ref.slot).format data.length = true := fun h => putLengthBad_iff.1 h hok
  have hfull : ¬ queueFull s = true := fun h => Nat.not_le_of_lt hroom (queueFull_iff.1 h)
  subst hn
  simp [takePut, hv, hlen, hfull]

/-- Settles O29: the pixels by induction over the data, the acceptance by its checks and what it leaves of the stream. -/
theorem putAcceptsPixels : Obligations.PutAcceptsPixels := by
  refine ⟨fun data => ⟨pixelsOf_c16 data, pixelsOf_c24 data, pixelsOf_m1 data, fun fmt => pixelsOf_length fmt data⟩, ?_⟩
  intro s p tag data v fmt n hp h1 h2 hv hcursor hfmt hok hroom hn
  subst hfmt
  rw [← pixelsOf_length] at hn
  have htaken := takePut_of_room hv hok hroom hn
  have hle : n ≤ v.remaining := hn ▸ Nat.min_le_right ..
  rw [streamAfter_eq hcursor hle, putStatus_eq, pixelsOf_length, acceptOp_eq] at htaken
  refine congrArg Host.Outcome.next ((complete_answer (code := codePut) hp rfl (by decide) (lengthOk_put h1 h2) (.inr rfl) htaken).trans ?_)
  cases streamLeft v n <;> rfl

end Sys2Proof.Machine
end

