-- ==== Sys2Proof/Proofs/EngineAndRuledOut.lean ====
section
/-! The completion and the cancellation of engine operations, and the commands that name an event the state rules out (R46, R47, R60, R61). -/

namespace Sys2Proof.Machine

open Sys2Proof.Safety

/-! ## Completions (O38) -/

/-- With sound shapes an operation of the queue writes and reads within the block lists of its surfaces (R24, R42). -/
theorem opFits_of_shapes {s : State} (h : ShapeInv s) {op : EngineOp} (hop : op ∈ s.opQueue) : opFits s op = true := by
  have hwrites : (opWrites s op).all (fun p => pixelFits (s.win op.dest.slot) op.destId p.col p.row) = true :=
    List.all_eq_true.2 fun p hp => decide_eq_true (opWrites_writable h hop p hp).fits
  have hbody := (h.2.2 op hop).2
  unfold opFits
  rw [hwrites, Bool.true_and]
  cases hb : op.body with
  | put | fill => rfl
  | copy src srcId rect x y =>
    rw [hb] at hbody
    simp only [bodyInside, Bool.and_eq_true] at hbody
    obtain ⟨⟨⟨hlive, hin⟩, -⟩, -⟩ := hbody
    obtain ⟨-, -, hw, hh⟩ := inside_iff.1 hin
    refine List.all_eq_true.2 fun o ho => decide_eq_true ?_
    obtain ⟨m, hm⟩ := List.mem_iff_getElem?.1 ho
    rw [rectOffsets_getElem?] at hm
    split at hm
    · next hlt =>
      cases hm
      obtain ⟨hc, hr, -⟩ := place_of_number hlt
      rw [surface_length h hlive]
      exact pixelLastOffset_lt (by omega) (by omega)
    · cases hm

theorem inFlight_of_head {s : State} {op : EngineOp} {rest : List EngineOp} (ha : s.activity = .operating) (hq : s.opQueue = op :: rest) :
    inFlight s = some op := by
  simp [inFlight, ha, hq]

/-- A completion takes the head off the queue, tells its issuer, and leaves the engine to its choice (R46, R47). -/
theorem completeOp_eq {s : State} {op : EngineOp} {rest : List EngineOp} (ha : s.activity = .operating) (hq : s.opQueue = op :: rest) :
    completeOp s op =
      { s with
        opQueue := rest
        activity := choice { s with opQueue := rest }
        store := storeAfter s op (opWrites s op)
        notices := raiseAll s.notices [⟨op.issuer, .opDone, op.dest, op.opNumber.setWidth 16⟩] } := by
  have hact : (completeOp s op).activity = choice { s with opQueue := rest } := by
    simp only [completeOp, settleEngine_activity, choice, ha, ne_eq, ite_not]
    rw [raise_frame, hq]
    rfl
  have hnotices : (completeOp s op).notices = raiseAll s.notices [⟨op.issuer, .opDone, op.dest, op.opNumber.setWidth 16⟩] := by
    simp only [completeOp]
    rw [settleEngine_frame, detail, BitVec.ofNat_toNat]
    rfl
  rw [completeOp_frame, hact, hnotices, hq]
  rfl

/-- Settles O38: the shapes make the operation fit, so that the event is its completion; one that does not fit is the fault. -/
theorem operationCompletes : Obligations.OperationCompletes := by
  intro s op rest ha hq
  have hf := inFlight_of_head ha hq
  constructor
  · intro hs
    have hfits := opFits_of_shapes hs (mem_opQueue_of_inFlight hf)
    refine ⟨completeOp s op, ?_, ?_, fun a hout => ?_⟩
    · simp [exec, execOperationCompletion, hf, hfits]
    · rw [completeOp_eq ha hq]
    · rw [completeOp_eq ha hq]
      exact read_writeAll_outside hout _ _
  · intro hfits
    simp [exec, execOperationCompletion, hf, hfits]

/-! ## Cancellations (O32) -/

theorem ownOp_iff {p : Port} {n : Byte} {op : EngineOp} : ownOp p n op = true ↔ op.issuer = p ∧ op.opNumber = n := by
  simp [ownOp]

theorem ownOp_eq_false {p : Port} {n : Byte} {op : EngineOp} : ownOp p n op = false ↔ op.issuer ≠ p ∨ op.opNumber ≠ n := by
  rw [← Bool.not_eq_true, ownOp_iff]
  tauto

/-- A condition that one member of a list meets filters it out of the list, and keeps it alone. -/
theorem filter_singled_out {α : Type} {hit : α → Bool} {before after : List α} {x : α} (hx : hit x = true)
    (hrest : ∀ o ∈ before ++ after, hit o = false) :
    (before ++ x :: after).filter hit = [x] ∧ (before ++ x :: after).filter (fun o => !hit o) = before ++ after := by
  obtain ⟨hb, ha⟩ := List.forall_mem_append.1 hrest
  have none_of {l : List α} (hl : ∀ o ∈ l, hit o = false) : l.filter hit = [] := List.filter_eq_nil_iff.2 fun o ho => by simp [hl o ho]
  have all_of {l : List α} (hl : ∀ o ∈ l, hit o = false) : l.filter (fun o => !hit o) = l :=
    List.filter_eq_self.2 fun o ho => by simp [hl o ho]
  simp [List.filter_append, none_of hb, none_of ha, all_of hb, all_of ha, hx]

theorem cancelOps_notices (s : State) (hit : EngineOp → Bool) :
    (cancelOps s hit).notices = raiseAll s.notices ((s.opQueue.filter hit).map cancelRaising) := by
  rw [cancelOps_eq]
  exact congrArg (raiseAll · _) (stopped_notices s hit)

theorem cancelOps_engine (s : State) (hit : EngineOp → Bool) : EngineStop s (cancelOps s hit) (fun op => hit op = true) := by
  rw [cancelOps_eq]
  exact engineStop_of_stopped rfl rfl

/-- Settles O32: the condition singles the operation out, and what is put down of it stays by what an abandonment leaves. -/
theorem cancelOpRemovesOwnOperation : Obligations.CancelOpRemovesOwnOperation := by
  intro s p tag n hp
  constructor
  · intro hother
    have hnone : s.opQueue.any (ownOp p n) = false := List.any_eq_false.2 fun op hop => by simp [ownOp_eq_false.2 (hother op hop)]
    have htaken : takeCancelOp s p [n] = .refuse .notFound := by simp [takeCancelOp, hnone]
    exact congrArg Host.Outcome.next (complete_refuse hp rfl (by decide) rfl (.inr rfl) htaken)
  · intro before after op hq hissuer hnumber hother
    have hhit : ownOp p n op = true := ownOp_iff.2 ⟨hissuer, hnumber⟩
    obtain ⟨honly, hrest⟩ := filter_singled_out hhit fun o ho => ownOp_eq_false.2 (hother o ho)
    have hany : s.opQueue.any (ownOp p n) = true := by simp [hq, hhit]
    have htaken : takeCancelOp s p [n] = .answer (settleEngine (cancelOps s (ownOp p n))) .done [] := by simp [takeCancelOp, hany]
    have hexec : exec (.cancelOp p) s = .next _ :=
      congrArg Host.Outcome.next (complete_answer hp rfl (by decide) rfl (.inr rfl) htaken)
    have hstop := cancelOps_engine s (ownOp p n)
    have hact := hstop.choice
    have hframe := cancelOps_frame s (ownOp p n)
    rw [cancelOps_notices, hq, honly, hrest, List.map_singleton, cancelRaising_eq, hissuer, hnumber] at hframe
    generalize cancelOps s (ownOp p n) = u at *
    rw [settled_hold] at hexec
    refine ⟨_, hexec, ?_, fun a hout => hstop.read fun x hx hxhit => ?_, fun hpool hshape hf => hstop.pixels rfl hpool hshape hf⟩
    · rw [hact, hframe]
      rfl
    · have hmem := mem_opQueue_of_inFlight hx
      have hxop : x = op := by
        have hone : x ∈ s.opQueue.filter (ownOp p n) := List.mem_filter.2 ⟨hmem, hxhit⟩
        rw [hq, honly] at hone
        exact List.mem_singleton.1 hone
      subst hxop
      exact hout hx

/-! ## Events that are ruled out (O48) -/

/-- Each row of the request table is the completion of its own code (R182, R190). -/
theorem exec_requestTable {p : Port} {x : Byte × Instr} (hx : x ∈ requestTable p) (s : State) :
    ∃ taken, exec x.2 s = .next (complete s p x.1 taken) := by
  unfold requestTable at hx
  fin_cases hx <;> exact ⟨_, rfl⟩

/-- Without a request of its code in processing a completion does not arise (R182, log entry 2). -/
theorem complete_of_none {s : State} {p : Port} {code : Byte} (h : ∀ r, Processing s p r → r.code ≠ code) (taken : List Byte → Verdict) :
    complete s p code taken = s := by
  unfold complete
  split
  · next r hr => exact if_neg (h r hr)
  · rfl

theorem undefinedRequest_of_none {s : State} {p : Port} (h : ∀ r, ¬ Processing s p r) : exec (.undefinedRequest p) s = .next s := by
  refine congrArg Host.Outcome.next ?_
  split
  · next r hr => exact (h r hr).elim
  · rfl

theorem undefinedRequest_of_defined {s : State} {p : Port} {r : Request} (hr : Processing s p r)
    (hc : r.code ∈ (requestTable p).map Prod.fst) : exec (.undefinedRequest p) s = .next s := by
  refine congrArg Host.Outcome.next ?_
  rw [hr]
  exact if_pos hc

theorem selectAssert_of_asserted {s : State} {p : Port} (h : (s.links.get p).transaction ≠ none) : exec (.selectAssert p) s = .next s := by
  obtain ⟨t, ht⟩ := Option.ne_none_iff_exists'.1 h
  refine congrArg Host.Outcome.next ?_
  unfold selectAssert
  dsimp only
  rw [ht]

theorem selectRelease_of_released {s : State} {p : Port} (bits : List Bool) (h : (s.links.get p).transaction = none) :
    exec (.selectRelease p bits) s = .next s := by
  have hlink : releaseLink (s.links.get p) bits = s.links.get p := by
    unfold releaseLink
    rw [h]
  refine congrArg Host.Outcome.next ?_
  rw [hlink, State.setLink, PerPort.set_get]

theorem operationCompletion_of_none {s : State} (h : s.activity ≠ .operating ∨ s.opQueue = []) :
    exec .operationCompletion s = .next s := by
  have hf : inFlight s = none := by
    unfold inFlight
    split
    · next ha => rw [h.resolve_left (not_not.2 ha), List.head?_nil]
    · rfl
  simp [exec, execOperationCompletion, hf]

theorem scrubCompletion_of_none {s : State} (h : s.activity ≠ .scrubbing ∨ s.scrubList = []) : exec .scrubCompletion s = .next s := by
  simp only [exec, execScrubCompletion]
  split
  · next b rest ha hl => simp [ha, hl] at h
  · rfl

/-- A countdown outcome of a handle that names no slot does not arise (log entry 2). -/
theorem countdowns_of_no_slot {s : State} {n : Nat} (h : n = 0 ∨ 24 < n) :
    exec (.commitExpiry n) s = .next s ∧ exec (.lapse n) s = .next s ∧ exec (.eviction n) s = .next s ∧
      exec (.offerExpiry n) s = .next s := by
  have hslot : slotOfHandle n = none := slotOfHandle_eq_none.2 (by omega)
  simp [exec, execCommitExpiry, execLapse, execEviction, execOfferExpiry, hslot]

theorem slotOfHandle_val (i : Slot) : slotOfHandle (i.val + 1) = some i := slotOfHandle_handle i

/-- An expiry is due only where the unit is not ready and its count is 15 (R94, R99). -/
theorem expiryDue_eq_false {s : State} (hc : CommitInv s) {i : Slot}
    (h : ∀ e ∈ s.commitQueue, e.ref.slot = i → readyUnit s e ∨ e.deferral < 15) : expiryDue s i = false := by
  unfold expiryDue
  cases he : commitEntry s i with
  | none => rfl
  | some e =>
    obtain ⟨hmem, hslot⟩ := commitEntry_eq_some he
    simp only [Bool.and_eq_false_iff, Bool.not_eq_false', decide_eq_false_iff_not, Nat.not_le]
    refine (h e hmem hslot).imp (fun hready => ?_) id
    rw [filter_sameUnit hc hmem]
    exact (unitReady_iff hc).2 hready

theorem lapseDue_eq_false {s : State} (hc : CommitInv s) {i : Slot}
    (h : commitDue s i ∨ (s.win i).state ≠ .shown ∨ (s.win i).active.leaseLength = 0 ∨ (s.win i).renewPending = true ∨
      (s.win i).leaseCounter ≠ 1) : visitDue s i .lapses = false := by
  rw [← Bool.not_eq_true, visitDue_iff, mem_readySlots hc]
  rintro ⟨hout, hnot⟩
  obtain ⟨hshown, hL, hrenew, hcount⟩ := leaseOutcome_lapses hout
  simp [hnot, hshown, hL.ne', hrenew, hcount] at h

theorem evictionDue_eq_false {s : State} (hc : CommitInv s) {i : Slot} (h : commitDue s i ∨ ¬ evictionDue (s.win i)) :
    visitDue s i .evicted = false := by
  rw [← Bool.not_eq_true, visitDue_iff, mem_readySlots hc]
  rintro ⟨hout, hnot⟩
  exact h.elim hnot (· (leaseOutcome_evicted hout))

theorem offerDue_eq_false {s : State} {i : Slot} (h : ∀ v ∈ (s.win i).offer, 1 < v.frames) : offerDue s i = false := by
  unfold offerDue
  cases ho : (s.win i).offer with
  | none => rfl
  | some v => exact decide_eq_false (Nat.not_le.2 (h v ho))

/-- Settles O48: each command's own test of the state fails. -/
theorem eventsRuledOutChangeNothing : Obligations.EventsRuledOutChangeNothing := by
  refine ⟨fun s p hnone => ⟨undefinedRequest_of_none hnone, fun x hx => ?_⟩,
    fun s p r hr => ⟨undefinedRequest_of_defined hr, fun x hx hne => ?_⟩, fun _ _ => selectAssert_of_asserted,
    fun _ _ bits => selectRelease_of_released bits, fun _ => operationCompletion_of_none, fun _ => scrubCompletion_of_none,
    fun _ _ => countdowns_of_no_slot, fun s i hc => ⟨fun h => ?_, fun h => ?_, fun h => ?_⟩, fun s i h => ?_⟩
  · obtain ⟨taken, e⟩ := exec_requestTable hx s
    rw [e, complete_of_none fun r hr => (hnone r hr).elim]
  · obtain ⟨taken, e⟩ := exec_requestTable hx s
    rw [e, complete_of_none]
    intro r' hr'
    cases LinkPhase.processing.inj (hr'.symm.trans hr)
    exact hne.symm
  · simp [exec, execCommitExpiry, slotOfHandle_val, expiryDue_eq_false hc h]
  · simp [exec, execLapse, slotOfHandle_val, lapseDue_eq_false hc h]
  · simp [exec, execEviction, slotOfHandle_val, evictionDue_eq_false hc h]
  · simp [exec, execOfferExpiry, slotOfHandle_val, offerDue_eq_false h]

end Sys2Proof.Machine
end

