-- ==== Sys2Proof/Proofs/ShapesKept.lean ====
section
/-! What keeps the shapes of windows, streams and operations sound, and the engine's queue and activity: the records that references see, a
retirement, a cancellation, and the engine's choice (R41, R42, R46, R49, R61). -/

namespace Sys2Proof.Machine

open Sys2Proof.Safety

/-! ## Streams and operations one by one -/

/-- An open stream of a port is its owner's, with its cursor inside its rectangle and the pixels from there on remaining (R49). -/
def StreamOk (s : State) (p : Port) (v : Stream) : Prop :=
  surfaceLive s v.ref v.id = true ∧ (s.win v.ref.slot).owner = some p ∧ inside v.rect (s.win v.ref.slot) = true ∧
    cursorInside v.rect v.col v.row = true ∧ v.remaining = pixelsFrom v.rect v.col v.row

/-- An operation names live surfaces and lies inside them (R42, R61). -/
def OpOk (s : State) (op : EngineOp) : Prop :=
  surfaceLive s op.dest op.destId = true ∧ bodyInside s (s.win op.dest.slot) op.body = true

/-- Sound shapes, with a stream and an operation each named. -/
structure Shapes (s : State) : Prop where
  windows : ∀ i, (s.win i).state ≠ .free → shapeOk (s.win i)
  streams : ∀ p v, s.streams.get p = some v → StreamOk s p v
  ops : ∀ op ∈ s.opQueue, OpOk s op

theorem shapeInv_iff {s : State} : ShapeInv s ↔ Shapes s := by
  constructor
  · rintro ⟨hw, hs, ho⟩
    exact ⟨fun i => hw i (mem_allSlots i), fun p v hv => hs p (by cases p <;> simp) v hv, ho⟩
  · rintro ⟨hw, hs, ho⟩
    exact ⟨fun i _ => hw i, fun p _ v hv => hs p v hv, ho⟩

theorem surfaceLive_iff {s : State} {r : WinRef} {id : SurfaceId} :
    surfaceLive s r id = true ↔ s.refOf r.slot = r ∧ live (s.win r.slot) ∧ (id = 0 ∨ (s.win r.slot).double = true) := by
  constructor
  · intro h
    refine ⟨refOf_of_surfaceLive h, ?_⟩
    simp only [surfaceLive, Bool.and_eq_true, Bool.or_eq_true, beq_iff_eq] at h
    exact ⟨h.1.2, h.2⟩
  · rintro ⟨hr, hl, hid⟩
    simp only [surfaceLive, Bool.and_eq_true, Bool.or_eq_true, beq_iff_eq]
    exact ⟨⟨congrArg WinRef.gen hr, hl⟩, hid⟩

/-- A live window is not FREE. -/
theorem ne_free_of_live {w : Window} (h : live w) : w.state ≠ .free := by
  intro hf
  rw [live, hf] at h
  cases h

/-! ## Records that serve a reference as before -/

/-- A record is to a reference what another was: of the same generation and layout, and live where that was. -/
structure StillServes (w v : Window) : Prop where
  gen : v.gen = w.gen
  layout : v.layout = w.layout
  live : live w → live v

theorem StillServes.refl (w : Window) : StillServes w w := ⟨rfl, rfl, id⟩

theorem StillServes.of_eq {w v : Window} (h : v = w) : StillServes w v := h ▸ .refl w

theorem inside_of_layout {w v : Window} (h : v.layout = w.layout) (r : Rect) : inside r v = inside r w := by
  obtain ⟨-, hw, hh, -, -⟩ := Window.layout_eq h
  simp only [inside, hw, hh]

/-- The sizes and block lists a record keeps are right as long as its front is (R3, R4, R24). -/
theorem shapeOk_of_layout {w v : Window} (h : shapeOk w) (hl : v.layout = w.layout) (hf : v.surface1 = none → v.front = 0) : shapeOk v := by
  obtain ⟨hfmt, hw, hh, h0, h1⟩ := Window.layout_eq hl
  obtain ⟨k1, k2, k3, k4, k5, k6, -⟩ := h
  rw [shapeOk, hfmt, hw, hh, h0, h1]
  exact ⟨k1, k2, k3, k4, k5, k6, h1 ▸ hf⟩

section
variable {s t : State}

theorem surfaceLive_of_serves {r : WinRef} {id : SurfaceId} (h : StillServes (s.win r.slot) (t.win r.slot))
    (hl : surfaceLive s r id = true) : surfaceLive t r id = true := by
  obtain ⟨hr, hlive, hid⟩ := surfaceLive_iff.1 hl
  obtain ⟨-, -, -, -, h1⟩ := Window.layout_eq h.layout
  refine surfaceLive_iff.2 ⟨?_, h.live hlive, by rwa [Window.double, h1]⟩
  rw [State.refOf, h.gen]
  exact hr

theorem StreamOk.of_serves {p : Port} {v : Stream} (h : StreamOk s p v) (hw : StillServes (s.win v.ref.slot) (t.win v.ref.slot))
    (ho : (t.win v.ref.slot).owner = (s.win v.ref.slot).owner) : StreamOk t p v := by
  obtain ⟨hl, howner, hin, hcursor, hleft⟩ := h
  exact ⟨surfaceLive_of_serves hw hl, ho.trans howner, (inside_of_layout hw.layout _).trans hin, hcursor, hleft⟩

theorem OpOk.of_serves {op : EngineOp} (h : OpOk s op) (hw : ∀ r ∈ opRefs op, StillServes (s.win r.slot) (t.win r.slot)) : OpOk t op := by
  obtain ⟨hl, hbody⟩ := h
  have hdest := hw op.dest (List.mem_cons_self ..)
  obtain ⟨hfmt, -, -, -, -⟩ := Window.layout_eq hdest.layout
  refine ⟨surfaceLive_of_serves hdest hl, ?_⟩
  unfold opRefs at hw
  cases hb : op.body with
  | put | fill =>
    rw [hb] at hbody
    simpa only [bodyInside, inside_of_layout hdest.layout, hfmt] using hbody
  | copy src srcId rect x y =>
    rw [hb] at hbody hw
    have hsrc := hw src (by simp)
    obtain ⟨hfmt', -, -, -, -⟩ := Window.layout_eq hsrc.layout
    simp only [bodyInside, Bool.and_eq_true] at hbody ⊢
    obtain ⟨⟨⟨hlive, hin⟩, hin'⟩, hformat⟩ := hbody
    refine ⟨⟨⟨surfaceLive_of_serves hsrc hlive, ?_⟩, ?_⟩, ?_⟩
    · rwa [inside_of_layout hsrc.layout]
    · rwa [inside_of_layout hdest.layout]
    · rwa [hfmt, hfmt']

/-- The shapes stay sound while each stream and operation that is left finds the windows it names as they were. -/
theorem Shapes.of_serves (h : Shapes s) (hshape : ∀ i, (t.win i).state ≠ .free → shapeOk (t.win i))
    (hstreams : ∀ p v, t.streams.get p = some v → s.streams.get p = some v ∧ StillServes (s.win v.ref.slot) (t.win v.ref.slot) ∧
      (t.win v.ref.slot).owner = (s.win v.ref.slot).owner)
    (hops : ∀ op ∈ t.opQueue, op ∈ s.opQueue ∧ ∀ r ∈ opRefs op, StillServes (s.win r.slot) (t.win r.slot)) : Shapes t where
  windows := hshape
  streams p v hv := by
    obtain ⟨hs, hw, ho⟩ := hstreams p v hv
    exact (h.streams p v hs).of_serves hw ho
  ops op hop := by
    obtain ⟨hs, hw⟩ := hops op hop
    exact (h.ops op hs).of_serves hw

theorem Shapes.of_fields (h : Shapes s) (hw : t.windows = s.windows) (hs : ∀ p v, t.streams.get p = some v → s.streams.get p = some v)
    (hq : ∀ op ∈ t.opQueue, op ∈ s.opQueue) : Shapes t := by
  have same (j : Slot) : t.win j = s.win j := State.win_congr hw j
  exact h.of_serves (fun i => by rw [same]; exact h.windows i) (fun p v hv => ⟨hs p v hv, .of_eq (same _), by rw [same]⟩)
    (fun op hop => ⟨hq op hop, fun r _ => .of_eq (same _)⟩)

/-- One record is replaced by one that serves its references as before. -/
theorem Shapes.of_set (h : Shapes s) {i : Slot} {w : Window} (hw : t.windows = s.windows.set i w) (hs : t.streams = s.streams)
    (hq : t.opQueue = s.opQueue) (hserve : StillServes (s.win i) w) (ho : w.owner = (s.win i).owner)
    (hshape : w.state ≠ .free → shapeOk w) : Shapes t := by
  have serves (j : Slot) : StillServes (s.win j) (t.win j) ∧ (t.win j).owner = (s.win j).owner := by
    rw [State.win_of_set hw]
    split
    · next hj => exact hj ▸ ⟨hserve, ho⟩
    · exact ⟨.refl _, rfl⟩
  refine h.of_serves (fun j => ?_) (fun p v hv => ⟨hs ▸ hv, serves _⟩) (fun op hop => ⟨hq ▸ hop, fun r _ => (serves _).1⟩)
  rw [State.win_of_set hw]
  split
  · exact hshape
  · exact h.windows j

/-- The window in a slot is taken out of use: no stream and no operation that is left names it. -/
theorem Shapes.of_taken (h : Shapes s) {i : Slot} (hw : ∀ j, j ≠ i → t.win j = s.win j) (hi : (t.win i).state ≠ .free → shapeOk (t.win i))
    (hs : ∀ p v, t.streams.get p = some v → s.streams.get p = some v ∧ v.ref ≠ s.refOf i)
    (hq : ∀ op ∈ t.opQueue, op ∈ s.opQueue ∧ s.refOf i ∉ opRefs op) : Shapes t := by
  have kept {r : WinRef} (hr : s.refOf r.slot = r) (hne : r ≠ s.refOf i) : t.win r.slot = s.win r.slot :=
    hw _ fun e => hne (by rw [← hr, e])
  refine h.of_serves (fun j => ?_) (fun p v hv => ?_) (fun op hop => ?_)
  · by_cases hj : j = i
    · exact hj ▸ hi
    · rw [hw j hj]
      exact h.windows j
  · obtain ⟨hv', hne⟩ := hs p v hv
    have hsame := kept (surfaceLive_iff.1 (h.streams p v hv').1).1 hne
    exact ⟨hv', .of_eq hsame, by rw [hsame]⟩
  · obtain ⟨hop', hno⟩ := hq op hop
    exact ⟨hop', fun r hr => .of_eq (kept (opCurrent_of_shapes (shapeInv_iff.2 h) hop' r hr) fun e => hno (e ▸ hr))⟩

end

/-! ## The engine's queue and activity -/

/-- What the engine's choice asks for to leave queue and activity sound: at most 8 operations, and a scrub only of a block (R41, R46). -/
structure EngineReady (s : State) : Prop where
  queue : s.opQueue.length ≤ 8
  scrub : s.activity = .scrubbing → s.scrubList ≠ []

theorem EngineReady.of_inv {s : State} (h : EngineInv s) : EngineReady s := by
  obtain ⟨hq, -, hs, -⟩ := h
  exact ⟨hq, hs⟩

theorem EngineReady.of_fields {s t : State} (h : EngineReady s) (hq : t.opQueue.length ≤ s.opQueue.length)
    (ha : t.activity = .scrubbing → s.activity = .scrubbing) (hl : ∃ l, t.scrubList = s.scrubList ++ l) : EngineReady t where
  queue := hq.trans h.queue
  scrub hs := by
    obtain ⟨l, hl⟩ := hl
    rw [hl]
    exact List.append_ne_nil_of_left_ne_nil (h.scrub (ha hs)) l

/-- After the choice queue and activity agree (R46). -/
theorem engineInv_settle {s : State} (h : EngineReady s) : EngineInv (settleEngine s) := by
  have hq : (settleEngine s).opQueue = s.opQueue := by rw [settleEngine_frame]
  have hl : (settleEngine s).scrubList = s.scrubList := by rw [settleEngine_frame]
  rw [EngineInv, hq, hl, settleEngine_activity]
  refine ⟨h.queue, ?_⟩
  by_cases hs : s.activity = .scrubbing
  · simp [hs, h.scrub hs]
  · by_cases hops : s.opQueue = []
    · by_cases hlist : s.scrubList = [] <;> simp [hs, hops, hlist]
    · simp [hs, hops]

theorem engineInv_of_fields {s t : State} (h : EngineInv s) (hq : t.opQueue = s.opQueue) (ha : t.activity = s.activity)
    (hl : t.scrubList = s.scrubList) : EngineInv t := by
  rw [EngineInv, hq, ha, hl]
  exact h

/-! ## Shapes and engine together -/

/-- The shapes are sound and the engine is ready for its choice: what every piece of an event keeps. -/
structure Ready (s : State) : Prop where
  shapes : Shapes s
  engine : EngineReady s

/-- The shapes and the engine are sound: what every command keeps. -/
structure EngineSound (s : State) : Prop where
  shapes : Shapes s
  engine : EngineInv s

theorem EngineSound.ready {s : State} (h : EngineSound s) : Ready s := ⟨h.shapes, .of_inv h.engine⟩

theorem Ready.settle {s : State} (h : Ready s) : EngineSound (settleEngine s) where
  shapes := h.shapes.of_fields (by rw [settleEngine_frame]) (fun p v hv => by rwa [settleEngine_frame] at hv)
    (fun op hop => by rwa [settleEngine_frame] at hop)
  engine := engineInv_settle h.engine

section
variable {s t : State}

theorem EngineSound.of_fields (h : EngineSound s) (hw : t.windows = s.windows) (hs : t.streams = s.streams) (hq : t.opQueue = s.opQueue)
    (ha : t.activity = s.activity) (hl : t.scrubList = s.scrubList) : EngineSound t where
  shapes := h.shapes.of_fields hw (fun _ _ hv => hs ▸ hv) (fun _ hop => hq ▸ hop)
  engine := engineInv_of_fields h.engine hq ha hl

theorem EngineSound.of_set (h : EngineSound s) {i : Slot} {w : Window} (hw : t.windows = s.windows.set i w) (hs : t.streams = s.streams)
    (hq : t.opQueue = s.opQueue) (ha : t.activity = s.activity) (hl : t.scrubList = s.scrubList) (hserve : StillServes (s.win i) w)
    (ho : w.owner = (s.win i).owner) (hshape : w.state ≠ .free → shapeOk w) : EngineSound t where
  shapes := h.shapes.of_set hw hs hq hserve ho hshape
  engine := engineInv_of_fields h.engine hq ha hl

theorem Ready.of_fields (h : Ready s) (hw : t.windows = s.windows) (hs : t.streams = s.streams) (hq : t.opQueue = s.opQueue)
    (ha : t.activity = s.activity) (hl : t.scrubList = s.scrubList) : Ready t where
  shapes := h.shapes.of_fields hw (fun _ _ hv => hs ▸ hv) (fun _ hop => hq ▸ hop)
  engine := h.engine.of_fields (hq ▸ le_rfl) (fun hs => ha ▸ hs) ⟨[], by rw [hl, List.append_nil]⟩

theorem Ready.of_set (h : Ready s) {i : Slot} {w : Window} (hw : t.windows = s.windows.set i w) (hs : t.streams = s.streams)
    (hq : t.opQueue = s.opQueue) (ha : t.activity = s.activity) (hl : t.scrubList = s.scrubList) (hserve : StillServes (s.win i) w)
    (ho : w.owner = (s.win i).owner) (hshape : w.state ≠ .free → shapeOk w) : Ready t where
  shapes := h.shapes.of_set hw hs hq hserve ho hshape
  engine := h.engine.of_fields (hq ▸ le_rfl) (fun hs => ha ▸ hs) ⟨[], by rw [hl, List.append_nil]⟩

/-- A retirement takes the window out of use with all that names it (R16, R17, R61). -/
theorem Ready.retire (h : Ready s) {i : Slot} (hi : (s.win i).state ≠ .free) (c : RetireCause) : Ready (retireWindow s i c) where
  shapes := by
    refine h.shapes.of_taken (i := i) (fun j hj => retireWindow_win_of_ne s c hj) (fun hfree => ?_) (fun p v hv => ?_) (fun op hop => ?_)
    · rw [retireWindow_win, if_pos rfl] at hfree ⊢
      unfold retiredWindow at hfree ⊢
      split at hfree
      · exact absurd rfl hfree
      · next hh =>
        rw [if_neg hh]
        exact h.shapes.windows i hi
    · rw [retireWindow_streams] at hv
      split at hv
      · cases hv
      · next hinto =>
        refine ⟨hv, fun hr => hinto ?_⟩
        simp [streamInto, hv, hr]
    · rw [retireWindow_opQueue, List.mem_filter] at hop
      exact ⟨hop.1, fun hr => by simp [opNames_iff.2 hr] at hop⟩
  engine := by
    obtain ⟨hs, -, ha⟩ := retireWindow_engine s i c
    refine h.engine.of_fields ?_ (engineStop_of_stopped hs ha).scrubbing.1 ?_
    · rw [retireWindow_opQueue]
      exact List.length_filter_le ..
    · rw [retireWindow_scrubList]
      split
      · exact ⟨_, rfl⟩
      · exact ⟨[], (List.append_nil _).symm⟩

theorem Ready.cancel (h : Ready s) (hit : EngineOp → Bool) : Ready (cancelOps s hit) where
  shapes := h.shapes.of_fields (by rw [cancelOps_frame]) (fun p v hv => by rwa [cancelOps_frame] at hv)
    (fun op hop => by rw [cancelOps_frame] at hop; exact List.mem_of_mem_filter hop)
  engine := h.engine.of_fields (by rw [cancelOps_frame]; exact List.length_filter_le ..) (cancelOps_engine s hit).scrubbing.1
    ⟨[], by rw [cancelOps_frame, List.append_nil]⟩

/-- A window that a retirement leaves to the other slots of a list is still what it was. -/
theorem Ready.retireAll {l : List Slot} (hn : l.Nodup) (h : Ready s) (hl : ∀ i ∈ l, (s.win i).state ≠ .free) : Ready (retireAll s l) := by
  induction l generalizing s with
  | nil => exact h
  | cons i rest ih =>
    obtain ⟨hi, hrest⟩ := List.nodup_cons.1 hn
    rw [retireAll_cons]
    refine ih hrest (h.retire (hl i (List.mem_cons_self ..)) .detach) fun j hj => ?_
    rw [(forall_win_of_notMem hi j hj).1]
    exact hl j (List.mem_cons_of_mem _ hj)

theorem Ready.decline (h : Ready s) (d : BitVec 16) (i : Slot) : Ready (declineOffer d s i) := by
  rw [declineOffer_frame]
  exact h.of_set (i := i) rfl rfl rfl rfl rfl ⟨rfl, rfl, id⟩ rfl (h.shapes.windows i)

/-- A DETACH retires the port's windows, cancels its operations, closes its stream and clears the offers made to it (R154). -/
theorem EngineSound.detach (h : EngineSound s) (p : Port) : EngineSound (detachPort s p) := by
  have hwindows : Ready (detachWindows s p) :=
    h.ready.retireAll (detachedSlots_nodup s p) fun i hi => ne_free_of_live (mem_detachedSlots.1 hi).2
  have hengine : Ready (detachEngine s p) := by
    have hcancel := hwindows.cancel (fun op => op.issuer == p)
    refine ⟨hcancel.shapes.of_fields rfl (fun q v hv => ?_) (fun op hop => hop), ⟨hcancel.engine.queue, hcancel.engine.scrub⟩⟩
    by_cases hq : q = p
    · rw [hq, detachEngine, State.setStream_streams, PerPort.get_set_same] at hv
      cases hv
    · rwa [detachEngine, State.setStream_streams, PerPort.get_set_of_ne _ _ hq] at hv
  have hoffers : Ready (detachOffers s p) := foldl_invariant Ready _ (fun t i ht => ht.decline _ i) _ _ hengine
  exact (hoffers.of_fields (t := detachedState s p) rfl rfl rfl rfl rfl).settle

end

end Sys2Proof.Machine
end

