-- ==== Sys2Proof/Proofs/BoundaryShapes.lean ====
section
/-! A frame boundary keeps the shapes and the engine sound: whatever order its work is done in, it applies and visits windows that are in use, and
takes the evicted out of use (R61, R69, R94, R104, R111, R137). -/

namespace Sys2Proof.Machine

open Sys2Proof.Safety

/-- What each piece of boundary work keeps is kept by whatever piece comes next. -/
theorem boundaryTask_keeps {I : State → Prop} {plan : BoundaryPlan} {run : BoundaryRun} (x : BoundaryTask) (h : I run.state)
    (profile : I (profileNotice plan run.state)) (walk : ∀ u ∈ run.toWalk, I (walkUnit plan run.state u))
    (visit : ∀ i, I (leaseVisit plan run.state i)) (count : ∀ i, I (countOffer run.state i)) (frame : ∀ p, I (frameNotice run.state p)) :
    I (boundaryTask plan run x).state := by
  cases x with
  | profileNotice => exact profile
  | walkUnit =>
    simp only [boundaryTask]
    split
    · exact h
    · next u rest hu => exact walk u (hu ▸ List.mem_cons_self ..)
  | leaseVisit n =>
    simp only [boundaryTask]
    split
    · exact visit _
    · exact h
  | offerCount n =>
    simp only [boundaryTask]
    split
    · exact count _
    · exact h
  | frameNotice p => exact frame p

/-! ## Armed windows -/

/-- A commit can be applied to the window in a slot: it is live, and double-surfaced where a swap is staged (R83, R87). -/
def Applicable (s : State) (i : Slot) : Prop :=
  live (s.win i) ∧ ((s.win i).staging.swap = true → (s.win i).double = true)

/-- The slots of the commit queue's entries. -/
def armedSlots (s : State) : List Slot := s.commitQueue.map (fun e => e.ref.slot)

theorem mem_armedSlots {s : State} {i : Slot} : i ∈ armedSlots s ↔ armed s i = true := by
  rw [armed_iff]
  exact List.mem_map

theorem armedSlots_congr {s t : State} (h : t.commitQueue = s.commitQueue) : armedSlots t = armedSlots s := by
  rw [armedSlots, h]
  rfl

theorem sublist_of_eq {α : Type} {l m : List α} (h : l = m) : l.Sublist m := h ▸ .refl l

/-- A boundary under way: shapes and engine are sound, each window is armed once, and an armed window is one a commit can be applied to. -/
structure Underway (s : State) : Prop where
  ready : Ready s
  once : (armedSlots s).Nodup
  able : ∀ i ∈ armedSlots s, Applicable s i

section
variable {s t : State}

theorem Underway.of_fields (h : Underway s) (hw : t.windows = s.windows) (hs : t.streams = s.streams) (hq : t.opQueue = s.opQueue)
    (ha : t.activity = s.activity) (hl : t.scrubList = s.scrubList) (hc : (armedSlots t).Sublist (armedSlots s)) : Underway t where
  ready := h.ready.of_fields hw hs hq ha hl
  once := h.once.sublist hc
  able i hi := by
    rw [Applicable, State.win_congr hw]
    exact h.able i (hc.subset hi)

/-- A record that serves as before and stages no new swap is one a commit can be applied to as before. -/
theorem Applicable.of_set {i j : Slot} {w : Window} (h : Applicable s j) (hw : t.windows = s.windows.set i w)
    (hserve : StillServes (s.win i) w) (hswap : w.staging.swap = true → (s.win i).staging.swap = true) : Applicable t j := by
  rw [Applicable, State.win_of_set hw]
  split
  · next hj =>
    subst hj
    obtain ⟨-, -, -, -, h1⟩ := Window.layout_eq hserve.layout
    refine ⟨hserve.live h.1, fun hs => ?_⟩
    rw [Window.double, h1]
    exact h.2 (hswap hs)
  · exact h

theorem Underway.of_set (h : Underway s) {i : Slot} {w : Window} (hw : t.windows = s.windows.set i w) (hs : t.streams = s.streams)
    (hq : t.opQueue = s.opQueue) (ha : t.activity = s.activity) (hl : t.scrubList = s.scrubList) (hc : (armedSlots t).Sublist (armedSlots s))
    (hserve : StillServes (s.win i) w) (ho : w.owner = (s.win i).owner) (hshape : w.state ≠ .free → shapeOk w)
    (hswap : w.staging.swap = true → (s.win i).staging.swap = true) : Underway t where
  ready := h.ready.of_set hw hs hq ha hl hserve ho hshape
  once := h.once.sublist hc
  able j hj := (h.able j (hc.subset hj)).of_set hw hserve hswap

/-! ## Application, deferral and expiry -/

/-- A window a commit can be applied to serves its references through the application (R95, R96). -/
theorem appliedWindow_serves (w : Window) : StillServes w (appliedWindow w) := ⟨rfl, rfl, fun _ => appliedState_live ..⟩

theorem appliedWindow_shapeOk {w : Window} (h : shapeOk w) (hswap : w.staging.swap = true → w.double = true) :
    shapeOk (appliedWindow w) := by
  refine shapeOk_of_layout h rfl fun h1 => ?_
  have hd : w.double = false := double_eq_false.2 h1
  obtain ⟨-, -, -, -, -, -, hfront⟩ := h
  refine (if_neg fun hs => ?_).trans (hfront h1)
  rw [hswap hs] at hd
  cases hd

theorem Underway.apply (h : Underway s) {i : Slot} (hi : Applicable s i) (fc : BitVec 16) (adj : List Nat) :
    Underway (applyWindow fc adj s i) ∧ ∀ j, Applicable s j → Applicable (applyWindow fc adj s i) j := by
  rw [applyWindow_frame]
  refine ⟨h.of_set (i := i) rfl rfl rfl rfl rfl (List.filter_sublist.map _) (appliedWindow_serves _) rfl (fun _ => ?_) nofun,
    fun j hj => hj.of_set (i := i) rfl (appliedWindow_serves _) nofun⟩
  exact appliedWindow_shapeOk (h.ready.shapes.windows i (ne_free_of_live hi.1)) hi.2

theorem Underway.foldl_apply (h : Underway s) {l : List Slot} (hl : ∀ i ∈ l, Applicable s i) (fc : BitVec 16) (adj : List Nat) :
    Underway (l.foldl (applyWindow fc adj) s) := by
  induction l generalizing s with
  | nil => exact h
  | cons i rest ih =>
    obtain ⟨hnext, hkeep⟩ := h.apply (hl i (List.mem_cons_self ..)) fc adj
    exact ih hnext fun j hj => hkeep j (hl j (List.mem_cons_of_mem _ hj))

theorem holdBack_armedSlots (fc : BitVec 16) (s : State) (slots : List Slot) :
    (armedSlots (holdBack fc s slots)).Sublist (armedSlots s) := by
  unfold holdBack
  split
  · refine sublist_of_eq (List.map_map.trans (List.map_congr_left fun e _ => ?_))
    simp only [Function.comp_apply]
    split <;> rfl
  · rw [expireUnit_frame]
    exact List.filter_sublist.map _

theorem Underway.walk (h : Underway s) (plan : BoundaryPlan) (slots : List Slot) : Underway (walkUnit plan s slots) := by
  unfold walkUnit
  split
  · exact h
  · next harmed =>
    split
    · rw [Bool.not_eq_false, List.all_eq_true] at harmed
      exact h.foldl_apply (fun i hi => h.able i (mem_armedSlots.2 (harmed i hi))) _ _
    · have hsub := holdBack_armedSlots (low16 s.timing.frameCounter) s slots
      rw [holdBack_frame] at hsub ⊢
      exact h.of_fields rfl rfl rfl rfl rfl hsub

/-! ## Visits and counts -/

/-- A window's unit is removed with its entry (R91, R101). -/
theorem notMem_armedSlots_removeUnit (h : (armedSlots s).Nodup) (i : Slot) : i ∉ armedSlots (removeUnit s i) := by
  intro hi
  obtain ⟨x, hx, hxi⟩ := List.mem_map.1 hi
  unfold removeUnit at hx
  split at hx
  · next e he =>
    obtain ⟨he, hei⟩ := commitEntry_eq_some he
    obtain ⟨hx, hout⟩ := List.mem_filter.1 hx
    obtain rfl : x = e := List.inj_on_of_nodup_map h hx he (hxi.trans hei.symm)
    unfold sameUnit at hout
    split at hout <;> simp at hout
  · next he => exact commitEntry_eq_none he x hx hxi

theorem Underway.retire (h : Underway s) {i : Slot} (hi : (s.win i).state ≠ .free) (c : RetireCause) : Underway (retireWindow s i c) := by
  have hqueue : armedSlots (retireWindow s i c) = armedSlots (removeUnit s i) :=
    armedSlots_congr (retireWindow_commitQueue s i c)
  have hsub : (armedSlots (retireWindow s i c)).Sublist (armedSlots s) := by
    obtain ⟨f, hf⟩ := removeUnit_filter s i
    rw [hqueue, armedSlots, hf]
    exact List.filter_sublist.map _
  refine ⟨h.ready.retire hi c, h.once.sublist hsub, fun j hj => ?_⟩
  have hne : j ≠ i := by
    rintro rfl
    rw [hqueue] at hj
    exact notMem_armedSlots_removeUnit h.once j hj
  rw [Applicable, retireWindow_win_of_ne s c hne]
  exact h.able j (hsub.subset hj)

/-- A change of the record's lease or offer alone. -/
theorem Underway.counted (h : Underway s) {i : Slot} {w : Window} (hw : t.windows = s.windows.set i w) (hs : t.streams = s.streams)
    (hq : t.opQueue = s.opQueue) (ha : t.activity = s.activity) (hl : t.scrubList = s.scrubList) (hc : t.commitQueue = s.commitQueue)
    (hserve : StillServes (s.win i) w) (ho : w.owner = (s.win i).owner) (hfree : w.state ≠ .free → (s.win i).state ≠ .free)
    (hf : w.front = (s.win i).front) (hstaging : w.staging = (s.win i).staging) : Underway t := by
  refine h.of_set hw hs hq ha hl (sublist_of_eq (armedSlots_congr hc)) hserve ho (fun hw => ?_) fun h => hstaging ▸ h
  have hok := h.ready.shapes.windows i (hfree hw)
  obtain ⟨-, -, -, -, h1⟩ := Window.layout_eq hserve.layout
  refine shapeOk_of_layout hok hserve.layout fun hnone => ?_
  obtain ⟨-, -, -, -, -, -, hfront⟩ := hok
  rw [hf]
  exact hfront (h1 ▸ hnone)

theorem Underway.visit (h : Underway s) (i : Slot) : Underway (visitWindow s i) := by
  have used (ho : leaseOutcome (s.win i) ≠ .unchanged) : (s.win i).state ≠ .free := by
    rcases (leaseOutcome_visited ho).1 with hs | hs <;>
    · rw [hs]
      nofun
  unfold visitWindow
  dsimp only
  split
  · next ho =>
    rw [renewWindow_frame]
    exact h.counted (i := i) rfl rfl rfl rfl rfl rfl ⟨rfl, rfl, fun _ => rfl⟩ rfl (fun _ => used (by rw [ho]; nofun)) rfl rfl
  · exact h.counted (State.setWin_windows ..) rfl rfl rfl rfl rfl ⟨rfl, rfl, id⟩ rfl id rfl rfl
  · next ho =>
    rw [lapseWindow_frame]
    exact h.counted (i := i) rfl rfl rfl rfl rfl rfl ⟨rfl, rfl, fun _ => rfl⟩ rfl (fun _ => used (by rw [ho]; nofun)) rfl rfl
  · exact h.counted (State.setWin_windows ..) rfl rfl rfl rfl rfl ⟨rfl, rfl, id⟩ rfl id rfl rfl
  · next ho =>
    have hset : Underway (s.setWin i { s.win i with graceCounter := 0 }) :=
      h.counted (State.setWin_windows ..) rfl rfl rfl rfl rfl ⟨rfl, rfl, id⟩ rfl id rfl rfl
    refine hset.retire ?_ .eviction
    rw [State.win_setWin_same]
    exact used (by rw [ho]; nofun)
  · exact h

theorem Underway.leaseVisit (h : Underway s) (plan : BoundaryPlan) (i : Slot) : Underway (leaseVisit plan s i) := by
  unfold Machine.leaseVisit
  split
  · exact h
  · split
    · split
      · rw [raiseOwner_frame]
        exact h.of_fields rfl rfl rfl rfl rfl (.refl _)
      · exact h
    · exact h.visit i

theorem Underway.countOffer (h : Underway s) (i : Slot) : Underway (countOffer s i) := by
  unfold Machine.countOffer
  dsimp only
  split
  · split
    · exact h.counted (State.setWin_windows ..) rfl rfl rfl rfl rfl ⟨rfl, rfl, id⟩ rfl id rfl rfl
    · exact h.counted (State.setWin_windows ..) rfl rfl rfl rfl rfl ⟨rfl, rfl, id⟩ rfl id rfl rfl
  · exact h

/-! ## The whole boundary -/

/-- Removal frees windows that no stream, no operation and no entry names (R18, R70). -/
theorem Underway.start (h : Ready s) (hc : CommitInv s) (hf : FieldsInv s) : Underway (boundaryStart s) := by
  have hqueue : armedSlots (boundaryStart s) = armedSlots s := by
    rw [armedSlots, boundaryStart, removeRetiring_commitQueue]
    rfl
  refine ⟨⟨h.shapes.of_serves (fun i hi => ?_) (fun p v hv => ?_) (fun op hop => ?_), h.engine.of_fields ?_ ?_ ?_⟩, ?_, fun i hi => ?_⟩
  · rw [boundaryStart_win] at hi ⊢
    split
    · next hr => rw [if_pos hr] at hi; exact absurd rfl hi
    · next hr => rw [if_neg hr] at hi; exact h.shapes.windows i hi
  · rw [boundaryStart_streams] at hv
    have hsame := boundaryStart_win_live (surfaceLive_iff.1 (h.shapes.streams p v hv).1).2.1
    exact ⟨hv, .of_eq hsame, by rw [hsame]⟩
  · rw [boundaryStart_opQueue] at hop
    exact ⟨hop, fun r hr => .of_eq (boundaryStart_win_live (live_of_opRefs (shapeInv_iff.2 h.shapes) hop r hr))⟩
  · rw [boundaryStart_opQueue]
  · rw [boundaryStart, removeRetiring_frame]
    exact id
  · exact ⟨_, (removeRetiring_pool _).1⟩
  · rw [hqueue]
    exact hc.1
  · rw [hqueue] at hi
    obtain ⟨e, he, rfl⟩ := List.mem_map.1 hi
    obtain ⟨-, hlive, -⟩ := hc.2.1 e he
    obtain ⟨⟨-, -, -, -, -, hswap, -⟩, -⟩ := hf _ (mem_allSlots _) (ne_free_of_live hlive)
    rw [Applicable, boundaryStart_win_live hlive]
    exact ⟨hlive, hswap⟩

theorem EngineSound.boundary (h : EngineSound s) (hc : CommitInv s) (hf : FieldsInv s) (order : BoundaryOrder) :
    EngineSound (frameBoundary order s) := by
  have hend : Underway (boundaryEnd order s) := by
    refine foldl_invariant (fun run : BoundaryRun => Underway run.state) _ (fun run x hr => ?_) (boundaryTasks order s) ⟨boundaryStart s, _⟩
      (Underway.start h.ready hc hf)
    refine boundaryTask_keeps x hr ?_ (fun u _ => hr.walk _ u) (fun i => hr.leaseVisit _ i) (fun i => hr.countOffer i) fun p => ?_
    · rw [profileNotice_frame]
      exact hr.of_fields rfl rfl rfl rfl rfl (.refl _)
    · rw [frameNotice_frame]
      exact hr.of_fields rfl rfl rfl rfl rfl (.refl _)
  rw [frameBoundary_eq]
  exact (hend.ready.of_fields (t := takeView (boundaryEnd order s)) rfl rfl rfl rfl rfl).settle

end

end Sys2Proof.Machine
end

