-- ==== Sys2Proof/Proofs/SafeSteps.lean ====
section
/-! Every step answers a next state and keeps the shapes and the engine sound: what each request makes of the streams and the queue, and each
event (R41, R42, R46, R49 to R51, R56, R58, R61). -/

namespace Sys2Proof.Machine

open Sys2Proof.Safety

/-! ## Pixels of the right format -/

theorem pixelsOf_format (fmt : Format) (data : List Byte) : ∀ q ∈ pixelsOf fmt data, pixelFormat q = fmt := by
  match fmt, data with
  | .c16, hi :: lo :: rest =>
    simp only [pixelsOf, List.forall_mem_cons]
    exact ⟨rfl, pixelsOf_format .c16 rest⟩
  | .c16, [] | .c16, [_] => simp [pixelsOf]
  | .c24, r :: g :: b :: rest =>
    simp only [pixelsOf, List.forall_mem_cons]
    exact ⟨rfl, pixelsOf_format .c24 rest⟩
  | .c24, [] | .c24, [_] | .c24, [_, _] => simp [pixelsOf]
  | .m1, [] => simp [pixelsOf]
  | .m1, b :: rest =>
    simp only [pixelsOf, List.forall_mem_append, List.forall_mem_map]
    exact ⟨fun _ _ => rfl, pixelsOf_format .m1 rest⟩

theorem fillValue_format {fmt : Format} {c : Colour} {v : Pixel} (h : fillValue fmt c = some v) : pixelFormat v = fmt := by
  rw [fillValue_eq] at h
  split at h
  · cases h
    cases fmt <;> rfl
  · cases h

theorem one_le_pixelsCarried {fmt : Format} {n : Nat} (h : 1 ≤ n) (hok : wholePixels fmt n) : 1 ≤ pixelsCarried fmt n := by
  obtain ⟨h16, h24⟩ := hok
  cases fmt with
  | c16 =>
    have := h16 rfl
    simp only [pixelsCarried]
    omega
  | c24 =>
    have := h24 rfl
    simp only [pixelsCarried]
    omega
  | m1 =>
    simp only [pixelsCarried]
    omega

/-! ## The pixels from a cursor on (R49, R51) -/

/-- The pixels before a cursor and those from it on are the rectangle's (R49). -/
theorem pixelsFrom_add {r : Rect} {col row : Nat} (h : cursorInside r col row = true) :
    pixelsFrom r col row + ((row - r.y) * r.width + (col - r.x)) = r.width * r.height := by
  obtain ⟨hx, hxw, hy, hyh⟩ := cursorInside_iff.1 h
  obtain ⟨j, rfl⟩ := Nat.exists_eq_add_of_le hy
  obtain ⟨m, hm⟩ : ∃ m, r.height = j + 1 + m := Nat.exists_eq_add_of_le (by omega)
  have hrows : r.y + r.height - 1 - (r.y + j) = m := by omega
  rw [pixelsFrom, hrows, Nat.add_sub_cancel_left, hm, Nat.mul_comm r.width, Nat.add_mul, Nat.add_mul]
  omega

theorem pixelsFrom_pos {r : Rect} {col row : Nat} (h : cursorInside r col row = true) : 1 ≤ pixelsFrom r col row := by
  obtain ⟨-, hxw, -, -⟩ := cursorInside_iff.1 h
  unfold pixelsFrom
  omega

/-- Short of the last pixel the cursor moves on inside its rectangle, and as many pixels fewer remain (R51). -/
theorem placeAfter_inside {r : Rect} {col row n : Nat} (h : cursorInside r col row = true) (hn : n < pixelsFrom r col row) :
    cursorInside r (placeAfter r col row n).1 (placeAfter r col row n).2 = true ∧
      pixelsFrom r (placeAfter r col row n).1 (placeAfter r col row n).2 = pixelsFrom r col row - n := by
  have hsum := pixelsFrom_add h
  simp only [placeAfter]
  generalize hk : (row - r.y) * r.width + (col - r.x) + n = k
  obtain ⟨hc, hr, hnumber⟩ := place_of_number (W := r.width) (H := r.height) (m := k) (by omega)
  have hinside : cursorInside r (r.x + k % r.width) (r.y + k / r.width) = true :=
    cursorInside_iff.2 ⟨Nat.le_add_right .., Nat.add_lt_add_left hc _, Nat.le_add_right .., Nat.add_lt_add_left hr _⟩
  refine ⟨hinside, ?_⟩
  have hsum' := pixelsFrom_add hinside
  simp only [Nat.add_sub_cancel_left, hnumber] at hsum'
  omega

section
variable {s t : State} {p : Port} {ps : List Byte} {i : Slot} {id : SurfaceId} {a : Role} {r : Rect}

/-- An identity that a role resolves to is a surface of a live window (R44). -/
theorem surfaceLive_of_role (h : Shapes s) (hl : live (s.win i)) (hr : resolveRole (s.win i) a = some id) :
    surfaceLive s (s.refOf i) id = true := by
  refine surfaceLive_iff.2 ⟨rfl, hl, ?_⟩
  cases a with
  | front =>
    obtain rfl : (s.win i).front = id := Option.some.inj hr
    obtain ⟨-, -, -, -, -, -, hfront⟩ := h.windows i (ne_free_of_live hl)
    cases hd : (s.win i).double with
    | false => exact .inl (hfront (double_eq_false.1 hd))
    | true => exact .inr hd
  | back =>
    rw [resolveRole_back] at hr
    split at hr
    · next hd => exact .inr hd
    · cases hr

theorem inside_of_not_bad {w : Window} (h : ¬ rectBad r w = true) : inside r w = true := by
  rw [rectBad_eq] at h
  simpa using h

/-- A stream opens at the top-left of its rectangle with every pixel remaining (R50). -/
theorem streamOk_opened (h : Shapes s) (ho : (s.win i).owner = some p) (hl : live (s.win i)) (hr : resolveRole (s.win i) a = some id)
    (hin : inside r (s.win i) = true) : StreamOk s p ⟨s.refOf i, id, r, r.x, r.y, r.width * r.height⟩ := by
  obtain ⟨hw, hh, -, -⟩ := inside_iff.1 hin
  have hcursor : cursorInside r r.x r.y = true := cursorInside_iff.2 (by omega)
  have hsum := pixelsFrom_add hcursor
  simp only [Nat.sub_self, Nat.zero_mul, Nat.add_zero] at hsum
  exact ⟨surfaceLive_of_role h hl hr, ho, hin, hcursor, hsum.symm⟩

/-- What a PUT leaves of a stream is sound (R51, R53). -/
theorem streamOk_after {v w : Stream} (h : StreamOk s p v) {n : Nat} (hn : n ≤ v.remaining) (hw : streamAfter v n = some w) :
    StreamOk s p w := by
  obtain ⟨hl, ho, hin, hcursor, hleft⟩ := h
  rw [streamAfter_eq hcursor hn, streamLeft] at hw
  split at hw
  · cases hw
  · next hne =>
    cases hw
    obtain ⟨hcursor', hleft'⟩ := placeAfter_inside hcursor (n := n) (by omega)
    exact ⟨hl, ho, hin, hcursor', by rw [hleft', hleft]⟩

/-- The operation that a PUT queues is sound (R51). -/
theorem opOk_put {v : Stream} (h : StreamOk s p v) {n : Nat} {pixels : List Pixel}
    (hformat : ∀ q ∈ pixels, pixelFormat q = (s.win v.ref.slot).format) (hpos : 1 ≤ pixels.length) (hn : n = min pixels.length v.remaining)
    (b : Byte) : OpOk s ⟨p, b, v.ref, v.id, .put v.rect v.col v.row (pixels.take n)⟩ := by
  obtain ⟨hl, -, hin, hcursor, hleft⟩ := h
  have hfrom := pixelsFrom_pos hcursor
  refine ⟨hl, ?_⟩
  simp only [bodyInside, Bool.and_eq_true, decide_eq_true_eq, List.all_eq_true, beq_iff_eq, List.length_take]
  exact ⟨⟨⟨⟨hin, hcursor⟩, by omega⟩, by omega⟩, fun q hq => hformat q (List.mem_of_mem_take hq)⟩

/-- A sound operation is accepted where the queue has room (R41, R45, R46). -/
theorem EngineSound.accept (h : EngineSound s) {dest : WinRef} {body : OpBody} (hop : ∀ b, OpOk s ⟨p, b, dest, id, body⟩)
    (hfull : ¬ queueFull s = true) : EngineSound (acceptOp s p dest id body) := by
  have hroom : s.opQueue.length < 8 := Nat.lt_of_not_le fun h => hfull (queueFull_iff.2 h)
  refine Ready.settle ⟨⟨h.shapes.windows, h.shapes.streams, fun op hmem => ?_⟩, ⟨?_, h.ready.engine.scrub⟩⟩
  · obtain hmem | hmem := List.mem_append.1 hmem
    · exact h.shapes.ops op hmem
    · exact List.mem_singleton.1 hmem ▸ hop _
  · simpa using hroom

theorem EngineSound.setStream (h : EngineSound s) {v : Option Stream} (hv : ∀ w, v = some w → StreamOk s p w) :
    EngineSound (s.setStream p v) where
  shapes := by
    refine ⟨h.shapes.windows, fun q w hw => ?_, h.shapes.ops⟩
    by_cases hq : q = p
    · subst hq
      rw [State.setStream_streams, PerPort.get_set_same] at hw
      exact hv w hw
    · rw [State.setStream_streams, PerPort.get_set_of_ne _ _ hq] at hw
      exact h.shapes.streams q w hw
  engine := h.engine

/-! ## Verdicts -/

/-- A verdict that answers does so with a state that has a property. -/
def Verdict.Holds (P : State → Prop) : Verdict → Prop
  | .refuse _ => True
  | .answer t _ _ => P t

section
variable {P : State → Prop}

theorem Verdict.Holds.refuse {st : Status} : (Verdict.refuse st).Holds P := trivial

theorem Verdict.Holds.answer {st : Status} {payload : List Byte} (h : P t) : (Verdict.answer t st payload).Holds P := h

theorem Verdict.Holds.ite {c : Prop} [Decidable c] {v w : Verdict} (hv : c → v.Holds P) (hw : ¬ c → w.Holds P) :
    (if c then v else w).Holds P := by
  split
  · next h => exact hv h
  · next h => exact hw h

theorem Verdict.Holds.withWindow {o : Ownership} {permit : WinState → Bool} {ref : RawRef} {next : Slot → Verdict}
    (h : ∀ i, ownershipOk o p (s.win i) = true → permit (s.win i).state = true → (next i).Holds P) :
    (withWindow s p o permit ref next).Holds P := by
  cases hv : Machine.withWindow s p o permit ref next with
  | refuse => exact .refuse
  | answer t st payload =>
    obtain ⟨i, ho, hl, e⟩ := withWindow_eq_answer hv
    exact e ▸ h i ho hl

end

/-- A completion keeps shapes and engine sound where each answer of the request's own evaluation does (R182, R183). -/
theorem EngineSound.complete (h : EngineSound s) {code : Byte} {taken : List Byte → Verdict}
    (ht : ∀ ps, lengthOk code ps = true → (taken ps).Holds EngineSound) : EngineSound (complete s p code taken) := by
  obtain e | ⟨a, e⟩ | ⟨ps, u, st, payload, a, hl, -, hu, e⟩ := complete_cases s p code taken
  · rw [e]
    exact h
  · rw [e]
    exact h.of_fields rfl rfl rfl rfl rfl
  · have hsound := ht ps hl
    rw [hu] at hsound
    rw [e]
    exact EngineSound.of_fields (s := u) hsound rfl rfl rfl rfl rfl

/-! ## The requests' own evaluations -/

section
variable (h : EngineSound s)
include h

/-- A record changes in its staging, its offer or its lease, and not in what references see of it. -/
theorem EngineSound.recorded {w : Window} (hw : t.windows = s.windows.set i w) (hs : t.streams = s.streams) (hq : t.opQueue = s.opQueue)
    (ha : t.activity = s.activity) (hl : t.scrubList = s.scrubList) (hlayout : w.layout = (s.win i).layout)
    (hstate : w.state = (s.win i).state) (hgen : w.gen = (s.win i).gen) (ho : w.owner = (s.win i).owner)
    (hf : w.front = (s.win i).front) : EngineSound t := by
  refine h.of_set hw hs hq ha hl ⟨hgen, hlayout, fun hlive => ?_⟩ ho fun hfree => ?_
  · rwa [live, hstate]
  · have hok := h.shapes.windows i (hstate ▸ hfree)
    refine shapeOk_of_layout hok hlayout fun hnone => ?_
    obtain ⟨-, -, -, -, h1⟩ := Window.layout_eq hlayout
    obtain ⟨-, -, -, -, -, -, hfront⟩ := hok
    rw [hf]
    exact hfront (h1 ▸ hnone)

theorem takeSubscribe_sound : (takeSubscribe s p ps).Holds EngineSound := by
  unfold takeSubscribe
  split
  · exact .refuse
  · exact .answer (h.of_fields rfl rfl rfl rfl rfl)

/-- A new window takes a FREE slot, which no stream and no operation names, with lists of the right lengths (R13, R14, R30). -/
theorem EngineSound.create {c : CreateParams} (hc : readCreate ps = some c) (hi : lowestFreeSlot s = some i)
    (hf : c.needed ≤ s.freeSet.length) : EngineSound (createWindow s p c i) := by
  obtain ⟨hw1, hw2, hh1, hh2, hn, -⟩ := readCreate_eq_some hc
  have hfree := lowestFreeSlot_free hi
  have hnot (r : WinRef) (hl : live (s.win r.slot)) : r ≠ s.refOf i := by
    rintro rfl
    exact ne_free_of_live hl hfree
  have hwin := State.win_of_set (s := s) (t := createWindow s p c i) (i := i)
    (w := createdWindow c p (s.win i).gen (s.freeSet.take c.needed)) rfl
  refine ⟨h.shapes.of_taken (i := i) (fun j hj => ?_) (fun _ => ?_) (fun q v hv => ⟨hv, ?_⟩) (fun op hop => ⟨hop, fun hr => ?_⟩),
    engineInv_of_fields h.engine rfl rfl rfl⟩
  · rw [hwin, if_neg hj]
  · rw [CreateParams.needed] at hf
    rw [hwin, if_pos rfl, createdWindow_eq p _ _ hn]
    refine ⟨hw1, hw2, hh1, hh2, ?_, fun l hl => ?_, fun _ => rfl⟩
    · rcases hn with hn | hn <;>
      · rw [hn] at hf
        exact List.length_take_of_le (by omega)
    · simp only [Option.mem_def] at hl
      split at hl
      · next h2 =>
        cases hl
        rw [h2] at hf
        exact List.length_take_of_le (by rw [List.length_drop]; omega)
      · cases hl
  · exact hnot v.ref (surfaceLive_iff.1 (h.shapes.streams q v hv).1).2.1
  · exact hnot _ (live_of_opRefs (shapeInv_iff.2 h.shapes) hop _ hr) rfl

theorem takeCreate_sound : (takeCreate s p ps).Holds EngineSound := by
  unfold takeCreate
  split
  · exact .refuse
  · next c hc =>
    split
    · exact .refuse
    · next i hi => exact .ite (fun _ => .refuse) fun _ => .ite (fun _ => .refuse) fun hf => .answer (h.create hc hi (Nat.le_of_not_lt hf))

theorem takeRetire_sound : (takeRetire s p ps).Holds EngineSound :=
  .withWindow fun _ _ hl => .answer (h.ready.retire (ne_free_of_live hl) _).settle

theorem takeStage_sound : (takeStage s p ps).Holds EngineSound :=
  .withWindow fun _ _ _ => .ite (fun _ => .refuse) fun _ => .ite (fun _ => .refuse) fun _ => .ite (fun _ => .refuse) fun _ =>
    .ite (fun _ => .refuse) fun _ => .answer (h.recorded (State.setWin_windows ..) rfl rfl rfl rfl rfl rfl rfl rfl rfl)

theorem takeDiscard_sound : (takeDiscard s p ps).Holds EngineSound :=
  .withWindow fun _ _ _ => .ite (fun _ => .refuse) fun _ => .answer (h.recorded (State.setWin_windows ..) rfl rfl rfl rfl rfl rfl rfl rfl rfl)

theorem takeArm_sound : (takeArm s p ps).Holds EngineSound := by
  unfold takeArm
  split
  · exact .refuse
  · refine .ite (fun _ => .refuse) fun _ => ?_
    split
    · exact .refuse
    · split
      · exact .refuse
      · exact .answer (h.of_fields rfl rfl rfl rfl rfl)

theorem takeDisarm_sound : (takeDisarm s p ps).Holds EngineSound := .withWindow fun i _ _ => by
  split
  · exact .refuse
  · rw [removeUnit_frame]
    exact .answer (h.of_fields rfl rfl rfl rfl rfl)

theorem takeRenew_sound : (takeRenew s p ps).Holds EngineSound := .withWindow fun i _ _ => by
  refine .answer ?_
  split
  · exact h
  · exact h.recorded (State.setWin_windows ..) rfl rfl rfl rfl rfl rfl rfl rfl rfl

theorem takeOpenStream_sound : (takeOpenStream s p ps).Holds EngineSound := .withWindow fun i ho hl => by
  dsimp only
  split
  · exact .refuse
  · refine .ite (fun _ => .refuse) fun _ => ?_
    split
    · exact .refuse
    · next id hid =>
      refine .ite (fun _ => .refuse) fun hin => .answer (h.setStream fun w hw => ?_)
      cases hw
      exact streamOk_opened h.shapes (ownershipOk_owner.1 ho) hl hid (inside_of_not_bad hin)

theorem takePut_sound (hlen : lengthOk codePut ps = true) : (takePut s p ps).Holds EngineSound := by
  unfold takePut
  split
  · exact .refuse
  · next v hv =>
    have hstream := h.shapes.streams p v hv
    refine .ite (fun _ => .refuse) fun hwhole => .ite (fun _ => .refuse) fun hfull => .answer ?_
    have hpos : 1 ≤ (pixelsOf (s.win v.ref.slot).format ps).length := by
      rw [pixelsOf_length]
      refine one_le_pixelsCarried ?_ (not_not.1 fun hbad => hwhole (putLengthBad_iff.2 hbad))
      have hbounds : (decide (1 ≤ ps.length) && decide (ps.length ≤ 512)) = true := hlen
      simp only [Bool.and_eq_true, decide_eq_true_eq] at hbounds
      exact hbounds.1
    have haccepted := h.accept (opOk_put hstream (pixelsOf_format _ ps) hpos rfl) hfull
    refine haccepted.setStream fun w hw => ?_
    have hafter := streamOk_after hstream (Nat.min_le_right ..) hw
    rw [acceptOp_frame]
    exact hafter

theorem takeCloseStream_sound : (takeCloseStream s p ps).Holds EngineSound := by
  unfold takeCloseStream
  split
  · exact .refuse
  · exact .answer (h.setStream nofun)

theorem takeFill_sound : (takeFill s p ps).Holds EngineSound := .withWindow fun i _ hl => by
  dsimp only
  split
  · exact .refuse
  · split
    · exact .refuse
    · next id hid =>
      refine .ite (fun _ => .refuse) fun hin => ?_
      split
      · exact .refuse
      · next value hvalue =>
        refine .ite (fun _ => .refuse) fun hfull => .answer (h.accept (fun _ => ⟨surfaceLive_of_role h.shapes hl hid, ?_⟩) hfull)
        simp [bodyInside, inside_of_not_bad hin, fillValue_format hvalue]

theorem takeCopy_sound : (takeCopy s p ps).Holds EngineSound := .withWindow fun i _ hl => .withWindow fun j _ hl' => by
  dsimp only
  split
  · split
    · next hid hid' =>
      refine .ite (fun _ => .refuse) fun hfmt => .ite (fun _ => .refuse) fun hin => .ite (fun _ => .refuse) fun hfull => .answer ?_
      rw [Bool.or_eq_true, not_or] at hin
      refine h.accept (fun _ => ⟨surfaceLive_of_role h.shapes hl' hid', ?_⟩) hfull
      simp [bodyInside, surfaceLive_of_role h.shapes hl hid, inside_of_not_bad hin.1, inside_of_not_bad hin.2, not_not.1 hfmt]
    · exact .refuse
  · exact .refuse

theorem takeCancelOp_sound : (takeCancelOp s p ps).Holds EngineSound :=
  .ite (fun _ => .answer (h.ready.cancel _).settle) fun _ => .refuse

theorem takeOffer_sound : (takeOffer s p ps).Holds EngineSound :=
  .withWindow fun _ _ _ => .ite (fun _ => .refuse) fun _ => .ite (fun _ => .refuse) fun _ =>
    .answer (h.recorded (State.setWin_windows ..) rfl rfl rfl rfl rfl rfl rfl rfl rfl)

/-- A transfer closes the old owner's stream into the window, so that no stream is left that is not its owner's (R54, R149). -/
theorem EngineSound.transfer (hl : live (s.win i)) : EngineSound (transferWindow s i p) := by
  have hwin := State.win_of_set (s := s) (t := transferWindow s i p) (i := i)
    (w := { s.win i with owner := some p, offer := none, staging := Staging.empty }) (by rw [transferWindow_frame])
  have hserve (j : Slot) : StillServes (s.win j) ((transferWindow s i p).win j) := by
    rw [hwin]
    split
    · next hj => exact hj ▸ ⟨rfl, rfl, id⟩
    · exact .refl _
  have hstreams : (transferWindow s i p).streams = (transferStream s i (s.win i).owner).streams := by
    unfold transferWindow moveCharge
    dsimp only
    rw [raiseOwner_frame, abandonUnit_frame]
    split <;> rfl
  refine ⟨h.shapes.of_serves (fun j => ?_) (fun q v hv => ?_) (fun op hop => ?_),
    engineInv_of_fields h.engine (by rw [transferWindow_frame]) (by rw [transferWindow_frame]) (by rw [transferWindow_frame])⟩
  · rw [hwin]
    split
    · exact fun _ => h.shapes.windows i (ne_free_of_live hl)
    · exact h.shapes.windows j
  · rw [hstreams] at hv
    have hkept : s.streams.get q = some v ∧ v.ref.slot ≠ i := by
      unfold transferStream at hv
      have into {w : Stream} (hw : s.streams.get q = some w) (hslot : w.ref.slot = i) :
          (s.win i).owner = some q ∧ streamInto s q (s.refOf i) = true := by
        obtain ⟨hlive, howner, -⟩ := h.shapes.streams q w hw
        have href := (surfaceLive_iff.1 hlive).1
        rw [hslot] at howner href
        exact ⟨howner, by simp [streamInto, hw, href]⟩
      split at hv
      · next o ho =>
        split at hv
        · rw [raise_frame] at hv
          by_cases hq : q = o
          · rw [hq, State.setStream_streams, PerPort.get_set_same] at hv
            cases hv
          · rw [State.setStream_streams, PerPort.get_set_of_ne _ _ hq] at hv
            exact ⟨hv, fun hslot => hq (Option.some.inj ((into hv hslot).1.symm.trans ho))⟩
        · next hno =>
          refine ⟨hv, fun hslot => hno ?_⟩
          obtain ⟨howner, hinto⟩ := into hv hslot
          obtain rfl := Option.some.inj (howner.symm.trans ho)
          exact hinto
      · next ho => exact ⟨hv, fun hslot => by rw [(into hv hslot).1] at ho; cases ho⟩
    refine ⟨hkept.1, hserve _, ?_⟩
    rw [hwin, if_neg hkept.2]
  · rw [transferWindow_frame] at hop
    exact ⟨hop, fun r _ => hserve _⟩

theorem takeAccept_sound : (takeAccept s p ps).Holds EngineSound :=
  .withWindow fun _ _ hl => .ite (fun _ => .refuse) fun _ => .ite (fun _ => .refuse) fun _ => .answer (h.transfer hl)

theorem takeDecline_sound : (takeDecline s p ps).Holds EngineSound :=
  .withWindow fun i _ _ => .ite (fun _ => .refuse) fun _ => by
    rw [declineOffer_frame]
    exact .answer (h.recorded (i := i) rfl rfl rfl rfl rfl rfl rfl rfl rfl rfl)

theorem takeWithdraw_sound : (takeWithdraw s p ps).Holds EngineSound := .withWindow fun i _ _ => by
  dsimp only
  split
  · exact .refuse
  · exact .answer (h.recorded (State.setWin_windows ..) rfl rfl rfl rfl rfl rfl rfl rfl rfl)

theorem takeSetProfile_sound : (takeSetProfile s ps).Holds EngineSound := by
  unfold takeSetProfile
  split
  · exact .refuse
  · refine .ite (fun _ => .refuse) fun _ => ?_
    split
    · exact .refuse
    · exact .answer (h.of_fields rfl rfl rfl rfl rfl)

theorem takeSwitchProfile_sound : (takeSwitchProfile s ps).Holds EngineSound := by
  unfold takeSwitchProfile
  split
  · exact .refuse
  · exact .ite (fun _ => .refuse) fun _ => .ite (fun _ => .answer h) fun _ => .answer (h.of_fields rfl rfl rfl rfl rfl)

theorem takeDisplay_sound : (takeDisplay s ps).Holds EngineSound := by
  unfold takeDisplay
  split
  · exact .refuse
  · exact .answer (h.of_fields rfl rfl rfl rfl rfl)

theorem takeSetQuota_sound : (takeSetQuota s ps).Holds EngineSound :=
  .ite (fun _ => .refuse) fun _ => .answer (h.of_fields rfl rfl rfl rfl rfl)

theorem takeSetGrace_sound : (takeSetGrace s ps).Holds EngineSound :=
  .ite (fun _ => .refuse) fun _ => .answer (h.of_fields rfl rfl rfl rfl rfl)

/-- A RESTART leaves no window, no stream and no operation (R156). -/
theorem EngineSound.restart : EngineSound (restartDevice s) := by
  rw [restartDevice_eq_settle]
  refine Ready.settle ⟨⟨fun i hi => ?_, fun q v hv => ?_, nofun⟩, h.ready.engine.of_fields (Nat.zero_le _) (fun hs => ?_) ⟨_, rfl⟩⟩
  · rw [State.win_of_map (s := s) rfl, restartedWindow_free] at hi
    exact absurd rfl hi
  · cases q <;> cases hv
  · exact (engineStop_of_fields (engineStop_restart s) (v := restartedState s) rfl rfl).scrubbing.1 hs

end

/-! ## The events -/

theorem EngineSound.reset (s : State) : EngineSound (hardwareReset s) := by
  obtain ⟨-, -, -, ⟨-, -, -, -, hengine⟩, ⟨hshape, -, -⟩, -⟩ := reset_evaluated
  exact EngineSound.of_fields (s := State.reset) ⟨shapeInv_iff.1 hshape, hengine⟩ rfl rfl rfl rfl rfl

theorem EngineSound.completeOp (h : EngineSound s) (op : EngineOp) : EngineSound (completeOp s op) := by
  unfold Machine.completeOp
  refine Ready.settle ⟨h.shapes.of_fields rfl (fun _ _ hv => hv) fun _ hop => List.mem_of_mem_tail hop,
    h.ready.engine.of_fields ?_ nofun ⟨[], (List.append_nil _).symm⟩⟩
  rw [raise_frame]
  simp

theorem EngineSound.completeScrub (h : EngineSound s) (b : Block) : EngineSound (completeScrub s b) :=
  Ready.settle ⟨h.shapes.of_fields rfl (fun _ _ hv => hv) fun _ hop => hop, ⟨h.ready.engine.queue, nofun⟩⟩

theorem EngineSound.operationCompletion (h : EngineSound s) (ht : exec .operationCompletion s = .next t) : EngineSound t := by
  simp only [exec, execOperationCompletion] at ht
  split at ht
  · next op hf =>
    rw [if_pos (opFits_of_shapes (shapeInv_iff.2 h.shapes) (mem_opQueue_of_inFlight hf))] at ht
    exact Host.Outcome.next.inj ht ▸ h.completeOp op
  · exact Host.Outcome.next.inj ht ▸ h

theorem EngineSound.scrubCompletion (h : EngineSound s) (ht : exec .scrubCompletion s = .next t) : EngineSound t := by
  simp only [exec, execScrubCompletion] at ht
  split at ht
  · exact Host.Outcome.next.inj ht ▸ h.completeScrub _
  · exact Host.Outcome.next.inj ht ▸ h

/-- A countdown outcome that a command names by a handle, where it is due (log entry 3). -/
theorem EngineSound.countdown (h : EngineSound s) {n : Nat} {due : Slot → Bool} {event : Slot → State}
    (ht : (match slotOfHandle n with | some i => if due i then event i else s | none => s) = t)
    (hev : ∀ i, due i = true → EngineSound (event i)) : EngineSound t := by
  subst ht
  split
  · split
    · next hd => exact hev _ hd
    · exact h
  · exact h

/-- A lapse concerns a SHOWN window (R133). -/
theorem EngineSound.lapse (h : EngineSound s) (hd : visitDue s i .lapses = true) : EngineSound (lapseWindow s i) := by
  obtain ⟨hshown, -⟩ := leaseOutcome_lapses (visitDue_iff.1 hd).1
  rw [lapseWindow_frame]
  refine h.of_set (i := i) rfl rfl rfl rfl rfl ⟨rfl, rfl, fun _ => rfl⟩ rfl fun _ => ?_
  exact h.shapes.windows i (by rw [hshown]; nofun)

/-- An eviction concerns a LAPSED window (R137). -/
theorem EngineSound.evict (h : EngineSound s) (hd : visitDue s i .evicted = true) : EngineSound (settleEngine (evictWindow s i)) := by
  obtain ⟨hlapsed, -⟩ := leaseOutcome_evicted (visitDue_iff.1 hd).1
  have hset : EngineSound (s.setWin i { s.win i with graceCounter := 0 }) :=
    h.recorded (State.setWin_windows ..) rfl rfl rfl rfl rfl rfl rfl rfl rfl
  refine (hset.ready.retire ?_ .eviction).settle
  rw [State.win_setWin_same]
  simp [hlapsed]

/-! ## Every command -/

/-- Every command keeps the shapes and the engine sound; a frame boundary does so from a sound commit queue and sound fields. -/
theorem EngineSound.exec {c : Instr} (h : EngineSound s) (hc : CommitInv s) (hf : FieldsInv s) (ht : exec c s = .next t) : EngineSound t := by
  cases c
  case operationCompletion => exact h.operationCompletion ht
  case scrubCompletion => exact h.scrubCompletion ht
  all_goals replace ht := Host.Outcome.next.inj ht
  case hardwareReset => exact ht ▸ .reset s
  case selectAssert p =>
    subst ht
    unfold Machine.selectAssert
    dsimp only
    split
    · exact h
    · exact h.of_fields rfl rfl rfl rfl rfl
  case selectRelease => exact ht ▸ h.of_fields rfl rfl rfl rfl rfl
  case nop | status | listOwned | listStack => exact ht ▸ h.complete fun _ _ => .answer h
  case collect | setBackground => exact ht ▸ h.complete fun _ _ => .answer (h.of_fields rfl rfl rfl rfl rfl)
  case query => exact ht ▸ h.complete fun _ _ => .withWindow fun _ _ _ => .answer (h.of_fields rfl rfl rfl rfl rfl)
  case subscribe => exact ht ▸ h.complete fun _ _ => takeSubscribe_sound h
  case detach p => exact ht ▸ h.complete fun _ _ => .answer (h.detach p)
  case create => exact ht ▸ h.complete fun _ _ => takeCreate_sound h
  case retire => exact ht ▸ h.complete fun _ _ => takeRetire_sound h
  case stage => exact ht ▸ h.complete fun _ _ => takeStage_sound h
  case discard => exact ht ▸ h.complete fun _ _ => takeDiscard_sound h
  case arm => exact ht ▸ h.complete fun _ _ => takeArm_sound h
  case disarm => exact ht ▸ h.complete fun _ _ => takeDisarm_sound h
  case renew => exact ht ▸ h.complete fun _ _ => takeRenew_sound h
  case openStream => exact ht ▸ h.complete fun _ _ => takeOpenStream_sound h
  case put => exact ht ▸ h.complete fun _ => takePut_sound h
  case closeStream => exact ht ▸ h.complete fun _ _ => takeCloseStream_sound h
  case fill => exact ht ▸ h.complete fun _ _ => takeFill_sound h
  case copy => exact ht ▸ h.complete fun _ _ => takeCopy_sound h
  case cancelOp => exact ht ▸ h.complete fun _ _ => takeCancelOp_sound h
  case offer => exact ht ▸ h.complete fun _ _ => takeOffer_sound h
  case accept => exact ht ▸ h.complete fun _ _ => takeAccept_sound h
  case decline => exact ht ▸ h.complete fun _ _ => takeDecline_sound h
  case withdraw => exact ht ▸ h.complete fun _ _ => takeWithdraw_sound h
  case setProfile => exact ht ▸ h.complete fun _ _ => takeSetProfile_sound h
  case switchProfile => exact ht ▸ h.complete fun _ _ => takeSwitchProfile_sound h
  case display => exact ht ▸ h.complete fun _ _ => takeDisplay_sound h
  case setQuota => exact ht ▸ h.complete fun _ _ => takeSetQuota_sound h
  case setGrace => exact ht ▸ h.complete fun _ _ => takeSetGrace_sound h
  case restart => exact ht ▸ h.complete fun _ _ => .answer h.restart
  case undefinedRequest p =>
    subst ht
    split
    · split
      · exact h
      · next hundefined =>
        unfold evaluate
        rw [if_pos hundefined]
        exact h.of_fields rfl rfl rfl rfl rfl
    · exact h
  case frameBoundary order => exact ht ▸ h.boundary hc hf order
  case commitExpiry =>
    exact h.countdown ht fun i _ => by rw [expireUnit_frame]; exact h.of_fields rfl rfl rfl rfl rfl
  case lapse => exact h.countdown ht fun i hd => h.lapse hd
  case eviction => exact h.countdown ht fun i hd => h.evict hd
  case offerExpiry =>
    exact h.countdown ht fun i _ => h.recorded (i := i) rfl rfl rfl rfl rfl rfl rfl rfl rfl rfl

/-- With sound shapes every command answers a next state: the one fault is an operation that would leave its surface, which no operation of
the queue does (log entry 16). -/
theorem exec_next (h : ShapeInv s) (c : Instr) : ∃ t, exec c s = .next t := by
  cases c
  case operationCompletion =>
    simp only [Machine.exec, execOperationCompletion]
    split
    · next op hf => exact ⟨_, if_pos (opFits_of_shapes h (mem_opQueue_of_inFlight hf))⟩
    · exact ⟨s, rfl⟩
  case scrubCompletion =>
    simp only [Machine.exec, execScrubCompletion]
    split <;> exact ⟨_, rfl⟩
  all_goals exact ⟨_, rfl⟩

end

/-- Settles O60: the next state is the command's, and every command keeps the shapes and the engine sound. -/
theorem everyStepIsSafe : Obligations.EveryStepIsSafe := by
  intro s hs
  unfold step
  cases hp : s.pending with
  | nil => exact ⟨s, rfl, fun _ _ he => ⟨hs, he⟩⟩
  | cons c rest =>
    obtain ⟨t, ht⟩ := exec_next (s := { s with pending := rest }) hs c
    refine ⟨t, ht, fun hc hf he => ?_⟩
    have hsound : EngineSound s := ⟨shapeInv_iff.1 hs, he⟩
    have hnext := EngineSound.exec (s := { s with pending := rest }) (hsound.of_fields rfl rfl rfl rfl rfl) hc hf ht
    exact ⟨shapeInv_iff.2 hnext.shapes, hnext.engine⟩

end Sys2Proof.Machine
end

