-- ==== Sys2Proof/Proofs/Composition.lean ====
section
/-! What a panel pixel shows and how the panel signals run (R48, R109, R110, R117, R119 to R125). -/

namespace Sys2Proof.Machine

open Sys2Proof.Safety

/-! ## The walk of the view (R125) -/

theorem composeFrom_of_transparent {s : State} {px py : Nat} {l : List ViewEntry} (h : ∀ u ∈ l, u.draw s px py = none)
    (rest : List ViewEntry) : composeFrom s px py (l ++ rest) = composeFrom s px py rest := by
  induction l with
  | nil => rfl
  | cons u l ih =>
    obtain ⟨hu, hl⟩ := List.forall_mem_cons.1 h
    rw [List.cons_append, composeFrom, hu]
    exact ih hl

theorem composePixel_of_transparent {s : State} {px py : Nat} (h : ∀ v ∈ s.view, v.draw s px py = none) :
    composePixel s px py = s.timing.background := by
  have hwalk := composeFrom_of_transparent (l := s.view.reverse) (fun u hu => h u (List.mem_reverse.1 hu)) []
  rwa [List.append_nil] at hwalk

theorem composePixel_of_topmost {s : State} {px py : Nat} {below above : List ViewEntry} {v : ViewEntry} {c : Colour}
    (hview : s.view = below ++ v :: above) (habove : ∀ u ∈ above, u.draw s px py = none) (hv : v.draw s px py = some c) :
    composePixel s px py = c := by
  rw [composePixel, hview, List.reverse_append, List.reverse_cons, List.append_assoc,
    composeFrom_of_transparent fun u hu => habove u (List.mem_reverse.1 hu), List.singleton_append, composeFrom, hv]

/-! ## The surface pixel shown (R48, R119, R121) -/

/-- A scrolled distance from a window's edge wraps at its extent alike in whole and in natural numbers (R121). -/
theorem wrapped_distance {x : Int} {px : Nat} (h : x ≤ px) (scroll extent : Nat) :
    (((px : Int) - x + scroll) % (extent : Int)).toNat = (((px : Int) - x).toNat + scroll) % extent := by
  obtain ⟨n, hn⟩ := Int.eq_ofNat_of_zero_le (Int.sub_nonneg.2 h)
  rw [hn]
  norm_cast

theorem shownPlace_eq {v : ViewEntry} {px py : Nat} (hx : v.x ≤ px) (hy : v.y ≤ py) :
    shownPlace v px py = (v.column px, v.line py) := by
  rw [shownPlace, ViewEntry.column, ViewEntry.line, wrapped_distance hx, wrapped_distance hy]

/-- What the operation in flight writes at a place is its pixel there (R48). -/
theorem opPixel_of_inFlightPixel {s : State} (h : ShapeInv s) {op : EngineOp} (hf : inFlight s = some op) {r : WinRef} {id : SurfaceId}
    {c l : Nat} {new : Pixel} (hnew : inFlightPixel s r id c l = some new) : op.dest = r ∧ op.destId = id ∧ opPixel s op c l = some new := by
  unfold inFlightPixel at hnew
  rw [hf] at hnew
  dsimp only at hnew
  split at hnew
  · next hd =>
    obtain ⟨w, hw, rfl⟩ := Option.map_eq_some_iff.1 hnew
    have hplace := List.find?_some hw
    simp only [Bool.and_eq_true, beq_iff_eq] at hplace
    obtain ⟨rfl, rfl⟩ := hplace
    obtain ⟨m, hm⟩ := List.mem_iff_getElem?.1 (List.mem_of_find?_eq_some hw)
    exact ⟨hd.1, hd.2, (writeAt_of_getElem? (h.2.2 op (mem_opQueue_of_inFlight hf)).2 hm).pixel⟩
  · cases hnew

theorem inFlightPixel_of_none {s : State} (h : inFlight s = none) (r : WinRef) (id : SurfaceId) (c l : Nat) :
    inFlightPixel s r id c l = none := by
  unfold inFlightPixel
  rw [h]

/-- The pixel shown is the one stored, or the one the operation in flight writes there (R48, R119). -/
theorem pixel_cases (s : State) (v : ViewEntry) (px py : Nat) :
    v.pixel s px py = readPixel s.store v.format (v.format.stride v.width) v.blocks (v.column px) (v.line py) ∨
      inFlightPixel s v.ref v.front (v.column px) (v.line py) = some (v.pixel s px py) := by
  unfold ViewEntry.pixel
  dsimp only
  split
  · next new hnew =>
    split
    · exact .inr hnew
    · exact .inl rfl
  · exact .inl rfl

/-! ## Colours (R123, R124) -/

theorem widen5_eq (v : BitVec 5) : widen5 v = BitVec.ofNat 8 (v.toNat * 8 + v.toNat / 4) := by
  have hv := v.isLt
  have htop : v.toNat / 4 % 8 = v.toNat / 4 := Nat.mod_eq_of_lt (by omega)
  apply BitVec.eq_of_toNat_eq
  simp only [widen5, BitVec.toNat_append, BitVec.extractLsb'_toNat, BitVec.toNat_ofNat, Nat.shiftRight_eq_div_pow, Nat.reducePow]
  rw [htop, ← Nat.shiftLeft_add_eq_or_of_lt (by omega)]
  simp only [Nat.shiftLeft_eq]
  omega

theorem widen6_eq (v : BitVec 6) : widen6 v = BitVec.ofNat 8 (v.toNat * 4 + v.toNat / 16) := by
  have hv := v.isLt
  have htop : v.toNat / 16 % 4 = v.toNat / 16 := Nat.mod_eq_of_lt (by omega)
  apply BitVec.eq_of_toNat_eq
  simp only [widen6, BitVec.toNat_append, BitVec.extractLsb'_toNat, BitVec.toNat_ofNat, Nat.shiftRight_eq_div_pow, Nat.reducePow]
  rw [htop, ← Nat.shiftLeft_add_eq_or_of_lt (by omega)]
  simp only [Nat.shiftLeft_eq]
  omega

/-- The components of a 5-6-5 pixel widened (R124). -/
theorem outputColour_c16 (ink : Colour) (p : BitVec 16) :
    outputColour ink (.c16 p) =
      ⟨BitVec.ofNat 8 (p.toNat / 2048 * 8 + p.toNat / 2048 / 4),
        BitVec.ofNat 8 (p.toNat / 32 % 64 * 4 + p.toNat / 32 % 64 / 16),
        BitVec.ofNat 8 (p.toNat % 32 * 8 + p.toNat % 32 / 4)⟩ := by
  have hp := p.isLt
  have hred : p.toNat / 2048 % 32 = p.toNat / 2048 := Nat.mod_eq_of_lt (by omega)
  simp only [outputColour, widen5_eq, widen6_eq, BitVec.extractLsb'_toNat, Nat.shiftRight_eq_div_pow]
  norm_num [hred]

/-- A window drawn from its surface gives the colour of the pixel it shows, or nothing where that is transparent (R123, R124). -/
theorem drawSurface_eq (s : State) (v : ViewEntry) (px py : Nat) : v.drawSurface s px py = shownColour v (v.pixel s px py) := by
  unfold ViewEntry.drawSurface
  cases v.pixel s px py with
  | m1 ink => cases ink <;> rfl
  | c24 c =>
    cases hk : v.key with
    | none => simp [transparent, outputColour, shownColour, hk]
    | some k => simp [transparent, outputColour, shownColour, hk, eq_comm (a := c)]
  | c16 p =>
    dsimp only
    rw [outputColour_c16]
    cases hk : v.key with
    | none => simp [transparent, shownColour, hk]
    | some k => simp [transparent, shownColour, hk, to565_eq, eq_comm (a := p)]

/-! ## What a window gives at a panel pixel (R119, R120, R122) -/

theorem covers_iff {v : ViewEntry} {px py : Nat} :
    v.covers px py = true ↔ v.x ≤ px ∧ (px : Int) < v.x + v.width ∧ v.y ≤ py ∧ (py : Int) < v.y + v.height := by
  simp [ViewEntry.covers, and_assoc]

section
variable {s : State} {v : ViewEntry} {px py : Nat}

theorem draw_of_uncovered (h : ¬ v.covers px py = true) : v.draw s px py = none := if_neg h

theorem draw_of_surface (h : v.covers px py = true)
    (hs : (s.win v.ref.slot).state = .shown ∨ (s.win v.ref.slot).state = .retiring ∨ ((s.win v.ref.slot).state = .lapsed ∧ v.policy = .keep)) :
    v.draw s px py = shownColour v (v.pixel s px py) := by
  rw [← drawSurface_eq]
  unfold ViewEntry.draw
  rw [if_pos h]
  rcases hs with hs | hs | ⟨hs, hk⟩
  · rw [hs]
  · rw [hs]
  · rw [hs, hk]

theorem draw_of_fill (h : v.covers px py = true) (hs : (s.win v.ref.slot).state = .lapsed) (hp : v.policy = .fill) :
    v.draw s px py = some v.fallbackColour := by
  unfold ViewEntry.draw
  rw [if_pos h, hs, hp]

theorem draw_of_vanish (h : v.covers px py = true) (hs : (s.win v.ref.slot).state = .lapsed) (hp : v.policy = .vanish) :
    v.draw s px py = none := by
  unfold ViewEntry.draw
  rw [if_pos h, hs, hp]

end

/-! ## The raster (R109, R110, R117) -/

theorem level_eq (p : Polarity) (b : Bool) : p.level b = levelOf p (b = true) := by cases p <;> cases b <;> rfl

theorem levelOf_congr (p : Polarity) {a b : Prop} [Decidable a] [Decidable b] (h : a ↔ b) : levelOf p a = levelOf p b :=
  if_congr h rfl rfl

theorem currentProfile_eq (t : Timing) : t.currentProfile = if t.current = .P0 then t.p0 else t.p1 := by
  unfold Timing.currentProfile Timing.profile
  cases t.current <;> rfl

theorem deActive_iff {s : State} {line clock : Nat} :
    deActive s line clock = true ↔
      let f := s.timing.currentProfile
      s.timing.display = true ∧ f.vFront + f.vSync + f.vBack ≤ line ∧ line < f.vFront + f.vSync + f.vBack + f.activeHeight ∧
        clock < f.activeWidth := by
  simp only [deActive, Bool.and_eq_true, decide_eq_true_eq, and_assoc]
  rfl

theorem hsyncActive_iff {f : Profile} {clock : Nat} :
    f.hsyncActive clock = true ↔ f.activeWidth + f.hFront ≤ clock ∧ clock < f.activeWidth + f.hFront + f.hSync := by
  simp [Profile.hsyncActive]

theorem vsyncActive_iff {f : Profile} {line : Nat} : f.vsyncActive line = true ↔ f.vFront ≤ line ∧ line < f.vFront + f.vSync := by
  simp [Profile.vsyncActive]

theorem panelPins_eq (s : State) (line clock : Nat) :
    let f := s.timing.currentProfile
    let active := s.timing.display = true ∧ f.vFront + f.vSync + f.vBack ≤ line ∧
      line < f.vFront + f.vSync + f.vBack + f.activeHeight ∧ clock < f.activeWidth
    panelPins s line clock =
      { hsync := levelOf f.hsync (f.activeWidth + f.hFront ≤ clock ∧ clock < f.activeWidth + f.hFront + f.hSync)
        vsync := levelOf f.vsync (f.vFront ≤ line ∧ line < f.vFront + f.vSync)
        de := levelOf f.de active
        rgb := if active then composePixel s clock (line - (f.vFront + f.vSync + f.vBack)) else ⟨0, 0, 0⟩ } := by
  intro f active
  unfold panelPins
  simp only [level_eq]
  rw [levelOf_congr _ hsyncActive_iff, levelOf_congr _ vsyncActive_iff, levelOf_congr _ deActive_iff]
  exact congrArg (PanelPins.mk _ _ _) (if_congr deActive_iff rfl rfl)

theorem framePeriod_eq (f : Profile) : f.framePeriod =
    (f.activeWidth + (f.hFront + f.hSync + f.hBack)) * (f.activeHeight + (f.vFront + f.vSync + f.vBack)) * f.divisor := by
  rw [Nat.add_comm f.activeHeight]
  rfl

/-- Settles O53: the walk of the view from its top, what each window gives at a pixel it covers, and the raster. -/
theorem compositionTakesTopmostOpaque : Obligations.CompositionTakesTopmostOpaque := by
  refine ⟨fun s px py => ⟨composePixel_of_transparent, fun below above v c => composePixel_of_topmost⟩, fun s v px py => ⟨fun hout => ?_, ?_⟩,
    fun s line clock => ?_⟩
  · exact draw_of_uncovered (mt covers_iff.1 hout)
  · intro hx hxw hy hyh
    have hcov : v.covers px py = true := covers_iff.2 ⟨hx, hxw, hy, hyh⟩
    rw [shownPlace_eq hx hy]
    refine ⟨fun hs => ⟨fun hidle => ?_, fun hshape op hf => ?_⟩, draw_of_fill hcov, draw_of_vanish hcov⟩
    · rw [draw_of_surface hcov hs]
      obtain h | h := pixel_cases s v px py
      · rw [h]
      · rw [inFlightPixel_of_none hidle] at h
        cases h
    · rw [draw_of_surface hcov hs]
      obtain h | h := pixel_cases s v px py
      · exact .inl (by rw [h])
      · obtain ⟨hd, hid, hpixel⟩ := opPixel_of_inFlightPixel hshape hf h
        exact .inr ⟨hd, hid, _, hpixel, rfl⟩
  · intro f active
    have hf : s.timing.currentProfile = f := currentProfile_eq _
    have hpins := panelPins_eq s line clock
    rw [hf] at hpins
    exact ⟨hpins, framePeriod_eq f⟩

end Sys2Proof.Machine
end

