-- ==== Sys2Proof/Proofs/BoundaryEngine.lean ====
section
/-! What a frame boundary makes of the timing state, the view, the engine and the streams: the evictions that it makes take operations and streams
with them, and no other work touches these (R46, R55, R57, R59, R61, R104, R111, R119, R137). -/

namespace Sys2Proof.Machine

open Sys2Proof.Safety

/-! ## Work that leaves the engine and the streams -/

/-- The engine, the frame store and the streams are as they were. -/
structure SameEngine (t u : State) : Prop where
  opQueue : u.opQueue = t.opQueue
  streams : u.streams = t.streams
  store : u.store = t.store
  activity : u.activity = t.activity

theorem SameEngine.refl (t : State) : SameEngine t t := ⟨rfl, rfl, rfl, rfl⟩

theorem sameEngine_visitWindow {s : State} {j : Slot} (h : leaseOutcome (s.win j) ≠ .evicted) : SameEngine s (visitWindow s j) := by
  unfold visitWindow
  dsimp only
  split
  case h_5 ho => exact absurd ho h
  case h_1 => rw [renewWindow_frame]; exact ⟨rfl, rfl, rfl, rfl⟩
  case h_3 => rw [lapseWindow_frame]; exact ⟨rfl, rfl, rfl, rfl⟩
  all_goals exact ⟨rfl, rfl, rfl, rfl⟩

/-- The Lease Monitor's visit of a window that it does not evict. -/
theorem sameEngine_leaseVisit {plan : BoundaryPlan} {s : State} {j : Slot}
    (h : j ∉ plan.applied → leaseOutcome (s.win j) ≠ .evicted) : SameEngine s (leaseVisit plan s j) := by
  unfold leaseVisit
  split
  · exact .refl s
  · split
    · split
      · rw [raiseOwner_frame]
        exact ⟨rfl, rfl, rfl, rfl⟩
      · exact .refl s
    · next hm => exact sameEngine_visitWindow (h (by simpa using hm))

theorem sameEngine_task (plan : BoundaryPlan) (run : BoundaryRun) {x : BoundaryTask} (hx : ∀ n, x ≠ .leaseVisit n) :
    SameEngine run.state (boundaryTask plan run x).state := by
  cases x with
  | leaseVisit n => exact absurd rfl (hx n)
  | profileNotice =>
    simp only [boundaryTask]
    rw [profileNotice_frame]
    exact ⟨rfl, rfl, rfl, rfl⟩
  | walkUnit =>
    simp only [boundaryTask]
    split
    · exact .refl _
    · dsimp only
      rw [walkUnit_frame]
      exact ⟨rfl, rfl, rfl, rfl⟩
  | offerCount n =>
    simp only [boundaryTask]
    split
    · dsimp only
      rw [countOffer_frame]
      exact ⟨rfl, rfl, rfl, rfl⟩
    · exact .refl _
  | frameNotice p =>
    simp only [boundaryTask]
    rw [frameNotice_frame]
    exact ⟨rfl, rfl, rfl, rfl⟩

/-! ## What evictions take with them -/

/-- What the evictions of these windows have made of a state's engine and streams: the operations that name one of them are out of the queue, the
streams into one of them are closed, and the store and the operation in flight are as they were unless it is one of those (R61, R137). -/
structure EvictedFrom (s : State) (js : List Slot) (u : State) : Prop where
  ops : u.opQueue = s.opQueue.filter (fun op => !js.any (fun j => opNames (s.refOf j) op))
  streams : ∀ q, u.streams.get q = if js.any (fun j => streamInto s q (s.refOf j)) then none else s.streams.get q
  engine : (∀ op, inFlight s = some op → js.any (fun j => opNames (s.refOf j) op) = false) → u.store = s.store ∧ u.activity = s.activity
  scrubbing : u.activity = .scrubbing ↔ s.activity = .scrubbing

section
variable {s t u : State} {js : List Slot}

theorem EvictedFrom.same (h : EvictedFrom s js t) (hs : SameEngine t u) : EvictedFrom s js u where
  ops := hs.opQueue.trans h.ops
  streams q := hs.streams ▸ h.streams q
  engine hn := by
    rw [hs.store, hs.activity]
    exact h.engine hn
  scrubbing := by
    rw [hs.activity]
    exact h.scrubbing

/-- One more eviction. -/
theorem EvictedFrom.evict (h : EvictedFrom s js t) {j : Slot} (ho : leaseOutcome (t.win j) = .evicted) (hr : t.refOf j = s.refOf j) :
    EvictedFrom s (js ++ [j]) (visitWindow t j) := by
  have hvisit : visitWindow t j = retireWindow (t.setWin j { t.win j with graceCounter := 0 }) j .eviction := by
    rw [visitWindow, ho]
    rfl
  have href : (t.setWin j { t.win j with graceCounter := 0 }).refOf j = s.refOf j := by
    rw [← hr, State.refOf, State.win_setWin_same]
    rfl
  obtain ⟨hstore, -, hact⟩ := retireWindow_engine (t.setWin j { t.win j with graceCounter := 0 }) j .eviction
  rw [href] at hstore hact
  have hstop := engineStop_of_stopped hstore hact
  rw [hvisit]
  refine ⟨?_, fun q => ?_, fun hn => ?_, hstop.scrubbing.trans h.scrubbing⟩
  · rw [retireWindow_opQueue, href, State.setWin_opQueue, h.ops, List.filter_filter]
    refine List.filter_congr fun op _ => ?_
    simp [Bool.and_comm]
  · rw [retireWindow_streams, href, State.setWin_streams]
    have hinto : streamInto (t.setWin j { t.win j with graceCounter := 0 }) q (s.refOf j) = streamInto t q (s.refOf j) := rfl
    rw [hinto, List.any_append, List.any_cons, List.any_nil, Bool.or_false]
    by_cases hany : js.any (fun j => streamInto s q (s.refOf j)) = true
    · have hclosed : t.streams.get q = none := (h.streams q).trans (if_pos hany)
      rw [hclosed, hany, ite_self, Bool.true_or, if_pos rfl]
    · have hkept : t.streams.get q = s.streams.get q := (h.streams q).trans (if_neg hany)
      have hsame : streamInto t q (s.refOf j) = streamInto s q (s.refOf j) := by rw [streamInto, hkept, streamInto]
      rw [hsame, hkept, Bool.eq_false_iff.2 hany, Bool.false_or]
  · have hbefore : ∀ op, inFlight s = some op → js.any (fun j => opNames (s.refOf j) op) = false := fun op hf => by
      have := hn op hf
      rw [List.any_append, Bool.or_eq_false_iff] at this
      exact this.1
    obtain ⟨hs, ha⟩ := h.engine hbefore
    have hflight : inFlight t = inFlight s := inFlight_of_filter ha h.ops fun op hf => by rw [hbefore op hf]; rfl
    obtain ⟨op, hf, hh, -⟩ | ⟨-, e⟩ := stopped_cases (t.setWin j { t.win j with graceCounter := 0 }) (opNames (s.refOf j))
    · have := hn op (hflight.symm.trans hf)
      rw [List.any_append, Bool.or_eq_false_iff] at this
      simp [hh] at this
    · rw [hstore, hact, e]
      exact ⟨hs, ha⟩

end

/-! ## The evictions of a boundary -/

/-- The window that a piece of work evicts under a plan: one that is due and whose commit the plan does not apply (R104, R129). -/
def plannedEviction (s : State) (plan : BoundaryPlan) : BoundaryTask → Option Slot
  | .leaseVisit n => (slotOfHandle n).filter (fun j => evictionDue (s.win j) ∧ j ∉ plan.applied)
  | _ => none

/-- The evictions that pieces of work make under a plan, in their order. -/
def plannedEvictions (s : State) (plan : BoundaryPlan) (l : List BoundaryTask) : List Slot := l.filterMap (plannedEviction s plan)

theorem mem_plannedEvictions {s : State} {plan : BoundaryPlan} {l : List BoundaryTask} {j : Slot} (hl : .leaseVisit j.handle ∈ l) :
    j ∈ plannedEvictions s plan l ↔ evictionDue (s.win j) ∧ j ∉ plan.applied := by
  constructor
  · intro hj
    obtain ⟨x, -, hx⟩ := List.mem_filterMap.1 hj
    cases x with
    | leaseVisit n => exact of_decide_eq_true (Option.filter_eq_some_iff.1 hx).2
    | profileNotice | walkUnit | offerCount | frameNotice => cases hx
  · intro hj
    refine List.mem_filterMap.2 ⟨_, hl, ?_⟩
    rw [plannedEviction, slotOfHandle_handle]
    exact Option.filter_eq_some_iff.2 ⟨rfl, decide_eq_true hj⟩

section
variable {s : State} {plan : BoundaryPlan} (hv : ∀ j, evictionDue (s.win j) → j ∈ plan.visited)
include hv

/-- What one piece of work does: it evicts the window that the plan says, or leaves the engine and the streams. -/
theorem EvictedFrom.task {js : List Slot} {run : BoundaryRun} (h : EvictedFrom s js run.state) (x : BoundaryTask)
    (hd : ∀ j : Slot, x = .leaseVisit j.handle → j ∉ plan.applied → DueKept s run.state j) :
    EvictedFrom s (js ++ (plannedEviction s plan x).toList) (boundaryTask plan run x).state := by
  cases x with
  | profileNotice | walkUnit | offerCount | frameNotice =>
    simp only [plannedEviction, Option.toList_none, List.append_nil]
    exact h.same (sameEngine_task plan run nofun)
  | leaseVisit n =>
    simp only [boundaryTask]
    cases hslot : slotOfHandle n with
    | none =>
      rw [plannedEviction, hslot, Option.filter_none, Option.toList_none, List.append_nil]
      exact h
    | some j =>
      obtain rfl := slotOfHandle_eq_some.1 hslot
      rw [plannedEviction, hslot]
      by_cases he : evictionDue (s.win j) ∧ j ∉ plan.applied
      · have hkept := hd j rfl he.2
        have hvisit : leaseVisit plan run.state j = visitWindow run.state j := by
          unfold leaseVisit
          rw [if_neg (by simpa using hv j he.1), if_neg (by simpa using he.2)]
        dsimp only
        rw [Option.filter_some, if_pos (decide_eq_true he), Option.toList_some, hvisit]
        exact h.evict (hkept.1.2 he.1) (hkept.2 he.1)
      · rw [Option.filter_some, if_neg (by simpa using he), Option.toList_none, List.append_nil]
        exact h.same (sameEngine_leaseVisit fun ha ho => he ⟨(hd j rfl ha).1.1 ho, ha⟩)

theorem EvictedFrom.tasks {js : List Slot} (l : List BoundaryTask) {run : BoundaryRun} (h : EvictedFrom s js run.state)
    (hn : ∀ j : Slot, l.count (.leaseVisit j.handle) ≤ 1)
    (hd : ∀ j : Slot, .leaseVisit j.handle ∈ l → j ∉ plan.applied → DueKept s run.state j) :
    EvictedFrom s (js ++ plannedEvictions s plan l) (l.foldl (boundaryTask plan) run).state := by
  induction l generalizing js run with
  | nil =>
    rw [plannedEvictions, List.filterMap_nil, List.append_nil]
    exact h
  | cons x rest ih =>
    have hfirst := h.task hv x fun j hx => hd j (hx ▸ List.mem_cons_self)
    have hrest := ih hfirst (fun j => List.count_le_count_cons.trans (hn j)) fun j hj ha => by
      refine dueKept_task (hd j (List.mem_cons_of_mem _ hj) ha) ha ?_
      rintro rfl
      have h1 := hn j
      have h2 := List.count_pos_iff.2 hj
      rw [List.count_cons_self] at h1
      omega
    have hlist : (plannedEviction s plan x).toList ++ plannedEvictions s plan rest = plannedEvictions s plan (x :: rest) := by
      unfold plannedEvictions
      cases hx : plannedEviction s plan x <;> simp [hx]
    rw [List.append_assoc, hlist] at hrest
    exact hrest

end

/-! ## The whole boundary -/

section
variable (order : BoundaryOrder) (s : State)

/-- The windows that a boundary evicts, in the order of their visits. -/
def evictedSlots : List Slot := plannedEvictions s (boundaryPlan order s) (boundaryTasks order s)

variable {order s}

theorem mem_evictedSlots {j : Slot} : j ∈ evictedSlots order s ↔ evictionDue (s.win j) ∧ j ∉ readySlots s := by
  have hperm : (boundaryTasks order s).Perm (allTasks ((units s).map unitSlots).length) := arrange_perm ..
  refine mem_plannedEvictions (hperm.mem_iff.2 (List.count_pos_iff.1 ?_))
  rw [(count_allTasks _ j).1]
  exact Nat.one_pos

theorem mem_evictedSlots_iff_evicted (hc : CommitInv s) {j : Slot} : j ∈ evictedSlots order s ↔ evicted s j := by
  rw [mem_evictedSlots, mem_readySlots hc]

theorem evictedFrom_start : EvictedFrom s [] (boundaryStart s) where
  ops := by simp [boundaryStart_opQueue]
  streams q := by simp [boundaryStart_streams]
  engine _ := by
    rw [boundaryStart, removeRetiring_frame]
    exact ⟨rfl, rfl⟩
  scrubbing := by
    rw [boundaryStart, removeRetiring_frame]

theorem evictedFrom_boundaryEnd : EvictedFrom s (evictedSlots order s) (boundaryEnd order s) := by
  have hperm : (boundaryTasks order s).Perm (allTasks ((units s).map unitSlots).length) := arrange_perm ..
  exact EvictedFrom.tasks (plan := boundaryPlan order s) (js := [])
    (fun j hj => mem_visited.2 (leaseVisited_iff.2 ⟨.inr hj.1, hj.2.1⟩)) (boundaryTasks order s)
    (run := ⟨boundaryStart s, (units s).map unitSlots⟩) evictedFrom_start
    (fun j => (hperm.count_eq _).trans (count_allTasks _ j).1 |>.le) fun j _ _ => dueKept_start s j

/-- A boundary leaves what its work leaves of the queue, the streams and the store (R46, R71). -/
theorem frameBoundary_engine :
    (frameBoundary order s).opQueue = (boundaryEnd order s).opQueue ∧ (frameBoundary order s).streams = (boundaryEnd order s).streams ∧
      (frameBoundary order s).store = (boundaryEnd order s).store := by
  rw [frameBoundary_eq, settleEngine_frame]
  exact ⟨rfl, rfl, rfl⟩

/-- The engine makes its choice after the boundary's work (R46). -/
theorem frameBoundary_activity :
    (frameBoundary order s).activity = choice { frameBoundary order s with activity := s.activity } := by
  have hend : (takeView (boundaryEnd order s)).activity = .scrubbing ↔ s.activity = .scrubbing := evictedFrom_boundaryEnd.scrubbing
  rw [frameBoundary_eq, settleEngine_activity, settleEngine_frame]
  simp only [choice, ne_eq, ite_not, hend]

theorem frameBoundary_quiet (h : ∀ i : Slot, ¬ evictionDue (s.win i)) :
    (frameBoundary order s).opQueue = s.opQueue ∧ (frameBoundary order s).streams = s.streams ∧
      (frameBoundary order s).store = s.store := by
  have hnil : evictedSlots order s = [] := List.eq_nil_iff_forall_not_mem.2 fun j hj => h j (mem_evictedSlots.1 hj).1
  have hend := evictedFrom_boundaryEnd (order := order) (s := s)
  rw [hnil] at hend
  obtain ⟨hq, hst, hs⟩ := frameBoundary_engine (order := order) (s := s)
  rw [hq, hst, hs]
  exact ⟨by simpa using hend.ops, PerPort.ext_get fun q => by simpa using hend.streams q, (hend.engine fun _ _ => rfl).1⟩

theorem any_evictedSlots (hc : CommitInv s) (f : Slot → Bool) :
    (evictedSlots order s).any f = true ↔ ∃ i : Slot, evicted s i ∧ f i = true := by
  rw [List.any_eq_true]
  exact exists_congr fun j => and_congr_left' (mem_evictedSlots_iff_evicted hc)

theorem frameBoundary_cancels (hc : CommitInv s) :
    (frameBoundary order s).opQueue = s.opQueue.filter (fun op => ¬ cancelledAt s op) ∧
      (∀ q : Port, (frameBoundary order s).streams.get q =
        if ∃ i : Slot, evicted s i ∧ streamInto s q (s.refOf i) = true then none else s.streams.get q) ∧
      ((∀ op, inFlight s = some op → ¬ cancelledAt s op) → (frameBoundary order s).store = s.store) := by
  have hend := evictedFrom_boundaryEnd (order := order) (s := s)
  obtain ⟨hq, hst, hs⟩ := frameBoundary_engine (order := order) (s := s)
  rw [hq, hst, hs]
  refine ⟨hend.ops.trans (List.filter_congr fun op _ => ?_), fun q => (hend.streams q).trans ?_, fun hn => (hend.engine fun op hf => ?_).1⟩
  · rw [Bool.eq_iff_iff, decide_eq_true_iff, Bool.not_eq_true', ← Bool.not_eq_true]
    exact not_congr (any_evictedSlots hc _)
  · exact if_congr (any_evictedSlots hc _) rfl rfl
  · rw [← Bool.not_eq_true]
    exact fun hany => hn op hf ((any_evictedSlots hc _).1 hany)

/-- No byte outside the destination of the operation in flight changes (R23, R61). -/
theorem Drawn.read {u : State} (h : Drawn s u) {a : Address}
    (ha : ∀ op, inFlight s = some op → ∀ b ∈ (s.win op.dest.slot).surface op.destId, a.val / 2048 ≠ b.val) :
    u.store.read a = s.store.read a := by
  obtain h | ⟨op, w, made, hf, h, hsub, -⟩ := h
  · rw [h]
  · rw [h]
    exact read_writeAll_outside (fun b hb => ha op hf b (hsub b hb)) _ _

/-- An operation that the boundary abandons leaves whole pixels, old or its own (R55, R57, R59). -/
theorem frameBoundary_pixels (hp : PoolInv s) (hsh : ShapeInv s) {op : EngineOp} (hf : inFlight s = some op) :
    AbandonedPixels s (frameBoundary order s) op := by
  have hop := mem_opQueue_of_inFlight hf
  have hbody := (hsh.2.2 op hop).2
  have hlen : 0 < (opWrites s op).length := opWrites_length s op ▸ pixelCount_pos hbody
  obtain ⟨hstart, hflight, -, hnamed⟩ := boundaryStart_kept s
  obtain ⟨-, -, hend⟩ := frameBoundary_engine (order := order) (s := s)
  have hrefs := hnamed hsh op hop
  obtain ⟨hs, -⟩ | ⟨-, x, n, hx, hs⟩ := (workKept_boundary order s).engine
  · exact abandonedPixels_of_interrupted hp hsh hop (interrupted_nil hlen) (hend.trans (hs.trans hstart))
  · obtain rfl : x = op := Option.some.inj (hx.symm.trans (hflight.trans hf))
    refine abandonedPixels_of_interrupted hp hsh hop (interrupted_abandonedWrites n x (opWrites_nodup hbody) hlen) ?_
    rw [hend, hs, opWrites_congr_of_refs hstart fun r hr => by rw [hrefs r hr]]
    exact storeAfter_congr hstart x (by rw [hrefs x.dest List.mem_cons_self]) _

end

/-- Settles O41: what is kept and the timing by the frame of a boundary, the queue, the streams and the store by the evictions that its visits
make, and the choice by what they leave. -/
theorem boundarySetsTimingAndView : Obligations.BoundarySetsTimingAndView := by
  intro order s
  obtain ⟨hsteady, hview⟩ := frameBoundary_kept order s
  simp only [State.steady, Steady.mk.injEq] at hsteady
  obtain ⟨hfree, hquota, hcounter, -, hgrace, htiming, hsub, hlinks, -⟩ := hsteady
  exact ⟨frameBoundary order s, rfl, htiming, hview, hfree, hquota, hcounter, hgrace, hsub, hlinks, frameBoundary_activity,
    frameBoundary_quiet, frameBoundary_cancels, fun _ ha => (memoryKept_boundary order s).drawn.read ha,
    fun hp hsh _ hf => frameBoundary_pixels hp hsh hf⟩

end Sys2Proof.Machine
end

