-- ==== Sys2Proof/Proofs/CommitRequests.lean ====
section
/-! DISCARD, ARM and DISARM: what each checks, in order, and what it makes of the staging and the commit queue (R86 to R91). -/

namespace Sys2Proof.Machine

open Sys2Proof.Safety

/-! ## DISCARD (O23) -/

theorem emptyStaging_of_empty {s : State} {i : Slot} (h : (s.win i).staging = Staging.empty) : emptyStaging s i = s := by
  rw [emptyStaging, ← h]
  exact State.setWin_self s i

theorem takeDiscard_own {s : State} {p : Port} {h g : Byte} {i : Slot} (hown : NamesOwn s p ⟨h, g⟩ i) :
    takeDiscard s p [h, g] = if armed s i then .refuse .armed else .answer (emptyStaging s i) .done [] :=
  withWindow_ok (refCheck_own hown)

/-- Settles O23: past the reference check a DISCARD turns on whether the window is armed. -/
theorem discardEmptiesStaging : Obligations.DiscardEmptiesStaging := by
  intro s p tag h g hp
  have refuses {st : Status} (ht : takeDiscard s p [h, g] = .refuse st) : exec (.discard p) s = .next (s.hold p ⟨st, tag, []⟩) :=
    congrArg Host.Outcome.next (complete_refuse hp rfl (by decide) rfl (.inr rfl) ht)
  refine ⟨fun st hr => refuses (withWindow_refuse hr), fun i hown => ⟨fun harmed => refuses ?_, fun hfree => ?_⟩⟩
  · rw [takeDiscard_own hown, if_pos (armed_iff.2 harmed)]
  · have htaken : takeDiscard s p [h, g] = .answer (emptyStaging s i) .done [] := by
      rw [takeDiscard_own hown, if_neg (by simp [armed_eq_false.2 hfree])]
    have hexec : exec (.discard p) s = .next ((emptyStaging s i).hold p ⟨.done, tag, []⟩) :=
      congrArg Host.Outcome.next (complete_answer hp rfl (by decide) rfl (.inr rfl) htaken)
    exact ⟨hexec, fun hempty => by rw [hexec, emptyStaging_of_empty hempty]⟩

/-! ## DISARM (O26) -/

theorem removeUnit_eq {s : State} (hc : CommitInv s) (i : Slot) : removeUnit s i = { s with commitQueue := withoutUnit s i } := by
  rw [removeUnit_frame, removeUnit_eq_withoutUnit hc]

/-- The entries that a removal takes away are the unit's (R91). -/
theorem length_unit {s : State} (hc : CommitInv s) {i : Slot} {e : CommitEntry} (he : commitEntry s i = some e) :
    (s.commitQueue.filter (sameUnit e)).length = s.commitQueue.length - (withoutUnit s i).length := by
  have hrest : withoutUnit s i = s.commitQueue.filter (fun x => !sameUnit e x) := by
    rw [← removeUnit_eq_withoutUnit hc, removeUnit, he]
  have hsplit := List.length_eq_length_filter_add (l := s.commitQueue) (sameUnit e)
  rw [hrest]
  omega

theorem takeDisarm_own {s : State} {p : Port} {h g : Byte} {i : Slot} (hc : CommitInv s) (hown : NamesOwn s p ⟨h, g⟩ i) :
    takeDisarm s p [h, g] =
      if armed s i then
        .answer { s with commitQueue := withoutUnit s i } .done [byteOf (s.commitQueue.length - (withoutUnit s i).length)]
      else .refuse .notArmed := by
  refine (withWindow_ok (refCheck_own hown)).trans ?_
  cases he : commitEntry s i with
  | none => rw [if_neg (by simpa [armed_iff] using commitEntry_eq_none he)]
  | some e =>
    dsimp only
    rw [if_pos (armed_iff.2 ⟨e, commitEntry_eq_some he⟩), removeUnit_eq hc, length_unit hc he]

/-- Settles O26: the unit is found by the window's entry and removed whole. -/
theorem disarmRemovesUnit : Obligations.DisarmRemovesUnit := by
  intro s p tag h g i hc hp hown
  have htaken := takeDisarm_own hc hown
  refine ⟨fun harmed => congrArg Host.Outcome.next (complete_answer hp rfl (by decide) rfl (.inr rfl) ?_),
    fun hfree => congrArg Host.Outcome.next (complete_refuse hp rfl (by decide) rfl (.inr rfl) ?_)⟩
  · exact htaken.trans (if_pos (armed_iff.2 harmed))
  · exact htaken.trans (if_neg (by simp [armed_eq_false.2 hfree]))

/-! ## The parameters of an ARM (R191) -/

/-- Pairs of bytes written one after another are read back in order. -/
theorem map_refAt_flatMap {α : Type} (f g : α → Byte) (l : List α) :
    (List.range l.length).map (fun k => refAt (l.flatMap (fun i => [f i, g i])) (2 * k)) = l.map (fun i => ⟨f i, g i⟩) := by
  induction l with
  | nil => rfl
  | cons a rest ih =>
    rw [List.length_cons, List.range_succ_eq_map, List.map_cons, List.map_map, List.map_cons]
    exact congrArg _ ih

theorem armRefs_armParams (s : State) {l : List Slot} (h : l.length ≤ 8) :
    armRefs (armParams s l) = l.map (fun i => ⟨byteOf (i.val + 1), byteOf (s.win i).gen.val⟩) := by
  have hcount : natAt (armParams s l) 0 = l.length := byteOf_toNat_of_lt (by omega)
  have hread := map_refAt_flatMap (fun i : Slot => byteOf (i.val + 1)) (fun i => byteOf (s.win i).gen.val) l
  rw [armRefs, hcount, ← hread]
  refine List.map_congr_left fun k _ => ?_
  rw [Nat.add_comm]
  rfl

theorem lengthOk_armParams (s : State) {l : List Slot} (h1 : 1 ≤ l.length) (h8 : l.length ≤ 8) : lengthOk codeArm (armParams s l) = true := by
  have hcount : natAt (armParams s l) 0 = l.length := byteOf_toNat_of_lt (by omega)
  have hlen : (armParams s l).length = 1 + 2 * l.length := by simp [armParams, Nat.mul_comm, Nat.add_comm]
  have hspelled : lengthOk codeArm (armParams s l) =
      (decide (1 ≤ (armParams s l).length) && decide (1 ≤ natAt (armParams s l) 0) && decide (natAt (armParams s l) 0 ≤ 8) &&
        (armParams s l).length == 1 + 2 * natAt (armParams s l) 0) := rfl
  rw [hspelled, hcount, hlen]
  simp [h1, h8]

/-- The references that an ARM of the port's own windows carries pass their checks (R12, R89). -/
theorem armCheck_own {s : State} {p : Port} {l : List Slot} (h : ∀ i ∈ l, (s.win i).owner = some p ∧ live (s.win i)) :
    armCheck s p (l.map (fun i => ⟨byteOf (i.val + 1), byteOf (s.win i).gen.val⟩)) = .ok l := by
  induction l with
  | nil => rfl
  | cons i rest ih =>
    obtain ⟨howner, hlive⟩ := h i List.mem_cons_self
    have hown : NamesOwn s p ⟨byteOf (i.val + 1), byteOf (s.win i).gen.val⟩ i :=
      ⟨byteOf_toNat_of_lt (by omega), byteOf_toNat_of_lt (by omega), howner, hlive⟩
    rw [List.map_cons, armCheck, refCheck_own hown, ih fun j hj => h j (List.mem_cons_of_mem _ hj)]

/-! ## The own checks of an ARM (R88, R89) -/

/-- A window that may be armed: unarmed, with something staged (R89). -/
def Armable (s : State) (i : Slot) : Prop := (∀ e ∈ s.commitQueue, e.ref.slot ≠ i) ∧ (s.win i).staging ≠ Staging.empty

/-- Windows that may be armed do not end the search for a refusal (R89). -/
theorem armRefusal_append {s : State} {before : List Slot} (h : ∀ j ∈ before, Armable s j) (rest : List Slot) :
    armRefusal s (before ++ rest) = armRefusal s rest := by
  induction before with
  | nil => rfl
  | cons j more ih =>
    obtain ⟨hfree, hstaged⟩ := h j List.mem_cons_self
    rw [List.cons_append, armRefusal, if_neg (by simp [armed_eq_false.2 hfree]), if_neg hstaged]
    exact ih fun k hk => h k (List.mem_cons_of_mem _ hk)

theorem armRefusal_none {s : State} {l : List Slot} (h : ∀ j ∈ l, Armable s j) : armRefusal s l = none := by
  simpa [armRefusal] using armRefusal_append h []

theorem tagInUse_iff {s : State} {t : Nat} : tagInUse s t = true ↔ ∃ e ∈ s.commitQueue, e.tag = t := by simp [tagInUse]

theorem tagInUse_eq_false {s : State} {t : Nat} : tagInUse s t = false ↔ ∀ e ∈ s.commitQueue, e.tag ≠ t := by simp [tagInUse]

theorem lowestFreeTag_eq (s : State) : lowestFreeTag s = (List.range' 1 15).find? (fun t => !tagInUse s t) := rfl

/-- The tag an ARM takes is the lowest of 1..15 that no entry carries (R88). -/
theorem lowestFreeTag_eq_some {s : State} {t : Nat} (h1 : 1 ≤ t) (h15 : t ≤ 15) (hfree : ∀ e ∈ s.commitQueue, e.tag ≠ t)
    (hlow : ∀ u, 1 ≤ u → u < t → ∃ e ∈ s.commitQueue, e.tag = u) : lowestFreeTag s = some t := by
  rw [lowestFreeTag_eq, List.find?_range'_eq_some]
  refine ⟨by simp [tagInUse_eq_false.2 hfree], List.mem_range'_1.2 ⟨h1, by omega⟩, fun u hu hut => ?_⟩
  simp [tagInUse_iff.2 (hlow u hu hut)]

theorem lowestFreeTag_eq_none {s : State} (h : ∀ u, 1 ≤ u → u ≤ 15 → ∃ e ∈ s.commitQueue, e.tag = u) : lowestFreeTag s = none := by
  rw [lowestFreeTag_eq, List.find?_range'_eq_none]
  intro u h1 h16
  simp [tagInUse_iff.2 (h u h1 (by omega))]

section
variable {s : State} {p : Port} {l : List Slot} (h8 : l.length ≤ 8) (h : ∀ i ∈ l, (s.win i).owner = some p ∧ live (s.win i))
include h8 h

theorem takeArm_twice (hn : ¬ l.Nodup) : takeArm s p (armParams s l) = .refuse .badParam := by
  simp [takeArm, armRefs_armParams s h8, armCheck_own h, hn]

theorem takeArm_refused {st : Status} (hn : l.Nodup) (hr : armRefusal s l = some st) : takeArm s p (armParams s l) = .refuse st := by
  simp [takeArm, armRefs_armParams s h8, armCheck_own h, hn, hr]

theorem takeArm_busy (hn : l.Nodup) (hr : armRefusal s l = none) (ht : armTag s l = none) :
    takeArm s p (armParams s l) = .refuse .busy := by
  simp [takeArm, armRefs_armParams s h8, armCheck_own h, hn, hr, ht]

theorem takeArm_armed {tag : Nat} (hn : l.Nodup) (hr : armRefusal s l = none) (ht : armTag s l = some tag) :
    takeArm s p (armParams s l) = .answer (armWindows s l tag) .done [byteOf tag] := by
  simp [takeArm, armRefs_armParams s h8, armCheck_own h, hn, hr, ht]

end

/-- Settles O24: no check fails, and the tag is 0 or the lowest free one. -/
theorem armAppendsEntries : Obligations.ArmAppendsEntries := by
  intro s p tag l group hp h1 h8 hn hl hgroup
  have htag : armTag s l = some group := by
    obtain ⟨hone, rfl⟩ | ⟨htwo, hg1, hg15, hfree, hlow⟩ := hgroup
    · exact if_pos (by omega)
    · exact (if_neg (by omega)).trans (lowestFreeTag_eq_some hg1 hg15 hfree hlow)
  have hclear : armRefusal s l = none := armRefusal_none fun i hi => ⟨(hl i hi).2.2.2, (hl i hi).2.2.1⟩
  have htaken := takeArm_armed h8 (fun i hi => ⟨(hl i hi).1, (hl i hi).2.1⟩) hn hclear htag
  exact congrArg Host.Outcome.next (complete_answer hp rfl (by decide) (lengthOk_armParams s h1 h8) (.inr rfl) htaken)

/-- Settles O25: each refusal, branch by branch of the own checks. -/
theorem armRefusesInOrder : Obligations.ArmRefusesInOrder := by
  intro s p tag l hp h1 h8 hl
  have refuses {st : Status} (ht : takeArm s p (armParams s l) = .refuse st) : exec (.arm p) s = .next (s.hold p ⟨st, tag, []⟩) :=
    congrArg Host.Outcome.next (complete_refuse hp rfl (by decide) (lengthOk_armParams s h1 h8) (.inr rfl) ht)
  refine ⟨fun hdup => refuses (takeArm_twice h8 hl hdup), fun before after i hn hsplit hbefore => ?_, fun hn hall h2 hfull => ?_⟩
  · have hsearch : armRefusal s l = armRefusal s (i :: after) := hsplit ▸ armRefusal_append hbefore (i :: after)
    refine ⟨fun harmed => refuses (takeArm_refused h8 hl hn (hsearch.trans ?_)),
      fun hfree hempty => refuses (takeArm_refused h8 hl hn (hsearch.trans ?_))⟩
    · rw [armRefusal, if_pos (armed_iff.2 harmed)]
    · rw [armRefusal, if_neg (by simp [armed_eq_false.2 hfree]), if_pos hempty]
  · have htag : armTag s l = none := (if_neg (by omega)).trans (lowestFreeTag_eq_none hfull)
    exact refuses (takeArm_busy h8 hl hn (armRefusal_none hall) htag)

end Sys2Proof.Machine
end

