-- ==== Sys2Proof/Proofs/StageRequest.lean ====
section
/-! STAGE: the values a host writes are read back, the checks refuse in order, and the merge (R82 to R85, R192). -/

namespace Sys2Proof.Machine

open Sys2Proof.Safety

/-! ## One value: read back, in range or not -/

/-- A value that is absent or in range. -/
def Supplied.ofOption {α : Type} : Option α → Supplied α
  | none => .absent
  | some v => .ok v

@[simp] theorem Supplied.isBad_ofOption {α : Type} (o : Option α) : (Supplied.ofOption o).isBad = false := by cases o <;> rfl

@[simp] theorem Supplied.merge_ofOption {α : Type} (o old : Option α) : (Supplied.ofOption o).merge old = o.or old := by cases o <;> rfl

/-- A value that is written and read back is supplied in range. -/
theorem supplied_written {α : Type} {read : List Byte → Option α} {write : α → List Byte} {o : Option α}
    (h : ∀ v ∈ o, read (write v) = some v) : supplied read (o.map write) = .ofOption o := by
  cases o with
  | none => rfl
  | some v => simp [supplied, Supplied.ofOption, h v rfl]

theorem supplied_isBad {α : Type} {read : List Byte → Option α} {bs : List Byte} (h : read bs = none) :
    (supplied read (some bs)).isBad = true := by simp [supplied, Supplied.isBad, h]

/-- A value that is written and not read back is out of range. -/
theorem supplied_written_isBad {α : Type} {read : List Byte → Option α} {write : α → List Byte} {o : Option α}
    (h : ∃ v ∈ o, read (write v) = none) : (supplied read (o.map write)).isBad = true := by
  obtain ⟨v, rfl, hv⟩ := h
  exact supplied_isBad hv

/-! ## The layout of each value (R84, R192) -/

/-- A position that fits the two signed fields it is sent in (R189). -/
def positionSendable (q : Int × Int) : Prop := -32768 ≤ q.1 ∧ q.1 < 32768 ∧ -32768 ≤ q.2 ∧ q.2 < 32768

theorem readPosition_written {q : Int × Int} (h : positionSendable q) :
    readPosition (beSigned q.1 ++ beSigned q.2) = if inPositionRange q.1 ∧ inPositionRange q.2 then some q else none := by
  obtain ⟨hx1, hx2, hy1, hy2⟩ := h
  have hx : signedAt (beSigned q.1 ++ beSigned q.2) 0 = q.1 := signedAt_beSigned hx1 hx2 _
  have hy : signedAt (beSigned q.1 ++ beSigned q.2) 2 = q.2 := signedAt_beSigned hy1 hy2 []
  simp [readPosition, hx, hy, positionOk]

theorem readScroll_written {q : Nat × Nat} (hx : q.1 < 65536) (hy : q.2 < 65536) (width height : Nat) :
    readScroll width height (be16 q.1 ++ be16 q.2) = if q.1 < width ∧ q.2 < height then some q else none := by
  have hx : be16At (be16 q.1 ++ be16 q.2) 0 = q.1 := be16At_be16 hx _
  have hy : be16At (be16 q.1 ++ be16 q.2) 2 = q.2 := be16At_be16 hy []
  simp [readScroll, hx, hy]

theorem readPlacementRef_written (i : Slot) (r : WinRef) :
    readPlacementRef i ⟨byteOf r.slot.handle, byteOf r.gen.val⟩ = if r.slot = i then none else some r := by
  have hh : (byteOf r.slot.handle).toNat = r.slot.handle := byteOf_toNat_of_lt (by unfold Slot.handle; omega)
  have hg : (byteOf r.gen.val).toNat = r.gen.val := byteOf_toNat_of_lt (by omega)
  simp [readPlacementRef, hh, hg]

theorem readPlacement_written (i : Slot) (x y : Byte) (pl : Placement) :
    readPlacement i (placementParam x y pl) = if ∃ n ∈ placementNamed pl, n.slot = i then none else some pl := by
  cases pl with
  | top | bottom | out => simp [readPlacement, placementParam, placementNamed]
  | above r =>
    refine (congrArg (Option.map Placement.above) (readPlacementRef_written i r)).trans ?_
    by_cases h : r.slot = i <;> simp [placementNamed, h]
  | below r =>
    refine (congrArg (Option.map Placement.below) (readPlacementRef_written i r)).trans ?_
    by_cases h : r.slot = i <;> simp [placementNamed, h]

theorem readKey_written (c : Colour) (k : StagedKey) : readKey (keyParam c k) = some k := by cases k <;> rfl

theorem readInk_written (c : Colour) : readInk (colourBytes c) = some c := rfl

theorem readLeaseLength_written {n : Nat} (h : n < 256) : readLeaseLength [byteOf n] = if n ≤ 250 then some n else none := by
  have hn : natAt [byteOf n] 0 = n := byteOf_toNat_of_lt h
  simp [readLeaseLength, hn]

theorem readFallback_written (f : Policy × Colour) : readFallback (f.1.code :: colourBytes f.2) = some f := by
  obtain ⟨policy, c⟩ := f
  cases policy <;> rfl

/-! Encodings that no value has. -/

theorem ne_of_toNat_lt {a b : Byte} (h : b.toNat < a.toNat) : a ≠ b := by
  rintro rfl
  exact Nat.lt_irrefl _ h

/-- A placement code above 04h (R192). -/
theorem readPlacement_bad_code (i : Slot) {code : Byte} (h : 4 < code.toNat) (ps : List Byte) : readPlacement i (code :: ps) = none := by
  have hne (n : Byte) (hn : n.toNat ≤ 4) : code ≠ n := ne_of_toNat_lt (Nat.lt_of_le_of_lt hn h)
  simp only [readPlacement, byteAt_cons_zero, hne 0x00 (by decide), hne 0x01 (by decide), hne 0x02 (by decide), hne 0x03 (by decide),
    hne 0x04 (by decide), ↓reduceIte]

/-- A reference with handle 0 or above 24, or with a generation above 15, names no window (R11, R84). -/
theorem readPlacementRef_bad (i : Slot) {a b : Byte} (h : a = 0 ∨ 24 < a.toNat ∨ 15 < b.toNat) : readPlacementRef i ⟨a, b⟩ = none := by
  have hslot : slotOfHandle a.toNat = none ∨ ¬ b.toNat < 16 := by
    rcases h with rfl | h | h
    · exact .inl rfl
    · exact .inl (slotOfHandle_eq_none.2 (.inr h))
    · exact .inr (by omega)
  unfold readPlacementRef
  rcases hslot with h0 | h0
  · simp [h0]
  · cases slotOfHandle a.toNat <;> simp [h0]

theorem readPlacement_bad_ref (i : Slot) {code a b : Byte} (hcode : code = 0x02 ∨ code = 0x03)
    (h : a = 0 ∨ 24 < a.toNat ∨ 15 < b.toNat) : readPlacement i [code, a, b] = none := by
  rcases hcode with rfl | rfl
  · exact congrArg (Option.map Placement.above) (readPlacementRef_bad i h)
  · exact congrArg (Option.map Placement.below) (readPlacementRef_bad i h)

/-- A key above 01h (R192). -/
theorem readKey_bad {code : Byte} (h : 1 < code.toNat) (ps : List Byte) : readKey (code :: ps) = none := by
  have hne (n : Byte) (hn : n.toNat ≤ 1) : code ≠ n := ne_of_toNat_lt (Nat.lt_of_le_of_lt hn h)
  simp only [readKey, byteAt_cons_zero, hne 0x00 (by decide), hne 0x01 (by decide), ↓reduceIte]

/-- A policy above 02h (R192). -/
theorem readFallback_bad {code : Byte} (h : 2 < code.toNat) (ps : List Byte) : readFallback (code :: ps) = none := by
  have hne (n : Byte) (hn : n.toNat ≤ 2) : code ≠ n := ne_of_toNat_lt (Nat.lt_of_le_of_lt hn h)
  simp only [readFallback, policyOf, byteAt_cons_zero, hne 0x00 (by decide), hne 0x01 (by decide), hne 0x02 (by decide), ↓reduceIte,
    Option.map_none]

/-! ## The presence mask and the value list (R192) -/

/-- Bits summed by their weights are the bits of the sum. -/
theorem getLsbD_sum_of_bits (b0 b1 b2 b3 b4 b5 b6 b7 : Bool) :
    let m := BitVec.ofNat 16 (b0.toNat + 2 * b1.toNat + 4 * b2.toNat + 8 * b3.toNat + 16 * b4.toNat + 32 * b5.toNat + 64 * b6.toNat
      + 128 * b7.toNat)
    m.getLsbD 0 = b0 ∧ m.getLsbD 1 = b1 ∧ m.getLsbD 2 = b2 ∧ m.getLsbD 3 = b3 ∧ m.getLsbD 4 = b4 ∧ m.getLsbD 5 = b5 ∧
      m.getLsbD 6 = b6 ∧ m.getLsbD 7 = b7 := by
  revert b0 b1 b2 b3 b4 b5 b6 b7
  decide

theorem maskOf_lt (v : Staging) : maskOf v < 256 := by
  have hbit : ∀ b : Bool, b.toNat ≤ 1 := Bool.toNat_le
  have := hbit v.position.isSome
  have := hbit v.scroll.isSome
  have := hbit v.placement.isSome
  have := hbit v.key.isSome
  have := hbit v.ink.isSome
  have := hbit v.leaseLength.isSome
  have := hbit v.fallback.isSome
  have := hbit v.swap
  unfold maskOf
  omega

theorem stageMask_stageParams (x y : Byte) (c : Colour) (h g : Byte) (v : Staging) :
    stageMask (stageParams x y c h g v) = BitVec.ofNat 16 (maskOf v) := by
  have hread : be16At (stageParams x y c h g v) 2 = 0 * 256 + (byteOf (maskOf v)).toNat := rfl
  rw [stageMask, hread, byteOf_toNat_of_lt (maskOf_lt v), Nat.zero_mul, Nat.zero_add]

/-- The bytes of each value that a host supplies (R192). -/
def writtenValues (x y : Byte) (c : Colour) (v : Staging) : StageValues :=
  { position := v.position.map (fun q => beSigned q.1 ++ beSigned q.2)
    scroll := v.scroll.map (fun q => be16 q.1 ++ be16 q.2)
    placement := v.placement.map (placementParam x y)
    key := v.key.map (keyParam c)
    ink := v.ink.map colourBytes
    leaseLength := v.leaseLength.map (fun l => [byteOf l])
    fallback := v.fallback.map (fun f => f.1.code :: colourBytes f.2)
    swap := v.swap }

/-- The mask of a STAGE has a bit for each value that the host supplies. -/
theorem stageMask_bits (x y : Byte) (c : Colour) (h g : Byte) (v : Staging) :
    let m := stageMask (stageParams x y c h g v)
    let w := writtenValues x y c v
    m.getLsbD 0 = w.position.isSome ∧ m.getLsbD 1 = w.scroll.isSome ∧ m.getLsbD 2 = w.placement.isSome ∧ m.getLsbD 3 = w.key.isSome ∧
      m.getLsbD 4 = w.ink.isSome ∧ m.getLsbD 5 = w.leaseLength.isSome ∧ m.getLsbD 6 = w.fallback.isSome ∧ m.getLsbD 7 = w.swap := by
  simp only [stageMask_stageParams, writtenValues, Option.isSome_map]
  exact getLsbD_sum_of_bits ..

theorem stageParams_eq (x y : Byte) (c : Colour) (h g : Byte) (v : Staging) :
    stageParams x y c h g v = [h, g, 0x00, byteOf (maskOf v)] ++ ((writtenValues x y c v).position.getD [] ++
      ((writtenValues x y c v).scroll.getD [] ++ ((writtenValues x y c v).placement.getD [] ++ ((writtenValues x y c v).key.getD [] ++
        ((writtenValues x y c v).ink.getD [] ++ ((writtenValues x y c v).leaseLength.getD [] ++
          (writtenValues x y c v).fallback.getD [])))))) := by
  simp only [stageParams, writtenValues, List.append_assoc]

/-- Each value has the size that R192 gives it. -/
theorem writtenValues_length (x y : Byte) (c : Colour) (v : Staging) :
    (∀ b ∈ (writtenValues x y c v).position, b.length = 4) ∧ (∀ b ∈ (writtenValues x y c v).scroll, b.length = 4) ∧
      (∀ b ∈ (writtenValues x y c v).placement, b.length = 3) ∧ (∀ b ∈ (writtenValues x y c v).key, b.length = 4) ∧
      (∀ b ∈ (writtenValues x y c v).ink, b.length = 3) ∧ (∀ b ∈ (writtenValues x y c v).leaseLength, b.length = 1) ∧
      (∀ b ∈ (writtenValues x y c v).fallback, b.length = 4) := by
  have written {α : Type} {write : α → List Byte} {o : Option α} {n : Nat} (h : ∀ a, (write a).length = n) :
      ∀ b ∈ o.map write, b.length = n := by
    intro b hb
    obtain ⟨a, -, rfl⟩ := Option.map_eq_some_iff.1 hb
    exact h a
  exact ⟨written fun _ => rfl, written fun _ => rfl, written fun pl => by cases pl <;> rfl, written fun k => by cases k <;> rfl,
    written fun _ => rfl, written fun _ => rfl, written fun _ => rfl⟩

/-- A value that the mask names is cut off as it was written. -/
theorem cutValue_written {o : Option (List Byte)} {n : Nat} (h : ∀ b ∈ o, b.length = n) (rest : List Byte) :
    cutValue o.isSome n (o.getD [] ++ rest) = (o, rest) := by
  cases o with
  | none => rfl
  | some b =>
    obtain rfl := h b rfl
    simp [cutValue]

theorem length_written {o : Option (List Byte)} {n : Nat} (h : ∀ b ∈ o, b.length = n) :
    (o.getD []).length = if o.isSome then n else 0 := by
  cases o with
  | none => rfl
  | some b => exact h b rfl

/-- A STAGE has the length that its mask asks for (R184, R192). -/
theorem lengthOk_stageParams (x y : Byte) (c : Colour) (h g : Byte) (v : Staging) :
    lengthOk codeStage (stageParams x y c h g v) = true := by
  obtain ⟨m0, m1, m2, m3, m4, m5, m6, -⟩ := stageMask_bits x y c h g v
  obtain ⟨h0, h1, h2, h3, h4, h5, h6⟩ := writtenValues_length x y c v
  have hlen : (stageParams x y c h g v).length = 4 + stageValuesSize (stageMask (stageParams x y c h g v)) := by
    rw [stageValuesSize, m0, m1, m2, m3, m4, m5, m6, stageParams_eq]
    simp only [List.length_append, length_written h0, length_written h1, length_written h2, length_written h3, length_written h4,
      length_written h5, length_written h6]
    simp [Nat.add_assoc]
  have hspelled : lengthOk codeStage (stageParams x y c h g v) = (decide (4 ≤ (stageParams x y c h g v).length) &&
      (stageParams x y c h g v).length == 4 + stageValuesSize (stageMask (stageParams x y c h g v))) := rfl
  rw [hspelled, hlen]
  simp

/-- The value list is cut as it was written (R192). -/
theorem stageValues_stageParams (x y : Byte) (c : Colour) (h g : Byte) (v : Staging) :
    stageValues (stageParams x y c h g v) = writtenValues x y c v := by
  obtain ⟨m0, m1, m2, m3, m4, m5, m6, m7⟩ := stageMask_bits x y c h g v
  obtain ⟨h0, h1, h2, h3, h4, h5, h6⟩ := writtenValues_length x y c v
  have hlast := cutValue_written h6 []
  rw [List.append_nil] at hlast
  have hlist := congrArg (List.drop 4) (stageParams_eq x y c h g v)
  rw [List.drop_left' (show [h, g, 0x00, byteOf (maskOf v)].length = 4 from rfl)] at hlist
  simp only [stageValues, m0, m1, m2, m3, m4, m5, m6, m7, hlist, cutValue_written h0, cutValue_written h1,
    cutValue_written h2, cutValue_written h3, cutValue_written h4, cutValue_written h5, hlast]

/-- What the checks find in the values that a host writes (R84). -/
theorem checkStage_stageParams (i : Slot) (w : Window) (x y : Byte) (c : Colour) (h g : Byte) (v : Staging) :
    checkStage i w (stageParams x y c h g v) =
      { position := supplied readPosition (v.position.map (fun q => beSigned q.1 ++ beSigned q.2))
        scroll := supplied (readScroll w.width w.height) (v.scroll.map (fun q => be16 q.1 ++ be16 q.2))
        placement := supplied (readPlacement i) (v.placement.map (placementParam x y))
        key := .ofOption v.key
        ink := .ofOption v.ink
        leaseLength := supplied readLeaseLength (v.leaseLength.map (fun l => [byteOf l]))
        fallback := .ofOption v.fallback
        swap := v.swap } := by
  have hkey : supplied readKey (v.key.map (keyParam c)) = .ofOption v.key := supplied_written fun k _ => readKey_written c k
  have hink : supplied readInk (v.ink.map colourBytes) = .ofOption v.ink := supplied_written fun k _ => readInk_written k
  have hfallback : supplied readFallback (v.fallback.map (fun f => f.1.code :: colourBytes f.2)) = .ofOption v.fallback :=
    supplied_written fun f _ => readFallback_written f
  simp only [checkStage, stageValues_stageParams, writtenValues, hkey, hink, hfallback]

/-- Every value of a set is in range for the window in a slot (R84). -/
structure StageInRange (i : Slot) (w : Window) (v : Staging) : Prop where
  position : ∀ q ∈ v.position, inPositionRange q.1 ∧ inPositionRange q.2
  scroll : ∀ q ∈ v.scroll, q.1 < w.width ∧ q.2 < w.height
  placement : ∀ pl ∈ v.placement, ∀ n ∈ placementNamed pl, n.slot ≠ i
  leaseLength : ∀ n ∈ v.leaseLength, n ≤ 250

/-- Every value of a set fits the field it is sent in (R189, R192). -/
structure StageSendable (v : Staging) : Prop where
  position : ∀ q ∈ v.position, positionSendable q
  scroll : ∀ q ∈ v.scroll, q.1 < 65536 ∧ q.2 < 65536
  leaseLength : ∀ n ∈ v.leaseLength, n < 256

section
variable {i : Slot} {w : Window} {v : Staging} (hs : StageSendable v) (x y : Byte) (c : Colour) (h g : Byte)
include hs

/-- Values in range are read back (R84, R192). -/
theorem checkStage_of_inRange (hr : StageInRange i w v) :
    checkStage i w (stageParams x y c h g v) =
      ⟨.ofOption v.position, .ofOption v.scroll, .ofOption v.placement, .ofOption v.key, .ofOption v.ink, .ofOption v.leaseLength,
        .ofOption v.fallback, v.swap⟩ := by
  have hposition : supplied readPosition (v.position.map (fun q => beSigned q.1 ++ beSigned q.2)) = .ofOption v.position :=
    supplied_written fun q hq => (readPosition_written (hs.position q hq)).trans (if_pos (hr.position q hq))
  have hscroll : supplied (readScroll w.width w.height) (v.scroll.map (fun q => be16 q.1 ++ be16 q.2)) = .ofOption v.scroll :=
    supplied_written fun q hq => (readScroll_written (hs.scroll q hq).1 (hs.scroll q hq).2 ..).trans (if_pos (hr.scroll q hq))
  have hplacement : supplied (readPlacement i) (v.placement.map (placementParam x y)) = .ofOption v.placement :=
    supplied_written fun pl hpl => (readPlacement_written ..).trans (if_neg fun ⟨n, hn, hi⟩ => hr.placement pl hpl n hn hi)
  have hlease : supplied readLeaseLength (v.leaseLength.map (fun l => [byteOf l])) = .ofOption v.leaseLength :=
    supplied_written fun n hn => (readLeaseLength_written (hs.leaseLength n hn)).trans (if_pos (hr.leaseLength n hn))
  rw [checkStage_stageParams, hposition, hscroll, hplacement, hlease]

/-- A value out of range is found (R84). -/
theorem checkStage_anyBad
    (hbad : (∃ q ∈ v.position, ¬ (inPositionRange q.1 ∧ inPositionRange q.2)) ∨ (∃ q ∈ v.scroll, ¬ (q.1 < w.width ∧ q.2 < w.height)) ∨
      (∃ pl ∈ v.placement, ∃ n ∈ placementNamed pl, n.slot = i) ∨ ∃ n ∈ v.leaseLength, 250 < n) :
    (checkStage i w (stageParams x y c h g v)).anyBad = true := by
  rw [checkStage_stageParams]
  simp only [StagedValues.anyBad, Bool.or_eq_true]
  obtain ⟨q, hq, hout⟩ | ⟨q, hq, hout⟩ | ⟨pl, hpl, hout⟩ | ⟨n, hn, hout⟩ := hbad
  · have hbad : (supplied readPosition (v.position.map (fun q => beSigned q.1 ++ beSigned q.2))).isBad = true :=
      supplied_written_isBad ⟨q, hq, (readPosition_written (hs.position q hq)).trans (if_neg hout)⟩
    simp only [hbad, true_or]
  · have hbad : (supplied (readScroll w.width w.height) (v.scroll.map (fun q => be16 q.1 ++ be16 q.2))).isBad = true :=
      supplied_written_isBad ⟨q, hq, (readScroll_written (hs.scroll q hq).1 (hs.scroll q hq).2 ..).trans (if_neg hout)⟩
    simp only [hbad, true_or, or_true]
  · have hbad : (supplied (readPlacement i) (v.placement.map (placementParam x y))).isBad = true :=
      supplied_written_isBad ⟨pl, hpl, (readPlacement_written i x y pl).trans (if_pos hout)⟩
    simp only [hbad, true_or, or_true]
  · have hbad : (supplied readLeaseLength (v.leaseLength.map (fun l => [byteOf l]))).isBad = true :=
      supplied_written_isBad ⟨n, hn, (readLeaseLength_written (hs.leaseLength n hn)).trans (if_neg (Nat.not_le.2 hout))⟩
    simp only [hbad, true_or, or_true]

end

/-- Values in range can be sent, for a window of the greatest size or less (R3, R84). -/
theorem sendable_of_inRange {i : Slot} {w : Window} {v : Staging} (hr : StageInRange i w v) (hw : w.width ≤ 480) (hh : w.height ≤ 320) :
    StageSendable v where
  position q hq := by
    have := hr.position q hq
    unfold positionSendable
    omega
  scroll q hq := by
    have := hr.scroll q hq
    omega
  leaseLength n hn := by
    have := hr.leaseLength n hn
    omega

/-! ## STAGE, branch by branch of its checks (R83, R85) -/

section
variable {s : State} {p : Port} {ps : List Byte} {i : Slot} (hown : NamesOwn s p (refAt ps 0) i)
include hown

theorem takeStage_armed (ha : ∃ e ∈ s.commitQueue, e.ref.slot = i) : takeStage s p ps = .refuse .armed :=
  (withWindow_ok (refCheck_own hown)).trans (if_pos (armed_iff.2 ha))

section
variable (ha : ∀ e ∈ s.commitQueue, e.ref.slot ≠ i)
include ha

theorem takeStage_badParam (hb : undefinedMask (stageMask ps) = true ∨ (checkStage i (s.win i) ps).anyBad = true) :
    takeStage s p ps = .refuse .badParam := by
  refine (withWindow_ok (refCheck_own hown)).trans ((if_neg (by simp [armed_eq_false.2 ha])).trans (if_pos ?_))
  rwa [Bool.or_eq_true]

variable (hm : undefinedMask (stageMask ps) = false) (hv : (checkStage i (s.win i) ps).anyBad = false)
include hm hv

theorem takeStage_unarmed :
    takeStage s p ps =
      if stageFormatBad (stageMask ps) (s.win i).format then .refuse .badFormat
      else if (checkStage i (s.win i) ps).swap && !(s.win i).double then .refuse .badTarget
      else .answer (s.setWin i { s.win i with staging := (checkStage i (s.win i) ps).mergeInto (s.win i).staging }) .done [] :=
  (withWindow_ok (refCheck_own hown)).trans ((if_neg (by simp [armed_eq_false.2 ha])).trans (if_neg (by simp [hm, hv])))

end

end

/-- A mask that R192 writes has no bit outside the table of R82. -/
theorem undefinedMask_stageParams (x y : Byte) (c : Colour) (h g : Byte) (v : Staging) :
    undefinedMask (stageMask (stageParams x y c h g v)) = false := by
  have hlt := maskOf_lt v
  rw [stageMask_stageParams, undefinedMask, BitVec.toNat_ofNat, Nat.mod_eq_of_lt (by omega)]
  exact decide_eq_false (by omega)

theorem stageFormatBad_stageParams (x y : Byte) (c : Colour) (h g : Byte) (v : Staging) (fmt : Format) :
    stageFormatBad (stageMask (stageParams x y c h g v)) fmt = if fmt = .m1 then v.key.isSome || v.swap else v.ink.isSome := by
  obtain ⟨-, -, -, m3, m4, -, -, m7⟩ := stageMask_bits x y c h g v
  rw [stageFormatBad, m3, m4, m7]
  simp only [writtenValues, Option.isSome_map]

/-- A STAGE of values in range for an unarmed window comes to the checks of format and target (R83). -/
theorem takeStage_written {s : State} {p : Port} {i : Slot} {v : Staging} {x y h g : Byte} {c : Colour} (hown : NamesOwn s p ⟨h, g⟩ i)
    (ha : ∀ e ∈ s.commitQueue, e.ref.slot ≠ i) (hs : StageSendable v) (hr : StageInRange i (s.win i) v) :
    takeStage s p (stageParams x y c h g v) =
      if (if (s.win i).format = .m1 then v.key.isSome || v.swap else v.ink.isSome) then .refuse .badFormat
      else if v.swap && !(s.win i).double then .refuse .badTarget
      else .answer (s.setWin i { s.win i with staging := mergedStaging v (s.win i).staging }) .done [] := by
  have hcheck := checkStage_of_inRange hs x y c h g hr
  have hmerge : (checkStage i (s.win i) (stageParams x y c h g v)).mergeInto (s.win i).staging = mergedStaging v (s.win i).staging := by
    rw [hcheck]
    simp only [StagedValues.mergeInto, mergedStaging, Supplied.merge_ofOption, Bool.or_comm]
  have hgood : (checkStage i (s.win i) (stageParams x y c h g v)).anyBad = false := by
    rw [hcheck]
    simp only [StagedValues.anyBad, Supplied.isBad_ofOption, Bool.or_self]
  rw [takeStage_unarmed hown ha (undefinedMask_stageParams ..) hgood, stageFormatBad_stageParams, hmerge, hcheck]

/-- Settles O21: the values are read back in range, no check fails, and the merge is the field by field one. -/
theorem stageMergesSuppliedFields : Obligations.StageMergesSuppliedFields := by
  intro s p tag h g x y c i v hp hown hw hh ha hok
  obtain ⟨hposition, hscroll, hplacement, hm1, hink, hswap, hlease⟩ := hok
  have hr : StageInRange i (s.win i) v := ⟨hposition, hscroll, hplacement, hlease⟩
  have hformat : (if (s.win i).format = .m1 then v.key.isSome || v.swap else v.ink.isSome) = false := by
    by_cases hf : (s.win i).format = .m1
    · obtain ⟨hkey, hs⟩ := hm1 hf
      rw [if_pos hf, hkey, hs]
      rfl
    · rw [if_neg hf, hink hf]
      rfl
  have htarget : (v.swap && !(s.win i).double) = false := by
    cases hs : v.swap with
    | false => rfl
    | true =>
      have hdouble : (s.win i).double = true := hswap hs
      rw [hdouble]
      rfl
  have htaken := takeStage_written (x := x) (y := y) (c := c) hown ha (sendable_of_inRange hr hw hh) hr
  rw [hformat, htarget, if_neg Bool.false_ne_true, if_neg Bool.false_ne_true] at htaken
  exact congrArg Host.Outcome.next (complete_answer hp rfl (by decide) (lengthOk_stageParams ..) (.inr rfl) htaken)

/-! ## Values at their places in the list (R84, R192) -/

theorem cutValue_fst (present : Bool) (size : Nat) (bs : List Byte) :
    (cutValue present size bs).1 = if present then some (bs.take size) else none := by cases present <;> rfl

theorem cutValue_snd (present : Bool) (size : Nat) (bs : List Byte) : (cutValue present size bs).2 = bs.drop (size * present.toNat) := by
  cases present <;> simp [cutValue]

/-- A mask whose high byte is 00h has the bits of its low byte (R192). -/
theorem stageMask_getLsbD (h g mask : Byte) (values : List Byte) {n : Nat} (hn : n < 8) :
    (stageMask ([h, g, 0x00, mask] ++ values)).getLsbD n = mask.getLsbD n := by
  have hread : stageMask ([h, g, 0x00, mask] ++ values) = BitVec.ofNat 16 (0 * 256 + mask.toNat) := rfl
  rw [hread, Nat.zero_mul, Nat.zero_add, BitVec.getLsbD_ofNat, decide_eq_true (by omega : n < 16), Bool.true_and]
  rfl

/-- A placement, a key and a fallback stand behind the values of the lower bits of the mask (R192). -/
theorem stageValues_places (h g mask : Byte) (values : List Byte) :
    let v := stageValues ([h, g, 0x00, mask] ++ values)
    v.placement = (if mask.getLsbD 2 then some ((values.drop (stageBytesBefore mask 2)).take 3) else none) ∧
    v.key = (if mask.getLsbD 3 then some ((values.drop (stageBytesBefore mask 3)).take 4) else none) ∧
    v.fallback = (if mask.getLsbD 6 then some ((values.drop (stageBytesBefore mask 6)).take 4) else none) := by
  have hlist : ([h, g, 0x00, mask] ++ values).drop 4 = values := rfl
  have bit {n : Nat} (hn : n < 8) := stageMask_getLsbD h g mask values hn
  simp only [stageValues, cutValue_fst, cutValue_snd, hlist, List.drop_drop, bit (by decide : 0 < 8), bit (by decide : 1 < 8),
    bit (by decide : 2 < 8), bit (by decide : 3 < 8), bit (by decide : 4 < 8), bit (by decide : 5 < 8), bit (by decide : 6 < 8)]
  simp [stageBytesBefore, Nat.add_assoc]

section
variable {h g mask code : Byte} {before rest : List Byte} (i : Slot) (w : Window)

theorem drop_take_place (m k : Nat) (hb : before.length = m) : ((before ++ (code :: rest)).drop m).take (k + 1) = code :: rest.take k := by
  rw [List.drop_left' hb, List.take_succ_cons]

theorem checkStage_bad_placement {a b : Byte} (hm : mask.getLsbD 2 = true) (hb : before.length = stageBytesBefore mask 2)
    (hbad : 4 < code.toNat ∨ ((code = 0x02 ∨ code = 0x03) ∧ (a = 0 ∨ 24 < a.toNat ∨ 15 < b.toNat))) :
    (checkStage i w ([h, g, 0x00, mask] ++ (before ++ code :: a :: b :: rest))).anyBad = true := by
  obtain ⟨hplace, -, -⟩ := stageValues_places h g mask (before ++ code :: a :: b :: rest)
  rw [if_pos hm, drop_take_place _ 2 hb] at hplace
  have hread : readPlacement i [code, a, b] = none :=
    hbad.elim (fun hc => readPlacement_bad_code i hc _) fun ⟨hc, href⟩ => readPlacement_bad_ref i hc href
  have hplacement : (checkStage i w ([h, g, 0x00, mask] ++ (before ++ code :: a :: b :: rest))).placement.isBad = true := by
    rw [checkStage, hplace]
    exact supplied_isBad hread
  simp only [StagedValues.anyBad, hplacement, Bool.or_true, Bool.true_or]

theorem checkStage_bad_code {n : Nat} (hm : mask.getLsbD n = true) (hb : before.length = stageBytesBefore mask n)
    (hbad : (n = 3 ∧ 1 < code.toNat) ∨ (n = 6 ∧ 2 < code.toNat)) :
    (checkStage i w ([h, g, 0x00, mask] ++ (before ++ code :: rest))).anyBad = true := by
  obtain ⟨-, hkey, hfallback⟩ := stageValues_places h g mask (before ++ code :: rest)
  obtain ⟨rfl, hc⟩ | ⟨rfl, hc⟩ := hbad
  · rw [if_pos hm, drop_take_place _ 3 hb] at hkey
    have hbad : (checkStage i w ([h, g, 0x00, mask] ++ (before ++ code :: rest))).key.isBad = true := by
      rw [checkStage, hkey]
      exact supplied_isBad (readKey_bad hc _)
    simp only [StagedValues.anyBad, hbad, Bool.or_true, Bool.true_or]
  · rw [if_pos hm, drop_take_place _ 3 hb] at hfallback
    have hbad : (checkStage i w ([h, g, 0x00, mask] ++ (before ++ code :: rest))).fallback.isBad = true := by
      rw [checkStage, hfallback]
      exact supplied_isBad (readFallback_bad hc _)
    simp only [StagedValues.anyBad, hbad, Bool.or_true]

end

/-- A mask whose high byte is not 00h names a field outside the table of R82. -/
theorem undefinedMask_of_high {ps : List Byte} (h : natAt ps 2 ≠ 0) : undefinedMask (stageMask ps) = true := by
  have hhigh : natAt ps 2 < 256 := (byteAt ps 2).isLt
  have hlow : natAt ps 3 < 256 := (byteAt ps 3).isLt
  have hread : be16At ps 2 = natAt ps 2 * 256 + natAt ps 3 := rfl
  rw [undefinedMask, stageMask, BitVec.toNat_ofNat, hread, Nat.mod_eq_of_lt (by omega)]
  exact decide_eq_true (by omega)

/-- Settles O22: each refusal, branch by branch of the checks. -/
theorem stageRefusesInOrder : Obligations.StageRefusesInOrder := by
  intro s p r i hp hcode hl hown
  have refuses {st : Status} (ht : takeStage s p r.params = .refuse st) : exec (.stage p) s = .next (s.hold p ⟨st, r.tag, []⟩) :=
    congrArg Host.Outcome.next (complete_refuse hp hcode (by decide) hl (.inr rfl) ht)
  refine ⟨fun ha => refuses (takeStage_armed hown ha), fun ha => ?_⟩
  have outOfRange (hb : undefinedMask (stageMask r.params) = true ∨ (checkStage i (s.win i) r.params).anyBad = true) :
      exec (.stage p) s = .next (s.hold p ⟨.badParam, r.tag, []⟩) := refuses (takeStage_badParam hown ha hb)
  refine ⟨fun hhigh => outOfRange (.inl (undefinedMask_of_high hhigh)), fun h g mask code a b before rest hps hm hb hbad => ?_,
    fun h g mask code before rest n hps hm hb hbad => ?_, fun h g x y c v hps hposition hscroll hlease => ?_⟩
  · have hcheck := checkStage_bad_placement (h := h) (g := g) (rest := rest) i (s.win i) hm hb hbad
    refine outOfRange (.inr ?_)
    rw [hps]
    simpa using hcheck
  · have hcheck := checkStage_bad_code (h := h) (g := g) (rest := rest) i (s.win i) hm hb hbad
    refine outOfRange (.inr ?_)
    rw [hps]
    simpa using hcheck
  · have hs : StageSendable v := ⟨hposition, hscroll, hlease⟩
    refine ⟨fun hbad => outOfRange (.inr (hps ▸ checkStage_anyBad hs x y c h g hbad)), fun hpos hscr hpl hll => ?_⟩
    have href : refAt r.params 0 = ⟨h, g⟩ := by
      rw [hps]
      rfl
    have htaken := takeStage_written (x := x) (y := y) (c := c) (href ▸ hown) ha hs ⟨hpos, hscr, hpl, hll⟩
    rw [← hps] at htaken
    refine ⟨fun hformat => refuses (htaken.trans (if_pos ?_)), fun hf hink hswap hsingle => refuses (htaken.trans ?_)⟩
    · obtain ⟨hf, hkey | hswap⟩ | ⟨hf, hink⟩ := hformat
      · simp [hf, Option.isSome_iff_ne_none.2 hkey]
      · simp [hf, hswap]
      · simp [hf, Option.isSome_iff_ne_none.2 hink]
    · rw [if_neg (by simp [hf, hink]), if_pos (by simp [hswap, double_eq_false.2 hsingle])]

end Sys2Proof.Machine
end

