-- ==== Sys2Proof/Proofs/BoundaryUnits.lean ====
section
/-! The commit queue while a boundary works: what the walk and the evictions so far have made of each entry (R93, R94, R99, R101, R104). -/

namespace Sys2Proof.Machine

open Sys2Proof.Safety

/-! ## Units as classes of entries (R88) -/

theorem sameGroup_symm {e x : CommitEntry} (h : sameGroup e x) : sameGroup x e := by
  rcases h with rfl | ⟨ht, hx⟩
  · exact .inl rfl
  · exact .inr ⟨hx ▸ ht, hx.symm⟩

theorem sameGroup_trans {e x y : CommitEntry} (h : sameGroup e x) (h' : sameGroup x y) : sameGroup e y := by
  rcases h with rfl | ⟨ht, hx⟩
  · exact h'
  · rcases h' with rfl | ⟨-, hy⟩
    · exact .inr ⟨ht, hx⟩
    · exact .inr ⟨ht, hy.trans hx⟩

/-- The members of one unit have one deferral count (R87, R99). -/
theorem deferral_of_sameGroup {s : State} (h : CommitInv s) {e x : CommitEntry} (he : e ∈ s.commitQueue) (hx : x ∈ s.commitQueue)
    (hg : sameGroup e x) : x.deferral = e.deferral := by
  rcases hg with rfl | ⟨ht, hxe⟩
  · rfl
  · exact (h.2.2 e he x hx ht hxe).2

/-- The members of one unit have one owner (R87). -/
theorem owner_of_sameGroup {s : State} (h : CommitInv s) {e x : CommitEntry} (he : e ∈ s.commitQueue) (hx : x ∈ s.commitQueue)
    (hg : sameGroup e x) : (s.win x.ref.slot).owner = (s.win e.ref.slot).owner := by
  rcases hg with rfl | ⟨ht, hxe⟩
  · rfl
  · exact (h.2.2 e he x hx ht hxe).1

/-- The windows of the unit of an entry, as the walk takes them (R95). -/
def unitAt (s : State) (e : CommitEntry) : List Slot := unitSlots (s.commitQueue.filter (fun x => sameGroup e x))

theorem mem_unitAt {s : State} (h : CommitInv s) {e x : CommitEntry} (hx : x ∈ s.commitQueue) :
    x.ref.slot ∈ unitAt s e ↔ sameGroup e x := mem_unitSlots h hx

theorem exists_of_mem_unitAt {s : State} {e : CommitEntry} {i : Slot} (h : i ∈ unitAt s e) :
    ∃ x ∈ s.commitQueue, sameGroup e x ∧ x.ref.slot = i := by
  obtain ⟨x, hx, rfl⟩ := List.mem_map.1 h
  obtain ⟨hx, hg⟩ := List.mem_filter.1 hx
  exact ⟨x, hx, of_decide_eq_true hg, rfl⟩

theorem unitAt_nodup {s : State} (h : CommitInv s) (e : CommitEntry) : (unitAt s e).Nodup := h.1.sublist (List.filter_sublist.map _)

theorem mem_walkUnits {s : State} (h : CommitInv s) {u : List Slot} :
    u ∈ (units s).map unitSlots ↔ ∃ e ∈ s.commitQueue, u = unitAt s e := by
  simp only [List.mem_map, mem_units h]
  exact ⟨fun ⟨_, ⟨e, he, hm⟩, hu⟩ => ⟨e, he, by rw [← hu, hm]; rfl⟩, fun ⟨e, he, hu⟩ => ⟨_, ⟨e, he, rfl⟩, hu.symm⟩⟩

/-- The units of a queue without a repeated entry do not overlap (R94). -/
theorem unitsFrom_disjoint {seen : List Nat} {l : List CommitEntry} (hn : l.Nodup) : (unitsFrom seen l).Pairwise List.Disjoint := by
  induction l generalizing seen with
  | nil => exact .nil
  | cons e rest ih =>
    obtain ⟨hnot, hrest⟩ := List.nodup_cons.1 hn
    unfold unitsFrom
    split
    · refine List.pairwise_cons.2 ⟨fun u hu x hx hxu => ?_, ih hrest⟩
      obtain ⟨y, -, -, rfl⟩ := (mem_unitsFrom hrest).1 hu
      exact hnot (List.mem_singleton.1 hx ▸ List.mem_of_mem_filter hxu)
    · next ht =>
      split
      · exact ih hrest
      · refine List.pairwise_cons.2 ⟨fun u hu x hx hxu => ?_, ih hrest⟩
        obtain ⟨y, -, hy, rfl⟩ := (mem_unitsFrom hrest).1 hu
        have hxe : x.tag = e.tag := (List.mem_cons.1 hx).elim (fun h => h ▸ rfl) fun h => beq_iff_eq.1 (List.mem_filter.1 h).2
        have hxy : x.tag = y.tag := (of_decide_eq_true (List.mem_filter.1 hxu).2).elim (fun h => h ▸ rfl) And.right
        have hye : y.tag = e.tag := hxy.symm.trans hxe
        rw [hye] at hy
        exact hy.elim ht fun h => h List.mem_cons_self

theorem walkUnits_disjoint {s : State} (h : CommitInv s) : ((units s).map unitSlots).Pairwise List.Disjoint := by
  refine List.pairwise_map.2 ((unitsFrom_disjoint (commitInv_nodup h)).imp_of_mem fun {u v} hu hv hdis => ?_)
  obtain ⟨e, -, rfl⟩ := (mem_units h).1 hu
  obtain ⟨d, -, rfl⟩ := (mem_units h).1 hv
  intro i hi hi'
  obtain ⟨x, hx, rfl⟩ := List.mem_map.1 hi
  obtain ⟨y, hy, hyx⟩ := List.mem_map.1 hi'
  exact hdis hx (commitInv_entry_unique h (List.mem_of_mem_filter hy) (List.mem_of_mem_filter hx) hyx ▸ hy)

theorem commitDue_slot_iff {s : State} (h : CommitInv s) {e : CommitEntry} (he : e ∈ s.commitQueue) :
    commitDue s e.ref.slot ↔ readyUnit s e :=
  ⟨fun ⟨_, hx, hs, hr⟩ => commitInv_entry_unique h hx he hs ▸ hr, fun hr => ⟨e, he, rfl, hr⟩⟩

/-! ## An entry so far -/

/-- A window of the entry's unit is among those evicted so far (R104). -/
abbrev unitHit (s : State) (gone : List Slot) (e : CommitEntry) : Prop := ∃ x ∈ s.commitQueue, sameGroup e x ∧ x.ref.slot ∈ gone

/-- What becomes of an entry whose unit is held back: counted, or gone at count 15 (R99). -/
def heldBack (e : CommitEntry) : Option CommitEntry := if e.deferral < 15 then some { e with deferral := e.deferral + 1 } else none

/-- What the walk and the evictions so far have made of an entry: gone with a unit that an eviction has hit, as it was while the walk has
not met its unit, gone with a unit that was ready, and else held back. -/
def entryNow (s : State) (gone : List Slot) (toWalk : List (List Slot)) (e : CommitEntry) : Option CommitEntry :=
  if unitHit s gone e then none
  else if e.ref.slot ∈ toWalk.flatten then some e
  else if readyUnit s e then none
  else heldBack e

/-- The queue that the walk and the evictions so far have left. -/
def queueNow (s : State) (gone : List Slot) (toWalk : List (List Slot)) : List CommitEntry :=
  s.commitQueue.filterMap (entryNow s gone toWalk)

section
variable {s : State} {gone : List Slot} {toWalk : List (List Slot)} {e x y : CommitEntry}

theorem heldBack_fields (h : heldBack e = some x) : x.ref = e.ref ∧ x.tag = e.tag := by
  unfold heldBack at h
  split at h
  · cases h
    exact ⟨rfl, rfl⟩
  · cases h

theorem entryNow_fields (h : entryNow s gone toWalk e = some x) : x.ref = e.ref ∧ x.tag = e.tag := by
  unfold entryNow at h
  split at h
  · cases h
  · split at h
    · cases h
      exact ⟨rfl, rfl⟩
    · split at h
      · cases h
      · exact heldBack_fields h

theorem unitHit_congr (h : sameGroup e x) : unitHit s gone x ↔ unitHit s gone e :=
  ⟨fun ⟨y, hy, hg, hm⟩ => ⟨y, hy, sameGroup_trans h hg, hm⟩, fun ⟨y, hy, hg, hm⟩ => ⟨y, hy, sameGroup_trans (sameGroup_symm h) hg, hm⟩⟩

theorem entryNow_hit (h : unitHit s gone e) : entryNow s gone toWalk e = none := if_pos h

theorem unitHit_cons {j : Slot} : unitHit s (j :: gone) e ↔ (∃ x ∈ s.commitQueue, sameGroup e x ∧ x.ref.slot = j) ∨ unitHit s gone e := by
  simp only [unitHit, List.mem_cons, and_or_left, exists_or]

/-- The eviction of a window of another unit does nothing to an entry. -/
theorem entryNow_missed {j : Slot} (h : ¬ ∃ x ∈ s.commitQueue, sameGroup e x ∧ x.ref.slot = j) :
    entryNow s (j :: gone) toWalk e = entryNow s gone toWalk e := by
  simp only [entryNow, unitHit_cons, h, false_or]

theorem mem_queueNow : x ∈ queueNow s gone toWalk ↔ ∃ e ∈ s.commitQueue, entryNow s gone toWalk e = some x := List.mem_filterMap

/-- An entry and what is left of it are in one unit with the same entries (R88). -/
theorem sameUnit_now (h : CommitInv s) (he : e ∈ s.commitQueue) (hy : y ∈ s.commitQueue) {e' y' : CommitEntry}
    (hen : entryNow s gone toWalk e = some e') (hyn : entryNow s gone toWalk y = some y') : sameUnit e' y' = true ↔ sameGroup e y := by
  obtain ⟨her, het⟩ := entryNow_fields hen
  obtain ⟨hyr, hyt⟩ := entryNow_fields hyn
  rw [← sameUnit_iff h he hy, sameUnit, sameUnit, her, het, hyr, hyt]

variable (h : CommitInv s)
include h

/-- What is left under a window is left of the window's entry. -/
theorem entryNow_of_slot (he : e ∈ s.commitQueue) (hx : x ∈ queueNow s gone toWalk) (hs : x.ref.slot = e.ref.slot) :
    entryNow s gone toWalk e = some x := by
  obtain ⟨y, hy, hyx⟩ := mem_queueNow.1 hx
  rw [(entryNow_fields hyx).1] at hs
  exact commitInv_entry_unique h hy he hs ▸ hyx

/-- The queue holds each window at most once still (R87). -/
theorem queueNow_nodup : ((queueNow s gone toWalk).map (fun e => e.ref.slot)).Nodup := by
  have hsub : ∀ l : List CommitEntry, ((l.filterMap (entryNow s gone toWalk)).map (fun e => e.ref.slot)).Sublist
      (l.map (fun e => e.ref.slot)) := by
    intro l
    induction l with
    | nil => exact .slnil
    | cons e rest ih =>
      cases hn : entryNow s gone toWalk e with
      | none =>
        rw [List.filterMap_cons_none hn]
        exact ih.cons _
      | some x =>
        rw [List.filterMap_cons_some hn, List.map_cons, List.map_cons, (entryNow_fields hn).1]
        exact ih.cons_cons _
  exact h.1.sublist (hsub _)

variable (hw : ∀ u ∈ toWalk, ∃ e ∈ s.commitQueue, u = unitAt s e)
include hw

/-- The members of a unit wait for the walk together. -/
theorem toWalk_congr (he : e ∈ s.commitQueue) (hx : x ∈ s.commitQueue) (hg : sameGroup e x) (hm : e.ref.slot ∈ toWalk.flatten) :
    x.ref.slot ∈ toWalk.flatten := by
  obtain ⟨u, hu, hm⟩ := List.mem_flatten.1 hm
  obtain ⟨d, -, rfl⟩ := hw u hu
  exact List.mem_flatten.2 ⟨_, hu, (mem_unitAt h hx).2 (sameGroup_trans ((mem_unitAt h he).1 hm) hg)⟩

/-- A unit goes whole (R93). -/
theorem entryNow_none_congr (he : e ∈ s.commitQueue) (hx : x ∈ s.commitQueue) (hg : sameGroup e x) (hn : entryNow s gone toWalk e = none) :
    entryNow s gone toWalk x = none := by
  unfold entryNow heldBack at hn ⊢
  rw [deferral_of_sameGroup h he hx hg]
  simp only [unitHit_congr hg, readyUnit_congr hg]
  split at hn
  · next hhit => rw [if_pos hhit]
  · next hhit =>
    rw [if_neg hhit]
    split at hn
    · cases hn
    · next hm =>
      rw [if_neg fun hm' => hm (toWalk_congr h hw hx he (sameGroup_symm hg) hm')]
      split at hn
      · next hr => rw [if_pos hr]
      · next hr =>
        rw [if_neg hr]
        split at hn
        · cases hn
        · next hd => rw [if_neg hd]

end

/-! ## An eviction takes the unit out (R101, R104) -/

section
variable {s t : State} {gone : List Slot} {toWalk : List (List Slot)} (h : CommitInv s)
  (hw : ∀ u ∈ toWalk, ∃ e ∈ s.commitQueue, u = unitAt s e) (hq : t.commitQueue = queueNow s gone toWalk)
include h hq

omit h in
theorem armed_now {i : Slot} : armed t i = true ↔ ∃ e ∈ s.commitQueue, e.ref.slot = i ∧ ∃ x, entryNow s gone toWalk e = some x := by
  rw [armed_iff, hq]
  constructor
  · rintro ⟨x, hx, rfl⟩
    obtain ⟨e, he, hn⟩ := mem_queueNow.1 hx
    exact ⟨e, he, by rw [(entryNow_fields hn).1], x, hn⟩
  · rintro ⟨e, he, rfl, x, hn⟩
    exact ⟨x, mem_queueNow.2 ⟨e, he, hn⟩, by rw [(entryNow_fields hn).1]⟩

theorem armed_now_iff {e : CommitEntry} (he : e ∈ s.commitQueue) : armed t e.ref.slot = true ↔ ∃ x, entryNow s gone toWalk e = some x := by
  rw [armed_now hq]
  exact ⟨fun ⟨_, hy, hs, hn⟩ => commitInv_entry_unique h hy he hs ▸ hn, fun hn => ⟨e, he, rfl, hn⟩⟩

omit h in
/-- The entry that an eviction finds under its window, if there is one still. -/
theorem commitEntry_now {j : Slot} {x : CommitEntry} (hx : commitEntry t j = some x) :
    ∃ e ∈ s.commitQueue, e.ref.slot = j ∧ entryNow s gone toWalk e = some x := by
  obtain ⟨hm, hs⟩ := commitEntry_eq_some hx
  rw [hq] at hm
  obtain ⟨e, he, hn⟩ := mem_queueNow.1 hm
  exact ⟨e, he, by rw [← hs, (entryNow_fields hn).1], hn⟩

include hw

theorem removeUnit_now (j : Slot) : (removeUnit t j).commitQueue = queueNow s (j :: gone) toWalk := by
  have gone_of : ∀ e, (∃ x ∈ s.commitQueue, sameGroup e x ∧ x.ref.slot = j) → entryNow s (j :: gone) toWalk e = none :=
    fun e he => entryNow_hit (unitHit_cons.2 (.inl he))
  unfold removeUnit
  cases hc : commitEntry t j with
  | none =>
    refine hq.trans (List.filterMap_congr fun e he => ?_)
    by_cases hj : ∃ x ∈ s.commitQueue, sameGroup e x ∧ x.ref.slot = j
    · obtain ⟨x, hx, hg, rfl⟩ := hj
      have hnone : entryNow s gone toWalk x = none := by
        rw [Option.eq_none_iff_forall_ne_some]
        intro x' hn
        obtain ⟨e', he', hs⟩ := armed_iff.1 ((armed_now_iff h hq hx).2 ⟨x', hn⟩)
        exact commitEntry_eq_none hc e' he' hs
      rw [gone_of e ⟨x, hx, hg, rfl⟩]
      exact entryNow_none_congr h hw hx he (sameGroup_symm hg) hnone
    · exact (entryNow_missed hj).symm
  | some x' =>
    obtain ⟨x, hx, rfl, hn⟩ := commitEntry_now hq hc
    dsimp only
    rw [hq, queueNow, List.filter_filterMap]
    refine List.filterMap_congr fun e he => ?_
    by_cases hg : sameGroup x e
    · rw [gone_of e ⟨x, hx, sameGroup_symm hg, rfl⟩]
      cases hen : entryNow s gone toWalk e with
      | none => rfl
      | some e' => exact Option.filter_some_neg (by simp [(sameUnit_now h hx he hn hen).2 hg])
    · rw [entryNow_missed fun ⟨y, hy, hy', hs⟩ => hg (commitInv_entry_unique h hy hx hs ▸ sameGroup_symm hy')]
      cases hen : entryNow s gone toWalk e with
      | none => rfl
      | some e' => exact Option.filter_some_pos (by simpa using fun hs => hg ((sameUnit_now h hx he hn hen).1 hs))

end

end Sys2Proof.Machine
end

