-- ==== Sys2Proof/Proofs/BoundaryHoldsBack.lean ====
section
/-! What no piece of boundary work changes of a record, and the walk's meeting with one unit: what it does with the unit, and the queue after it
(R93, R94, R99). -/

namespace Sys2Proof.Machine

open Sys2Proof.Safety

/-! ## What no piece of boundary work changes of a record -/

/-- Whose window a record is, and under which generation. -/
def Window.holder (w : Window) : Option Port × Gen := (w.owner, w.gen)

theorem visitedWindow_holder (grace : Nat) (w : Window) : (visitedWindow grace w).holder = w.holder := by
  unfold visitedWindow
  split
  case h_5 ho =>
    have hn : ¬ ({ w with graceCounter := 0 } : Window).state = .hidden := by
      show ¬ w.state = .hidden
      rw [(leaseOutcome_evicted ho).1]
      nofun
    rw [retiredWindow, if_neg hn]
    rfl
  all_goals rfl

theorem holder_of_set {t u : State} {i : Slot} {w : Window} (hw : u.windows = t.windows.set i w) (hh : w.holder = (t.win i).holder)
    (j : Slot) : (u.win j).holder = (t.win j).holder := by
  rw [State.win_of_set hw]
  split
  · next e => rw [hh, e]
  · rfl

theorem walkUnit_holder (plan : BoundaryPlan) (t : State) (l : List Slot) (j : Slot) :
    ((walkUnit plan t l).win j).holder = (t.win j).holder := by
  unfold walkUnit
  split
  · rfl
  · split
    · refine foldl_invariant (fun u : State => (u.win j).holder = (t.win j).holder) _ (fun u i hu => Eq.trans ?_ hu) l t rfl
      exact holder_of_set (i := i) (w := appliedWindow (u.win i)) (by rw [applyWindow_frame]) rfl j
    · rw [holdBack_frame]
      rfl

theorem leaseVisit_holder (plan : BoundaryPlan) (t : State) (i j : Slot) : ((leaseVisit plan t i).win j).holder = (t.win j).holder := by
  unfold leaseVisit
  split
  · rfl
  · split
    · split
      · rw [raiseOwner_frame]
        rfl
      · rfl
    · exact holder_of_set (visitWindow_windows t i) (visitedWindow_holder ..) j

theorem boundaryTask_holder (plan : BoundaryPlan) (run : BoundaryRun) (x : BoundaryTask) (j : Slot) :
    ((boundaryTask plan run x).state.win j).holder = (run.state.win j).holder := by
  cases x with
  | profileNotice =>
    simp only [boundaryTask]
    rw [profileNotice_frame]
    rfl
  | walkUnit =>
    simp only [boundaryTask]
    split
    · rfl
    · exact walkUnit_holder ..
  | leaseVisit n =>
    simp only [boundaryTask]
    split
    · exact leaseVisit_holder ..
    · rfl
  | offerCount n =>
    simp only [boundaryTask]
    split
    · exact holder_of_set (countOffer_windows ..) rfl j
    · rfl
  | frameNotice p =>
    simp only [boundaryTask]
    rw [frameNotice_frame]
    rfl

/-! ## The walk meets a unit (R94) -/

theorem foldl_applyWindow_queue (fc : BitVec 16) (adj : List Nat) (l : List Slot) (t : State) :
    (l.foldl (applyWindow fc adj) t).commitQueue = t.commitQueue.filter (fun e => e.ref.slot ∉ l) := by
  induction l generalizing t with
  | nil => exact (List.filter_eq_self.2 fun e _ => by simp).symm
  | cons i rest ih =>
    rw [List.foldl_cons, ih, applyWindow_frame, List.filter_filter]
    exact List.filter_congr fun e _ => by simp [Bool.and_comm]

section
variable {s : State} {gone : List Slot} {rest toWalk : List (List Slot)} {e y : CommitEntry}

theorem entryNow_waiting (hm : e.ref.slot ∈ toWalk.flatten) (hh : ¬ unitHit s gone e) : entryNow s gone toWalk e = some e := by
  rw [entryNow, if_neg hh, if_pos hm]

theorem entryNow_walked (hm : e.ref.slot ∉ toWalk.flatten) (hh : ¬ unitHit s gone e) :
    entryNow s gone toWalk e = if readyUnit s e then none else heldBack e := by
  rw [entryNow, if_neg hh, if_neg hm]

/-- The walk's meeting with another unit does nothing to an entry. -/
theorem entryNow_pass {u : List Slot} (hy : y.ref.slot ∉ u) : entryNow s gone (u :: rest) y = entryNow s gone rest y := by
  simp only [entryNow, List.flatten_cons, List.mem_append, hy, false_or]

end

section
variable {s t : State} {plan : BoundaryPlan} {gone : List Slot} {rest : List (List Slot)} {e : CommitEntry} (h : CommitInv s)
  (ha : ∀ j, j ∈ plan.applied ↔ commitDue s j) (he : e ∈ s.commitQueue) (hq : t.commitQueue = queueNow s gone (unitAt s e :: rest))
include h he hq

omit he in
/-- Where no eviction has hit the unit, its entries stand in the queue as they were. -/
theorem mem_unit_now (hh : ¬ unitHit s gone e) {x : CommitEntry} (hx : x ∈ t.commitQueue) (hm : x.ref.slot ∈ unitAt s e) :
    x ∈ s.commitQueue ∧ sameGroup e x := by
  rw [hq] at hx
  obtain ⟨y, hy, hn⟩ := mem_queueNow.1 hx
  rw [(entryNow_fields hn).1] at hm
  have hg := (mem_unitAt h hy).1 hm
  rw [entryNow_waiting (List.mem_append_left _ hm) fun hhit => hh ((unitHit_congr hg).1 hhit)] at hn
  obtain rfl := Option.some.inj hn
  exact ⟨hy, hg⟩

theorem all_armed_now : (unitAt s e).all (armed t) = true ↔ ¬ unitHit s gone e := by
  rw [List.all_eq_true]
  constructor
  · intro hall hhit
    obtain ⟨x, hx⟩ := (armed_now_iff h hq he).1 (hall _ ((mem_unitAt h he).2 (.inl rfl)))
    rw [entryNow_hit hhit] at hx
    cases hx
  · intro hh i hi
    obtain ⟨x, hx, hg, rfl⟩ := exists_of_mem_unitAt hi
    exact (armed_now_iff h hq hx).2 ⟨x, entryNow_waiting (List.mem_append_left _ hi) fun hhit => hh ((unitHit_congr hg).1 hhit)⟩

omit hq in
include ha in
theorem all_applied : (unitAt s e).all (fun i => plan.applied.contains i) = true ↔ readyUnit s e := by
  rw [List.all_eq_true, ← commitDue_slot_iff h he]
  constructor
  · intro hall
    exact (ha _).1 (by simpa using hall _ ((mem_unitAt h he).2 (.inl rfl)))
  · intro hr i hi
    obtain ⟨x, hx, hg, rfl⟩ := exists_of_mem_unitAt hi
    rw [List.contains_iff_mem, ha, commitDue_slot_iff h hx, readyUnit_congr hg]
    exact (commitDue_slot_iff h he).1 hr

theorem all_below_now (hh : ¬ unitHit s gone e) :
    (t.commitQueue.filter (fun x => x.ref.slot ∈ unitAt s e)).all (fun x => decide (x.deferral < maxDeferral)) = true ↔ e.deferral < 15 := by
  have hself : e.ref.slot ∈ unitAt s e := (mem_unitAt h he).2 (.inl rfl)
  rw [List.all_eq_true]
  constructor
  · intro hall
    have hmem : e ∈ t.commitQueue := hq ▸ mem_queueNow.2 ⟨e, he, entryNow_waiting (List.mem_append_left _ hself) hh⟩
    exact of_decide_eq_true (hall e (List.mem_filter.2 ⟨hmem, decide_eq_true hself⟩))
  · intro hd x hx
    obtain ⟨hx, hm⟩ := List.mem_filter.1 hx
    obtain ⟨hx, hg⟩ := mem_unit_now h hq hh hx (of_decide_eq_true hm)
    exact decide_eq_true ((deferral_of_sameGroup h he hx hg).trans_lt hd)

include ha

/-- What the walk does with a unit: nothing where an eviction has hit it, and else it applies, defers or expires it whole (R93, R94, R99). -/
theorem walkUnit_cases :
    (unitHit s gone e ∧ walkUnit plan t (unitAt s e) = t) ∨
    (¬ unitHit s gone e ∧ readyUnit s e ∧ walkUnit plan t (unitAt s e) =
      (unitAt s e).foldl (applyWindow (low16 t.timing.frameCounter) plan.adjustedFirst) t) ∨
    (¬ unitHit s gone e ∧ ¬ readyUnit s e ∧ e.deferral < 15 ∧ walkUnit plan t (unitAt s e) = deferUnit t (unitAt s e)) ∨
    (¬ unitHit s gone e ∧ ¬ readyUnit s e ∧ e.deferral = 15 ∧
      walkUnit plan t (unitAt s e) = expireUnit (low16 t.timing.frameCounter) t (unitAt s e)) := by
  have harmed := all_armed_now h he hq
  have happlied := all_applied h ha he
  unfold walkUnit
  by_cases hh : unitHit s gone e
  · exact .inl ⟨hh, if_pos (by rw [← Bool.not_eq_true, harmed, not_not]; exact hh)⟩
  · rw [if_neg (by rw [harmed.2 hh]; nofun)]
    by_cases hr : readyUnit s e
    · exact .inr (.inl ⟨hh, hr, if_pos (happlied.2 hr)⟩)
    · rw [if_neg (mt happlied.1 hr), holdBack]
      have hbelow := all_below_now h he hq hh
      by_cases hd : e.deferral < 15
      · exact .inr (.inr (.inl ⟨hh, hr, hd, if_pos (hbelow.2 hd)⟩))
      · have hle : e.deferral ≤ 15 := (h.2.1 e he).2.2.2.2
        exact .inr (.inr (.inr ⟨hh, hr, by omega, if_neg (mt hbelow.1 hd)⟩))

/-- The queue after the walk has met the unit. -/
theorem walkUnit_now (hdis : ∀ i ∈ unitAt s e, i ∉ rest.flatten) : (walkUnit plan t (unitAt s e)).commitQueue = queueNow s gone rest := by
  have others : ∀ y ∈ s.commitQueue, ¬ sameGroup e y → entryNow s gone (unitAt s e :: rest) y = entryNow s gone rest y :=
    fun y hy hg => entryNow_pass (mt (mem_unitAt h hy).1 hg)
  have outside : ∀ y ∈ s.commitQueue, ¬ sameGroup e y → ∀ x, entryNow s gone rest y = some x → x.ref.slot ∉ unitAt s e :=
    fun y hy hg x hx => (entryNow_fields hx).1 ▸ mt (mem_unitAt h hy).1 hg
  have members (hh : ¬ unitHit s gone e) : ∀ y ∈ s.commitQueue, sameGroup e y → y.ref.slot ∈ unitAt s e ∧
      entryNow s gone (unitAt s e :: rest) y = some y ∧ entryNow s gone rest y = if readyUnit s e then none else heldBack y := by
    intro y hy hg
    have hm := (mem_unitAt h hy).2 hg
    have hhy : ¬ unitHit s gone y := fun hhit => hh ((unitHit_congr hg).1 hhit)
    refine ⟨hm, entryNow_waiting (List.mem_append_left _ hm) hhy, (entryNow_walked (hdis _ hm) hhy).trans ?_⟩
    simp only [readyUnit_congr hg]
  have removed (hh : ¬ unitHit s gone e) (hnone : ∀ y ∈ s.commitQueue, sameGroup e y → (if readyUnit s e then none else heldBack y) = none) :
      t.commitQueue.filter (fun x => x.ref.slot ∉ unitAt s e) = queueNow s gone rest := by
    rw [hq, queueNow, List.filter_filterMap]
    refine List.filterMap_congr fun y hy => ?_
    by_cases hg : sameGroup e y
    · obtain ⟨hm, hbefore, hafter⟩ := members hh y hy hg
      rw [hbefore, hafter, hnone y hy hg]
      exact Option.filter_some_neg (by simpa using hm)
    · rw [others y hy hg]
      cases hn : entryNow s gone rest y with
      | none => rfl
      | some x => exact Option.filter_some_pos (by simpa using outside y hy hg x hn)
  obtain ⟨hh, hw⟩ | ⟨hh, hr, hw⟩ | ⟨hh, hr, hd, hw⟩ | ⟨hh, hr, hd, hw⟩ := walkUnit_cases h ha he hq <;> rw [hw]
  · refine hq.trans (List.filterMap_congr fun y hy => ?_)
    by_cases hg : sameGroup e y
    · rw [entryNow_hit ((unitHit_congr hg).2 hh), entryNow_hit ((unitHit_congr hg).2 hh)]
    · exact others y hy hg
  · rw [foldl_applyWindow_queue]
    exact removed hh fun y _ _ => if_pos hr
  · rw [deferUnit_commitQueue, hq, queueNow, List.map_filterMap]
    refine List.filterMap_congr fun y hy => ?_
    by_cases hg : sameGroup e y
    · obtain ⟨hm, hbefore, hafter⟩ := members hh y hy hg
      rw [hbefore, hafter, if_neg hr, heldBack, if_pos ((deferral_of_sameGroup h he hy hg).trans_lt hd), Option.map_some, countedEntry, if_pos hm]
    · rw [others y hy hg]
      cases hn : entryNow s gone rest y with
      | none => rfl
      | some x => rw [Option.map_some, countedEntry, if_neg (outside y hy hg x hn)]
  · rw [expireUnit_frame]
    refine removed hh fun y hy hg => ?_
    rw [if_neg hr, heldBack, if_neg (by rw [deferral_of_sameGroup h he hy hg, hd]; decide)]

end

end Sys2Proof.Machine
end

