-- ==== Sys2Proof/Proofs/BoundaryOutcomes.lean ====
section
/-! What the pieces of a boundary's work make of the commit queue, and what the owner of a window that is held back hears of them by
COMMIT_EXPIRED and COMMIT_ABANDONED (R93, R99, R101, R104). -/

namespace Sys2Proof.Machine

open Sys2Proof.Safety

/-! ## Work that a port hears nothing of by the two kinds -/

/-- A port hears nothing of a window by COMMIT_EXPIRED or COMMIT_ABANDONED. -/
structure Unheard (q : Port) (i : Slot) (s t : State) : Prop where
  expired : Heard q .commitExpired i.handle s t []
  abandoned : Heard q .commitAbandoned i.handle s t []

section
variable {q : Port} {i : Slot} {s t u : State}

theorem unheard_of_notices (h : t.notices = s.notices) : Unheard q i s t :=
  have hq := congrArg (PerPort.get · q) h
  ⟨heard_of_notices hq, heard_of_notices hq⟩

theorem Unheard.trans (h : Unheard q i s t) (h' : Unheard q i t u) : Unheard q i s u :=
  ⟨h.expired.append h'.expired, h.abandoned.append h'.abandoned⟩

theorem unheard_of_raiseAll {l : List Raising} (ht : t.notices = raiseAll s.notices l)
    (hl : ∀ x ∈ l, x.kind = .commitExpired ∨ x.kind = .commitAbandoned → x.ref.slot ≠ i) : Unheard q i s t := by
  have he := heard_of_raiseAll ht q .commitExpired i
  have ha := heard_of_raiseAll ht q .commitAbandoned i
  rw [heardOf_eq_nil fun x hx hk => hl x hx (.inl hk)] at he
  rw [heardOf_eq_nil fun x hx hk => hl x hx (.inr hk)] at ha
  exact ⟨he, ha⟩

theorem unheard_raiseOwner (s : State) (o : Option Port) (k : NoticeKind) (hk : k ≠ .commitExpired ∧ k ≠ .commitAbandoned) (r : WinRef)
    (d : BitVec 16) : Unheard q i s (raiseOwner s o k r d) := by
  rw [raiseOwner_eq_raised]
  refine unheard_of_raiseAll rfl fun x hx h => ?_
  rw [(kind_of_mem_ownerRaising hx).1] at h
  exact absurd h (not_or.2 hk)

/-- The notices of an application are COMMITTED and PLACEMENT_ADJUSTED (R79, R97). -/
theorem unheard_applyWindow (fc : BitVec 16) (adj : List Nat) (s : State) (j : Slot) : Unheard q i s (applyWindow fc adj s j) := by
  unfold applyWindow raiseApplied
  dsimp only
  refine (unheard_of_notices rfl : Unheard q i s { s.setWin j (appliedWindow (s.win j)) with
    stack := (appliedPlacement s j).list, commitQueue := s.commitQueue.filter (fun e => e.ref.slot ≠ j) }).trans ?_
  split
  · exact unheard_raiseOwner _ _ _ (by decide) _ _
  · split <;> exact (unheard_raiseOwner _ _ _ (by decide) _ _).trans (unheard_raiseOwner _ _ _ (by decide) _ _)

theorem unheard_applyUnit (fc : BitVec 16) (adj : List Nat) (u : List Slot) (s : State) : Unheard q i s (u.foldl (applyWindow fc adj) s) :=
  foldl_invariant (Unheard q i s) _ (fun _ j h => h.trans (unheard_applyWindow fc adj _ j)) u s (unheard_of_notices rfl)

end

/-- Work that keeps the commit queue, and of which nothing is heard by the two kinds. -/
def KeepsUnits (s t : State) : Prop := t.commitQueue = s.commitQueue ∧ ∀ q i, Unheard q i s t

theorem keepsUnits_refl (s : State) : KeepsUnits s s := ⟨rfl, fun _ _ => unheard_of_notices rfl⟩

theorem keepsUnits_visitWindow {s : State} {j : Slot} (h : leaseOutcome (s.win j) ≠ .evicted) : KeepsUnits s (visitWindow s j) := by
  refine ⟨?_, fun q i => unheard_of_raiseAll (visitWindow_notices s j) fun x hx hk => ?_⟩
  · unfold visitWindow
    dsimp only
    split
    case h_5 ho => exact absurd ho h
    case h_1 => rw [renewWindow_frame]
    case h_3 => rw [lapseWindow_frame]
    all_goals rfl
  · unfold visitRaisings at hx
    split at hx
    · split at hx
      · rw [(kind_of_mem_ownerRaising hx).1] at hk
        exact absurd hk (by decide)
      · cases hx
    · rw [(slot_of_mem_ownerAndARaisings hx).1] at hk
      exact absurd hk (by decide)
    · next ho => exact absurd ho h
    · cases hx

/-- The Lease Monitor's visit of a window that it does not evict. -/
theorem keepsUnits_leaseVisit {plan : BoundaryPlan} {s : State} {j : Slot} (h : j ∉ plan.applied → leaseOutcome (s.win j) ≠ .evicted) :
    KeepsUnits s (leaseVisit plan s j) := by
  unfold leaseVisit
  split
  · exact keepsUnits_refl s
  · split
    · split
      · exact ⟨by rw [raiseOwner_frame], fun q i => unheard_raiseOwner s _ _ (by decide) _ _⟩
      · exact keepsUnits_refl s
    · next hm => exact keepsUnits_visitWindow (h (by simpa using hm))

/-- The work but for the walk and the lease visits. -/
theorem keepsUnits_task (plan : BoundaryPlan) (run : BoundaryRun) {x : BoundaryTask} (hx : ∀ n, x ≠ .leaseVisit n) (hw : x ≠ .walkUnit) :
    KeepsUnits run.state (boundaryTask plan run x).state ∧ (boundaryTask plan run x).toWalk = run.toWalk := by
  cases x with
  | leaseVisit n => exact absurd rfl (hx n)
  | walkUnit => exact absurd rfl hw
  | profileNotice =>
    show KeepsUnits run.state (profileNotice plan run.state) ∧ _
    exact ⟨⟨by rw [profileNotice_frame], fun q i => ⟨heard_profileNotice .., heard_profileNotice ..⟩⟩, rfl⟩
  | offerCount n =>
    simp only [boundaryTask]
    split
    · refine ⟨⟨by rw [countOffer_frame], fun q i => unheard_of_raiseAll (countOffer_notices ..) fun x hx hk => ?_⟩, rfl⟩
      rw [(mem_offerRaisings hx).1] at hk
      exact absurd hk (by decide)
    · exact ⟨keepsUnits_refl _, rfl⟩
  | frameNotice p =>
    show KeepsUnits run.state (frameNotice run.state p) ∧ _
    exact ⟨⟨by rw [frameNotice_frame], fun q i => ⟨heard_frameNotice .., heard_frameNotice ..⟩⟩, rfl⟩

/-! ## What is heard of a group -/

/-- What a port hears of a window by the raisings for a list of windows without a repetition is what it hears of its own. -/
theorem heardOf_flatMap {α : Type} {g : α → Slot} {f : α → List Raising} {l : List α} (hf : ∀ a ∈ l, ∀ x ∈ f a, x.ref.slot = g a)
    (hn : (l.map g).Nodup) {a : α} (ha : a ∈ l) (q : Port) (k : NoticeKind) :
    heardOf q k (g a) (l.flatMap f) = heardOf q k (g a) (f a) := by
  obtain ⟨m, n, rfl⟩ := List.append_of_mem ha
  have other : ∀ b ∈ m ++ n, g b ≠ g a := by
    rw [List.map_append, List.map_cons] at hn
    intro b hb hba
    exact (List.nodup_cons.1 (List.nodup_middle.1 hn)).1 (by rw [← List.map_append, ← hba]; exact List.mem_map_of_mem hb)
  have silent : ∀ l' : List α, (∀ b ∈ l', b ∈ m ++ n) → heardOf q k (g a) (l'.flatMap f) = [] := by
    intro l' hl'
    refine heardOf_eq_nil fun x hx _ => ?_
    obtain ⟨b, hb, hx⟩ := List.mem_flatMap.1 hx
    have hb' := hl' b hb
    rw [hf b (by simp only [List.mem_append, List.mem_cons] at hb' ⊢; tauto) x hx]
    exact other b hb'
  rw [List.flatMap_append, List.flatMap_cons, heardOf_append, heardOf_append, silent m fun b => List.mem_append_left n,
    silent n fun b => List.mem_append_right m, List.nil_append, List.append_nil]

/-- By a kind that is not of the evicted window, its operations, its stream or its offer, an eviction is heard as its group is told (R16). -/
theorem heardOf_eviction_group {k : NoticeKind} (hk : k ∉ [.windowEvicted, .opCancelled, .streamClosed, .offerWithdrawn]) (t : State)
    (j : Slot) (q : Port) (i : Slot) :
    heardOf q k i (retireRaisings t j .eviction) = heardOf q k i (abandonRaisings t j (t.win j).owner) := by
  simp only [List.mem_cons, not_or] at hk
  obtain ⟨hown, hcancel, hstream, hoffer, -⟩ := hk
  rw [retireRaisings, heardOf_append, heardOf_append, heardOf_append, heardOf_append,
    heardOf_of_kind (fun _ => kind_of_mem_own t j) (Ne.symm hown), heardOf_of_kind (fun _ => kind_of_mem_cancel) (Ne.symm hcancel),
    heardOf_of_kind (fun _ => kind_of_mem_stream t j) (Ne.symm hstream), heardOf_of_kind (fun _ => kind_of_mem_offer t j) (Ne.symm hoffer),
    List.nil_append, List.append_nil, List.append_nil, List.append_nil]

section
variable {s t : State} {gone : List Slot} {toWalk : List (List Slot)} (h : CommitInv s) (hq : t.commitQueue = queueNow s gone toWalk)
include h hq

/-- The members that an eviction tells are those of the evicted window's unit that are in the queue still (R101, R104). -/
theorem mem_otherMembers_now {j : Slot} {r : WinRef} : r ∈ otherMembers t j ↔
    (∃ x ∈ s.commitQueue, ∃ y ∈ s.commitQueue, x.ref.slot = j ∧ (entryNow s gone toWalk x).isSome ∧ sameGroup x y ∧
      (entryNow s gone toWalk y).isSome ∧ y.ref = r) ∧ r.slot ≠ j := by
  unfold otherMembers
  cases hc : commitEntry t j with
  | none =>
    refine iff_of_false (List.not_mem_nil) ?_
    rintro ⟨⟨x, hx, -, -, rfl, hs, -⟩, -⟩
    obtain ⟨e, he, hes⟩ := armed_iff.1 ((armed_now_iff h hq hx).2 (Option.isSome_iff_exists.1 hs))
    exact commitEntry_eq_none hc e he hes
  | some x' =>
    obtain ⟨x, hx, rfl, hxn⟩ := commitEntry_now hq hc
    simp only [List.mem_filter, List.mem_map, decide_eq_true_eq, hq]
    refine and_congr_left fun _ => ⟨?_, ?_⟩
    · rintro ⟨y', ⟨hy', hg⟩, rfl⟩
      obtain ⟨y, hy, hyn⟩ := mem_queueNow.1 hy'
      exact ⟨x, hx, y, hy, rfl, by rw [hxn]; rfl, (sameUnit_now h hx hy hxn hyn).1 hg, by rw [hyn]; rfl, (entryNow_fields hyn).1.symm⟩
    · rintro ⟨z, hz, y, hy, hzx, -, hg, hs, rfl⟩
      obtain rfl := commitInv_entry_unique h hz hx hzx
      obtain ⟨y', hyn⟩ := Option.isSome_iff_exists.1 hs
      exact ⟨y', ⟨mem_queueNow.2 ⟨y, hy, hyn⟩, (sameUnit_now h hx hy hxn hyn).2 hg⟩, (entryNow_fields hyn).1⟩

theorem otherMembers_nodup (j : Slot) : ((otherMembers t j).map WinRef.slot).Nodup := by
  unfold otherMembers
  cases commitEntry t j with
  | none => exact List.nodup_nil
  | some x =>
    have hn := queueNow_nodup (gone := gone) (toWalk := toWalk) h
    rw [← hq, show (fun e : CommitEntry => e.ref.slot) = WinRef.slot ∘ CommitEntry.ref from rfl, ← List.map_map] at hn
    exact hn.sublist ((List.filter_sublist.trans (List.filter_sublist.map _)).map _)

/-- What the owner of a member hears of an eviction (R101). -/
theorem heardOf_abandon_member {j : Slot} {e : CommitEntry} (hm : e.ref ∈ otherMembers t j) (o : Port) :
    heardOf o .commitAbandoned e.ref.slot (abandonRaisings t j (some o)) = [(e.ref.gen, detail j.handle)] :=
  (heardOf_flatMap (g := WinRef.slot) (fun _ _ _ hx => congrArg WinRef.slot (kind_of_mem_ownerRaising hx).2) (otherMembers_nodup h hq j) hm
    o .commitAbandoned).trans (heardOf_owner ..)

end

end Sys2Proof.Machine
end

