-- ==== Sys2Proof/Proofs/BoundaryExpiry.lean ====
section
/-! A boundary holds back the units that are not ready, in whatever order its work is done (R93, R94, R99 to R101, R104). -/

namespace Sys2Proof.Machine

open Sys2Proof.Safety

/-- A boundary under way, `s` being the state in which it occurs: the evictions so far are of these windows, the walk has its last units before
it, and the windows of the queue have the owners and generations that they had. -/
structure Walked (s : State) (gone : List Slot) (run : BoundaryRun) : Prop where
  queue : run.state.commitQueue = queueNow s gone run.toWalk
  rest : run.toWalk <:+ (units s).map unitSlots
  holder : ∀ e ∈ s.commitQueue, (run.state.win e.ref.slot).holder = (s.win e.ref.slot).holder
  counter : low16 run.state.timing.frameCounter = (s.timing.frameCounter + 1).setWidth 16

/-- An entry of a unit that is not ready, so that the boundary holds it back, whose window is not due for eviction and has this owner. -/
structure Spared (s : State) (o : Port) (e : CommitEntry) : Prop where
  mem : e ∈ s.commitQueue
  notReady : ¬ readyUnit s e
  notDue : ¬ evictionDue (s.win e.ref.slot)
  owner : (s.win e.ref.slot).owner = some o

/-- What befalls an entry of a unit that is not ready while one piece of work is done, and what the owner `o` hears of it: nothing, its expiry, or
the eviction of another member. -/
inductive Befalls (s : State) (o : Port) (e : CommitEntry) (before after : Option CommitEntry) (t u : State) : Prop
  | nothing (hs : after.isSome = before.isSome) (hu : Unheard o e.ref.slot t u)
  | expiry (hb : before.isSome) (ha : after = none) (hd : e.deferral = 15)
      (hh : Heard o .commitExpired e.ref.slot.handle t u [(e.ref.gen, (s.timing.frameCounter + 1).setWidth 16)])
  | abandonment (hb : before.isSome) (ha : after = none) (x : CommitEntry) (hx : x ∈ s.commitQueue) (hg : sameGroup e x)
      (hm : evictionDue (s.win x.ref.slot))
      (hh : Heard o .commitAbandoned e.ref.slot.handle t u [(e.ref.gen, detail x.ref.slot.handle)])

/-- One piece of work, from a run to the next. -/
structure WalkStep (s : State) (gone gone' : List Slot) (run run' : BoundaryRun) : Prop where
  walked : Walked s gone' run'
  befalls : ∀ {o e}, Spared s o e →
    Befalls s o e (entryNow s gone run.toWalk e) (entryNow s gone' run'.toWalk e) run.state run'.state

section
variable {s : State} {gone : List Slot} {run : BoundaryRun} {e : CommitEntry} {o : Port}

theorem Walked.units (hwk : Walked s gone run) (hc : CommitInv s) : ∀ u ∈ run.toWalk, ∃ e ∈ s.commitQueue, u = unitAt s e :=
  fun _ hu => (mem_walkUnits hc).1 (hwk.rest.subset hu)

/-- The unit that the walk meets shares no window with those that it has still to meet (R94). -/
theorem Walked.disjoint (hwk : Walked s gone run) (hc : CommitInv s) {u : List Slot} {rest : List (List Slot)} (hu : run.toWalk = u :: rest) :
    ∀ i ∈ u, i ∉ rest.flatten := by
  intro i hi hm
  obtain ⟨v, hv, hiv⟩ := List.mem_flatten.1 hm
  have hp := (walkUnits_disjoint hc).sublist hwk.rest.sublist
  rw [hu] at hp
  exact (List.pairwise_cons.1 hp).1 v hv hi hiv

theorem Walked.owner (hwk : Walked s gone run) (he : e ∈ s.commitQueue) :
    (run.state.win e.ref.slot).owner = (s.win e.ref.slot).owner := congrArg Prod.fst (hwk.holder e he)

theorem Walked.refOf (hwk : Walked s gone run) (hc : CommitInv s) (he : e ∈ s.commitQueue) : run.state.refOf e.ref.slot = e.ref := by
  rw [commitInv_ref hc he, State.refOf, State.refOf]
  exact congrArg (WinRef.mk _) (congrArg Prod.snd (hwk.holder e he))

/-! ## The walk's meeting with a unit -/

/-- The raising of a window's expiry (R99). -/
def expiryRaising (t : State) (i : Slot) : List Raising :=
  ownerRaising (t.win i).owner .commitExpired (t.refOf i) (low16 t.timing.frameCounter)

theorem slot_of_mem_expiryRaising {t : State} {i : Slot} {x : Raising} (hx : x ∈ expiryRaising t i) : x.ref.slot = i :=
  congrArg WinRef.slot (kind_of_mem_ownerRaising hx).2

/-- The expiry of a unit is heard of each of its windows, and of no other (R99). -/
theorem expireUnit_heard (hwk : Walked s gone run) (hc : CommitInv s) (he : e ∈ s.commitQueue) (ho : (s.win e.ref.slot).owner = some o)
    {u : List Slot} (hn : u.Nodup) :
    (e.ref.slot ∈ u → Heard o .commitExpired e.ref.slot.handle run.state
      (expireUnit (low16 run.state.timing.frameCounter) run.state u) [(e.ref.gen, (s.timing.frameCounter + 1).setWidth 16)]) ∧
    (e.ref.slot ∉ u → Unheard o e.ref.slot run.state (expireUnit (low16 run.state.timing.frameCounter) run.state u)) := by
  have hraised : (expireUnit (low16 run.state.timing.frameCounter) run.state u).notices = raiseAll run.state.notices (u.flatMap
      (expiryRaising run.state)) := by
    rw [expireUnit_eq]
    rfl
  refine ⟨fun hm => ?_, fun hm => unheard_of_raiseAll hraised fun x hx _ hs => ?_⟩
  · have hheard := heard_of_raiseAll hraised o .commitExpired e.ref.slot
    have hone : heardOf o .commitExpired e.ref.slot (expiryRaising run.state e.ref.slot) =
        [(e.ref.gen, (s.timing.frameCounter + 1).setWidth 16)] := by
      rw [expiryRaising, hwk.owner he, ho, hwk.refOf hc he, hwk.counter]
      exact heardOf_owner ..
    have hall : heardOf o .commitExpired e.ref.slot (u.flatMap (expiryRaising run.state)) = [(e.ref.gen, (s.timing.frameCounter + 1).setWidth 16)] :=
      (heardOf_flatMap (g := id) (fun i _ x => slot_of_mem_expiryRaising) (by rwa [List.map_id]) hm o .commitExpired).trans hone
    rwa [hall] at hheard
  · obtain ⟨i, hi, hx⟩ := List.mem_flatMap.1 hx
    exact hm (hs ▸ slot_of_mem_expiryRaising hx ▸ hi)

section
variable {plan : BoundaryPlan} (hc : CommitInv s) (ha : ∀ j, j ∈ plan.applied ↔ commitDue s j) (hwk : Walked s gone run)
include hc ha hwk

theorem walkUnit_befalls {d : CommitEntry} {rest : List (List Slot)} (hu : run.toWalk = unitAt s d :: rest) (hd : d ∈ s.commitQueue)
    (hs : Spared s o e) : Befalls s o e (entryNow s gone run.toWalk e) (entryNow s gone rest e) run.state (walkUnit plan run.state (unitAt s d)) := by
  obtain ⟨he, hr, -, ho⟩ := hs
  have hq := hwk.queue
  have hdis := hwk.disjoint hc hu
  rw [hu] at hq ⊢
  have hmem : e.ref.slot ∈ unitAt s d ↔ sameGroup d e := mem_unitAt hc he
  have other (hg : ¬ sameGroup d e) : (entryNow s gone rest e).isSome = (entryNow s gone (unitAt s d :: rest) e).isSome := by
    rw [entryNow_pass (mt hmem.1 hg)]
  have before (hg : sameGroup d e) (hh : ¬ unitHit s gone d) : entryNow s gone (unitAt s d :: rest) e = some e :=
    entryNow_waiting (List.mem_append_left _ (hmem.2 hg)) (mt (unitHit_congr hg).1 hh)
  have after (hg : sameGroup d e) (hh : ¬ unitHit s gone d) : entryNow s gone rest e = heldBack e :=
    (entryNow_walked (hdis _ (hmem.2 hg)) (mt (unitHit_congr hg).1 hh)).trans (if_neg hr)
  obtain ⟨hh, hw⟩ | ⟨-, hready, hw⟩ | ⟨hh, -, hlt, hw⟩ | ⟨hh, -, h15, hw⟩ := walkUnit_cases hc ha hd hq <;> rw [hw]
  · refine .nothing ?_ (unheard_of_notices rfl)
    by_cases hg : sameGroup d e
    · rw [entryNow_hit ((unitHit_congr hg).2 hh), entryNow_hit ((unitHit_congr hg).2 hh)]
    · exact other hg
  · exact .nothing (other fun hg => hr ((readyUnit_congr hg).2 hready)) (unheard_applyUnit ..)
  · refine .nothing ?_ (unheard_of_notices rfl)
    by_cases hg : sameGroup d e
    · rw [before hg hh, after hg hh, heldBack, if_pos ((deferral_of_sameGroup hc hd he hg).trans_lt hlt)]
      rfl
    · exact other hg
  · obtain ⟨hmember, hother⟩ := expireUnit_heard hwk hc he ho (unitAt_nodup hc d)
    by_cases hg : sameGroup d e
    · have he15 : e.deferral = 15 := (deferral_of_sameGroup hc hd he hg).trans h15
      refine .expiry (by rw [before hg hh]; rfl) ?_ he15 (hmember (hmem.2 hg))
      rw [after hg hh, heldBack, if_neg (by omega)]
    · exact .nothing (other hg) (hother (mt hmem.1 hg))

/-! ## An eviction -/

omit ha in
theorem eviction_befalls {j : Slot} (hj : leaseOutcome (run.state.win j) = .evicted) (hdue : evictionDue (s.win j))
    (hs : Spared s o e) : Befalls s o e (entryNow s gone run.toWalk e) (entryNow s (j :: gone) run.toWalk e) run.state (visitWindow run.state j) := by
  obtain ⟨he, -, hn, ho⟩ := hs
  have hvisit : visitRaisings run.state j = retireRaisings run.state j .eviction := by rw [visitRaisings, hj]
  have hexpired := heard_visitWindow run.state j o .commitExpired e.ref.slot
  have habandoned := heard_visitWindow run.state j o .commitAbandoned e.ref.slot
  rw [hvisit, heardOf_eviction_group (by decide), heardOf_of_kind (fun _ => kind_of_mem_abandon run.state j) (by decide)] at hexpired
  rw [hvisit, heardOf_eviction_group (by decide)] at habandoned
  have hej : e.ref.slot ≠ j := fun h => hn (h ▸ hdue)
  have missed (hm : e.ref ∉ otherMembers run.state j) : Unheard o e.ref.slot run.state (visitWindow run.state j) := by
    rw [heardOf_eq_nil fun x hx _ hs => ?_] at habandoned
    · exact ⟨hexpired, habandoned⟩
    · obtain ⟨r, hr, hx⟩ := List.mem_flatMap.1 hx
      rw [(kind_of_mem_ownerRaising hx).2] at hs
      obtain ⟨⟨-, -, y, hy, -, -, -, -, rfl⟩, -⟩ := (mem_otherMembers_now hc hwk.queue).1 hr
      exact hm (commitInv_entry_unique hc hy he hs ▸ hr)
  by_cases hx : ∃ x ∈ s.commitQueue, sameGroup e x ∧ x.ref.slot = j
  · obtain ⟨x, hx, hg, rfl⟩ := hx
    have hnone : entryNow s (x.ref.slot :: gone) run.toWalk e = none := entryNow_hit (unitHit_cons.2 (.inl ⟨x, hx, hg, rfl⟩))
    cases hb : entryNow s gone run.toWalk e with
    | none =>
      refine .nothing (by rw [hnone]) (missed fun hm => ?_)
      obtain ⟨⟨-, -, y, hy, -, -, -, hs, hye⟩, -⟩ := (mem_otherMembers_now hc hwk.queue).1 hm
      rw [commitInv_entry_unique hc hy he (congrArg WinRef.slot hye), hb] at hs
      cases hs
    | some e' =>
      have hxs : (entryNow s gone run.toWalk x).isSome := by
        rw [Option.isSome_iff_ne_none]
        intro hxn
        rw [entryNow_none_congr hc (hwk.units hc) hx he (sameGroup_symm hg) hxn] at hb
        cases hb
      have hm : e.ref ∈ otherMembers run.state x.ref.slot := (mem_otherMembers_now hc hwk.queue).2
        ⟨⟨x, hx, e, he, rfl, hxs, sameGroup_symm hg, by rw [hb]; rfl, rfl⟩, hej⟩
      rw [hwk.owner hx, owner_of_sameGroup hc he hx hg, ho, heardOf_abandon_member hc hwk.queue hm] at habandoned
      exact .abandonment rfl hnone x hx hg hdue habandoned
  · refine .nothing (by rw [entryNow_missed hx]) (missed fun hm => hx ?_)
    obtain ⟨⟨x, hx', y, hy, hxj, -, hg, -, hye⟩, -⟩ := (mem_otherMembers_now hc hwk.queue).1 hm
    exact ⟨x, hx', sameGroup_symm (commitInv_entry_unique hc hy he (congrArg WinRef.slot hye) ▸ hg), hxj⟩

/-! ## One piece of work -/

omit ha in
theorem visitWindow_removesUnit {j : Slot} (hj : leaseOutcome (run.state.win j) = .evicted) :
    (visitWindow run.state j).commitQueue = queueNow s (j :: gone) run.toWalk := by
  refine Eq.trans ?_ (removeUnit_now hc (hwk.units hc) hwk.queue j)
  rw [visitWindow, hj]
  show (evictWindow run.state j).commitQueue = _
  rw [evictWindow, retireWindow_commitQueue]
  exact removeUnit_commitQueue_congr (State.setWin_commitQueue ..) j

omit hc ha in
/-- A piece of work leaves what is known of the boundary but for the queue and the units before the walk. -/
theorem Walked.next {gone' : List Slot} {x : BoundaryTask}
    (hq : (boundaryTask plan run x).state.commitQueue = queueNow s gone' (boundaryTask plan run x).toWalk)
    (hrest : (boundaryTask plan run x).toWalk <:+ run.toWalk) : Walked s gone' (boundaryTask plan run x) := by
  refine ⟨hq, hrest.trans hwk.rest, fun e he => (boundaryTask_holder plan run x _).trans (hwk.holder e he), ?_⟩
  obtain ⟨-, -, -, -, -, htiming, -⟩ := State.fields_of_steady (boundaryTask_steady plan run x)
  rw [htiming, hwk.counter]

omit hc ha in
theorem Walked.keep {x : BoundaryTask}
    (hk : KeepsUnits run.state (boundaryTask plan run x).state ∧ (boundaryTask plan run x).toWalk = run.toWalk) :
    WalkStep s gone gone run (boundaryTask plan run x) := by
  obtain ⟨⟨hq, hu⟩, hw⟩ := hk
  exact ⟨hwk.next (by rw [hq, hw, hwk.queue]) (by rw [hw]), fun _ => .nothing (by rw [hw]) (hu _ _)⟩

theorem Walked.walk : WalkStep s gone gone run (boundaryTask plan run .walkUnit) := by
  cases hu : run.toWalk with
  | nil =>
    have hrun : boundaryTask plan run .walkUnit = run := by simp only [boundaryTask, hu]
    exact hwk.keep (by rw [hrun]; exact ⟨keepsUnits_refl _, rfl⟩)
  | cons u rest =>
    have hrun : boundaryTask plan run .walkUnit = ⟨walkUnit plan run.state u, rest⟩ := by simp only [boundaryTask, hu]
    obtain ⟨d, hd, rfl⟩ := hwk.units hc u (hu ▸ List.mem_cons_self)
    have hq := hwk.queue
    rw [hu] at hq
    refine ⟨hwk.next ?_ ?_, fun hs => ?_⟩
    · rw [hrun]
      exact walkUnit_now hc ha hd hq (hwk.disjoint hc hu)
    · rw [hrun, hu]
      exact List.suffix_cons ..
    · rw [hrun]
      exact walkUnit_befalls hc ha hwk hu hd hs

/-- What a piece of work makes of the queue and of an entry: it meets the next unit, evicts the window that the plan says, or does nothing to
either. -/
theorem Walked.task (hv : ∀ j, evictionDue (s.win j) → j ∈ plan.visited) (x : BoundaryTask)
    (hd : ∀ j : Slot, x = .leaseVisit j.handle → j ∉ plan.applied → DueKept s run.state j) :
    WalkStep s gone ((plannedEviction s plan x).toList ++ gone) run (boundaryTask plan run x) := by
  cases x with
  | profileNotice | offerCount | frameNotice => exact hwk.keep (keepsUnits_task plan run nofun nofun)
  | walkUnit => exact hwk.walk hc ha
  | leaseVisit n =>
    cases hslot : slotOfHandle n with
    | none =>
      have hrun : boundaryTask plan run (.leaseVisit n) = run := by simp only [boundaryTask, hslot]
      rw [plannedEviction, hslot]
      exact hwk.keep (by rw [hrun]; exact ⟨keepsUnits_refl _, rfl⟩)
    | some j =>
      obtain rfl := slotOfHandle_eq_some.1 hslot
      have hrun : boundaryTask plan run (.leaseVisit j.handle) = { run with state := leaseVisit plan run.state j } := by
        simp only [boundaryTask, hslot]
      rw [plannedEviction, hslot]
      by_cases he : evictionDue (s.win j) ∧ j ∉ plan.applied
      · have hvisit : leaseVisit plan run.state j = visitWindow run.state j := by
          unfold leaseVisit
          rw [if_neg (by simpa using hv j he.1), if_neg (by simpa using he.2)]
        have hout := (hd j rfl he.2).1.2 he.1
        rw [Option.filter_some, if_pos (decide_eq_true he)]
        refine ⟨hwk.next ?_ (by rw [hrun]), fun hs => ?_⟩
        · rw [hrun, hvisit]
          exact visitWindow_removesUnit hc hwk hout
        · rw [hrun, hvisit]
          exact eviction_befalls hc hwk hout he.1 hs
      · rw [Option.filter_some, if_neg (by simpa using he)]
        refine hwk.keep ?_
        rw [hrun]
        exact ⟨keepsUnits_leaseVisit fun hna ho => he ⟨(hd j rfl hna).1.1 ho, hna⟩, rfl⟩

end

end

/-! ## The whole boundary -/

/-- What has befallen an entry of a unit that is not ready since the boundary's work began in `b`, and what its owner `o` has heard of it. -/
inductive Befallen (s b : State) (gone : List Slot) (o : Port) (e : CommitEntry) (run : BoundaryRun) : Prop
  | nothing (hs : (entryNow s gone run.toWalk e).isSome) (hu : Unheard o e.ref.slot b run.state)
  | expiry (hn : entryNow s gone run.toWalk e = none) (hd : e.deferral = 15)
      (hh : Heard o .commitExpired e.ref.slot.handle b run.state [(e.ref.gen, (s.timing.frameCounter + 1).setWidth 16)])
  | abandonment (hn : entryNow s gone run.toWalk e = none) (x : CommitEntry) (hx : x ∈ s.commitQueue) (hg : sameGroup e x)
      (hm : evictionDue (s.win x.ref.slot))
      (hh : Heard o .commitAbandoned e.ref.slot.handle b run.state [(e.ref.gen, detail x.ref.slot.handle)])

/-- An entry that is gone stays gone, and nothing more is heard of it. -/
theorem Befallen.then {s b : State} {gone gone' : List Slot} {o : Port} {e : CommitEntry} {run run' : BoundaryRun}
    (h : Befallen s b gone o e run)
    (h' : Befalls s o e (entryNow s gone run.toWalk e) (entryNow s gone' run'.toWalk e) run.state run'.state) :
    Befallen s b gone' o e run' := by
  have stays (hn : entryNow s gone run.toWalk e = none) : entryNow s gone' run'.toWalk e = none ∧ Unheard o e.ref.slot run.state run'.state := by
    rw [hn] at h'
    cases h' with
    | nothing hs hu => exact ⟨by simpa using hs, hu⟩
    | expiry hb | abandonment hb => cases hb
  cases h with
  | nothing hs hu =>
    cases h' with
    | nothing hs' hu' => exact .nothing (hs'.trans hs) (hu.trans hu')
    | expiry _ ha hd hh => exact .expiry ha hd (hu.expired.append hh)
    | abandonment _ ha x hx hg hm hh => exact .abandonment ha x hx hg hm (hu.abandoned.append hh)
  | expiry hn hd hh =>
    obtain ⟨hn', hu⟩ := stays hn
    exact .expiry hn' hd (hh.silent hu.expired)
  | abandonment hn x hx hg hm hh =>
    obtain ⟨hn', hu⟩ := stays hn
    exact .abandonment hn' x hx hg hm (hh.silent hu.abandoned)

/-- A boundary under way, with what has befallen each entry of the units that it holds back. -/
structure HeldBack (s b : State) (gone : List Slot) (run : BoundaryRun) : Prop extends Walked s gone run where
  befallen : ∀ {o e}, Spared s o e → Befallen s b gone o e run

theorem boundaryTask_toWalk (plan : BoundaryPlan) (run : BoundaryRun) {x : BoundaryTask} (hx : x ≠ .walkUnit) :
    (boundaryTask plan run x).toWalk = run.toWalk := by
  cases x with
  | walkUnit => exact absurd rfl hx
  | profileNotice | frameNotice => rfl
  | leaseVisit n | offerCount n =>
    simp only [boundaryTask]
    split <;> rfl

theorem boundaryTask_walkUnit_toWalk (plan : BoundaryPlan) (run : BoundaryRun) : (boundaryTask plan run .walkUnit).toWalk = run.toWalk.drop 1 := by
  simp only [boundaryTask]
  split
  · next h => rw [h, List.drop_nil]
  · next h => rw [h, List.drop_one, List.tail_cons]

/-- The walk meets one unit for each of its pieces of work (R94). -/
theorem toWalk_of_tasks (plan : BoundaryPlan) (l : List BoundaryTask) (run : BoundaryRun) :
    (l.foldl (boundaryTask plan) run).toWalk = run.toWalk.drop (l.count .walkUnit) := by
  induction l generalizing run with
  | nil => rfl
  | cons x rest ih =>
    rw [List.foldl_cons, ih]
    by_cases hx : x = .walkUnit
    · subst hx
      rw [List.count_cons_self, boundaryTask_walkUnit_toWalk, List.drop_drop, Nat.add_comm]
    · rw [List.count_cons_of_ne hx, boundaryTask_toWalk plan run hx]

theorem count_walkUnit_allTasks (n : Nat) : (allTasks n).count .walkUnit = n := by
  have hlease : (allSlots.map (fun i => BoundaryTask.leaseVisit i.handle)).count .walkUnit = 0 := List.count_eq_zero.2 (by simp)
  have hoffer : (allSlots.map (fun i => BoundaryTask.offerCount i.handle)).count .walkUnit = 0 := List.count_eq_zero.2 (by simp)
  unfold allTasks
  simp only [List.count_append, List.count_cons, List.count_replicate, hlease, hoffer]
  rfl

section
variable {s b : State} {plan : BoundaryPlan} (hc : CommitInv s) (ha : ∀ j, j ∈ plan.applied ↔ commitDue s j)
  (hv : ∀ j, evictionDue (s.win j) → j ∈ plan.visited)
include hc ha hv

theorem HeldBack.tasks (l : List BoundaryTask) {gone : List Slot} {run : BoundaryRun} (h : HeldBack s b gone run)
    (hn : ∀ j : Slot, l.count (.leaseVisit j.handle) ≤ 1)
    (hd : ∀ j : Slot, .leaseVisit j.handle ∈ l → j ∉ plan.applied → DueKept s run.state j) :
    HeldBack s b ((plannedEvictions s plan l).reverse ++ gone) (l.foldl (boundaryTask plan) run) := by
  induction l generalizing gone run with
  | nil => exact h
  | cons x rest ih =>
    have hstep := h.toWalked.task hc ha hv x fun j hx => hd j (hx ▸ List.mem_cons_self)
    have hrest := ih ⟨hstep.walked, fun hs => (h.befallen hs).then (hstep.befalls hs)⟩
      (fun j => List.count_le_count_cons.trans (hn j)) fun j hj ha => by
        refine dueKept_task (hd j (List.mem_cons_of_mem _ hj) ha) ha ?_
        rintro rfl
        have h1 := hn j
        have h2 := List.count_pos_iff.2 hj
        rw [List.count_cons_self] at h1
        omega
    have hlist : (plannedEvictions s plan rest).reverse ++ ((plannedEviction s plan x).toList ++ gone) =
        (plannedEvictions s plan (x :: rest)).reverse ++ gone := by
      unfold plannedEvictions
      cases hx : plannedEviction s plan x <;> simp [hx]
    rw [hlist] at hrest
    exact hrest

end

section
variable {s : State} (order : BoundaryOrder) (hc : CommitInv s)

/-- Where no eviction has been and no unit met, each entry is as it was. -/
theorem entryNow_start {e : CommitEntry} (he : e ∈ s.commitQueue) (h : CommitInv s) :
    entryNow s [] ((units s).map unitSlots) e = some e :=
  entryNow_waiting (List.mem_flatten.2 ⟨_, (mem_walkUnits h).2 ⟨e, he, rfl⟩, (mem_unitAt h he).2 (.inl rfl)⟩) fun ⟨_, _, _, hm⟩ => nomatch hm

include hc

theorem heldBack_start : HeldBack s (boundaryStart s) [] ⟨boundaryStart s, (units s).map unitSlots⟩ where
  queue := by
    have hsame : queueNow s [] ((units s).map unitSlots) = s.commitQueue :=
      (List.filterMap_congr fun e he => entryNow_start he hc).trans List.filterMap_some
    show (boundaryStart s).commitQueue = _
    rw [hsame, boundaryStart, removeRetiring_frame]
  rest := List.suffix_refl _
  holder e he := congrArg Window.holder (boundaryStart_win_live (hc.2.1 e he).2.1)
  counter := by
    show low16 (boundaryStart s).timing.frameCounter = _
    rw [boundaryStart_timing]
    rfl
  befallen hs := .nothing (by rw [entryNow_start hs.mem hc]; rfl) (unheard_of_notices rfl)

/-- The boundary's whole work: the walk meets every unit. -/
theorem heldBack_end : HeldBack s (boundaryStart s) (evictedSlots order s).reverse ⟨boundaryEnd order s, []⟩ := by
  have hperm : (boundaryTasks order s).Perm (allTasks ((units s).map unitSlots).length) := arrange_perm ..
  have hend := HeldBack.tasks (plan := boundaryPlan order s) hc (fun j => mem_applied hc)
    (fun j hj => mem_visited.2 (leaseVisited_iff.2 ⟨.inr hj.1, hj.2.1⟩)) (boundaryTasks order s) (heldBack_start hc)
    (fun j => (hperm.count_eq _).trans (count_allTasks _ j).1 |>.le) fun j _ _ => dueKept_start s j
  have hdone := toWalk_of_tasks (boundaryPlan order s) (boundaryTasks order s) ⟨boundaryStart s, (units s).map unitSlots⟩
  rw [hperm.count_eq, count_walkUnit_allTasks, List.drop_length] at hdone
  rw [List.append_nil] at hend
  have hrun : (boundaryTasks order s).foldl (boundaryTask (boundaryPlan order s)) ⟨boundaryStart s, (units s).map unitSlots⟩ =
      ⟨boundaryEnd order s, []⟩ := by
    rw [← hdone]
    rfl
  rwa [hrun] at hend

end

/-! ## The boundary's outcome (O45) -/

section
variable {s : State} {order : BoundaryOrder} {e : CommitEntry}

/-- An eviction hits a unit that is not ready where one of its members is due for it (R104). -/
theorem unitHit_evictedSlots (hc : CommitInv s) (hr : ¬ readyUnit s e) :
    unitHit s (evictedSlots order s).reverse e ↔ ∃ x ∈ s.commitQueue, sameGroup e x ∧ evictionDue (s.win x.ref.slot) := by
  refine exists_congr fun x => and_congr_right fun hx => and_congr_right fun hg => ?_
  rw [List.mem_reverse, mem_evictedSlots_iff_evicted hc]
  refine and_iff_left ?_
  rw [commitDue_slot_iff hc hx, readyUnit_congr hg]
  exact hr

/-- A member of a ready unit is not evicted (R104). -/
theorem not_unitHit_of_ready (hc : CommitInv s) (hr : readyUnit s e) : ¬ unitHit s (evictedSlots order s).reverse e := by
  rintro ⟨x, hx, hg, hm⟩
  rw [List.mem_reverse, mem_evictedSlots_iff_evicted hc] at hm
  exact hm.2 ((commitDue_slot_iff hc hx).2 ((readyUnit_congr hg).2 hr))

/-- What a boundary makes of an entry. -/
theorem entryNow_end (hc : CommitInv s) :
    entryNow s (evictedSlots order s).reverse [] e = if ¬ readyUnit s e ∧ e.deferral < 15 ∧
        ∀ x ∈ s.commitQueue, sameGroup e x → ¬ evictionDue (s.win x.ref.slot) then
      some { e with deferral := e.deferral + 1 } else none := by
  unfold entryNow heldBack
  by_cases hr : readyUnit s e
  · rw [if_neg (not_unitHit_of_ready hc hr), List.flatten_nil, if_neg List.not_mem_nil, if_pos hr, if_neg fun h => h.1 hr]
  · rw [List.flatten_nil, if_neg List.not_mem_nil]
    simp only [unitHit_evictedSlots hc hr, hr]
    split
    · next hh =>
      obtain ⟨x, hx, hg, hm⟩ := hh
      exact (if_neg fun hall => hall.2.2 x hx hg hm).symm
    · next hh =>
      push Not at hh
      simp only [not_false_eq_true, true_and, if_false]
      exact if_congr (iff_self_and.2 fun _ => hh) rfl rfl

theorem frameBoundary_commitQueue : (frameBoundary order s).commitQueue = (boundaryEnd order s).commitQueue := by
  rw [frameBoundary_eq, settleEngine_frame]
  rfl

theorem frameBoundary_deferredQueue (hc : CommitInv s) : (frameBoundary order s).commitQueue = deferredQueue s := by
  rw [frameBoundary_commitQueue]
  refine (heldBack_end order hc).queue.trans ?_
  rw [deferredQueue, ← List.filterMap_eq_map, List.filterMap_filter]
  refine List.filterMap_congr fun e _ => ?_
  rw [entryNow_end hc]
  simp only [Function.comp_apply, decide_eq_true_eq]

theorem countedWindow_keeps {grace : Nat} {w : Window} (hl : live w) (h : ¬ evictionDue w) :
    (countedWindow grace w).staging = w.staging ∧ (countedWindow grace w).active = w.active ∧ (countedWindow grace w).front = w.front := by
  rw [countedWindow_eq hl]
  split
  · next ho => exact absurd (leaseOutcome_evicted ho) h
  · unfold visitedWindow
    split
    case h_5 ho => exact absurd (leaseOutcome_evicted ho) h
    all_goals exact ⟨rfl, rfl, rfl⟩

/-- A window that is held back and not evicted keeps what is staged and what is shown of it (R99, R104). -/
theorem frameBoundary_keeps (hc : CommitInv s) (he : e ∈ s.commitQueue) (hr : ¬ readyUnit s e) (hn : ¬ evictionDue (s.win e.ref.slot)) :
    ((frameBoundary order s).win e.ref.slot).staging = (s.win e.ref.slot).staging ∧
    ((frameBoundary order s).win e.ref.slot).active = (s.win e.ref.slot).active ∧
    ((frameBoundary order s).win e.ref.slot).front = (s.win e.ref.slot).front := by
  have hl : live (s.win e.ref.slot) := (hc.2.1 e he).2.1
  obtain ⟨t, u, h⟩ := boundary_counts (order := order) hc hl (mt (commitDue_slot_iff hc he).1 hr)
  have hwin : (frameBoundary order s).win e.ref.slot = countedWindow s.grace (s.win e.ref.slot) := by
    refine Eq.trans (State.win_congr ?_ _) h.record
    rw [frameBoundary_eq, settleEngine_frame]
    rfl
  rw [hwin]
  exact countedWindow_keeps hl hn

/-- What the owner of a window that the boundary holds back without a deferral is told (R99, R101). -/
theorem frameBoundary_tells (hc : CommitInv s) (hgone : entryNow s (evictedSlots order s).reverse [] e = none) {o : Port} (hs : Spared s o e) :
    (∃ x ∈ s.commitQueue, sameGroup e x ∧ evictionDue (s.win x.ref.slot) ∧
      tells s (frameBoundary order s) o .commitAbandoned e.ref (BitVec.ofNat 16 (x.ref.slot.val + 1))) ∨
    (e.deferral = 15 ∧ tells s (frameBoundary order s) o .commitExpired e.ref ((s.timing.frameCounter + 1).setWidth 16)) := by
  cases (heldBack_end order hc).befallen hs with
  | nothing hsome =>
    rw [hgone] at hsome
    cases hsome
  | expiry _ hd hh => exact .inr ⟨hd, (Heard.boundary hh).tells⟩
  | abandonment _ x hx hg hm hh => exact .inl ⟨x, hx, hg, hm, (Heard.boundary hh).tells⟩

end

/-- Settles O45: through the boundary's work in any order the queue is what the walk and the evictions so far have left of each entry, and what is
heard of an entry that is gone was heard when it went. -/
theorem boundaryDefersOrExpires : Obligations.BoundaryDefersOrExpires := by
  intro order s hc
  have hqueue := frameBoundary_deferredQueue (order := order) hc
  refine ⟨frameBoundary order s, rfl, hqueue, fun e he hr hsafe => ?_, fun e he hr hn ⟨x, hx, hg, hm⟩ => ?_⟩
  · have hn := hsafe e he (.inl rfl)
    refine ⟨fun hlt => ?_, fun h15 => ?_, frameBoundary_keeps hc he hr hn⟩
    · rw [hqueue]
      exact List.mem_map_of_mem (List.mem_filter.2 ⟨he, decide_eq_true ⟨hr, hlt, hsafe⟩⟩)
    · have hgone : entryNow s (evictedSlots order s).reverse [] e = none := by
        rw [entryNow_end hc, if_neg fun h => by omega]
      refine ⟨fun x hx hs => ?_, fun o ho => ?_⟩
      · rw [frameBoundary_commitQueue, (heldBack_end order hc).queue] at hx
        rw [entryNow_of_slot hc he hx hs] at hgone
        cases hgone
      · obtain ⟨x, hx, hg, hm, -⟩ | ⟨-, htells⟩ := frameBoundary_tells hc hgone ⟨he, hr, hn, ho⟩
        · exact absurd hm (hsafe x hx hg)
        · exact htells
  · have hgone : entryNow s (evictedSlots order s).reverse [] e = none := by
      rw [entryNow_end hc, if_neg fun h => h.2.2 x hx hg hm]
    obtain ⟨hstaging, hactive, hfront⟩ := frameBoundary_keeps (order := order) hc he hr hn
    exact ⟨hstaging, hactive, hfront, fun o ho => frameBoundary_tells hc hgone ⟨he, hr, hn, ho⟩⟩

end Sys2Proof.Machine
end

