-- ==== Sys2Proof/Proofs/BoundaryDeviceNotices.lean ====
section
/-! The device-wide notices of a boundary, FRAME_BOUNDARY and PROFILE_SWITCHED: each has one piece of work that raises it, and no other work
touches the notices of its kind (R115, R159, R161, R167). -/

namespace Sys2Proof.Machine

open Sys2Proof.Safety

/-! ## Work that raises no notice of a kind -/

/-- The notices of a kind in a port's list, oldest first. -/
def noticesOfKind (s : State) (q : Port) (k : NoticeKind) : List Notice := (s.notices.get q).list.filter (fun n => n.kind = k)

theorem mem_noticesOfKind {s : State} {q : Port} {k : NoticeKind} {n : Notice} :
    n ∈ noticesOfKind s q k ↔ n ∈ (s.notices.get q).list ∧ n.kind = k := by
  rw [noticesOfKind, List.mem_filter, decide_eq_true_iff]

/-- A raising of another kind leaves the notices of a kind as they are (R161). -/
theorem filter_take_of_ne {k k' : NoticeKind} (hne : k' ≠ k) (b : NoticeBox) (h : Nat) (g : Gen) (d : BitVec 16) :
    (b.take k' h g d).list.filter (fun n => n.kind = k) = b.list.filter (fun n => n.kind = k) := by
  obtain ⟨-, e⟩ | ⟨-, -, e⟩ | ⟨-, -, e⟩ := b.take_cases k' h g d <;> rw [e]
  · have hkind : (fun n : Notice => decide (n.kind = k)) ∘ (fun n : Notice => if n.hasKey k' h then n.gather g d else n) =
        fun n : Notice => decide (n.kind = k) := by
      funext n
      simp only [Function.comp_apply]
      split <;> rfl
    rw [List.filter_map, hkind]
    refine (List.map_congr_left fun n hn => if_neg fun hkey => hne ?_).trans (List.map_id' _)
    exact (Notice.hasKey_iff.1 hkey).1.symm.trans (of_decide_eq_true (List.mem_filter.1 hn).2)
  · rw [List.filter_append, List.filter_cons_of_neg (by simpa using hne), List.filter_nil, List.append_nil]

/-- Between two states no notice of a kind has been raised to a port, under any handle. -/
structure Unraised (q : Port) (k : NoticeKind) (s t : State) : Prop where
  heard : ∀ h, Heard q k h s t []
  ofKind : noticesOfKind t q k = noticesOfKind s q k

section
variable {q : Port} {k : NoticeKind} {s t u : State}

theorem unraised_of_notices (h : t.notices = s.notices) : Unraised q k s t where
  heard _ := heard_of_notices (congrArg (PerPort.get · q) h)
  ofKind := by rw [noticesOfKind, noticesOfKind, h]

theorem Unraised.refl (q : Port) (k : NoticeKind) (s : State) : Unraised q k s s := unraised_of_notices rfl

theorem Unraised.trans (h : Unraised q k s t) (h' : Unraised q k t u) : Unraised q k s u where
  heard n := (h.heard n).append (h'.heard n)
  ofKind := h'.ofKind.trans h.ofKind

theorem unraised_raiseKey {p : Port} {k' : NoticeKind} (hne : ¬ (p = q ∧ k' = k)) (s : State) (h : Nat) (g : Gen) (d : BitVec 16) :
    Unraised q k s (raiseKey s p k' h g d) where
  heard _ := heard_raiseKey_other (fun e => hne ⟨e.1, e.2.1⟩) s g d
  ofKind := by
    unfold noticesOfKind
    by_cases hp : p = q
    · subst hp
      have hb : (raiseKey s p k' h g d).notices.get p = (s.notices.get p).take k' h g d := PerPort.get_set_same ..
      rw [hb]
      exact filter_take_of_ne (fun e => hne ⟨rfl, e⟩) ..
    · have hb : (raiseKey s p k' h g d).notices.get q = s.notices.get q := PerPort.get_set_of_ne _ _ (Ne.symm hp)
      rw [hb]

theorem unraised_raised {l : List Raising} (hl : ∀ x ∈ l, x.kind ≠ k) (s : State) : Unraised q k s (raised s l) := by
  induction l generalizing s with
  | nil => exact .refl q k s
  | cons x rest ih =>
    have hfirst : Unraised q k s (raise s x.port x.kind x.ref x.detail) :=
      unraised_raiseKey (fun e => hl x List.mem_cons_self e.2) ..
    have hrest := ih (fun y hy => hl y (List.mem_cons_of_mem _ hy)) (raise s x.port x.kind x.ref x.detail)
    rw [raise_eq_raised, raised_raised, List.singleton_append, ← raise_eq_raised] at hrest
    exact hfirst.trans hrest

/-- Work that raises a sequence without the kind. -/
theorem unraised_of_raiseAll {l : List Raising} (ht : t.notices = raiseAll s.notices l) (hl : ∀ x ∈ l, x.kind ≠ k) : Unraised q k s t :=
  (unraised_raised hl s).trans (unraised_of_notices ht)

end

/-! ## The device-wide kinds of a boundary -/

/-- The kinds of notice that a boundary raises of no window (R115, R167). -/
def deviceKinds : List NoticeKind := [.profileSwitched, .frameBoundary]

theorem not_deviceKind_of_mem_visitRaisings {s : State} {i : Slot} {x : Raising} (h : x ∈ visitRaisings s i) : x.kind ∉ deviceKinds := by
  unfold visitRaisings at h
  split at h
  · split at h
    · rw [(kind_of_mem_ownerRaising h).1]
      decide
    · cases h
  · rw [(slot_of_mem_ownerAndARaisings h).1]
    decide
  · simp only [retireRaisings, List.mem_append] at h
    obtain (((h | h) | h) | h) | h := h
    · rw [kind_of_mem_own s i h]
      decide
    · rw [kind_of_mem_abandon s i h]
      decide
    · rw [kind_of_mem_cancel h]
      decide
    · rw [kind_of_mem_stream s i h]
      decide
    · rw [kind_of_mem_offer s i h]
      decide
  · cases h

section
variable {q : Port} {k : NoticeKind} (hk : k ∈ deviceKinds)
include hk

theorem unraised_walkUnit (plan : BoundaryPlan) (s : State) (l : List Slot) : Unraised q k s (walkUnit plan s l) := by
  obtain ⟨m, hm, hkinds⟩ := walkRaises_walkUnit plan s l
  have hwalk : k ∉ walkKinds := by
    revert k
    decide
  exact unraised_of_raiseAll hm fun x hx e => hwalk (e ▸ hkinds x hx)

theorem unraised_leaseVisit (plan : BoundaryPlan) (s : State) (i : Slot) : Unraised q k s (leaseVisit plan s i) := by
  unfold leaseVisit
  split
  · exact .refl q k s
  · split
    · split
      · rw [raiseOwner_eq_raised]
        refine unraised_raised (fun x hx e => ?_) s
        rw [← e, (kind_of_mem_ownerRaising hx).1] at hk
        exact absurd hk (by decide)
      · exact .refl q k s
    · exact unraised_of_raiseAll (visitWindow_notices s i) fun x hx e => not_deviceKind_of_mem_visitRaisings hx (e ▸ hk)

theorem unraised_countOffer (s : State) (i : Slot) : Unraised q k s (countOffer s i) := by
  refine unraised_of_raiseAll (countOffer_notices s i) fun x hx e => ?_
  rw [← e, (mem_offerRaisings hx).1] at hk
  exact absurd hk (by decide)

/-- A device-wide kind is raised to a port by its own piece of work alone: PROFILE_SWITCHED by the Timing Generator's notice, FRAME_BOUNDARY by
the port's, where it is subscribed. -/
theorem unraised_task (plan : BoundaryPlan) (run : BoundaryRun) {x : BoundaryTask} (hp : k = .profileSwitched → x ≠ .profileNotice)
    (hf : k = .frameBoundary → x = .frameNotice q → run.state.subscribed.get q = false) :
    Unraised q k run.state (boundaryTask plan run x).state := by
  cases x with
  | profileNotice =>
    have hne (p : Port) : ¬ (p = q ∧ NoticeKind.profileSwitched = k) := fun e => hp e.2.symm rfl
    show Unraised q k run.state (profileNotice plan run.state)
    unfold profileNotice
    split
    · exact (unraised_raiseKey (hne .A) ..).trans (unraised_raiseKey (hne .B) ..)
    · exact .refl q k _
  | walkUnit =>
    simp only [boundaryTask]
    split
    · exact .refl q k _
    · exact unraised_walkUnit hk ..
  | leaseVisit n =>
    simp only [boundaryTask]
    split
    · exact unraised_leaseVisit hk ..
    · exact .refl q k _
  | offerCount n =>
    simp only [boundaryTask]
    split
    · exact unraised_countOffer hk ..
    · exact .refl q k _
  | frameNotice p =>
    show Unraised q k run.state (frameNotice run.state p)
    unfold frameNotice
    split
    · next hsub =>
      refine unraised_raiseKey ?_ ..
      rintro ⟨rfl, rfl⟩
      rw [hf rfl rfl] at hsub
      cases hsub
    · exact .refl q k _

theorem unraised_tasks (plan : BoundaryPlan) {l : List BoundaryTask} (run : BoundaryRun) (hp : k = .profileSwitched → .profileNotice ∉ l)
    (hf : k = .frameBoundary → .frameNotice q ∈ l → run.state.subscribed.get q = false) :
    Unraised q k run.state (l.foldl (boundaryTask plan) run).state := by
  induction l generalizing run with
  | nil => exact .refl q k _
  | cons x rest ih =>
    have hsub : (boundaryTask plan run x).state.subscribed = run.state.subscribed :=
      congrArg Steady.subscribed (boundaryTask_steady plan run x)
    have hfirst := unraised_task (q := q) hk plan run (x := x) (fun e hx => hp e (hx ▸ List.mem_cons_self))
      fun e hx => hf e (hx ▸ List.mem_cons_self)
    exact hfirst.trans (ih _ (fun e hm => hp e (List.mem_cons_of_mem _ hm)) fun e hm => hsub ▸ hf e (List.mem_cons_of_mem _ hm))

end

/-! ## The whole boundary (O42) -/

theorem boundaryStart_subscribed (s : State) : (boundaryStart s).subscribed = s.subscribed := by rw [boundaryStart, removeRetiring_frame]

/-- A boundary raises PROFILE_SWITCHED once, and FRAME_BOUNDARY once for each port (R69). -/
theorem count_deviceTasks (order : BoundaryOrder) (s : State) (q : Port) :
    (boundaryTasks order s).count .profileNotice = 1 ∧ (boundaryTasks order s).count (.frameNotice q) = 1 := by
  have hperm : (boundaryTasks order s).Perm (allTasks ((units s).map unitSlots).length) := arrange_perm ..
  have hwindows (x : BoundaryTask) (hl : ∀ n, x ≠ .leaseVisit n) (ho : ∀ n, x ≠ .offerCount n) :
      (allSlots.map (fun i => BoundaryTask.leaseVisit i.handle)).count x = 0 ∧
        (allSlots.map (fun i => BoundaryTask.offerCount i.handle)).count x = 0 :=
    ⟨List.count_eq_zero.2 fun hm => by
        obtain ⟨i, -, rfl⟩ := List.mem_map.1 hm
        exact hl _ rfl,
      List.count_eq_zero.2 fun hm => by
        obtain ⟨i, -, rfl⟩ := List.mem_map.1 hm
        exact ho _ rfl⟩
  obtain ⟨hpl, hpo⟩ := hwindows .profileNotice nofun nofun
  obtain ⟨hfl, hfo⟩ := hwindows (.frameNotice q) nofun nofun
  rw [hperm.count_eq, hperm.count_eq, allTasks]
  simp only [List.count_append, List.count_cons, List.count_replicate, hpl, hpo, hfl, hfo]
  cases q <;> exact ⟨rfl, rfl⟩

/-- What the one piece of work that raises a kind to a port is heard to say is what is heard of the boundary. -/
theorem heard_boundary_of_task {order : BoundaryOrder} {s : State} {q : Port} {k : NoticeKind} {x : BoundaryTask}
    {m : List (Gen × BitVec 16)} (hk : k ∈ deviceKinds) (hone : (boundaryTasks order s).count x = 1)
    (hp : k = .profileSwitched → x = .profileNotice) (hf : k = .frameBoundary → x = .frameNotice q)
    (hx : ∀ run : BoundaryRun, run.state.steady = (boundaryStart s).steady →
      Heard q k 0 run.state (boundaryTask (boundaryPlan order s) run x).state m) : Heard q k 0 s (frameBoundary order s) m := by
  obtain ⟨before, after, hsplit, hbefore, hafter⟩ := place_of_count_one hone
  have hsilent {l : List BoundaryTask} (hl : x ∉ l) (run : BoundaryRun) :
      Heard q k 0 run.state (l.foldl (boundaryTask (boundaryPlan order s)) run).state [] :=
    (unraised_tasks hk _ run (fun e => hp e ▸ hl) fun e hm => absurd (hf e ▸ hm) hl).heard 0
  refine Heard.boundary ?_
  rw [boundaryEnd, hsplit, List.foldl_append, List.foldl_cons]
  exact ((hsilent hbefore ⟨boundaryStart s, _⟩).append (hx _ (foldl_boundaryTask_steady ..))).silent (hsilent hafter _)

/-- A subscribed port hears FRAME_BOUNDARY once, with the new count (R167). -/
theorem heard_frameBoundary {order : BoundaryOrder} {s : State} {q : Port} (hs : s.subscribed.get q = true) :
    Heard q .frameBoundary 0 s (frameBoundary order s) [(0, (s.timing.frameCounter + 1).setWidth 16)] := by
  refine heard_boundary_of_task (by decide) (count_deviceTasks order s q).2 nofun (fun _ => rfl) fun run hrun => ?_
  have hsub : run.state.subscribed.get q = true := by
    rw [show run.state.subscribed = _ from congrArg Steady.subscribed hrun]
    exact (congrArg (PerPort.get · q) (boundaryStart_subscribed s)).trans hs
  have htiming : run.state.timing = timingBoundary s.timing := (congrArg Steady.timing hrun).trans (boundaryStart_timing s)
  have htask : frameNotice run.state q = raiseDevice run.state q .frameBoundary (low16 run.state.timing.frameCounter) := if_pos hsub
  show Heard q .frameBoundary 0 run.state (frameNotice run.state q) _
  rw [htask, htiming]
  exact heard_raiseKey_same ..

/-- Where a switch is applied each port hears PROFILE_SWITCHED once, with the slot (R115). -/
theorem heard_profileSwitched {order : BoundaryOrder} {s : State} {slot : ProfileSlot} (h : s.timing.pendingSwitch = some slot) (q : Port) :
    Heard q .profileSwitched 0 s (frameBoundary order s) [(0, detail slot.code.toNat)] := by
  refine heard_boundary_of_task (by decide) (count_deviceTasks order s q).1 (fun _ => rfl) nofun fun run _ => ?_
  have htask : profileNotice (boundaryPlan order s) run.state =
      raiseDevice (raiseDevice run.state .A .profileSwitched (detail slot.code.toNat)) .B .profileSwitched (detail slot.code.toNat) := by
    rw [profileNotice, show (boundaryPlan order s).switched = some slot from h]
  show Heard q .profileSwitched 0 run.state (profileNotice (boundaryPlan order s) run.state) _
  rw [htask]
  cases q with
  | A => exact (heard_raiseKey_same ..).silent (heard_raiseKey_other (by decide) ..)
  | B => exact (heard_raiseKey_other (by decide) ..).append (heard_raiseKey_same ..)

/-- A port that is not subscribed has the FRAME_BOUNDARY notices that it had (R167). -/
theorem noticesOfKind_frameBoundary {order : BoundaryOrder} {s : State} {q : Port} (hs : s.subscribed.get q = false) :
    noticesOfKind (frameBoundary order s) q .frameBoundary = noticesOfKind s q .frameBoundary := by
  have hwork : Unraised q .frameBoundary (boundaryStart s) (boundaryEnd order s) :=
    unraised_tasks (by decide) _ ⟨boundaryStart s, _⟩ (fun e => nomatch e) fun _ _ =>
      (congrArg (PerPort.get · q) (boundaryStart_subscribed s)).trans hs
  exact ((unraised_of_notices (boundaryStart_notices s)).trans
    (hwork.trans (unraised_of_notices (frameBoundary_notices order s)))).ofKind

/-- Settles O42: each device-wide notice has one piece of work that raises it, and no other work raises its kind. -/
theorem boundaryRaisesDeviceNotices : Obligations.BoundaryRaisesDeviceNotices := by
  rintro order s _ q ⟨⟩
  refine ⟨fun hs => (heard_frameBoundary hs).told _ _ rfl, fun slot hslot => ?_, fun hs n hn => ?_⟩
  · have hdetail : detail slot.code.toNat = if slot = .P0 then 0 else 1 := by cases slot <;> rfl
    exact hdetail ▸ (heard_profileSwitched hslot q).told _ _ rfl
  · have hmem (t : State) : n ∈ (t.notices.get q).list ↔ n ∈ noticesOfKind t q .frameBoundary := by
      rw [mem_noticesOfKind, and_iff_left hn]
    rw [hmem, hmem, noticesOfKind_frameBoundary hs]

end Sys2Proof.Machine
end

