-- ==== Sys2Proof/Proofs/DeviceRequests.lean ====
section
/-! The device requests of Port A that set a value: what each reads of its parameters, and its checks in their order (R113, R114, R116, R118,
R136, R191). -/

namespace Sys2Proof.Machine

open Sys2Proof.Safety

/-! ## One byte -/

theorem byte_eq_of_le_one {v : Byte} (h : v.toNat ≤ 1) : v = 0x00 ∨ v = 0x01 := by
  have hv : v.toNat = 0 ∨ v.toNat = 1 := by omega
  exact hv.imp BitVec.eq_of_toNat_eq BitVec.eq_of_toNat_eq

theorem profileSlotOf_code (slot : ProfileSlot) : profileSlotOf slot.code = some slot := by cases slot <;> rfl

theorem profileSlotOf_eq_none {v : Byte} (h : 1 < v.toNat) : profileSlotOf v = none := by
  rw [profileSlotOf, if_neg (by rintro rfl; cases h), if_neg (by rintro rfl; exact absurd h (by decide))]

theorem exists_slot_of_le_one {v : Byte} (h : v.toNat ≤ 1) : ∃ slot : ProfileSlot, slot.code = v := by
  obtain rfl | rfl := byte_eq_of_le_one h
  · exact ⟨.P0, rfl⟩
  · exact ⟨.P1, rfl⟩

theorem onOffOf_eq_none {v : Byte} (h : 1 < v.toNat) : onOffOf v = none := by
  rw [onOffOf, if_neg (by rintro rfl; cases h), if_neg (by rintro rfl; exact absurd h (by decide))]

theorem onOffOf_of_le_one {v : Byte} (h : v.toNat ≤ 1) : onOffOf v = some (decide (v = 0x01)) := by
  obtain rfl | rfl := byte_eq_of_le_one h <;> rfl

/-! ## The profile of a SET_PROFILE (R108, R191) -/

/-- The byte that carries a profile's polarities (R191). -/
def polarityByte (hsync vsync de : Polarity) : Byte :=
  byteOf ((if hsync = .activeHigh then 1 else 0) + (if vsync = .activeHigh then 2 else 0) + (if de = .activeHigh then 4 else 0))

theorem byteAt_profileParams_polarity (slot : ProfileSlot) (f : Profile) :
    byteAt (profileParams slot f) 12 = polarityByte f.hsync f.vsync f.de := rfl

/-- A polarity byte has no bit above 2, and each of its bits names its polarity (R191). -/
theorem polarityByte_reads (hsync vsync de : Polarity) :
    (polarityByte hsync vsync de).toNat < 8 ∧ polarityOf ((polarityByte hsync vsync de).getLsbD 0) = hsync ∧
      polarityOf ((polarityByte hsync vsync de).getLsbD 1) = vsync ∧ polarityOf ((polarityByte hsync vsync de).getLsbD 2) = de := by
  cases hsync <;> cases vsync <;> cases de <;> decide

/-- The values of a profile's fields fit the bytes that carry them (R191). -/
abbrev profileFits (f : Profile) : Prop :=
  f.activeWidth < 65536 ∧ f.activeHeight < 65536 ∧ f.hFront < 256 ∧ f.hSync < 256 ∧ f.hBack < 256 ∧ f.vFront < 256 ∧ f.vSync < 256 ∧
    f.vBack < 256 ∧ f.divisor < 256

theorem profileFits_of_profileOk {f : Profile} (h : profileOk f) : profileFits f := by omega

/-- A profile written to the parameters is read back, where every field is in its range (R113). -/
theorem readProfile_params (slot : ProfileSlot) {f : Profile} (h : profileFits f) :
    readProfile (profileParams slot f) = if profileOk f then some f else none := by
  obtain ⟨hw, hh, hhf, hhs, hhb, hvf, hvs, hvb, hd⟩ := h
  obtain ⟨tail, htail⟩ : ∃ tail, profileParams slot f = slot.code :: (be16 f.activeWidth ++ (be16 f.activeHeight ++ tail)) := ⟨_, rfl⟩
  have width : be16At (profileParams slot f) 1 = f.activeWidth := htail ▸ be16At_be16 hw (be16 f.activeHeight ++ tail)
  have height : be16At (profileParams slot f) 3 = f.activeHeight := htail ▸ be16At_be16 hh tail
  have hFront : natAt (profileParams slot f) 5 = f.hFront := byteOf_toNat_of_lt hhf
  have hSync : natAt (profileParams slot f) 6 = f.hSync := byteOf_toNat_of_lt hhs
  have hBack : natAt (profileParams slot f) 7 = f.hBack := byteOf_toNat_of_lt hhb
  have vFront : natAt (profileParams slot f) 8 = f.vFront := byteOf_toNat_of_lt hvf
  have vSync : natAt (profileParams slot f) 9 = f.vSync := byteOf_toNat_of_lt hvs
  have vBack : natAt (profileParams slot f) 10 = f.vBack := byteOf_toNat_of_lt hvb
  have divisor : natAt (profileParams slot f) 11 = f.divisor := byteOf_toNat_of_lt hd
  obtain ⟨hlt, hsync, vsync, de⟩ := polarityByte_reads f.hsync f.vsync f.de
  unfold readProfile
  dsimp only
  rw [width, height, hFront, hSync, hBack, vFront, vSync, vBack, divisor, byteAt_profileParams_polarity, hsync, vsync, de]
  refine if_congr ?_ rfl rfl
  simp only [inRange, Bool.and_eq_true, decide_eq_true_eq, and_assoc, hlt, and_true]

/-- A polarity byte with a bit above 2 names no profile (R191). -/
theorem readProfile_eq_none_of_polarity {ps : List Byte} (h : 8 ≤ (byteAt ps 12).toNat) : readProfile ps = none :=
  if_neg fun hall => absurd (of_decide_eq_true (Bool.and_eq_true_iff.1 hall).2) (Nat.not_lt.2 h)

/-! ## SET_PROFILE (R113) -/

section
variable {s : State} {ps : List Byte} {slot : ProfileSlot}

theorem profileInUse_iff {t : Timing} : profileInUse t slot = true ↔ t.current = slot ∨ t.pendingSwitch = some slot := by
  rw [profileInUse, Bool.or_eq_true_iff, beq_iff_eq, beq_iff_eq]

theorem setProfile_eq (t : Timing) (slot : ProfileSlot) (f : Profile) :
    t.setProfile slot f = if slot = .P0 then { t with p0 := f } else { t with p1 := f } := by cases slot <;> rfl

/-! The checks in their order: the slot number, its use, the ranges. -/

theorem takeSetProfile_of_no_slot (h : profileSlotOf (byteAt ps 0) = none) : takeSetProfile s ps = .refuse .badParam := by
  rw [takeSetProfile, h]

theorem takeSetProfile_of_inUse (h : byteAt ps 0 = slot.code) (hin : s.timing.current = slot ∨ s.timing.pendingSwitch = some slot) :
    takeSetProfile s ps = .refuse .inUse := by
  rw [takeSetProfile, h, profileSlotOf_code]
  exact if_pos (profileInUse_iff.2 hin)

variable (h : byteAt ps 0 = slot.code) (hc : s.timing.current ≠ slot) (hp : s.timing.pendingSwitch ≠ some slot)
include h hc hp

theorem takeSetProfile_of_no_profile (hf : readProfile ps = none) : takeSetProfile s ps = .refuse .badParam := by
  rw [takeSetProfile, h, profileSlotOf_code, hf]
  exact if_neg (mt profileInUse_iff.1 (not_or.2 ⟨hc, hp⟩))

theorem takeSetProfile_of_profile {f : Profile} (hf : readProfile ps = some f) :
    takeSetProfile s ps =
      .answer { s with timing := if slot = .P0 then { s.timing with p0 := f } else { s.timing with p1 := f } } .done [] := by
  rw [takeSetProfile, h, profileSlotOf_code, hf, ← setProfile_eq]
  exact if_neg (mt profileInUse_iff.1 (not_or.2 ⟨hc, hp⟩))

end

/-! ## SWITCH_PROFILE (R114) -/

/-- The checks of a SWITCH_PROFILE behind the slot number, in their order (R114). -/
theorem takeSwitchProfile_code (s : State) (slot : ProfileSlot) :
    takeSwitchProfile s [slot.code] =
      if s.timing.pendingSwitch.isSome then .refuse .busy
      else if s.timing.current = slot then .answer s .done []
      else .answer { s with timing := { s.timing with pendingSwitch := some slot } } .done [] := by
  rw [takeSwitchProfile, byteAt_cons_zero, profileSlotOf_code]

/-! ## The requests, each with its refusals (O35) -/

section
variable {s : State} {tag : Byte}

theorem setProfile_sets {slot : ProfileSlot} {f : Profile} (h : Processing s .A ⟨0x50, tag, profileParams slot f⟩) :
    (s.timing.current = slot ∨ s.timing.pendingSwitch = some slot → exec (.setProfile .A) s = .next (s.hold .A ⟨.inUse, tag, []⟩)) ∧
    (s.timing.current ≠ slot → s.timing.pendingSwitch ≠ some slot → profileFits f →
      (profileOk f → exec (.setProfile .A) s = .next ({ s with timing :=
        (if slot = ProfileSlot.P0 then { s.timing with p0 := f } else { s.timing with p1 := f }) }.hold .A ⟨.done, tag, []⟩)) ∧
      (¬ profileOk f → exec (.setProfile .A) s = .next (s.hold .A ⟨.badParam, tag, []⟩))) := by
  have hslot : byteAt (profileParams slot f) 0 = slot.code := rfl
  have refused {st : Status} (ht : takeSetProfile s (profileParams slot f) = .refuse st) :
      exec (.setProfile .A) s = .next (s.hold .A ⟨st, tag, []⟩) :=
    congrArg Host.Outcome.next (complete_refuse h rfl (by decide) rfl (.inl rfl) ht)
  refine ⟨fun hin => refused (takeSetProfile_of_inUse hslot hin), fun hc hp hfits => ⟨fun hok => ?_, fun hbad => refused ?_⟩⟩
  · exact congrArg Host.Outcome.next (complete_answer h rfl (by decide) rfl (.inl rfl)
      (takeSetProfile_of_profile hslot hc hp ((readProfile_params slot hfits).trans (if_pos hok))))
  · exact takeSetProfile_of_no_profile hslot hc hp ((readProfile_params slot hfits).trans (if_neg hbad))

theorem setProfile_refuses_bytes {ps : List Byte} (h : Processing s .A ⟨0x50, tag, ps⟩) (hl : ps.length = 13) :
    (1 < (ps.getD 0 0).toNat → exec (.setProfile .A) s = .next (s.hold .A ⟨.badParam, tag, []⟩)) ∧
    (∀ slot : ProfileSlot, ps.getD 0 0 = slot.code → s.timing.current ≠ slot → s.timing.pendingSwitch ≠ some slot →
      8 ≤ (ps.getD 12 0).toNat → exec (.setProfile .A) s = .next (s.hold .A ⟨.badParam, tag, []⟩)) := by
  have hlen : lengthOk codeSetProfile ps = true := (beq_iff_eq.2 hl : (ps.length == 13) = true)
  have refused (ht : takeSetProfile s ps = .refuse .badParam) : exec (.setProfile .A) s = .next (s.hold .A ⟨.badParam, tag, []⟩) :=
    congrArg Host.Outcome.next (complete_refuse h rfl (by decide) hlen (.inl rfl) ht)
  exact ⟨fun hv => refused (takeSetProfile_of_no_slot (profileSlotOf_eq_none hv)),
    fun slot hslot hc hp h8 => refused (takeSetProfile_of_no_profile hslot hc hp (readProfile_eq_none_of_polarity h8))⟩

theorem switchProfile_sets {v : Byte} (h : Processing s .A ⟨0x51, tag, [v]⟩) :
    (1 < v.toNat → exec (.switchProfile .A) s = .next (s.hold .A ⟨.badParam, tag, []⟩)) ∧
    (v.toNat ≤ 1 → s.timing.pendingSwitch ≠ none → exec (.switchProfile .A) s = .next (s.hold .A ⟨.busy, tag, []⟩)) ∧
    (s.timing.pendingSwitch = none → s.timing.current.code = v → exec (.switchProfile .A) s = .next (s.hold .A ⟨.done, tag, []⟩)) ∧
    (∀ slot : ProfileSlot, s.timing.pendingSwitch = none → slot.code = v → s.timing.current ≠ slot →
      exec (.switchProfile .A) s = .next
        ({ s with timing := { s.timing with pendingSwitch := some slot } }.hold .A ⟨.done, tag, []⟩)) := by
  have refused {st : Status} (ht : takeSwitchProfile s [v] = .refuse st) : exec (.switchProfile .A) s = .next (s.hold .A ⟨st, tag, []⟩) :=
    congrArg Host.Outcome.next (complete_refuse h rfl (by decide) rfl (.inl rfl) ht)
  have answered {t : State} (ht : takeSwitchProfile s [v] = .answer t .done []) :
      exec (.switchProfile .A) s = .next (t.hold .A ⟨.done, tag, []⟩) :=
    congrArg Host.Outcome.next (complete_answer h rfl (by decide) rfl (.inl rfl) ht)
  refine ⟨fun hv => refused ?_, fun hv hpending => refused ?_, fun hnone hcur => answered ?_, fun slot hnone hslot hcur => answered ?_⟩
  · rw [takeSwitchProfile, byteAt_cons_zero, profileSlotOf_eq_none hv]
  · obtain ⟨slot, rfl⟩ := exists_slot_of_le_one hv
    rw [takeSwitchProfile_code, if_pos (Option.isSome_iff_ne_none.2 hpending)]
  · rw [← hcur, takeSwitchProfile_code, hnone, if_neg nofun, if_pos rfl]
  · rw [← hslot, takeSwitchProfile_code, hnone, if_neg nofun, if_neg hcur]

theorem display_sets {v : Byte} (h : Processing s .A ⟨0x52, tag, [v]⟩) :
    (1 < v.toNat → exec (.display .A) s = .next (s.hold .A ⟨.badParam, tag, []⟩)) ∧
    (v.toNat ≤ 1 → exec (.display .A) s = .next
      ({ s with timing := { s.timing with pendingDisplay := some (v = 0x01) } }.hold .A ⟨.done, tag, []⟩)) := by
  refine ⟨fun hv => congrArg Host.Outcome.next (complete_refuse h rfl (by decide) rfl (.inl rfl) ?_),
    fun hv => congrArg Host.Outcome.next (complete_answer h rfl (by decide) rfl (.inl rfl) ?_)⟩
  · rw [takeDisplay, byteAt_cons_zero, onOffOf_eq_none hv]
  · rw [takeDisplay, byteAt_cons_zero, onOffOf_of_le_one hv]

theorem setBackground_sets {r g b : Byte} (h : Processing s .A ⟨0x53, tag, [r, g, b]⟩) : exec (.setBackground .A) s = .next
    ({ s with timing := { s.timing with pendingBackground := some ⟨r, g, b⟩ } }.hold .A ⟨.done, tag, []⟩) :=
  congrArg Host.Outcome.next (complete_answer h rfl (by decide) rfl (.inl rfl) rfl)

theorem setGrace_sets {v : Byte} (h : Processing s .A ⟨0x55, tag, [v]⟩) :
    (250 < v.toNat → exec (.setGrace .A) s = .next (s.hold .A ⟨.badParam, tag, []⟩)) ∧
    (v.toNat ≤ 250 → exec (.setGrace .A) s = .next ({ s with grace := v.toNat }.hold .A ⟨.done, tag, []⟩)) := by
  have htaken : takeSetGrace s [v] = if 250 < v.toNat then .refuse .badParam else .answer { s with grace := v.toNat } .done [] := rfl
  exact ⟨fun hv => congrArg Host.Outcome.next (complete_refuse h rfl (by decide) rfl (.inl rfl) (htaken.trans (if_pos hv))),
    fun hv => congrArg Host.Outcome.next (complete_answer h rfl (by decide) rfl (.inl rfl) (htaken.trans (if_neg (Nat.not_lt.2 hv))))⟩

end

/-- Settles O35: the five requests, each by its checks in their order. -/
theorem deviceRequestsSetValues : Obligations.DeviceRequestsSetValues := by
  intro s tag
  refine ⟨fun slot f h => ?_, fun ps h hl => setProfile_refuses_bytes h hl, rfl, fun v h => switchProfile_sets h, fun v h => display_sets h,
    fun r g b h => setBackground_sets h, fun v h => setGrace_sets h⟩
  obtain ⟨hinUse, hfree⟩ := setProfile_sets h
  exact ⟨hinUse, fun hc hp hok => (hfree hc hp (profileFits_of_profileOk hok)).1 hok,
    fun hc hp hbad hw hh hhf hhs hhb hvf hvs hvb hd => (hfree hc hp ⟨hw, hh, hhf, hhs, hhb, hvf, hvs, hvb, hd⟩).2 hbad⟩

end Sys2Proof.Machine
end

