-- ==== Sys2Proof/Proofs/Leases.lean ====
section
/-! Every step keeps the lease and the offer of every window sound, record by record (R128, R129, R143, R145, R147); and RENEW (R131). -/

namespace Sys2Proof.Machine

open Sys2Proof.Safety

/-! ## Leases (R128) -/

/-- A HIDDEN or SHOWN window whose lease is new is sound: its counter is L, and no renewal and no grace stand (R128, R130). -/
theorem leaseOk_of_renewed {w : Window} (hs : w.state = .hidden ∨ w.state = .shown) (hL : w.active.leaseLength ≤ 250)
    (hc : w.leaseCounter = w.active.leaseLength) (hr : w.renewPending = false) (hg : w.graceCounter = 0)
    (hst : ∀ l ∈ w.staging.leaseLength, l ≤ 250) : leaseOk w := by
  have hn : w.state ≠ .lapsed := by rcases hs with hs | hs <;> rw [hs] <;> nofun
  exact ⟨hL, hg ▸ Nat.zero_le _, fun _ => ⟨hc.le, fun h0 => .inr (hc.symm.trans h0)⟩, fun hl => absurd hl hn, fun _ => hg,
    fun _ => hr, hst⟩

theorem leaseOk_free (g : Gen) : leaseOk (Window.free g) :=
  ⟨Nat.zero_le _, Nat.zero_le _, nofun, nofun, fun _ => rfl, fun _ => rfl, nofun⟩

theorem leaseOk_created (c : CreateParams) (p : Port) (g : Gen) (l : List Block) : leaseOk (createdWindow c p g l) :=
  leaseOk_of_renewed (.inl rfl) (Nat.zero_le _) rfl rfl rfl fun _ h => nomatch (h : none = some _)

/-- A renewal is asked for of a SHOWN or LAPSED window (R131). -/
theorem leaseOk_asked {w : Window} (h : leaseOk w) (hs : permitShown w.state = true) : leaseOk { w with renewPending := true } := by
  obtain ⟨hL, hg, hcounter, hlapsed, hgrace, -, hst⟩ := h
  refine ⟨hL, hg, hcounter, hlapsed, hgrace, fun hn => ?_, hst⟩
  rcases hn with hn | hn <;> rw [show w.state = _ from hn] at hs <;> cases hs

/-- A sound lease asks of the staging that its lease length be in range (R84), and no more. -/
theorem leaseOk_restaged {w : Window} {st : Staging} (h : leaseOk w) (hst : ∀ l ∈ st.leaseLength, l ≤ 250) :
    leaseOk { w with staging := st } := by
  obtain ⟨hL, hg, hcounter, hlapsed, hgrace, hrenew, -⟩ := h
  exact ⟨hL, hg, hcounter, hlapsed, hgrace, hrenew, hst⟩

/-- The length an application makes active was checked as it was staged, or was active before (R84, R95). -/
theorem applied_leaseLength_le {w : Window} (h : leaseOk w) : (appliedWindow w).active.leaseLength ≤ 250 := by
  obtain ⟨hL, -, -, -, -, -, hst⟩ := h
  show w.staging.leaseLength.getD w.active.leaseLength ≤ 250
  cases hl : w.staging.leaseLength with
  | none => exact hL
  | some l => exact hst l hl

theorem appliedState_hidden_or_shown (st : WinState) (pl : Option Placement) :
    appliedState st pl = .hidden ∨ appliedState st pl = .shown := by
  unfold appliedState
  split
  · exact .inl rfl
  · exact .inr rfl
  · split
    · exact .inl rfl
    · exact .inr rfl

theorem leaseOk_applied {w : Window} (h : leaseOk w) : leaseOk (appliedWindow w) :=
  leaseOk_of_renewed (appliedState_hidden_or_shown ..) (applied_leaseLength_le h) rfl rfl rfl nofun

/-- A counter that goes on counting was above 1 (R129). -/
theorem leaseOutcome_countDown {w : Window} (h : leaseOutcome w = .countDown) : w.state = .shown ∧ 2 ≤ w.leaseCounter := by
  revert h
  unfold leaseOutcome
  split
  · nofun
  · split
    · nofun
    · split
      · next hs =>
        split
        · nofun
        · split
          · nofun
          · exact fun _ => ⟨hs, by omega⟩
      · split
        · nofun
        · split <;> nofun

theorem leaseOk_retired {w : Window} (h : leaseOk w) : leaseOk (retiredWindow w) := by
  obtain ⟨hL, hg, -⟩ := h
  unfold retiredWindow
  split
  · exact leaseOk_free _
  · exact ⟨hL, hg, nofun, nofun, nofun, fun _ => rfl, nofun⟩

theorem ne_retiring_of_live {w : Window} (h : live w) : w.state ≠ .retiring := by
  intro hr
  rw [live, hr] at h
  cases h

/-- A lapse that is due is the window's visit (R129, R133). -/
theorem visitWindow_of_lapses {s : State} {i : Slot} (h : leaseOutcome (s.win i) = .lapses) : visitWindow s i = lapseWindow s i := by
  rw [visitWindow, h]

/-- An eviction that is due is the window's visit (R129, R137). -/
theorem visitWindow_of_evicted {s : State} {i : Slot} (h : leaseOutcome (s.win i) = .evicted) : visitWindow s i = evictWindow s i := by
  rw [visitWindow, h]

/-- Each outcome of a visit leaves a sound lease (R129): the counter goes down to 1 at the least, and to 0 by a lapse. -/
theorem leaseOk_visited {grace : Nat} {w : Window} (hg : grace ≤ 250) (h : leaseOk w) : leaseOk (visitedWindow grace w) := by
  obtain ⟨hL, hw, hcounter, hlapsed, hgrace, hrenew, hst⟩ := id h
  unfold visitedWindow
  split
  case h_1 => exact leaseOk_of_renewed (.inr rfl) hL rfl rfl rfl hst
  case h_2 ho =>
    obtain ⟨hs, hc⟩ := leaseOutcome_countDown ho
    refine ⟨hL, hw, fun hl => ⟨(Nat.sub_le ..).trans (hcounter hl).1, fun h0 => ?_⟩, fun hl => ?_, hgrace, hrenew, hst⟩
    · have h0 : w.leaseCounter - 1 = 0 := h0
      omega
    · exact absurd (hs.symm.trans hl) nofun
  case h_3 ho =>
    obtain ⟨-, hpos, -⟩ := leaseOutcome_lapses ho
    exact ⟨hL, hg, fun _ => ⟨Nat.zero_le _, fun _ => .inl rfl⟩, fun _ => ⟨rfl, hpos⟩, nofun, nofun, hst⟩
  case h_4 =>
    have hnone (hs : w.state = .hidden ∨ w.state = .shown) : w.graceCounter - 1 = 0 := by rw [hgrace hs]
    exact ⟨hL, (Nat.sub_le ..).trans hw, hcounter, hlapsed, hnone, hrenew, hst⟩
  case h_5 => exact leaseOk_retired ⟨hL, Nat.zero_le _, hcounter, hlapsed, fun _ => rfl, hrenew, hst⟩
  case h_6 => exact h

/-! ## Offers (R143, R145) -/

theorem offerOk_free (g : Gen) : offerOk (Window.free g) :=
  ⟨fun h => absurd rfl h, fun h => absurd rfl h, nofun⟩

/-- An offer that is taken away, or stays on a window as live as before, keeps a record's offer sound. -/
theorem offerOk_of_kept {w v : Window} (h : offerOk w) (hf : v.state ≠ .free → w.state ≠ .free) (ho : v.owner = w.owner)
    (ht : v.tier = w.tier) (hv : v.offer = none ∨ v.offer = w.offer ∧ (live w → live v)) : offerOk v := by
  obtain ⟨howner, hoverlay, hoffer⟩ := h
  refine ⟨fun hs => ho ▸ howner (hf hs), fun hs hvt => ?_, fun o hmem => ?_⟩
  · obtain ⟨ha, hnone⟩ := hoverlay (hf hs) (ht ▸ hvt)
    exact ⟨ho.trans ha, hv.elim id fun hv => hv.1.trans hnone⟩
  · rcases hv with hv | ⟨hv, hlive⟩
    · rw [hv] at hmem
      cases hmem
    · obtain ⟨hl, hother, hframes⟩ := hoffer o (hv ▸ hmem)
      exact ⟨hlive hl, ho.trans hother, hframes⟩

/-- A window that carries an offer is NORMAL (R143). -/
theorem offerOk_not_overlay {w : Window} (h : offerOk w) {o : Offer} (ho : w.offer = some o) : w.tier ≠ .overlay := by
  obtain ⟨-, hoverlay, hoffer⟩ := h
  intro ht
  obtain ⟨-, hnone⟩ := hoverlay (ne_free_of_live (hoffer o ho).1) ht
  rw [hnone] at ho
  cases ho

/-- A transfer takes the offer with it, and only a NORMAL window changes hands (R143, R149). -/
theorem offerOk_transferred {w : Window} (h : offerOk w) {o : Offer} (ho : w.offer = some o) (p : Port) (st : Staging) :
    offerOk { w with owner := some p, offer := none, staging := st } :=
  have hnormal := offerOk_not_overlay h ho
  ⟨fun _ => nofun, fun _ ht => absurd ht hnormal, nofun⟩

/-- An offer is to the port that does not own the window, for 120 frames (R145, R146). -/
theorem offerOk_offered {w : Window} {p : Port} (h : offerOk w) (ho : w.owner = some p) (hl : live w) (ht : w.tier ≠ .overlay) :
    offerOk { w with offer := some ⟨p.other, offerFrames⟩ } := by
  obtain ⟨howner, -⟩ := h
  refine ⟨howner, fun _ hov => absurd hov ht, fun o hmem => ?_⟩
  cases hmem
  exact ⟨hl, by rw [Port.other_other]; exact ho, (by decide : 1 ≤ offerFrames), (by decide : offerFrames ≤ 120)⟩

/-- The count of an offer goes down to 1 at the least, and then the offer is cleared (R147). -/
theorem offerOk_counted {w : Window} (h : offerOk w) : offerOk { w with offer := countedOffer w.offer } := by
  have hcleared : offerOk { w with offer := none } := offerOk_of_kept h id rfl rfl (.inl rfl)
  cases ho : w.offer with
  | none => exact hcleared
  | some v =>
    have hnormal := offerOk_not_overlay h ho
    unfold countedOffer
    dsimp only
    split
    · exact hcleared
    · next hframes =>
      obtain ⟨howner, -, hoffer⟩ := h
      refine ⟨howner, fun _ hov => absurd hov hnormal, fun o hmem => ?_⟩
      cases hmem
      obtain ⟨hl, hother, -, h120⟩ := hoffer v ho
      exact ⟨hl, hother, by dsimp only; omega, (Nat.sub_le ..).trans h120⟩

theorem offerOk_retired {w : Window} (h : offerOk w) (hf : w.state ≠ .free) : offerOk (retiredWindow w) := by
  unfold retiredWindow
  split
  · exact offerOk_free _
  · exact offerOk_of_kept h (fun _ => hf) rfl rfl (.inl rfl)

theorem offerOk_applied {w : Window} (h : offerOk w) (hf : w.state ≠ .free) : offerOk (appliedWindow w) :=
  offerOk_of_kept h (fun _ => hf) rfl rfl (.inr ⟨rfl, fun _ => appliedState_live ..⟩)

theorem offerOk_visited {grace : Nat} {w : Window} (h : offerOk w) : offerOk (visitedWindow grace w) := by
  have used (ho : leaseOutcome w ≠ .unchanged) : w.state ≠ .free := ne_free_of_live (live_of_visited (leaseOutcome_visited ho).1)
  unfold visitedWindow
  split
  case h_1 ho => exact offerOk_of_kept h (fun _ => used (by rw [ho]; nofun)) rfl rfl (.inr ⟨rfl, fun _ => rfl⟩)
  case h_2 => exact h
  case h_3 ho => exact offerOk_of_kept h (fun _ => used (by rw [ho]; nofun)) rfl rfl (.inr ⟨rfl, fun _ => rfl⟩)
  case h_4 => exact h
  case h_5 ho => exact offerOk_retired h (used (by rw [ho]; nofun))
  case h_6 => exact h

/-- A new window is Port A's where it is OVERLAY (R14, R142). -/
theorem offerOk_created {c : CreateParams} {p : Port} (g : Gen) (l : List Block) (ht : p = .B → c.tier = .normal) :
    offerOk (createdWindow c p g l) := by
  refine ⟨fun _ => nofun, fun _ (hov : c.tier = .overlay) => ⟨?_, rfl⟩, nofun⟩
  cases p with
  | A => rfl
  | B => cases (ht rfl).symm.trans hov

/-! ## Every record of a state -/

/-- The device grace and every record's lease and offer are sound. -/
structure LeasesSound (s : State) : Prop where
  grace : s.grace ≤ 250
  lease : ∀ i, leaseOk (s.win i)
  offer : ∀ i, offerOk (s.win i)

theorem leasesSound_iff {s : State} : LeasesSound s ↔ LeaseInv s ∧ OfferInv s :=
  ⟨fun h => ⟨⟨h.grace, fun i _ => h.lease i⟩, fun i _ => h.offer i⟩,
    fun ⟨⟨hg, hl⟩, ho⟩ => ⟨hg, fun i => hl i (mem_allSlots i), fun i => ho i (mem_allSlots i)⟩⟩

namespace LeasesSound

variable {s t : State}

theorem of_windows (h : LeasesSound s) (hg : t.grace = s.grace) (hw : t.windows = s.windows) : LeasesSound t :=
  ⟨hg ▸ h.grace, fun i => State.win_congr hw i ▸ h.lease i, fun i => State.win_congr hw i ▸ h.offer i⟩

theorem of_set (h : LeasesSound s) {i : Slot} {w : Window} (hg : t.grace = s.grace) (hw : t.windows = s.windows.set i w)
    (hl : leaseOk w) (ho : offerOk w) : LeasesSound t := by
  refine ⟨hg ▸ h.grace, fun j => ?_, fun j => ?_⟩ <;> rw [State.win_of_set hw] <;> split
  · exact hl
  · exact h.lease j
  · exact ho
  · exact h.offer j

theorem settle (h : LeasesSound s) : LeasesSound (settleEngine s) :=
  h.of_windows (by rw [settleEngine_frame]) (by rw [settleEngine_frame])

/-- An offer is taken away, and no more of the records is changed. -/
theorem clearOffer (h : LeasesSound s) {i : Slot} (hg : t.grace = s.grace)
    (hw : t.windows = s.windows.set i { s.win i with offer := none }) : LeasesSound t :=
  h.of_set hg hw (h.lease i) (offerOk_of_kept (h.offer i) id rfl rfl (.inl rfl))

theorem retire (h : LeasesSound s) {i : Slot} (hl : live (s.win i)) (c : RetireCause) : LeasesSound (retireWindow s i c) :=
  have ⟨_, _, _, _, hgrace, _⟩ := State.fields_of_steady (retireWindow_steady s i c)
  h.of_set hgrace (retireWindow_windows s i c) (leaseOk_retired (h.lease i)) (offerOk_retired (h.offer i) (ne_free_of_live hl))

/-! ## The frame boundary -/

theorem visit (h : LeasesSound s) (i : Slot) : LeasesSound (visitWindow s i) :=
  have ⟨_, _, _, _, hgrace, _⟩ := State.fields_of_steady (visitWindow_kept s i).1
  h.of_set hgrace (visitWindow_windows s i) (leaseOk_visited h.grace (h.lease i)) (offerOk_visited (h.offer i))

theorem leaseVisit (h : LeasesSound s) (plan : BoundaryPlan) (i : Slot) : LeasesSound (leaseVisit plan s i) := by
  unfold Machine.leaseVisit
  split
  · exact h
  · split
    · split
      · exact h.of_windows (by rw [raiseOwner_frame]) (by rw [raiseOwner_frame])
      · exact h
    · exact h.visit i

theorem countOffer (h : LeasesSound s) (i : Slot) : LeasesSound (countOffer s i) :=
  h.of_set (by rw [countOffer_frame]) (countOffer_windows s i) (h.lease i) (offerOk_counted (h.offer i))

theorem apply (h : LeasesSound s) {i : Slot} (hf : (s.win i).state ≠ .free) (fc : BitVec 16) (adj : List Nat) :
    LeasesSound (applyWindow fc adj s i) :=
  h.of_set (i := i) (by rw [applyWindow_frame]) (by rw [applyWindow_frame]) (leaseOk_applied (h.lease i)) (offerOk_applied (h.offer i) hf)

/-- The walk applies commits to windows that were live as the boundary occurred, and the boundary's work makes no record FREE (R94, R95). -/
theorem foldl_apply {b : State} (h : LeasesSound t) (hcleared : Cleared s b t) (fc : BitVec 16) (adj : List Nat) {l : List Slot}
    (hl : ∀ i ∈ l, live (s.win i)) : LeasesSound (l.foldl (applyWindow fc adj) t) := by
  induction l generalizing t with
  | nil => exact h
  | cons i rest ih =>
    have hi := hl i List.mem_cons_self
    have hused := hcleared.kept i (ne_retiring_of_live hi) (ne_free_of_live hi)
    exact ih (h.apply hused fc adj) (cleared_apply hcleared fc adj (ne_retiring_of_live hi)) fun j hj => hl j (List.mem_cons_of_mem _ hj)

theorem walk {b : State} {plan : BoundaryPlan} (h : LeasesSound t) (hcleared : Cleared s b t) (ha : ∀ i ∈ plan.applied, live (s.win i))
    (l : List Slot) : LeasesSound (walkUnit plan t l) := by
  unfold walkUnit
  split
  · exact h
  · split
    · next hall => exact h.foldl_apply hcleared _ _ fun i hi => ha i (by simpa using List.all_eq_true.1 hall i hi)
    · exact h.of_windows (by rw [holdBack_frame]) (by rw [holdBack_frame])

/-- Removal frees records, and each piece of the work that follows leaves every record sound (R111). -/
theorem boundary (h : LeasesSound s) (hc : CommitInv s) (order : BoundaryOrder) : LeasesSound (frameBoundary order s) := by
  have ha : ∀ i ∈ (boundaryPlan order s).applied, live (s.win i) := fun i hi => live_of_commitDue hc ((mem_applied hc).1 hi)
  have hv : ∀ i ∈ (boundaryPlan order s).visited, live (s.win i) := fun i hi => live_of_visited (leaseVisited_iff.1 (mem_visited.1 hi)).1
  have hstart : LeasesSound (boundaryStart s) := by
    refine ⟨?_, fun i => ?_, fun i => ?_⟩
    · rw [boundaryStart, removeRetiring_frame]
      exact h.grace
    · rw [boundaryStart_win]
      split
      · exact leaseOk_free _
      · exact h.lease i
    · rw [boundaryStart_win]
      split
      · exact offerOk_free _
      · exact h.offer i
  have hend : LeasesSound (boundaryEnd order s) := by
    refine (foldl_invariant (fun run : BoundaryRun => LeasesSound run.state ∧ Cleared s (boundaryStart s) run.state) _
      (fun run x ⟨hrun, hcleared⟩ => ⟨?_, ?_⟩) (boundaryTasks order s) ⟨boundaryStart s, _⟩ ⟨hstart, cleared_start s⟩).1
    · refine boundaryTask_keeps x hrun ?_ (fun u _ => hrun.walk hcleared ha u) (fun i => hrun.leaseVisit _ i) (fun i => hrun.countOffer i)
        fun p => ?_
      · exact hrun.of_windows (by rw [profileNotice_frame]) (by rw [profileNotice_frame])
      · exact hrun.of_windows (by rw [frameNotice_frame]) (by rw [frameNotice_frame])
    · exact cleared_task hcleared (fun i hi => ne_retiring_of_live (hv i hi)) (fun i hi => ne_retiring_of_live (ha i hi)) x
  rw [frameBoundary_eq]
  exact (hend.of_windows (t := takeView (boundaryEnd order s)) rfl rfl).settle

/-! ## Requests and events -/

theorem detach (h : LeasesSound s) (p : Port) : LeasesSound (detachPort s p) := by
  have ⟨_, _, _, _, hgrace, _⟩ := State.fields_of_steady (detachOffers_steady s p)
  refine ⟨?_, fun i => ?_, fun i => ?_⟩
  · rw [detachPort_eq_settle, settleEngine_frame]
    exact hgrace ▸ h.grace
  · rw [detachPort_win, detachedState_win]
    split
    · exact leaseOk_retired (h.lease i)
    · exact h.lease i
  · rw [detachPort_win, detachedState_win]
    split
    · next hi => exact offerOk_retired (h.offer i) (ne_free_of_live (mem_detachedSlots.1 hi).2)
    · refine offerOk_of_kept (h.offer i) id rfl rfl ?_
      dsimp only
      split
      · exact .inl rfl
      · exact .inr ⟨rfl, id⟩

theorem restart (h : LeasesSound s) : LeasesSound (restartDevice s) := by
  rw [restartDevice_eq]
  refine settle ⟨h.grace, fun i => ?_, fun i => ?_⟩ <;> rw [State.win_of_map rfl, restartedWindow] <;> split
  · exact h.lease i
  · exact leaseOk_free _
  · exact h.offer i
  · exact offerOk_free _

theorem reset : LeasesSound State.reset :=
  have ⟨_, _, _, _, ⟨_, hlease, hoffer⟩, _⟩ := reset_evaluated
  leasesSound_iff.2 ⟨hlease, hoffer⟩

/-- Every change a command makes keeps leases and offers sound. -/
theorem change {q : Option Port} (h : LeasesSound s) (hc : CommitInv s) (hs : Change s q t) : LeasesSound t := by
  cases hs with
  | reset => exact reset.of_windows rfl rfl
  | detach p => exact h.detach p
  | create p c i ps _ ht =>
    exact h.of_set (i := i) rfl (by rw [createWindow_frame]) (leaseOk_created ..) (offerOk_created _ _ ht)
  | retire p i _ hl => exact (h.retire hl _).settle
  | stage p i =>
    have ⟨_, _, _, _, _, _, hst⟩ := h.lease i
    exact h.of_set rfl (State.setWin_windows ..) (leaseOk_restaged (h.lease i) (mem_merge (fun _ _ => readLeaseLength_le) hst _)) (h.offer i)
  | discard p i => exact h.of_set rfl (State.setWin_windows ..) (leaseOk_restaged (h.lease i) nofun) (h.offer i)
  | renew p i _ hl => exact h.of_set rfl (State.setWin_windows ..) (leaseOk_asked (h.lease i) hl) (h.offer i)
  | offer p i ho hl ht => exact h.of_set (i := i) rfl rfl (h.lease i) (offerOk_offered (h.offer i) ho hl ht)
  | accept p i _ ho =>
    obtain ⟨v, hv, -⟩ := offersTo_iff.1 ho
    refine h.of_set (i := i) ?_ ?_ ?_ (offerOk_transferred (h.offer i) hv p Staging.empty)
    · rw [transferWindow_frame]
    · rw [transferWindow_frame]
    · exact leaseOk_restaged (h.lease i) nofun
  | decline p i => exact h.clearOffer (by rw [declineOffer_frame]) (by rw [declineOffer_frame])
  | withdraw p i | offerExpiry i => exact h.clearOffer (i := i) rfl rfl
  | grace n hn => exact ⟨hn, h.lease, h.offer⟩
  | restart => exact h.restart
  | boundary order => exact h.boundary hc order
  | lapse i hd => exact visitWindow_of_lapses (visitDue_iff.1 hd).1 ▸ h.visit i
  | evict i hd => exact (visitWindow_of_evicted (visitDue_iff.1 hd).1 ▸ h.visit i).settle
  | keep | link | collect | subscribe | query | arm | stream | timing | quota => exact h.of_windows rfl rfl
  | disarm p i => exact h.of_windows (by rw [removeUnit_frame]) (by rw [removeUnit_frame])
  | put => exact h.of_windows (by rw [acceptOp_frame]; rfl) (by rw [acceptOp_frame]; rfl)
  | draw => exact h.of_windows (by rw [acceptOp_frame]) (by rw [acceptOp_frame])
  | cancel p hit => exact (h.of_windows (by rw [cancelOps_frame]) (by rw [cancelOps_frame])).settle
  | complete op => exact h.of_windows (by rw [completeOp_frame]) (by rw [completeOp_frame])
  | scrub b => exact h.of_windows (by rw [completeScrub_frame]) (by rw [completeScrub_frame])
  | expire i => exact h.of_windows (by rw [expireUnit_frame]) (by rw [expireUnit_frame])

end LeasesSound

/-- Settles O59: each command replaces records by sound ones, and a sound commit queue has the boundary apply commits to windows in use
alone. -/
theorem leasesAndOffersStaySound : Obligations.LeasesAndOffersStaySound := by
  intro s t hc hl ho h
  have hs : LeasesSound s := leasesSound_iff.2 ⟨hl, ho⟩
  refine leasesSound_iff.1 ?_
  obtain rfl | ⟨rest, q, u, hu, ht⟩ := step_change h
  · exact hs
  · have hrest : LeasesSound { s with pending := rest } := hs.of_windows rfl rfl
    have hu : LeasesSound u := hrest.change hc hu
    obtain rfl | ⟨p, a, rfl⟩ := ht
    · exact hu
    · exact hu.of_windows rfl rfl

/-! ## RENEW (R131) -/

theorem takeRenew_names {s : State} {p : Port} {h g : Byte} {i : Slot} (hn : Names s ⟨h, g⟩ i) (ho : (s.win i).owner = some p) :
    takeRenew s p [h, g] =
      if permitShown (s.win i).state = false then .refuse .badState
      else .answer (if (s.win i).active.leaseLength = 0 then s else s.setWin i { s.win i with renewPending := true }) .done [] := by
  have hcheck := refCheck_names (o := .owner) (p := p) (permit := permitShown) hn
  rw [if_neg (by simpa using ho)] at hcheck
  split
  · next hp => exact withWindow_refuse (hcheck.trans (if_pos hp))
  · next hp => exact withWindow_ok (hcheck.trans (if_neg hp))

/-- Settles O27: the reference check refuses or lets through, and then the lease alone decides. -/
theorem renewSetsPending : Obligations.RenewSetsPending := by
  intro s p tag h g hp
  have refused {st : Status} (ht : takeRenew s p [h, g] = .refuse st) : exec (.renew p) s = .next (s.hold p ⟨st, tag, []⟩) :=
    congrArg Host.Outcome.next (complete_refuse hp rfl (by decide) rfl (.inr rfl) ht)
  have answered {t : State} (ht : takeRenew s p [h, g] = .answer t .done []) : exec (.renew p) s = .next (t.hold p ⟨.done, tag, []⟩) :=
    congrArg Host.Outcome.next (complete_answer hp rfl (by decide) rfl (.inr rfl) ht)
  refine ⟨fun st hr => refused (withWindow_refuse hr), fun i hn ho => ?_⟩
  have htaken := takeRenew_names hn ho
  refine ⟨fun hs => refused (htaken.trans (if_pos ?_)), fun hs => ?_⟩
  · rcases hs with hs | hs <;> rw [hs] <;> rfl
  · have hpermit : ¬ permitShown (s.win i).state = false := by rcases hs with hs | hs <;> rw [hs] <;> nofun
    rw [if_neg hpermit] at htaken
    exact ⟨fun hL => answered (by rw [htaken, if_pos hL]), fun hL => answered (by rw [htaken, if_neg hL])⟩

end Sys2Proof.Machine
end

