-- ==== Sys2Proof/Proofs/Offers.lean ====
section
/-! The common stages of the evaluation that refuse a request of any code; and OFFER, DECLINE and WITHDRAW, which set an offer and clear it
(R142, R146, R150, R151, R183, R190). -/

namespace Sys2Proof.Machine

open Sys2Proof.Safety

/-! ## The first three stages (O10) -/

theorem requestTable_codes (p : Port) : (requestTable p).map Prod.fst = definedCodes := rfl

theorem lookup_requestTable_eq_none {p : Port} {code : Byte} : (requestTable p).lookup code = none ↔ code ∉ definedCodes := by
  rw [← requestTable_codes p, List.lookup_eq_none_iff]
  simp only [List.mem_map, not_exists, not_and, bne_iff_ne]
  exact forall₂_congr fun _ _ => ne_comm

/-- A request of an undefined code is refused at the first stage (R183). -/
theorem undefinedRequest_refuses {s : State} {p : Port} {r : Request} (h : Processing s p r) (hc : r.code ∉ definedCodes) :
    exec (.undefinedRequest p) s = .next (s.hold p ⟨.badRequest, r.tag, []⟩) := by
  refine congrArg Host.Outcome.next ?_
  rw [h]
  dsimp only
  rw [if_neg hc, evaluate, if_pos hc, settle_refuse]

/-- A request of a wrong parameter length is refused at the second stage (R183, R184). -/
theorem complete_badLength {s : State} {p : Port} {r : Request} {code : Byte} (taken : List Byte → Verdict) (h : Processing s p r)
    (hcode : r.code = code) (hc : code ∈ definedCodes) (hl : lengthOk code r.params = false) :
    complete s p code taken = s.hold p ⟨.badLength, r.tag, []⟩ := by
  subst hcode
  rw [complete_of_processing taken h, evaluate, if_neg (not_not.2 hc), if_pos hl, settle_refuse]

theorem byteAt_of_getLast? {ps : List Byte} {n : Nat} {b : Byte} (hl : ps.length = n + 1) (h : ps.getLast? = some b) :
    byteAt ps n = b := by
  rw [List.getLast?_eq_getElem?, hl, Nat.add_sub_cancel] at h
  rw [byteAt, List.getD_eq_getElem?_getD, h, Option.getD_some]

/-- The device requests, and a CREATE whose tier is OVERLAY, belong to Port A alone (R142). -/
theorem portAOnly_of {code : Byte} {ps : List Byte} (hl : lengthOk code ps = true)
    (h : code ∈ [0x50, 0x51, 0x52, 0x53, 0x54, 0x55, 0x5F] ∨ (code = 0x10 ∧ ps.getLast? = some 0x01)) : portAOnly code ps = true := by
  rcases h with h | ⟨rfl, hlast⟩
  · simp only [List.mem_cons, List.not_mem_nil, or_false] at h
    rcases h with rfl | rfl | rfl | rfl | rfl | rfl | rfl <;> rfl
  · have hlen : ps.length = 6 + 1 := beq_iff_eq.1 hl
    have hbyte := byteAt_of_getLast? hlen hlast
    simp [portAOnly, codeCreate, hbyte]

/-- Settles O10: each row of the table completes its own code, and a request that fails a stage comes to no later one. -/
theorem commonStagesRefuse : Obligations.CommonStagesRefuse := by
  intro s p r h
  have defined {x : Byte × Instr} (hx : x ∈ requestTable p) : x.1 ∈ definedCodes :=
    requestTable_codes p ▸ List.mem_map_of_mem hx
  refine ⟨fun hnone => undefinedRequest_refuses h (lookup_requestTable_eq_none.1 hnone), fun x hx hcode hl => ?_,
    fun x hx hcode hl hB honly => ?_⟩
  · obtain ⟨taken, hexec⟩ := exec_requestTable hx s
    rw [hexec, complete_badLength taken h hcode.symm (defined hx) (hcode ▸ hl)]
  · subst hB
    obtain ⟨taken, hexec⟩ := exec_requestTable hx s
    rw [hexec, complete_notPermitted h hcode.symm (defined hx) (hcode ▸ hl) (hcode ▸ portAOnly_of hl honly)]

/-! ## OFFER, DECLINE and WITHDRAW by the window they name -/

theorem offersTo_iff_target {w : Window} {p : Port} : offersTo w p = true ↔ w.offer.map Offer.target = some p := by
  rw [offersTo_iff, Option.map_eq_some_iff]

section
variable {s : State} {p : Port} {h g : Byte} {i : Slot}

/-- OFFER sets an offer to the other port unless the window is an OVERLAY one or already offered (R146). -/
theorem takeOffer_own (hn : NamesOwn s p ⟨h, g⟩ i) : takeOffer s p [h, g] =
    if (s.win i).tier = .overlay then .refuse .badState
    else if (s.win i).offer.isSome then .refuse .badState
    else .answer (raised (s.setWin i { s.win i with offer := some ⟨p.other, 120⟩ })
      [⟨p.other, .offerReceived, s.refOf i, BitVec.ofNat 16 (s.win i).blocks.length⟩]) .done [] :=
  withWindow_ok (refCheck_own hn)

/-- An offer of an owned window is declined in one update and one notice (R150). -/
theorem declineOffer_eq_raised {o : Port} (ho : (s.win i).owner = some o) (reason : BitVec 16) :
    declineOffer reason s i = raised (s.setWin i { s.win i with offer := none }) [⟨o, .offerDeclined, s.refOf i, reason⟩] := by
  unfold declineOffer
  dsimp only
  rw [ho]
  exact raise_eq_raised ..

theorem takeDecline_names (hn : Names s ⟨h, g⟩ i) (hl : live (s.win i)) : takeDecline s p [h, g] =
    if offersTo (s.win i) p = false then .refuse .noOffer
    else .answer (declineOffer declinedByDecline s i) .done [] := by
  refine withWindow_ok (i := i) ((refCheck_names hn).trans ?_)
  rw [if_neg (by nofun), if_neg (by rw [hl]; nofun)]

theorem takeWithdraw_of_none (hn : NamesOwn s p ⟨h, g⟩ i) (hnone : (s.win i).offer = none) :
    takeWithdraw s p [h, g] = .refuse .noOffer := by
  refine (withWindow_ok (refCheck_own hn)).trans ?_
  dsimp only
  rw [hnone]

theorem takeWithdraw_of_some {o : Offer} (hn : NamesOwn s p ⟨h, g⟩ i) (ho : (s.win i).offer = some o) :
    takeWithdraw s p [h, g] = .answer (raised (s.setWin i { s.win i with offer := none })
      [⟨o.target, .offerWithdrawn, s.refOf i, 0x0001⟩]) .done [] := by
  refine (withWindow_ok (refCheck_own hn)).trans ?_
  dsimp only
  rw [ho]
  rfl

/-! ## The requests, each with its refusals (O33) -/

variable {tag : Byte}

theorem offer_sets (hp : Processing s p ⟨0x40, tag, [h, g]⟩) (hn : NamesOwn s p ⟨h, g⟩ i) :
    ((s.win i).tier = .normal → (s.win i).offer = none → exec (.offer p) s = .next
      ((raised (s.setWin i { s.win i with offer := some ⟨p.other, 120⟩ })
        [⟨p.other, .offerReceived, s.refOf i, BitVec.ofNat 16 (s.win i).blocks.length⟩]).hold p ⟨.done, tag, []⟩)) ∧
    ((s.win i).tier = .overlay ∨ (s.win i).offer ≠ none → exec (.offer p) s = .next (s.hold p ⟨.badState, tag, []⟩)) := by
  have htaken := takeOffer_own hn
  refine ⟨fun ht hnone => congrArg Host.Outcome.next (complete_answer hp rfl (by decide) rfl (.inr rfl) ?_),
    fun hbad => congrArg Host.Outcome.next (complete_refuse hp rfl (by decide) rfl (.inr rfl) ?_)⟩
  · rw [htaken, if_neg (by rw [ht]; nofun), if_neg (by rw [hnone]; nofun)]
  · rcases hbad with ht | ho
    · rw [htaken, if_pos ht]
    · rw [htaken, if_pos (Option.isSome_iff_ne_none.2 ho), ite_self]

theorem decline_clears (hp : Processing s p ⟨0x42, tag, [h, g]⟩) (hn : Names s ⟨h, g⟩ i) (hl : live (s.win i)) :
    ((s.win i).offer.map Offer.target ≠ some p → exec (.decline p) s = .next (s.hold p ⟨.noOffer, tag, []⟩)) ∧
    (∀ o : Port, (s.win i).offer.map Offer.target = some p → (s.win i).owner = some o →
      exec (.decline p) s = .next ((raised (s.setWin i { s.win i with offer := none })
        [⟨o, .offerDeclined, s.refOf i, 0x0001⟩]).hold p ⟨.done, tag, []⟩)) := by
  have htaken := takeDecline_names (p := p) hn hl
  refine ⟨fun hno => congrArg Host.Outcome.next (complete_refuse hp rfl (by decide) rfl (.inr rfl) ?_),
    fun o hto ho => congrArg Host.Outcome.next (complete_answer hp rfl (by decide) rfl (.inr rfl) ?_)⟩
  · rw [htaken, if_pos (by rwa [← Bool.not_eq_true, offersTo_iff_target])]
  · rw [htaken, if_neg (by rw [offersTo_iff_target.2 hto]; nofun), declineOffer_eq_raised ho]
    rfl

theorem withdraw_clears (hp : Processing s p ⟨0x43, tag, [h, g]⟩) (hn : NamesOwn s p ⟨h, g⟩ i) :
    ((s.win i).offer = none → exec (.withdraw p) s = .next (s.hold p ⟨.noOffer, tag, []⟩)) ∧
    (∀ o : Offer, (s.win i).offer = some o → exec (.withdraw p) s = .next ((raised (s.setWin i { s.win i with offer := none })
      [⟨o.target, .offerWithdrawn, s.refOf i, 0x0001⟩]).hold p ⟨.done, tag, []⟩)) :=
  ⟨fun hnone => congrArg Host.Outcome.next (complete_refuse hp rfl (by decide) rfl (.inr rfl) (takeWithdraw_of_none hn hnone)),
    fun _ ho => congrArg Host.Outcome.next (complete_answer hp rfl (by decide) rfl (.inr rfl) (takeWithdraw_of_some hn ho))⟩

end

/-- Settles O33: the reference check refuses or lets through, and then the window's tier and its offer decide. -/
theorem offerIsSetAndCleared : Obligations.OfferIsSetAndCleared := by
  intro s p tag h g
  refine ⟨fun i hp hn => offer_sets hp hn, fun hp => ⟨fun st hr => ?_, fun i hn hl => decline_clears hp hn hl⟩,
    fun hp => ⟨fun st hr => ?_, fun i hn => withdraw_clears hp hn⟩⟩
  · exact congrArg Host.Outcome.next (complete_refuse hp rfl (by decide) rfl (.inr rfl) (withWindow_refuse hr))
  · exact congrArg Host.Outcome.next (complete_refuse hp rfl (by decide) rfl (.inr rfl) (withWindow_refuse hr))

end Sys2Proof.Machine
end

