-- ==== Sys2Proof/Proofs/NoticeLists.lean ====
section
/-! What a raising makes of a sound notice list (R161), and the two requests about a port's notices, COLLECT and SUBSCRIBE (R164, R166). -/

namespace Sys2Proof.Machine

open Sys2Proof.Safety

/-! ## The notice of a key in a sound list (R159, R161) -/

/-- A gathered notice by the fields of R161, under its own key and with occurrences within the bound. -/
theorem Notice.gather_eq {n : Notice} (ho : n.occurrences ≤ 255) (g : Gen) (d : BitVec 16) :
    n.gather g d = ⟨n.kind, n.handle, g, if n.occurrences = 255 then 255 else n.occurrences + 1, d⟩ := by
  have hocc : min 255 (n.occurrences + 1) = if n.occurrences = 255 then 255 else n.occurrences + 1 := by split <;> omega
  rw [Notice.gather, hocc]

/-- Distinct keys: no other notice of the list has the key of one of them. -/
theorem hasKey_false_of_split {before after : List Notice} {n m : Notice} (hk : (noticeKeys (before ++ n :: after)).Nodup)
    (hm : m ∈ before ++ after) : m.hasKey n.kind n.handle = false := by
  have hkeys : ((n.kind, n.handle) :: noticeKeys (before ++ after)).Nodup :=
    (List.perm_middle.map _).nodup_iff.1 hk
  rw [← Bool.not_eq_true, Notice.hasKey_iff]
  rintro ⟨hkind, hhandle⟩
  exact (List.nodup_cons.1 hkeys).1 (List.mem_map.2 ⟨m, hm, Prod.ext hkind hhandle⟩)

/-- A gathering leaves the notices of other keys as they are. -/
theorem map_gather_of_unkeyed {l : List Notice} {k : NoticeKind} {h : Nat} (hl : ∀ m ∈ l, m.hasKey k h = false) (g : Gen)
    (d : BitVec 16) : l.map (fun m => if m.hasKey k h then m.gather g d else m) = l :=
  (List.map_congr_left fun m hm => if_neg (by rw [hl m hm]; nofun)).trans l.map_id

/-- A gathering replaces the one notice of the key, in its place. -/
theorem map_gather_split {before after : List Notice} {n : Notice} (hk : (noticeKeys (before ++ n :: after)).Nodup) (g : Gen)
    (d : BitVec 16) : (before ++ n :: after).map (fun m => if m.hasKey n.kind n.handle then m.gather g d else m) =
      before ++ n.gather g d :: after := by
  have others : ∀ m ∈ before ++ after, m.hasKey n.kind n.handle = false := fun m hm => hasKey_false_of_split hk hm
  rw [List.map_append, List.map_cons, if_pos (Notice.hasKey_iff.2 ⟨rfl, rfl⟩),
    map_gather_of_unkeyed fun m hm => others m (List.mem_append_left _ hm),
    map_gather_of_unkeyed fun m hm => others m (List.mem_append_right _ hm)]

/-- Settles O52: of the three ways of `NoticeBox.take_cases`, the presence of the key rules out two, and its absence leaves the choice to the
length of the list. -/
theorem noticeRaisingTakesThreeWays : Obligations.NoticeRaisingTakesThreeWays := by
  rintro b k h g d ⟨-, hkeys, hocc, -⟩
  refine ⟨fun before after n hb hk hh => ?_, fun habsent => ?_⟩
  · subst hk hh
    have hn : n ∈ b.list := hb ▸ List.mem_append_cons_self
    obtain ⟨-, e⟩ | ⟨ha, -, -⟩ | ⟨ha, -, -⟩ := b.take_cases n.kind n.handle g d
    · rw [e, hb, map_gather_split (hb ▸ hkeys), Notice.gather_eq (hocc n hn).2]
    · exact absurd ⟨rfl, rfl⟩ (ha n hn)
    · exact absurd ⟨rfl, rfl⟩ (ha n hn)
  · obtain ⟨⟨n, hn, hk, hh⟩, -⟩ | ⟨-, hlt, e⟩ | ⟨-, hge, e⟩ := b.take_cases k h g d
    · exact (habsent n hn).elim (absurd hk) (absurd hh)
    · exact ⟨fun _ => e, fun hfull => absurd hfull (Nat.ne_of_lt hlt)⟩
    · exact ⟨fun hlt => absurd hlt (Nat.not_lt.2 hge), fun _ => e⟩

/-! ## COLLECT and SUBSCRIBE (R164, R166, R194) -/

/-- The overflow flag outlasts a removal exactly where the list is longer than what is removed (R163). -/
theorem NoticeBox.dropOldest_eq (b : NoticeBox) (n : Nat) :
    b.dropOldest n = ⟨b.list.drop n, b.overflow && decide (n < b.list.length)⟩ := by
  have hleft : (!(b.list.drop n).isEmpty) = decide (n < b.list.length) := by
    rw [Bool.eq_iff_iff, Bool.not_eq_true', List.isEmpty_eq_false_iff, decide_eq_true_iff, ne_eq, List.drop_eq_nil_iff, Nat.not_le]
  rw [NoticeBox.dropOldest, hleft]

/-- A 16-bit word as two bytes, high byte first (R189). -/
theorem be16_toNat (v : BitVec 16) : be16 v.toNat = [v.extractLsb' 8 8, v.extractLsb' 0 8] := by
  have high : byteOf (v.toNat / 256) = v.extractLsb' 8 8 := by
    rw [byteOf, BitVec.extractLsb', Nat.shiftRight_eq_div_pow]
  rw [be16, high]
  rfl

/-- The record of a notice, byte by byte (R194). -/
theorem noticeBytes_eq (n : Notice) : noticeBytes n = [n.kind.code, byteOf n.handle, byteOf n.gen.val, byteOf n.occurrences,
    n.detail.extractLsb' 8 8, n.detail.extractLsb' 0 8] := by
  rw [noticeBytes, be16_toNat]
  rfl

theorem takeCollect_eq (s : State) (p : Port) (ps : List Byte) : takeCollect s p ps = .answer
    (s.setNotices p ⟨(s.notices.get p).list.drop 8, (s.notices.get p).overflow && decide (8 < (s.notices.get p).list.length)⟩) .done
    (byteOf (min 8 (s.notices.get p).list.length) :: ((s.notices.get p).list.take 8).flatMap (fun n =>
      [n.kind.code, byteOf n.handle, byteOf n.gen.val, byteOf n.occurrences, n.detail.extractLsb' 8 8, n.detail.extractLsb' 0 8])) := by
  rw [takeCollect, NoticeBox.dropOldest_eq, List.length_take, funext noticeBytes_eq]
  rfl

theorem takeSubscribe_of_onOff {s : State} {p : Port} {v : Byte} (h : v = 0x00 ∨ v = 0x01) :
    takeSubscribe s p [v] = .answer { s with subscribed := s.subscribed.set p (v = 0x01) } .done [] := by
  obtain rfl | rfl := h <;> rfl

theorem takeSubscribe_of_other {s : State} {p : Port} {v : Byte} (hoff : v ≠ 0x00) (hon : v ≠ 0x01) :
    takeSubscribe s p [v] = .refuse .badParam := by
  have hnone : onOffOf v = none := by rw [onOffOf, if_neg hoff, if_neg hon]
  rw [takeSubscribe, byteAt_cons_zero, hnone]

/-- Settles O15: the kind codes by evaluation, and each request by its own evaluation. -/
theorem collectAndSubscribe : Obligations.CollectAndSubscribe := by
  refine ⟨rfl, fun s p tag => ⟨fun h => ?_, fun v h => ⟨fun hv => ?_, fun hoff hon => ?_⟩⟩⟩
  · exact congrArg Host.Outcome.next (complete_answer h rfl (by decide) rfl (.inr rfl) (takeCollect_eq s p []))
  · exact congrArg Host.Outcome.next (complete_answer h rfl (by decide) rfl (.inr rfl) (takeSubscribe_of_onOff hv))
  · exact congrArg Host.Outcome.next (complete_refuse h rfl (by decide) rfl (.inr rfl) (takeSubscribe_of_other hoff hon))

end Sys2Proof.Machine
end

