-- ==== Sys2Proof/Proofs/RequestLink.lean ====
section
/-! The request link: the bytes a transaction clocks out, what a release consumes, and how the bytes a host sent are judged (R172 to R181, R187). -/

namespace Sys2Proof.Machine

open Sys2Proof.Safety

/-! ## The queue of commands (O1) -/

theorem step_cons (s : State) (c : Instr) (rest : List Instr) :
    step { s with pending := c :: rest } = exec c { s with pending := rest } := rfl

theorem step_nil (s : State) : step { s with pending := [] } = .next { s with pending := [] } := rfl

/-- Settles O1: a step is read off the front of the queue. -/
theorem stepTakesFrontCommand : Obligations.StepTakesFrontCommand := ⟨step_cons, step_nil⟩

/-! ## The assertion of select (O3) -/

theorem flagsAt_eq (s : State) (p : Port) : flagsAt s p = flagsNow s p := by
  have hpending : (attention s p).toNat = if (s.notices.get p).list = [] then 0 else 1 := by
    unfold attention
    cases (s.notices.get p).list <;> rfl
  have weigh (n : Nat) (b : Bool) : n * b.toNat = if b then n else 0 := by cases b <;> simp
  rw [flagsAt, flagsByte, flagsNow, hpending, weigh, weigh]

/-- The frame of a transaction that begins is the one the port has to send now (R176, R177). -/
theorem beginTransaction_out (s : State) (p : Port) : (beginTransaction s p).out = frameNow s p := by
  unfold beginTransaction frameNow
  rw [flagsAt_eq]
  cases (s.links.get p).phase <;> rfl

theorem beginTransaction_judged (s : State) (p : Port) : (beginTransaction s p).judged = true := by
  unfold beginTransaction
  cases (s.links.get p).phase <;> rfl

theorem beginTransaction_carriesHeld (s : State) (p : Port) :
    (beginTransaction s p).carriesHeld = true ↔ ∃ r, (s.links.get p).phase = .held r := by
  unfold beginTransaction
  cases (s.links.get p).phase <;> simp

theorem selectAssert_of_released {s : State} {p : Port} (h : (s.links.get p).transaction = none) :
    selectAssert s p = s.setLink p { s.links.get p with transaction := some (beginTransaction s p) } := by
  simp only [selectAssert, h]

/-- A list read position by position, with a default past its end, is the list with that default behind it. -/
theorem map_getD_range {α : Type} (l : List α) (d : α) (n : Nat) :
    (List.range n).map (fun k => l.getD k d) = (l ++ List.replicate n d).take n := by
  refine List.ext_getElem (by simp) fun k hk _ => ?_
  have hkn : k < n := by simpa using hk
  rw [List.getElem_map, List.getElem_range, List.getElem_take, List.getD_eq_getElem?_getD]
  by_cases hl : k < l.length
  · rw [List.getElem_append_left hl, List.getElem?_eq_getElem hl, Option.getD_some]
  · rw [List.getElem_append_right (by omega), List.getElem_replicate, List.getElem?_eq_none (by omega), Option.getD_none]

section
variable {s : State} {p : Port} {x : Transaction}

/-- The bytes of a transaction in progress: its frame, then FFh throughout (R176). -/
theorem dataOut_of_transaction (h : (s.links.get p).transaction = some x) (n : Nat) :
    dataOut s p n = some ((x.out ++ List.replicate n 0xFF).take n) := by
  rw [dataOut, h, Option.map_some]
  exact congrArg some (map_getD_range x.out 0xFF n)

/-- The bits of a transaction in progress, each byte most significant bit first (R172). -/
theorem dataLine_of_transaction (h : (s.links.get p).transaction = some x) (k : Nat) :
    dataLine s p k = some ((x.out.getD (k / 8) 0xFF).getLsbD (7 - k % 8)) := by
  rw [dataLine, h, Option.map_some]
  rfl

end

/-- Settles O3: the transaction an assertion begins carries the frame of this moment, and the data-out line sends what the transaction carries. -/
theorem selectAssertFixesBytes : Obligations.SelectAssertFixesBytes := by
  refine ⟨fun s p h => ?_, rfl⟩
  have hx : ((selectAssert s p).links.get p).transaction = some (beginTransaction s p) := by
    rw [selectAssert_of_released h, State.setLink_links, PerPort.get_set_same]
  have hout := beginTransaction_out s p
  exact ⟨dataLine_of_released h, _, _, rfl, selectAssert_of_released h, beginTransaction_judged s p, beginTransaction_carriesHeld s p,
    fun n => hout ▸ dataOut_of_transaction hx n, fun k => hout ▸ dataLine_of_transaction hx k⟩

/-! ## The release of select (O5) -/

/-- A transaction of a sound link that carries a held response is that of a port which still holds it, so that the consumption turns on what was
clocked out alone (R178). -/
theorem consumePhase_eq_afterConsumption {l : Link} {bits : List Bool} {x : Transaction} (hl : linkOk l) (hx : l.transaction = some x) :
    consumePhase x (completeBytes bits).length { l with transaction := none } = afterConsumption l bits := by
  have hheld : x.carriesHeld = true → ∃ r, l.phase = .held r := fun hc => by
    have hphase := hl x hx hc
    split at hphase
    · exact ⟨_, by assumption⟩
    · exact hphase.elim
  simp only [consumePhase, consumes, afterConsumption, hx, completeBytes_length, Bool.and_eq_true, decide_eq_true_eq]
  split
  · rfl
  · next hnone =>
    rw [if_neg]
    rintro ⟨hc, -⟩
    obtain ⟨r, hr⟩ := hheld hc
    exact hnone r hr

section
variable {s : State} {p : Port} {bits : List Bool} {x : Transaction}

/-- The release of a judged transaction consumes, and then judges what the host sent (R178 to R180). -/
theorem selectRelease_of_judged (h : LinkInv s) (hx : (s.links.get p).transaction = some x) (hj : x.judged = true) :
    exec (.selectRelease p bits) s =
      .next (s.setLink p (judgePhase (judgeBytes (completeBytes bits)) (afterConsumption (s.links.get p) bits))) := by
  have hrelease : releaseLink (s.links.get p) bits =
      judgePhase (judgeBytes (completeBytes bits)) (afterConsumption (s.links.get p) bits) := by
    rw [← consumePhase_eq_afterConsumption (linkInv_iff.1 h p) hx]
    simp only [releaseLink, hx, hj, if_true]
  exact congrArg (fun l => Host.Outcome.next (s.setLink p l)) hrelease

/-- A transaction begun before a hardware reset is over at its release and nothing else (R187). -/
theorem selectRelease_of_not_judged (hx : (s.links.get p).transaction = some x) (hj : x.judged = false) :
    exec (.selectRelease p bits) s = .next (s.setLink p { s.links.get p with transaction := none }) := by
  have hrelease : releaseLink (s.links.get p) bits = { s.links.get p with transaction := none } := by
    simp only [releaseLink, hx, hj, Bool.false_eq_true, if_false]
  exact congrArg (fun l => Host.Outcome.next (s.setLink p l)) hrelease

end

/-- A transaction of no complete byte, or one that begins with FFh, carries no request (R173, log entry 22). -/
theorem judgeBytes_nothing {bs : List Byte} (h : bs = [] ∨ bs.head? = some 0xFF) : judgeBytes bs = .nothing := by
  cases bs with
  | nil => rfl
  | cons first rest =>
    have hfirst : first = 0xFF := by simpa using h
    rw [judgeBytes, if_pos hfirst]

/-- Settles O5: the release consumes first, and bytes that carry no request are judged to nothing. -/
theorem releaseConsumesWholeResponse : Obligations.ReleaseConsumesWholeResponse := by
  intro s p bits x hx
  refine ⟨fun hj hl hbits => ?_, selectRelease_of_not_judged hx⟩
  rw [selectRelease_of_judged hl hx hj, judgeBytes_nothing hbits]
  rfl

/-! ## The judgement of a frame (O6) -/

/-- A frame too short for its length field is none (R179). -/
theorem judgeFrame_short {rest : List Byte} (h : rest.length < 4) : judgeFrame rest = .malformed .shortFrame := by
  match rest with
  | [] | [_] | [_, _] | [_, _, _] => rfl
  | _ :: _ :: _ :: _ :: _ => simp only [List.length_cons] at h; omega

/-- The judgement of a frame with a length field, in terms of the parameter length announced and of the bytes behind it (R179). -/
theorem judgeFrame_long (code tag high low : Byte) (rest : List Byte) :
    judgeFrame (code :: tag :: high :: low :: rest) =
      if 512 < announced (0xA5 :: code :: tag :: high :: low :: rest) then .malformed .lengthError
      else if rest.length < announced (0xA5 :: code :: tag :: high :: low :: rest) + 1 then .malformed .shortFrame
      else if crcFrom 0xFF ([0xA5, code, tag, high, low] ++ rest.take (announced (0xA5 :: code :: tag :: high :: low :: rest) + 1)) ≠ 0
        then .malformed .crcError
      else .request ⟨code, tag, rest.take (announced (0xA5 :: code :: tag :: high :: low :: rest))⟩ := rfl

/-- The CRC byte behind `n` parameter bytes is right exactly where it is the CRC of all bytes before it (R174, R179). -/
theorem crcFrom_frame (head : List Byte) {rest : List Byte} {n : Nat} (h : n < rest.length) :
    crcFrom 0xFF (head ++ rest.take (n + 1)) = 0 ↔
      (head ++ rest).getD (head.length + n) 0 = crc8 ((head ++ rest).take (head.length + n)) := by
  rw [List.take_length_add_append, List.getD_append_right _ _ _ _ (by omega), Nat.add_sub_cancel_left, List.getD_eq_getElem _ _ h,
    ← crc_judged, List.append_assoc, List.take_append_getElem h]

/-- The conditions of R179 for a frame with a length field, in the terms in which the model tests them. -/
theorem frameFault_long (code tag high low : Byte) (rest : List Byte) :
    frameFault (0xA5 :: code :: tag :: high :: low :: rest) =
      if 512 < announced (0xA5 :: code :: tag :: high :: low :: rest) then some .lengthError
      else if rest.length < announced (0xA5 :: code :: tag :: high :: low :: rest) + 1 then some .shortFrame
      else if crcFrom 0xFF ([0xA5, code, tag, high, low] ++ rest.take (announced (0xA5 :: code :: tag :: high :: low :: rest) + 1)) ≠ 0
        then some .crcError
      else none := by
  unfold frameFault
  generalize announced (0xA5 :: code :: tag :: high :: low :: rest) = n
  rw [if_neg (by simp), if_neg (by simp)]
  by_cases hlong : 512 < n
  · rw [if_pos ⟨by simp, hlong⟩, if_pos hlong]
  rw [if_neg (fun hl => hlong hl.2), if_neg hlong]
  simp only [List.length_cons]
  by_cases hshort : rest.length < n + 1
  · rw [if_pos (by omega), if_pos hshort]
  rw [if_neg (by omega), if_neg hshort]
  exact if_congr (not_congr (crcFrom_frame [0xA5, code, tag, high, low] (by omega)).symm) rfl rfl

/-- A frame that begins with A5h and has a fault is malformed with the kind of that fault. -/
theorem judgeFrame_of_frameFault {rest : List Byte} {k : RejectKind} (h : frameFault (0xA5 :: rest) = some k) :
    judgeFrame rest = .malformed k := by
  match rest with
  | [] | [_] | [_, _] | [_, _, _] => exact (judgeFrame_short (by simp)).trans (congrArg _ (Option.some.inj h))
  | code :: tag :: high :: low :: rest =>
    rw [frameFault_long] at h
    rw [judgeFrame_long]
    split_ifs at h ⊢ <;> exact congrArg _ (Option.some.inj h)

/-- The model's judgement finds the fault that R179 gives first. -/
theorem judgeBytes_of_frameFault {bs : List Byte} {k : RejectKind} (h : frameFault bs = some k) : judgeBytes bs = .malformed k := by
  cases bs with
  | nil => cases h
  | cons first rest =>
    rw [judgeBytes]
    by_cases hfiller : first = 0xFF
    · subst hfiller
      cases h
    rw [if_neg hfiller]
    by_cases hsync : first = 0xA5
    · subst hsync
      rw [if_pos rfl, judgeFrame_of_frameFault h]
    · rw [frameFault, if_neg (by simpa using hfiller), if_pos (by simpa using hsync)] at h
      rw [if_neg hsync, Option.some.inj h]

/-- Settles O6: the release consumes first, and the frame is judged malformed with the kind that R179 gives. -/
theorem malformedFrameRejected : Obligations.MalformedFrameRejected := by
  intro s p bits x k hl hx hj hk
  rw [selectRelease_of_judged hl hx hj, judgeBytes_of_frameFault hk]
  rfl

/-! ## Request frames (O7) -/

/-- One byte into the CRC register is one shift for each of its eight bits (R174). -/
theorem crcByte_eq_foldl (r b : Byte) :
    crcByte r b = (List.range 8).foldl (fun v _ => if v.msb then (v <<< 1) ^^^ 0x07 else v <<< 1) (r ^^^ b) := rfl

theorem crcFrom_cons (r b : Byte) (bs : List Byte) : crcFrom r (b :: bs) =
    crcFrom ((List.range 8).foldl (fun v _ => if v.msb then (v <<< 1) ^^^ 0x07 else v <<< 1) (r ^^^ b)) bs := by
  rw [← crcByte_eq_foldl]
  rfl

/-- A parameter length of two bytes reads back (R173). -/
theorem be16_value {n : Nat} (h : n < 65536) : (byteOf (n / 256)).toNat * 256 + (byteOf n).toNat = n := be16At_be16 h []

/-- A request frame with filler behind it is judged to be the request that was sent (R173). -/
theorem judgeBytes_requestFrame {r : Request} (h : r.params.length ≤ 512) (filler : List Byte) :
    judgeBytes (requestFrame r ++ filler) = .request r := by
  obtain ⟨code, tag, params⟩ := r
  dsimp only at h
  have hframe : requestFrame ⟨code, tag, params⟩ ++ filler = 0xA5 :: code :: tag :: byteOf (params.length / 256) :: byteOf params.length ::
      (params ++ crc8 ([0xA5, code, tag] ++ be16 params.length ++ params) :: filler) := by
    simp [requestFrame, be16]
  have hlength : announced (requestFrame ⟨code, tag, params⟩ ++ filler) = params.length := by
    rw [hframe]
    exact be16_value (by omega)
  have htake : (params ++ crc8 ([0xA5, code, tag] ++ be16 params.length ++ params) :: filler).take (params.length + 1) =
      params ++ [crc8 ([0xA5, code, tag] ++ be16 params.length ++ params)] := by
    rw [List.take_append, List.take_of_length_le (by omega), Nat.add_sub_cancel_left]
    rfl
  have hcrc : crcFrom 0xFF (([0xA5, code, tag] ++ be16 params.length ++ params) ++
      [crc8 ([0xA5, code, tag] ++ be16 params.length ++ params)]) = 0 := crc_leaves_zero _
  rw [hframe] at hlength ⊢
  rw [judgeBytes, if_neg (by decide), if_pos rfl, judgeFrame_long, hlength, if_neg (by omega),
    if_neg (by simp only [List.length_append, List.length_cons]; omega), htake, if_neg, List.take_left]
  rw [not_not, ← List.append_assoc]
  exact hcrc

/-- Settles O7: the bits are the bytes of the frame again, the frame is judged to be the request, and the link state decides. -/
theorem requestFrameReceived : Obligations.RequestFrameReceived := by
  refine ⟨⟨fun _ => rfl, fun _ => rfl, crcFrom_cons, by decide +kernel, by decide +kernel⟩, crc_leaves_zero,
    fun s p x r filler tail hl hx hj hlength htail => ?_⟩
  rw [selectRelease_of_judged hl hx hj, completeBytes_bitsOfBytes _ htail, judgeBytes_requestFrame hlength]
  rfl

end Sys2Proof.Machine
end

