-- ==== Sys2Proof/Proofs/RequestAnswers.lean ====
section
/-! What the completion of a request answers: which lengths it requires, which statuses and payloads it gives, and what it leaves of the links
(R10, R172, R176, R182, R183, R190, R193). -/

namespace Sys2Proof.Machine

open Sys2Proof.Safety

/-! ## The parameter lengths (O11) -/

/-- ARM carries a count and that many references (R190, R191). -/
theorem lengthOk_arm (ps : List Byte) : lengthOk 0x22 ps = true ↔
    ∃ (count : Byte) (refs : List Byte), ps = count :: refs ∧ 1 ≤ count.toNat ∧ count.toNat ≤ 8 ∧ refs.length = 2 * count.toNat := by
  have hdef : lengthOk 0x22 ps =
      (decide (1 ≤ ps.length) && decide (1 ≤ natAt ps 0) && decide (natAt ps 0 ≤ 8) && ps.length == 1 + 2 * natAt ps 0) := rfl
  rw [hdef]
  simp only [Bool.and_eq_true, decide_eq_true_eq, beq_iff_eq]
  cases ps with
  | nil => simp
  | cons count refs =>
    simp only [List.length_cons, natAt_cons_zero, List.cons.injEq]
    constructor
    · rintro ⟨⟨⟨-, hlow⟩, hhigh⟩, hlen⟩
      exact ⟨count, refs, ⟨rfl, rfl⟩, hlow, hhigh, by omega⟩
    · rintro ⟨_, _, ⟨rfl, rfl⟩, hlow, hhigh, hlen⟩
      exact ⟨⟨⟨by omega, hlow⟩, hhigh⟩, by omega⟩

/-- The low byte of a mask holds its bits 0 to 7 (R189, R192). -/
theorem stageMask_low (h g high low : Byte) (values : List Byte) {n : Nat} (hn : n < 8) :
    (stageMask (h :: g :: high :: low :: values)).getLsbD n = low.getLsbD n := by
  have hread : stageMask (h :: g :: high :: low :: values) = BitVec.ofNat 16 (2 ^ 8 * high.toNat + low.toNat) := by
    rw [Nat.mul_comm]
    rfl
  rw [hread, BitVec.getLsbD_ofNat, Nat.testBit_two_pow_mul_add _ low.isLt, decide_eq_true (by omega : n < 16), Bool.true_and, if_pos hn]
  rfl

/-- The values of a STAGE are as long as the low byte of its mask says (R192). -/
theorem stageValuesSize_low (h g high low : Byte) (values : List Byte) :
    stageValuesSize (stageMask (h :: g :: high :: low :: values)) =
      4 * (low.getLsbD 0).toNat + 4 * (low.getLsbD 1).toNat + 3 * (low.getLsbD 2).toNat + 4 * (low.getLsbD 3).toNat
        + 3 * (low.getLsbD 4).toNat + (low.getLsbD 5).toNat + 4 * (low.getLsbD 6).toNat := by
  have weigh (n : Nat) (b : Bool) : (if b then n else 0) = n * b.toNat := by cases b <;> simp
  unfold stageValuesSize
  simp only [stageMask_low, Nat.reduceLT, weigh, Nat.one_mul]

/-- STAGE carries a reference, a mask and the values that the mask names (R190, R192). -/
theorem lengthOk_stage (ps : List Byte) : lengthOk 0x20 ps = true ↔
    ∃ (handle gen high low : Byte) (values : List Byte), ps = handle :: gen :: high :: low :: values ∧
      values.length = 4 * (low.getLsbD 0).toNat + 4 * (low.getLsbD 1).toNat + 3 * (low.getLsbD 2).toNat
        + 4 * (low.getLsbD 3).toNat + 3 * (low.getLsbD 4).toNat + (low.getLsbD 5).toNat + 4 * (low.getLsbD 6).toNat := by
  have hdef : lengthOk 0x20 ps = (decide (4 ≤ ps.length) && ps.length == 4 + stageValuesSize (stageMask ps)) := rfl
  rw [hdef, Bool.and_eq_true, decide_eq_true_eq, beq_iff_eq]
  constructor
  · rintro ⟨hlong, hlen⟩
    match ps with
    | [] | [_] | [_, _] | [_, _, _] => simp at hlong
    | handle :: gen :: high :: low :: values =>
      rw [stageValuesSize_low] at hlen
      simp only [List.length_cons] at hlen
      exact ⟨handle, gen, high, low, values, rfl, by omega⟩
  · rintro ⟨handle, gen, high, low, values, rfl, hlen⟩
    rw [stageValuesSize_low]
    simp only [List.length_cons]
    omega

/-- Settles O11: the fixed lengths row by row, and the three others by what they count. -/
theorem requiredParameterLengths : Obligations.RequiredParameterLengths := by
  refine ⟨fun x hx ps => ?_, lengthOk_arm, lengthOk_stage, fun ps => ?_⟩
  · fin_cases hx <;> exact beq_iff_eq
  · have hdef : lengthOk 0x31 ps = (decide (1 ≤ ps.length) && decide (ps.length ≤ 512)) := rfl
    rw [hdef, Bool.and_eq_true, decide_eq_true_eq, decide_eq_true_eq]

/-! ## The statuses and payloads of a verdict -/

/-- A verdict fits the response of R177 and R193: a refusal has an error status, an answer one of the other three statuses and, where the pool
and the list are sound, a payload within the limit. -/
def Fits (s : State) : Verdict → Prop
  | .refuse st => 0x10 ≤ st.code
  | .answer _ st payload => (st = .done ∨ st = .accepted ∨ st = .overrun) ∧ (PoolInv s → StackInv s → payload.length ≤ 512)

theorem refCheck_error {s : State} {p : Port} {o : Ownership} {permit : WinState → Bool} {r : RawRef} {st : Status}
    (h : refCheck s p o permit r = .error st) : 0x10 ≤ st.code := by
  unfold refCheck at h
  split at h
  · cases h; decide
  · dsimp only at h
    split at h
    · cases h; decide
    · split at h
      · cases h; decide
      · split at h
        · cases h; decide
        · cases h

theorem armCheck_error {s : State} {p : Port} {rs : List RawRef} {st : Status} (h : armCheck s p rs = .error st) : 0x10 ≤ st.code := by
  induction rs with
  | nil => cases h
  | cons r rest ih =>
    unfold armCheck at h
    split at h
    · next hr =>
      cases h
      exact refCheck_error hr
    · split at h
      · next hrest =>
        cases h
        exact ih hrest
      · cases h

theorem armRefusal_error {s : State} {slots : List Slot} {st : Status} (h : armRefusal s slots = some st) : 0x10 ≤ st.code := by
  induction slots with
  | nil => cases h
  | cons i rest ih =>
    unfold armRefusal at h
    split at h
    · cases h; decide
    · split at h
      · cases h; decide
      · exact ih h

theorem putStatus_cases (fmt : Format) (n : Nat) : putStatus fmt n = .accepted ∨ putStatus fmt n = .overrun := by
  unfold putStatus
  split <;> split <;> simp

section
variable {s : State}

theorem Fits.refuse {st : Status} (h : 0x10 ≤ st.code) : Fits s (.refuse st) := h

theorem Fits.done {t : State} {payload : List Byte} (h : payload.length ≤ 512) : Fits s (.answer t .done payload) :=
  ⟨.inl rfl, fun _ _ => h⟩

theorem Fits.done_nil {t : State} : Fits s (.answer t .done []) := .done (Nat.zero_le _)

theorem Fits.accepted {t : State} {payload : List Byte} (h : payload.length ≤ 512) : Fits s (.answer t .accepted payload) :=
  ⟨.inr (.inl rfl), fun _ _ => h⟩

theorem Fits.ite {c : Prop} [Decidable c] {v w : Verdict} (hv : Fits s v) (hw : Fits s w) : Fits s (if c then v else w) := by
  split
  · exact hv
  · exact hw

theorem Fits.withWindow {p : Port} {o : Ownership} {permit : WinState → Bool} {r : RawRef} {next : Slot → Verdict}
    (h : ∀ i, Fits s (next i)) : Fits s (withWindow s p o permit r next) := by
  unfold Machine.withWindow
  split
  · next hr => exact .refuse (refCheck_error hr)
  · exact h _

theorem Fits.evaluate {p : Port} {r : Request} {taken : List Byte → Verdict} (h : Fits s (taken r.params)) : Fits s (evaluate p r taken) :=
  .ite (.refuse (by decide)) (.ite (.refuse (by decide)) (.ite (.refuse (by decide)) h))

/-! Each request's own evaluation. -/

/-- Records of one length each (R194). -/
theorem length_flatMap_of_const {α : Type} {f : α → List Byte} {n : Nat} (h : ∀ a, (f a).length = n) (l : List α) :
    (l.flatMap f).length = l.length * n := by
  simp [List.length_flatMap, h]

/-- A sound list holds at most one entry for each slot (R66). -/
theorem stack_length_le (h : StackInv s) : s.stack.length ≤ 24 := by
  obtain ⟨hnodup, hgen, -⟩ := h
  have hslots : (s.stack.map WinRef.slot).Nodup := by
    refine hnodup.map_on fun x hx y hy hxy => ?_
    have hgens : x.gen = y.gen := by rw [← (hgen x hx).1, ← (hgen y hy).1, hxy]
    cases x
    cases y
    cases hxy
    cases hgens
    rfl
  simpa using hslots.length_le_card

/-- The blocks of one window are among the 192 of a sound pool (R23). -/
theorem blocks_length_le (h : PoolInv s) (i : Slot) : (s.win i).blocks.length ≤ 192 := by
  have hall : s.freeSet.length + s.scrubList.length + (windowBlocks s).length = 192 := by
    have hlen := h.2.1.length_eq
    rwa [List.length_append, List.length_append, allBlocks, List.length_finRange] at hlen
  have hwindow : (s.win i).blocks.length ≤ (windowBlocks s).length :=
    (List.sublist_flatten_of_mem (List.mem_map_of_mem (f := fun i => (s.win i).blocks) (mem_allSlots i))).length_le
  omega

theorem queryRecord_length (n : Nat) (i : Slot) : (queryRecord s n i).length = 69 + (s.win i).blocks.length := by
  have hfallback (f : Policy × Colour) : (f.1.code :: colourBytes f.2).length = 4 := rfl
  have hidentity : (queryIdentity s i).length = 15 := rfl
  have hcounts : (queryCounts (s.win i)).length = 6 := by
    rw [queryCounts, List.length_append, offerBytes_length]
    rfl
  have hposition (v : Int × Int) : (beSigned v.1 ++ beSigned v.2).length = 4 := rfl
  have hscroll (v : Nat × Nat) : (be16 v.1 ++ be16 v.2).length = 4 := rfl
  have hlease (l : Nat) : [byteOf l].length = 1 := rfl
  rw [queryRecord_eq]
  simp only [List.length_append, hidentity, queryActive_length, slotBytes_length hposition, slotBytes_length hscroll,
    slotBytes_length (placementBytes_length n), slotBytes_length (keyBytes_length (n + 2)), slotBytes_length colourBytes_length,
    slotBytes_length hlease, slotBytes_length hfallback, entryBytes_length, hcounts, List.length_map]
  omega

variable {p : Port} {ps : List Byte}

theorem takeCollect_fits : Fits s (takeCollect s p ps) := by
  refine .done ?_
  rw [List.length_cons, length_flatMap_of_const (n := 6) (fun _ => rfl), List.length_take, collectMax]
  omega

theorem takeQuery_fits : Fits s (takeQuery s p ps) :=
  .withWindow fun i => ⟨.inl rfl, fun hpool _ => by
    have := blocks_length_le hpool i
    rw [queryRecord_length]
    omega⟩

theorem takeListOwned_fits : Fits s (takeListOwned s p ps) := by
  have hslots : (ownedSlots s p).length ≤ 24 := List.length_filter_le _ allSlots
  refine .done ?_
  rw [ownedPayload, List.length_cons, length_flatMap_of_const (n := 3) (fun _ => rfl)]
  omega

theorem takeListStack_fits : Fits s (takeListStack s ps) :=
  ⟨.inl rfl, fun _ hstack => by
    have := stack_length_le hstack
    rw [stackPayload, List.length_cons, length_flatMap_of_const (n := 5) (fun _ => rfl)]
    omega⟩

theorem takeSubscribe_fits : Fits s (takeSubscribe s p ps) := by
  unfold takeSubscribe
  split
  · exact .refuse (by decide)
  · exact .done_nil

theorem takeCreate_fits : Fits s (takeCreate s p ps) := by
  unfold takeCreate
  split
  · exact .refuse (by decide)
  · split
    · exact .refuse (by decide)
    · exact .ite (.refuse (by decide)) (.ite (.refuse (by decide)) (.done (by simp [refBytes])))

theorem takeStage_fits : Fits s (takeStage s p ps) :=
  .withWindow fun _ => .ite (.refuse (by decide)) (.ite (.refuse (by decide)) (.ite (.refuse (by decide))
    (.ite (.refuse (by decide)) .done_nil)))

theorem takeArm_fits : Fits s (takeArm s p ps) := by
  unfold takeArm
  split
  · next hcheck => exact .refuse (armCheck_error hcheck)
  · refine .ite (.refuse (by decide)) ?_
    split
    · next hrefusal => exact .refuse (armRefusal_error hrefusal)
    · split
      · exact .refuse (by decide)
      · exact .done (by simp)

theorem takeDisarm_fits : Fits s (takeDisarm s p ps) := .withWindow fun i => by
  split
  · exact .refuse (by decide)
  · exact .done (by simp)

theorem takeOpenStream_fits : Fits s (takeOpenStream s p ps) := .withWindow fun i => by
  dsimp only
  split
  · exact .refuse (by decide)
  · refine .ite (.refuse (by decide)) ?_
    split
    · exact .refuse (by decide)
    · exact .ite (.refuse (by decide)) .done_nil

theorem putPayload_length (b : Byte) (n : Nat) (v : Option Stream) : (putPayload b n v).length = 8 := by cases v <;> rfl

theorem takePut_fits : Fits s (takePut s p ps) := by
  unfold takePut
  split
  · exact .refuse (by decide)
  · refine .ite (.refuse (by decide)) (.ite (.refuse (by decide)) ⟨.inr (putStatus_cases ..), fun _ _ => ?_⟩)
    rw [putPayload_length]
    omega

theorem takeCloseStream_fits : Fits s (takeCloseStream s p ps) := by
  unfold takeCloseStream
  split
  · exact .refuse (by decide)
  · exact .done_nil

theorem takeFill_fits : Fits s (takeFill s p ps) := .withWindow fun i => by
  dsimp only
  split
  · exact .refuse (by decide)
  · split
    · exact .refuse (by decide)
    · refine .ite (.refuse (by decide)) ?_
      split
      · exact .refuse (by decide)
      · exact .ite (.refuse (by decide)) (.accepted (by simp))

theorem takeCopy_fits : Fits s (takeCopy s p ps) := .withWindow fun i => .withWindow fun j => by
  dsimp only
  split
  · split
    · exact .ite (.refuse (by decide)) (.ite (.refuse (by decide)) (.ite (.refuse (by decide)) (.accepted (by simp))))
    · exact .refuse (by decide)
  · exact .refuse (by decide)

theorem takeWithdraw_fits : Fits s (takeWithdraw s p ps) := .withWindow fun i => by
  dsimp only
  split
  · exact .refuse (by decide)
  · exact .done_nil

theorem takeSetProfile_fits : Fits s (takeSetProfile s ps) := by
  unfold takeSetProfile
  split
  · exact .refuse (by decide)
  · refine .ite (.refuse (by decide)) ?_
    split
    · exact .refuse (by decide)
    · exact .done_nil

theorem takeSwitchProfile_fits : Fits s (takeSwitchProfile s ps) := by
  unfold takeSwitchProfile
  split
  · exact .refuse (by decide)
  · exact .ite (.refuse (by decide)) (.ite .done_nil .done_nil)

theorem takeDisplay_fits : Fits s (takeDisplay s ps) := by
  unfold takeDisplay
  split
  · exact .refuse (by decide)
  · exact .done_nil

end

/-! ## The completion of a request -/

/-- Each row of the request table completes its own code with an evaluation that leaves the links and fits a response (R182, R190). -/
theorem requestTable_taken {p : Port} {x : Byte × Instr} (hx : x ∈ requestTable p) (s : State) :
    ∃ taken, exec x.2 s = .next (complete s p x.1 taken) ∧ ∀ ps, KeepsLinks s (taken ps) ∧ Fits s (taken ps) := by
  unfold requestTable at hx
  fin_cases hx
  · exact ⟨takeNop s, rfl, fun _ => ⟨.answer rfl, .done_nil⟩⟩
  · exact ⟨takeStatus s p, rfl, fun _ => ⟨.answer rfl, .done (Nat.le_of_ble_eq_true rfl)⟩⟩
  · exact ⟨takeCollect s p, rfl, fun _ => ⟨.answer rfl, takeCollect_fits⟩⟩
  · exact ⟨takeSubscribe s p, rfl, fun _ => ⟨takeSubscribe_links, takeSubscribe_fits⟩⟩
  · exact ⟨takeDetach s p, rfl, fun _ => ⟨takeDetach_links, .done_nil⟩⟩
  · exact ⟨takeCreate s p, rfl, fun _ => ⟨takeCreate_links, takeCreate_fits⟩⟩
  · exact ⟨takeRetire s p, rfl, fun _ => ⟨takeRetire_links, .withWindow fun _ => .done_nil⟩⟩
  · exact ⟨takeQuery s p, rfl, fun _ => ⟨.withWindow fun _ => .answer rfl, takeQuery_fits⟩⟩
  · exact ⟨takeListOwned s p, rfl, fun _ => ⟨.answer rfl, takeListOwned_fits⟩⟩
  · exact ⟨takeListStack s, rfl, fun _ => ⟨.answer rfl, takeListStack_fits⟩⟩
  · exact ⟨takeStage s p, rfl, fun _ => ⟨takeStage_links, takeStage_fits⟩⟩
  · exact ⟨takeDiscard s p, rfl, fun _ => ⟨takeDiscard_links, .withWindow fun _ => .ite (.refuse (by decide)) .done_nil⟩⟩
  · exact ⟨takeArm s p, rfl, fun _ => ⟨takeArm_links, takeArm_fits⟩⟩
  · exact ⟨takeDisarm s p, rfl, fun _ => ⟨takeDisarm_links, takeDisarm_fits⟩⟩
  · exact ⟨takeRenew s p, rfl, fun _ => ⟨takeRenew_links, .withWindow fun _ => .done_nil⟩⟩
  · exact ⟨takeOpenStream s p, rfl, fun _ => ⟨takeOpenStream_links, takeOpenStream_fits⟩⟩
  · exact ⟨takePut s p, rfl, fun _ => ⟨takePut_links, takePut_fits⟩⟩
  · exact ⟨takeCloseStream s p, rfl, fun _ => ⟨takeCloseStream_links, takeCloseStream_fits⟩⟩
  · exact ⟨takeFill s p, rfl, fun _ => ⟨takeFill_links, takeFill_fits⟩⟩
  · exact ⟨takeCopy s p, rfl, fun _ => ⟨takeCopy_links, takeCopy_fits⟩⟩
  · exact ⟨takeCancelOp s p, rfl, fun _ => ⟨takeCancelOp_links, .ite .done_nil (.refuse (by decide))⟩⟩
  · exact ⟨takeOffer s p, rfl, fun _ => ⟨takeOffer_links,
      .withWindow fun _ => .ite (.refuse (by decide)) (.ite (.refuse (by decide)) .done_nil)⟩⟩
  · exact ⟨takeAccept s p, rfl, fun _ => ⟨takeAccept_links,
      .withWindow fun _ => .ite (.refuse (by decide)) (.ite (.refuse (by decide)) (.done (by simp [refBytes])))⟩⟩
  · exact ⟨takeDecline s p, rfl, fun _ => ⟨takeDecline_links, .withWindow fun _ => .ite (.refuse (by decide)) .done_nil⟩⟩
  · exact ⟨takeWithdraw s p, rfl, fun _ => ⟨takeWithdraw_links, takeWithdraw_fits⟩⟩
  · exact ⟨takeSetProfile s, rfl, fun _ => ⟨takeSetProfile_links, takeSetProfile_fits⟩⟩
  · exact ⟨takeSwitchProfile s, rfl, fun _ => ⟨takeSwitchProfile_links, takeSwitchProfile_fits⟩⟩
  · exact ⟨takeDisplay s, rfl, fun _ => ⟨takeDisplay_links, takeDisplay_fits⟩⟩
  · exact ⟨takeSetBackground s, rfl, fun _ => ⟨.answer rfl, .done_nil⟩⟩
  · exact ⟨takeSetQuota s, rfl, fun _ => ⟨takeSetQuota_links, .ite (.refuse (by decide)) .done_nil⟩⟩
  · exact ⟨takeSetGrace s, rfl, fun _ => ⟨takeSetGrace_links, .ite (.refuse (by decide)) .done_nil⟩⟩
  · exact ⟨takeRestart s, rfl, fun _ => ⟨takeRestart_links, .done_nil⟩⟩

/-- The response that a verdict gives to a request of this tag (R177). -/
def Verdict.response (v : Verdict) (tag : Byte) : Response :=
  match v with
  | .refuse st => ⟨st, tag, []⟩
  | .answer _ st payload => ⟨st, tag, payload⟩

/-- A verdict that leaves the links makes its port HELD with its response, and nothing else of the links changes (R182). -/
theorem settle_links {s : State} {v : Verdict} (hv : KeepsLinks s v) (p : Port) (tag : Byte) :
    (v.settle s p tag).links = s.links.set p { s.links.get p with phase := .held (v.response tag) } := by
  cases v with
  | refuse st => rfl
  | answer t st payload =>
    have ht : t.links = s.links := hv
    rw [← ht]
    rfl

/-- The command that completes a request in processing settles one verdict, which leaves the links and fits a response (R182, R183). -/
theorem requestCommand_settles {s : State} {p : Port} {r : Request} (h : Processing s p r) :
    ∃ v, exec (requestCommand p r.code) s = .next (v.settle s p r.tag) ∧ KeepsLinks s v ∧ Fits s v := by
  unfold requestCommand
  cases hlookup : (requestTable p).lookup r.code with
  | none => exact ⟨.refuse .badRequest, undefinedRequest_refuses h (lookup_requestTable_eq_none.1 hlookup), .refuse, .refuse (by decide)⟩
  | some c =>
    obtain ⟨before, after, htable, -⟩ := List.lookup_eq_some_iff.1 hlookup
    have hrow : (r.code, c) ∈ requestTable p := htable ▸ List.mem_append_cons_self
    obtain ⟨taken, hexec, htaken⟩ := requestTable_taken hrow s
    exact ⟨evaluate p r taken, hexec.trans (congrArg _ (complete_of_processing taken h)), .evaluate fun ps => (htaken ps).1,
      .evaluate (htaken _).2⟩

/-- Settles O8: the command settles one verdict, whose response the port then holds. -/
theorem everyRequestCompletes : Obligations.EveryRequestCompletes := by
  intro s p r h
  obtain ⟨v, hexec, hlinks, hfits⟩ := requestCommand_settles h
  refine ⟨_, v.response r.tag, hexec, settle_links hlinks p r.tag, ?_⟩
  cases v with
  | refuse st =>
    refine ⟨rfl, ?_, fun _ _ => Nat.zero_le _⟩
    rintro rfl
    exact absurd (show (0x10 : Byte) ≤ Status.notReady.code from hfits) (by decide)
  | answer t st payload =>
    obtain ⟨hst, hpayload⟩ := hfits
    refine ⟨rfl, ?_, hpayload⟩
    rintro rfl
    simp at hst

/-- Settles O9: a verdict with an error status is a refusal, which holds its response on the state as it was. -/
theorem refusedRequestHasNoEffect : Obligations.RefusedRequestHasNoEffect := by
  intro s t p r a h ht hheld hdone haccepted hoverrun
  obtain ⟨v, hexec, hlinks, hfits⟩ := requestCommand_settles h
  obtain rfl : v.settle s p r.tag = t := Host.Outcome.next.inj (hexec.symm.trans ht)
  rw [settle_links hlinks, PerPort.get_set_same] at hheld
  obtain rfl : v.response r.tag = a := LinkPhase.held.inj hheld
  cases v with
  | refuse st => exact ⟨rfl, rfl, hfits⟩
  | answer t st payload =>
    obtain ⟨rfl | rfl | rfl, -⟩ := hfits
    · exact absurd rfl hdone
    · exact absurd rfl haccepted
    · exact absurd rfl hoverrun

/-! ## The links and the queue over a command (O4) -/

/-- What a command makes of the links: it leaves them, or it replaces the link of its own port, where a transaction in progress goes on as it was
unless the command is the release. -/
def LinkChange (c : Instr) (s t : State) : Prop :=
  t.links = s.links ∨ ∃ (p : Port) (l : Link), commandPort c = some p ∧ t.links = s.links.set p l ∧
    ((∀ bits, c ≠ .selectRelease p bits) → (s.links.get p).transaction ≠ none → l.transaction = (s.links.get p).transaction)

section
variable {c : Instr} {s t : State} {p : Port}

theorem linkChange_settle {v : Verdict} (hc : commandPort c = some p) (hv : KeepsLinks s v) (tag : Byte) :
    LinkChange c s (v.settle s p tag) :=
  .inr ⟨p, _, hc, settle_links hv p tag, fun _ _ => rfl⟩

/-- The completion of a request of the table changes its own port's link and leaves the transaction. -/
theorem linkChange_request (hx : ∃ code, (code, c) ∈ requestTable p) (hc : commandPort c = some p) (h : exec c s = .next t) :
    LinkChange c s t := by
  obtain ⟨code, hx⟩ := hx
  obtain ⟨taken, hexec, htaken⟩ := requestTable_taken hx s
  obtain rfl : complete s p code taken = t := Host.Outcome.next.inj (hexec.symm.trans h)
  unfold complete
  split
  · split
    · exact linkChange_settle hc (.evaluate fun ps => (htaken ps).1) _
    · exact .inl rfl
  · exact .inl rfl

theorem linkChange_undefinedRequest (h : exec (.undefinedRequest p) s = .next t) : LinkChange (.undefinedRequest p) s t := by
  have ht := Host.Outcome.next.inj h
  subst ht
  split
  · split
    · exact .inl rfl
    · exact linkChange_settle rfl (.evaluate fun _ => .refuse) _
  · exact .inl rfl

/-- An assertion that begins a transaction finds none in progress (R176). -/
theorem linkChange_selectAssert (s : State) (p : Port) : LinkChange (.selectAssert p) s (selectAssert s p) := by
  by_cases hx : (s.links.get p).transaction = none
  · exact .inr ⟨p, _, rfl, congrArg State.links (selectAssert_of_released hx), fun _ hne => absurd hx hne⟩
  · exact .inl (congrArg State.links (Host.Outcome.next.inj (selectAssert_of_asserted hx)))

end

/-- An event a command names by a handle is made in a slot where it is due, and otherwise nothing happens (log entry 3). -/
theorem links_of_due {s t : State} {n : Nat} {due : Slot → Bool} {event : Slot → State}
    (h : (match slotOfHandle n with | some i => if due i then event i else s | none => s) = t)
    (hev : ∀ i, (event i).links = s.links) : t.links = s.links := by
  subst h
  split
  · split
    · exact hev _
    · rfl
  · rfl

/-- Every command but a hardware reset changes no link but its own port's (R172). -/
theorem exec_linkChange {c : Instr} {s t : State} (h : exec c s = .next t) (hreset : c ≠ .hardwareReset) : LinkChange c s t := by
  cases c
  case hardwareReset => exact absurd rfl hreset
  case selectAssert p => exact Host.Outcome.next.inj h ▸ linkChange_selectAssert s p
  case selectRelease p bits => exact Host.Outcome.next.inj h ▸ .inr ⟨p, _, rfl, rfl, fun hno => absurd rfl (hno bits)⟩
  case undefinedRequest p => exact linkChange_undefinedRequest h
  case operationCompletion =>
    simp only [exec, execOperationCompletion] at h
    split at h
    · split at h
      · exact .inl (by rw [← Host.Outcome.next.inj h, completeOp_frame])
      · cases h
    · exact .inl (congrArg State.links (Host.Outcome.next.inj h).symm)
  case scrubCompletion =>
    simp only [exec, execScrubCompletion] at h
    split at h
    · exact .inl (by rw [← Host.Outcome.next.inj h, completeScrub_frame])
    · exact .inl (congrArg State.links (Host.Outcome.next.inj h).symm)
  case frameBoundary order => exact .inl (Host.Outcome.next.inj h ▸ congrArg Steady.links (frameBoundary_kept order s).1)
  case commitExpiry n => exact .inl (links_of_due (Host.Outcome.next.inj h) fun _ => by rw [expireUnit_frame])
  case lapse n => exact .inl (links_of_due (Host.Outcome.next.inj h) fun _ => by rw [lapseWindow_frame])
  case eviction n => exact .inl (links_of_due (Host.Outcome.next.inj h) fun i => (links_settle _).trans (links_retire _ i .eviction))
  case offerExpiry n => exact .inl (links_of_due (Host.Outcome.next.inj h) fun _ => rfl)
  all_goals exact linkChange_request (by simp [requestTable]) rfl h

/-- No change that a command makes touches the queue of waiting commands. -/
theorem change_pending {s u : State} {q : Option Port} (hc : Change s q u) : u.pending = s.pending := by
  have settle (t : State) : (settleEngine t).pending = t.pending := by rw [settleEngine_frame]
  have retire (t : State) (i : Slot) (c : RetireCause) : (retireWindow t i c).pending = t.pending :=
    congrArg Steady.pending (retireWindow_steady t i c)
  cases hc with
  | detach p => exact congrArg Steady.pending (detachPort_kept s p).1
  | boundary order => exact congrArg Steady.pending (frameBoundary_kept order s).1
  | retire p i => exact (settle _).trans (retire s i _)
  | evict i => exact (settle _).trans (retire _ i .eviction)
  | cancel p hit => rw [settle, cancelOps_frame]
  | restart => rw [restartDevice_eq, settle]
  | accept p i => rw [transferWindow_frame]
  | decline p i => rw [declineOffer_frame]
  | lapse i => rw [lapseWindow_frame]
  | expire i => rw [expireUnit_frame]
  | disarm p i => rw [removeUnit_frame]
  | put => rw [acceptOp_frame]; rfl
  | draw => rw [acceptOp_frame]
  | complete op => rw [completeOp_frame]
  | scrub => rw [completeScrub_frame]
  | keep | reset | link | collect | subscribe | create | query | stage | discard | arm | renew | stream | offer | withdraw | timing
  | quota | grace | offerExpiry => rfl

theorem exec_pending {c : Instr} {s t : State} (h : exec c s = .next t) : t.pending = s.pending := by
  obtain ⟨u, hc, rfl | ⟨q, a, rfl⟩⟩ := exec_change h
  · exact change_pending hc
  · exact (State.hold_pending u q a).trans (change_pending hc)

/-- Settles O4: a command replaces its own port's link or none, and every change it makes leaves the queue. -/
theorem linkBelongsToItsPort : Obligations.LinkBelongsToItsPort := by
  refine fun c s t h => ⟨exec_pending h, fun hreset p => ?_⟩
  obtain hsame | ⟨q, l, hport, hlinks, hgoesOn⟩ := exec_linkChange h hreset
  · rw [hsame]
    exact ⟨fun _ => rfl, fun _ _ => rfl⟩
  rw [hlinks]
  by_cases hp : p = q
  · subst hp
    rw [PerPort.get_set_same]
    exact ⟨fun hother => absurd hport hother, hgoesOn⟩
  · rw [PerPort.get_set_of_ne _ _ hp]
    exact ⟨fun _ => rfl, fun _ _ => rfl⟩

end Sys2Proof.Machine
end
